-- ==== Sys2Proof/Word.lean ====
section
/-! DEFINITION. The word types of the module: bytes, 64-bit words and 32-bit counts (R7: all data is little-endian,
bit 0 is the least significant). -/

namespace Sys2Proof

abbrev Byte := BitVec 8
abbrev Word := BitVec 64
abbrev Count := BitVec 32

end Sys2Proof
end

