-- ==== Sys2Proof/Syntax.lean ====
section
/-! DEFINITION. The commands of the module: one constructor per row of spec/opcode_table.json, in the table's order.
An operand is what comes from outside the module: the place a happening strikes, a value written, a value that a read
over a link brings back, a sample, or the outcome of a physical check. What the module holds itself (the head of an
engine queue, a descriptor's body, an instruction word) is no operand: it lies in the state. -/

namespace Sys2Proof

/-- The reference clocks of Table 19-3. -/
inductive RefClk where
  | tb | fcl | fpl
  deriving DecidableEq, Repr

/-- A submission descriptor: context, ring and count t (R276). -/
structure DRef where
  ctx : Fin 4096
  ring : Fin 4
  idx : BitVec 32
  deriving DecidableEq, Repr

/-- What a KRT lookup finds in the two copies (Table 3-9). -/
inductive KrtLook where
  | agree | badA | badB | differ | bothBad
  deriving DecidableEq, Repr

/-- How a start-up stage ends (Table 16-10): it passes, with the digests its images measure and the units whose test
failed, or it fails with a fail_code. -/
inductive StageResult where
  | pass (digests : List (BitVec 512)) (failed : List (BitVec 16))
  | fail (code : Fin 8)
  deriving DecidableEq, Repr

/-- Lines in error at one read of a traffic generator's run: its pass, block and beat, and the bits of the code word that differ. -/
structure TgNoise where
  pass : BitVec 16
  block : BitVec 24
  beat : Fin 32
  err : BitVec 152
  deriving DecidableEq, Repr

/-- What the channel did to the reads of a traffic generator's run: every read not listed brings back what stands in the channel. -/
structure TgObs where
  noise : List TgNoise := []
  deriving DecidableEq, Repr

/-- What the Serac finds in a staged image (R402, R321): version, rollback value, digest of the whole signed image. -/
structure ImageInfo where
  version : BitVec 64
  rollback : BitVec 8
  digest : BitVec 512
  deriving DecidableEq, Repr

/-- The line of the doorbell page that a snoop names (Table 11-8), other than cq_head. -/
inductive DbLine where
  | sqTail (ring : Fin 4)
  | evtHead
  deriving DecidableEq, Repr

/-- Page sizes of the host (R286). -/
inductive Granule where
  | g4k | g2m | g1g
  deriving DecidableEq, Repr

/-- The host's answer to a translation request. -/
inductive XlRes where
  | granted (g : Granule) (write : Bool)
  | missing
  deriving DecidableEq, Repr

/-- A host address space: physical, or a context's pasid (R270). -/
inductive HostSpace where
  | phys
  | pasid (p : BitVec 20)
  deriving DecidableEq, Repr

/-- A waiting command: the issued body of number i of queue q of a cluster, or a descriptor. -/
inductive WaitRef where
  | body (cl : Fin 64) (q : Fin 7) (i : Nat)
  | desc (d : DRef)
  deriving DecidableEq, Repr

/-- Who waits for a translation: a body or descriptor of a context, or one of its areas (R289): 1 submission ring, 2 completion ring,
3 event ring, 4 doorbell page, 5 interrupt address, 6 mirror words, 7 contract block. -/
inductive XlWho where
  | work (ctx : Fin 4096) (w : WaitRef)
  | area (ctx : Fin 4096) (cause : Nat)
  deriving DecidableEq, Repr

def XlWho.ctx : XlWho → Fin 4096
  | .work c _ => c
  | .area c _ => c

/-- What a SECDED failure of a command's data strikes (Table 15-1, 0x09): the SRAM it was read from, or the bridge its words crossed. -/
inductive CheckPart where
  | inkwell | registerFile | accumulators | chainTable | hubSram
  | bridge (i : Fin 10)
  deriving DecidableEq, Repr

/-- A failed check: mechanism of Table 15-1, what a SECDED failure strikes, failing address and detail of Table 15-3. -/
structure CheckFail where
  mech : BitVec 8
  part : CheckPart := .inkwell
  addr : BitVec 64
  detail : BitVec 64
  deriving DecidableEq, Repr

/-- What a Quill pair finds during an instruction or a placement: nothing, a difference of its comparator, or an uncorrectable word in its
memories (R200, R201). -/
inductive QFault where
  | none | lockstep | memory
  deriving DecidableEq, Repr

/-- The cluster on which a Quill instruction runs, and what its pair finds during it. -/
structure QCtl where
  cl : Fin 64
  differ : QFault
  deriving DecidableEq, Repr

/-- The syndrome of a channel read (Table 10-2): zero, the one symbol in error, or more than that. -/
inductive Syndrome where
  | zero
  | corrected (symbol : Fin 19)
  | uncorrectable
  deriving DecidableEq, Repr

/-- What a channel read brings back: the bits of the code word in error, the block and beat read in place of the ones asked for, and whether
the controller's second syndrome differs (R257). -/
structure ReadObs where
  err : BitVec 152 := 0
  wrong : Option (BitVec 24 × Fin 32) := none
  recompute : Bool := false
  deriving DecidableEq, Repr

/-- Who asked for a channel read (Table 10-3): a data-mover command, a task's long-word stream, a sweep, a rebuild or a staging copy of a KRT
entry, a Thaw command that reads a LUTSET, an insertion pass, the check of a QRUN's plan, a generator, or other hub traffic. -/
inductive Requester where
  | mover (cl : Fin 64) (i : Nat)
  | stream (cl : Fin 64) (place : Fin 8)
  | sweep (slot : Fin 8)
  | rebuild (idx : Fin 131072)
  | stage (idx : Fin 131072)
  | lut (cl : Fin 64) (q : Fin 2) (i : Nat)
  | pass (d : DRef)
  | plan (d : DRef)
  | generator
  | hub
  deriving DecidableEq, Repr

/-- The offset of a management-bus access, the 7-bit address that the transaction is sent to, and whether its packet error code is right (R438). -/
structure SmbOff where
  off : BitVec 32
  target : BitVec 7 := 0x58
  pecOk : Bool := true
  deriving DecidableEq, Repr

/-- What the boot ROM's verification of each bank's images finds (R321, R403). -/
structure BanksOk where
  a : Bool := true
  b : Bool := true
  deriving DecidableEq, Repr

/-- The sensor kinds of Table 16-1 that SENSOR_SAMPLE carries. -/
inductive SensorKind where
  | temp | volt | curr
  deriving DecidableEq, Repr

/-- What a partner opens its exchange with (R330): its device record and alias record (Table 13-1), the nonce over which it wants a report, and
its module ID. -/
structure PeerRecords where
  device : BitVec 4096
  alias_ : BitVec 4096
  nonce : BitVec 512
  partner : BitVec 16
  deriving DecidableEq, Repr

/-- A message of the exchange: the partner's records and nonce, or its report over this module's nonce (Table 13-2). -/
inductive PeerPart where
  | records (r : PeerRecords)
  | report (r : BitVec 8192)
  deriving DecidableEq, Repr

structure PeerMsg where
  port : Fin 2
  part : PeerPart
  deriving DecidableEq, Repr

/-- An uncorrectable word of hub flag state (Table 12-11): its address and the detail of Table 15-3. -/
structure HubEcc where
  addr : BitVec 64
  detail : BitVec 64
  deriving DecidableEq, Repr

/-- A QRUN at the check of its plan, and what each lookup of a KRT entry finds there, where the copies do not agree (R70). -/
structure LookCtl where
  d : DRef
  looks : List (Fin 131072 × KrtLook) := []
  deriving DecidableEq, Repr

/-- A row of the SYNC queue: the held body that it takes, or the head of the queue; and a word of hub flag state that it cannot read. -/
structure HeldCtl where
  held : Option Nat := none
  ecc : Option HubEcc := none
  deriving DecidableEq, Repr

/-- A ring operation of flags and barriers, and a word of hub flag state that it cannot read. -/
structure SyncCtl where
  d : DRef
  ecc : Option HubEcc := none
  deriving DecidableEq, Repr

/-- A peer's release (R312): the root's barrier, and how many arrivals of this module the ended phase counted (log 68). -/
structure PeerRelease where
  bar : Fin 256
  arrivals : Nat
  deriving DecidableEq, Repr

/-- A transfer whose bytes have all moved, or a check of it that fails: a SECDED word, its CRC, or the residue of an addition (R248). -/
structure XferEnd where
  no : Nat
  fail : List CheckFail := []
  deriving DecidableEq, Repr

/-- Whose work a memory request is (Table 10-3): a transfer of the data mover, a long-word stream, a sweep's fragment, the stripes of a KEY_LOAD, a
rebuild's directory slot, a unit of a staging copy, the state records of a context switch, a peer's write, the descriptors of a QRUN's plan, the
directory slot of an entry, or the channel's patrol. -/
inductive MemWho where
  | xfer (cl : Fin 64) (no : Nat)
  | stream (cl : Fin 64) (place : Nat)
  | fragment (slot : Fin 8) (u : Nat)
  | keyLoad (d : DRef)
  | rebuild (idx : Nat)
  | stage (idx u : Nat)
  | switch (part : Nat)
  | peer (no : Nat)
  | plan (d : DRef)
  | slot (idx : Nat)
  | scrub
  deriving DecidableEq, Repr

/-- A round of a channel, and the 64-bit words of the writes that it serves that fail SECDED at the channel's encoder (R257): whose write, and the
word's number in module memory. -/
structure RoundCtl where
  ch : Fin 160
  bad : List (MemWho × Nat) := []
  deriving DecidableEq, Repr

/-- The next block of a cluster's key switch, and the checks of it that fail (R136, R366). -/
structure BlockCtl where
  cl : Fin 64
  fail : List CheckFail := []
  deriving DecidableEq, Repr

/-- How a latent-fault test ends: of a channel, what its two runs meet (R268); of another unit, whether it passes. -/
structure TestResult where
  pass : Bool
  one : TgObs := {}
  two : TgObs := {}
  deriving DecidableEq, Repr

inductive Instr where
  | moduleReset
  | resetDeassert (jcompatN : Bool) (bootSel mgmtAddr : BitVec 2) (bankOk : BanksOk)
  | startupStageEnd (r : StageResult)
  | trialBootTimeout
  | pg48vAssert
  | pg48vDeassert
  | powerOff
  | refclkLockLoss (c : RefClk)
  | smbWindowRead (off : SmbOff) (wide : Bool)
  | smbWindowWrite (off : SmbOff) (wide : Bool) (v : BitVec 64)
  | registerWrite (off : BitVec 32) (wide : Bool) (v : BitVec 64)
  | rcFieldRead (off : BitVec 32) (wide : Bool)
  | go
  | hubStatePoolWrite (v : BitVec 64)
  | hubPartCfgWrite (v : BitVec 32)
  | ctx0Create (readable : Bool)
  | memClassShareWrite (v : BitVec 32)
  | memTgStart (ch : Fin 160) (v : BitVec 32)
  | memTgStop (ch : Fin 160)
  | memTgRunEnd (ch : Fin 160) (obs : TgObs)
  | powerCapWrite (v : BitVec 32)
  | fwStage (slot : BitVec 8) (micro : Bool)
  | fwStageDone (result : Fin 6) (img : ImageInfo)
  | fwActivate
  | fwCommit
  | ctrSelWrite (n : Fin 1216) (v : BitVec 32)
  | freezeSet
  | freezeClear
  | snap
  | snapshotWriteDone
  | doorbellSnoop (ctx : Fin 4096) (line : DbLine) (v : BitVec 32)
  | cqHeadUpdate (ctx : Fin 4096) (v : BitVec 32)
  | descriptorAdmit (ctx : Fin 4096) (ring : Fin 4) (looks : List (Fin 131072 × KrtLook)) (hubDiffer : Bool)
  | krtRebuildEnd (idx : Fin 131072) (checksPass : Bool)
  | recordLostReport (ctx : Fin 4096)
  | translationComplete (pasid : BitVec 20) (va : BitVec 64) (r : XlRes)
  | pageResponse (pasid : BitVec 20) (va : BitVec 64) (r : XlRes)
  | pageFaultTimeout (w : XlWho)
  | translationInvalidate (pasid : BitVec 20) (va : BitVec 64) (len : BitVec 64)
  | abort (d : DRef)
  | ctxCreate (d : DRef) (readable : Bool)
  | ctxUpdate (d : DRef) (readable : Bool)
  | ctxTeardown (d : DRef)
  | teardownComplete (ctx : Fin 4096)
  | keyLoad (d : DRef)
  | keyLoadCopyDone (d : DRef) (fault : Option (BitVec 8 × BitVec 16))
  | keyFree (d : DRef)
  | keyPin (d : DRef)
  | keyUnpin (d : DRef)
  | keyQuery (d : DRef)
  | firnEpoch
  | firnStageDone (idx : Fin 131072)
  | qprogLoad (d : DRef)
  | qrun (d : LookCtl)
  | insertionPass (d : DRef) (fail : List CheckFail)
  | qrunTaskStart (d : DRef)
  | argumentBlockLanded (d : DRef)
  | taskTimeslice (cl : Fin 64)
  | add (q : QCtl)
  | sub (q : QCtl)
  | and (q : QCtl)
  | or (q : QCtl)
  | xor (q : QCtl)
  | shl (q : QCtl)
  | shr (q : QCtl)
  | sra (q : QCtl)
  | mul (q : QCtl)
  | minu (q : QCtl)
  | maxu (q : QCtl)
  | sltu (q : QCtl)
  | addi (q : QCtl)
  | andi (q : QCtl)
  | ori (q : QCtl)
  | shli (q : QCtl)
  | shri (q : QCtl)
  | shori (q : QCtl)
  | ld (q : QCtl)
  | lw (q : QCtl)
  | sd (q : QCtl)
  | sw (q : QCtl)
  | csrr (q : QCtl)
  | beq (q : QCtl)
  | bne (q : QCtl)
  | bltu (q : QCtl)
  | bgeu (q : QCtl)
  | blt (q : QCtl)
  | bge (q : QCtl)
  | jal (q : QCtl)
  | jr (q : QCtl)
  | push (q : QCtl)
  | pushn (q : QCtl)
  | clw (q : QCtl)
  | wait (q : QCtl)
  | yield (q : QCtl)
  | endTask (q : QCtl)
  | nestIssueBody (q : QCtl) (i : Fin 2)
  | longWordPlace (q : QCtl) (place : Fin 8)
  | gsub (cl : Fin 64) (look : KrtLook)
  | gsubPresent (cl : Fin 64) (engine : Fin 3)
  | qgate (cl : Fin 64)
  | flagSet (cl : Fin 64) (h : HeldCtl)
  | flagClear (cl : Fin 64) (h : HeldCtl)
  | flagWait (cl : Fin 64) (h : HeldCtl)
  | barArrive (cl : Fin 64) (h : HeldCtl)
  | syncTimeout (w : WaitRef)
  | flagRequestSnoop (ctx : Fin 4096) (w : Fin 64) (setReq clrReq : BitVec 64)
  | hostFlagSnoop (ctx : Fin 4096) (hf : Fin 256) (v : BitVec 32)
  | syncAlloc (d : SyncCtl)
  | syncFree (d : SyncCtl)
  | flagOp (d : SyncCtl)
  | barConfig (d : SyncCtl)
  | barArriveRing (d : SyncCtl)
  | peerConfig (d : DRef)
  | peerAttestMessage (m : PeerMsg)
  | peerBind (d : DRef)
  | peerBindMatch (d : DRef) (window : BitVec 20)
  | peerBindTimeout (d : DRef)
  | peerBarrierArrival (port : Fin 2) (ctx : Fin 4096) (bar : Fin 256)
  | peerBarrierRelease (port : Fin 2) (bar : PeerRelease)
  | peerWriteReceive (port : Fin 2) (ctx : Fin 4096) (off : BitVec 64) (data : List Byte) (rflag : Option (BitVec 12))
  | peerPortFail (port : Fin 2)
  | nibLdf (cl : Fin 64)
  | nibLdv (cl : Fin 64)
  | nibLdb (cl : Fin 64)
  | nibStf (cl : Fin 64)
  | nibStv (cl : Fin 64)
  | nibInv (cl : Fin 64)
  | nibLoadEnd (cl : Fin 64) (i : Nat)
  | nibMma (cl : Fin 64)
  | nibLin (cl : Fin 64)
  | nibDrain (cl : Fin 64) (fail : List CheckFail)
  | nibKsw (cl : Fin 64)
  | nibKswBlock (k : BlockCtl)
  | thawRefresh (cl : Fin 64) (q : Fin 2)
  | thawGate (cl : Fin 64) (q : Fin 2)
  | thawStep (cl : Fin 64) (engine : Fin 2) (fail : List CheckFail)
  | brMap (cl : Fin 64)
  | brBin (cl : Fin 64)
  | brCmp (cl : Fin 64)
  | brSel (cl : Fin 64)
  | brRed (cl : Fin 64)
  | brSmax (cl : Fin 64)
  | brSmaxTail (cl : Fin 64)
  | brPairupd (cl : Fin 64)
  | brRun (cl : Fin 64)
  | brChainLoad (cl : Fin 64)
  | epilogueInvoke (cl : Fin 64)
  | brCadd (cl : Fin 64)
  | brCsub (cl : Fin 64)
  | brCneg (cl : Fin 64)
  | brPadd (cl : Fin 64)
  | brSmul (cl : Fin 64)
  | brMsw (cl : Fin 64)
  | dmCopy (cl : Fin 64)
  | dmXpose (cl : Fin 64)
  | dmGather (cl : Fin 64)
  | dmScatterAdd (cl : Fin 64)
  | dmFill (cl : Fin 64)
  | dmIcopy (cl : Fin 64)
  | dmPwrite (cl : Fin 64)
  | dmTransferIssue (cl : Fin 64)
  | dmTransferDone (cl : Fin 64) (x : XferEnd)
  | remoteAccessServe (target cl : Fin 64) (i : Nat)
  | engineCommandEnd (cl : Fin 64) (q : Fin 7) (i : Nat) (fail : List CheckFail) (hubDiffer : Bool)
  | sweepStart (idx : Fin 131072) (look : KrtLook)
  | sweepWaitExpiry (idx : Fin 131072)
  | fragmentIssue (slot : Fin 8)
  | fragmentArrive (slot : Fin 8) (cl : Fin 64) (engine : Fin 3) (tag : Option (BitVec 256))
  | memRoundStart (r : RoundCtl)
  | memReadComplete (ch : Fin 160) (block : BitVec 24) (beat : Fin 32) (o : ReadObs) (r : Requester)
  | scrubBurst (ch : Fin 160) (block : BitVec 24) (half : Fin 2) (o : List ReadObs)
  | stackTempSample (stk : Fin 20) (t : BitVec 16)
  | sensorSample (k : SensorKind) (i : Fin 64) (v : BitVec 16)
  | governorDecision (rates : List (BitVec 16))
  | contractWindowEnd (ctx : Fin 4096)
  | voltageChangeDone (die : Fin 4)
  | overcurrentTrip
  | shedRise (lvl : Fin 6)
  | shedFall
  | quantumExpiry (part : Fin 64)
  | parkSwitchTimeout (part : Fin 64)
  | contextSwitchDecide (part : Fin 64)
  | contextSwitchComplete (part : Fin 64)
  | watchdogStall (u : BitVec 16)
  | latentTestDue (u : BitVec 16)
  | latentTestStart (u : BitVec 16)
  | latentTestEnd (u : BitVec 16) (r : TestResult)
  | moraineFlashWrite
  | pkeOperationStart
  | pkeOperationEnd (fault : Bool)
  | pkeWipeEnd (clean : Bool)
  | entropyHealthFail
  | pkeSign (d : DRef)
  | pkeVerify (d : DRef)
  | pkeEcdh (d : DRef)
  | pkeKeygen (d : DRef)
  | pkeHash (d : DRef)
  | pkeMod (d : DRef)
  | attest (d : DRef)
  | sessionOpen (d : DRef)
  | sessionExpiry (ctx : Fin 4096)
  | tenantRegister (d : DRef)
  | tenantRevoke (d : DRef)
  | idRead (d : DRef)
  | linkReadCompletion (sp : HostSpace) (addr : BitVec 64) (data : List Byte)
  | peerBarrierConfirm (port : Fin 2) (d : DRef) (ok : Bool)
  | traceHeadUpdate (v : BitVec 32)
  | traceCtrlWrite (v : BitVec 32)
  | hostLinkRetryExhausted
  | latentTestStepEnd
  | managementImageSet (ok : Bool)
  deriving DecidableEq, Repr

end Sys2Proof
end

