-- ==== Sys2Proof/Config.lean ====
section
/-! DEFINITION. What one module fixes at manufacture (fuses, flash) and the free values: constants without a body,
so that no proof can see what they are. Each is named in notes/assumptions/7.md or the log entry given with it. -/

namespace Sys2Proof.Config

/-- A byte the spec calls undefined: the mixture of old and new data of R12, a work region of R105 or R134, the
engine-state record of R291. The first argument is the state's counter of free values, the second the address. -/
opaque freeByte : Nat → Nat → BitVec 8

/-- What a conversion into E8M0 writes where the spec states no result (R139, log 22): of a value at a tie, which neighbour; of any other,
the byte. It depends on the value alone: its sign, its odd significand and its exponent (R158). -/
opaque scaleByte : Bool → Nat → Int → BitVec 8

/-- A word of the entropy source's DRBG (R340), 512 bits a draw. -/
opaque entropy : Nat → BitVec 512

/-- The per-signature scalar of PKE_SIGN and of the module's own signatures (R336: RFC 6979 with entropy added), before
it is taken into [1, n − 1]. -/
opaque nonce : Nat → Nat

/-- Which of the values within one unit in the last place an FP32 special function's micro-program computes
(R177): 0 the lower neighbour, 1 the upper, 2 and 3 the outer ones where the bound admits them. -/
opaque microPick : Nat → BitVec 32 → Fin 4

/-- The function of a loaded Brush micro-program (R179), by the digest of its image: from the operand's FP32 bits to an FP32 result. -/
opaque loadedFn : BitVec 512 → BitVec 32 → BitVec 32

/-- Whether an issued command is tagged by the random tagging of R414, by the counter of free values. -/
opaque tagDraw : Nat → Nat

/-- The traffic generators' PRBS31 from a seed, beat by beat, and the bit at which their walking ones begin: the spec gives no polynomial, bit
order or start (log 34). -/
opaque prbs31 : BitVec 32 → Nat → BitVec 128
opaque walkFirst : Fin 128

/-- What counters of physical events add between two instants (R409: accesses, flits, waits and busy times in nc; log 11), by the selection, the
place and the two instants. -/
opaque physCount : Nat → Nat → Nat → Nat → BitVec 64

/-- Link-layer retries of a link between two instants (Table 18-6; log 11), and one less than the lanes that the host link trains (log 60). -/
opaque linkRetries : Nat → Nat → Nat → BitVec 32
opaque lanesTrained : Fin 8

/-- The ordering code, serial number, firmware fingerprint and rollback counter are fused (Table 18-4, Table 13-9, Table 16-8). -/
opaque orderCode : BitVec 4
opaque serial : BitVec 64
opaque fwFp : BitVec 128
opaque fusedRollback : BitVec 8

/-- The device identity private key, a scalar of P-521 (R320), and the signature over the device record of module flash (R323). -/
opaque deviceKey : Nat
opaque deviceSigR : BitVec 528
opaque deviceSigS : BitVec 528

/-- The manufacturing public key, whose fingerprint is fused (R320; log 69). -/
opaque mfgKeyX : BitVec 528
opaque mfgKeyY : BitVec 528

end Sys2Proof.Config
end

