-- ==== Sys2Proof/Machine/Bits.lean ====
section
/-! DEFINITION. Bit fields, byte strings and the two kinds of sparse data: byte memories in one canonical form, and
tables by number. All data is little-endian and bit 0 is the least significant (R7). -/

namespace Sys2Proof.Machine

/-- Bits [hi:lo] of a word, as a number. -/
def fld {n : Nat} (b : BitVec n) (hi lo : Nat) : Nat := b.toNat / 2 ^ lo % 2 ^ (hi + 1 - lo)

/-- A word with bits [hi:lo] replaced. -/
def putFld {n : Nat} (b : BitVec n) (hi lo v : Nat) : BitVec n :=
  BitVec.ofNat n (b.toNat - fld b hi lo * 2 ^ lo + v % 2 ^ (hi + 1 - lo) * 2 ^ lo)

/-- Fields packed from bit 0 upwards, each (width, value). -/
def packNat : List (Nat × Nat) → Nat
  | [] => 0
  | (w, v) :: r => v % 2 ^ w + 2 ^ w * packNat r

def boolNat (b : Bool) : Nat := if b then 1 else 0

/-- The signed value of an n-bit number. -/
def signedOf (n v : Nat) : Int := if v % 2 ^ n < 2 ^ (n - 1) then (v % 2 ^ n : Nat) else (v % 2 ^ n : Nat) - (2 ^ n : Nat)

/-- The n-bit two's complement of an integer. -/
def wrapInt (n : Nat) (x : Int) : Nat := (x % (2 ^ n : Nat)).toNat

/-- The low n bytes of a number, least significant first. -/
def leBytes : Nat → Nat → List Byte
  | 0, _ => []
  | n + 1, v => BitVec.ofNat 8 v :: leBytes n (v / 256)

/-- The number that bytes spell, least significant first. -/
def leNat : List Byte → Nat
  | [] => 0
  | b :: r => b.toNat + 256 * leNat r

/-- The number that bytes spell, most significant first (hash inputs and outputs). -/
def beNat (l : List Byte) : Nat := l.foldl (fun a b => a * 256 + b.toNat) 0

def beBytes (n v : Nat) : List Byte := (leBytes n v).reverse

def divUp (a b : Nat) : Nat := (a + b - 1) / b

/-- a rounded up to a multiple of b. -/
def alignUp (a b : Nat) : Nat := divUp a b * b

/-- Byte memory: (address, byte), addresses strictly rising, no byte 0 listed; an unlisted address reads as 0. -/
abbrev Memory := List Host.Cell

namespace Memory

/-- What an unlisted address reads as (logs 5, 6). -/
def unlisted : Byte := 0

/-- Addresses strictly rising from lo on, and no entry equal to what an unlisted address reads as. -/
def wfFrom : Nat → Memory → Bool
  | _, [] => true
  | lo, (a, b) :: r => decide (lo ≤ a) && decide (b ≠ unlisted) && wfFrom (a + 1) r

/-- The canonical form. -/
def wf (m : Memory) : Bool := wfFrom 0 m

def get : Memory → Nat → Byte
  | [], _ => unlisted
  | (a, b) :: r, x => if x = a then b else if x < a then unlisted else get r x

def put : Memory → Nat → Byte → Memory
  | [], x, v => if v = unlisted then [] else [(x, v)]
  | (a, b) :: r, x, v =>
    if x < a then (if v = unlisted then (a, b) :: r else (x, v) :: (a, b) :: r)
    else if x = a then (if v = unlisted then r else (x, v) :: r)
    else (a, b) :: put r x v

/-- n bytes from address a. -/
def read (m : Memory) (a : Nat) : Nat → List Byte
  | 0 => []
  | n + 1 => m.get a :: read m (a + 1) n

/-- Bytes written from address a on. -/
def write (m : Memory) (a : Nat) : List Byte → Memory
  | [] => m
  | b :: r => write (m.put a b) (a + 1) r

/-- A little-endian number of n bytes. -/
def readNat (m : Memory) (a n : Nat) : Nat := leNat (m.read a n)

def writeNat (m : Memory) (a n v : Nat) : Memory := m.write a (leBytes n v)

/-- n bytes from a become undefined: each a free value drawn at k (R12, log 18). -/
def fillFree (m : Memory) (k a : Nat) : Nat → Memory
  | 0 => m
  | n + 1 => fillFree (m.put a (Config.freeByte k a)) k (a + 1) n

/-- n bytes from a become 0. -/
def clear (m : Memory) (a : Nat) : Nat → Memory
  | 0 => m
  | n + 1 => clear (m.put a 0) (a + 1) n

/-- What is listed of n bytes from a. -/
def slice (m : Memory) (a n : Nat) : Memory := m.filter fun c => a ≤ c.1 && c.1 < a + n

/-- n bytes from a become 0, whatever is listed of them. -/
def wipe (m : Memory) (a n : Nat) : Memory := m.filter fun c => !(a ≤ c.1 && c.1 < a + n)

/-- n bytes from `from_` of a memory written to `into` of another. -/
def copyFrom (m src : Memory) (from_ into n : Nat) : Memory :=
  (src.slice from_ n).foldl (fun (m : Memory) c => m.put (c.1 - from_ + into) c.2) (m.wipe into n)

end Memory

/-- Sparse data by number: (number, value), numbers strictly rising. -/
abbrev Table (α : Type) := List (Nat × α)

namespace Table
variable {α : Type}

def find : Table α → Nat → Option α
  | [], _ => none
  | (a, v) :: r, x => if x = a then some v else if x < a then none else find r x

/-- The value at x, or d where none is listed. -/
def get (t : Table α) (d : α) (x : Nat) : α := (t.find x).getD d

def set : Table α → Nat → α → Table α
  | [], x, v => [(x, v)]
  | (a, w) :: r, x, v => if x < a then (x, v) :: (a, w) :: r else if x = a then (x, v) :: r else (a, w) :: set r x v

def erase : Table α → Nat → Table α
  | [], _ => []
  | (a, w) :: r, x => if x = a then r else if x < a then (a, w) :: r else (a, w) :: erase r x

/-- One listed value changed; nothing where none is listed. -/
def upd (t : Table α) (x : Nat) (f : α → α) : Table α :=
  match t.find x with
  | some v => t.set x (f v)
  | none => t

/-- The value at x, listed or d, changed. -/
def updD (t : Table α) (d : α) (x : Nat) (f : α → α) : Table α := t.set x (f (t.get d x))

end Table

/-- One entry of a vector changed. -/
def vupd {α : Type} {n : Nat} (v : Vector α n) (i : Fin n) (f : α → α) : Vector α n := v.set i (f v[i])

/-- The entry of a vector at a number, where it is one of the vector's. -/
def vget? {α : Type} {n : Nat} (v : Vector α n) (i : Nat) : Option α := if h : i < n then some v[i] else none

def vupdNat {α : Type} {n : Nat} (v : Vector α n) (i : Nat) (f : α → α) : Vector α n :=
  if h : i < n then v.set i (f v[i]) else v

/-- The first n numbers, n − 1 last. -/
def upTo (n : Nat) : List Nat := List.range n

/-- The first of n numbers from i on that satisfies p. -/
def firstFrom (p : Nat → Bool) : Nat → Nat → Option Nat
  | 0, _ => none
  | n + 1, i => if p i then some i else firstFrom p n (i + 1)

end Sys2Proof.Machine
end

