-- ==== Sys2Proof/Machine/Crypto.lean ====
section
/-! DEFINITION. The arithmetic of the security block (spec/13): SHA-384 and SHA-512, the curves P-256, P-384 and P-521,
ECDSA, ECDH and the modular operations. The spec names the standards; their constants are taken from them (log 9, PRESUMED). -/

namespace Sys2Proof.Machine.Crypto

/-- Round constants of SHA-512. -/
def roundK0 : List Nat :=
  [0x428A2F98D728AE22, 0x7137449123EF65CD, 0xB5C0FBCFEC4D3B2F, 0xE9B5DBA58189DBBC,
   0x3956C25BF348B538, 0x59F111F1B605D019, 0x923F82A4AF194F9B, 0xAB1C5ED5DA6D8118,
   0xD807AA98A3030242, 0x12835B0145706FBE, 0x243185BE4EE4B28C, 0x550C7DC3D5FFB4E2,
   0x72BE5D74F27B896F, 0x80DEB1FE3B1696B1, 0x9BDC06A725C71235, 0xC19BF174CF692694,
   0xE49B69C19EF14AD2, 0xEFBE4786384F25E3, 0xFC19DC68B8CD5B5, 0x240CA1CC77AC9C65]
def roundK1 : List Nat :=
  [0x2DE92C6F592B0275, 0x4A7484AA6EA6E483, 0x5CB0A9DCBD41FBD4, 0x76F988DA831153B5,
   0x983E5152EE66DFAB, 0xA831C66D2DB43210, 0xB00327C898FB213F, 0xBF597FC7BEEF0EE4,
   0xC6E00BF33DA88FC2, 0xD5A79147930AA725, 0x6CA6351E003826F, 0x142929670A0E6E70,
   0x27B70A8546D22FFC, 0x2E1B21385C26C926, 0x4D2C6DFC5AC42AED, 0x53380D139D95B3DF,
   0x650A73548BAF63DE, 0x766A0ABB3C77B2A8, 0x81C2C92E47EDAEE6, 0x92722C851482353B]
def roundK2 : List Nat :=
  [0xA2BFE8A14CF10364, 0xA81A664BBC423001, 0xC24B8B70D0F89791, 0xC76C51A30654BE30,
   0xD192E819D6EF5218, 0xD69906245565A910, 0xF40E35855771202A, 0x106AA07032BBD1B8,
   0x19A4C116B8D2D0C8, 0x1E376C085141AB53, 0x2748774CDF8EEB99, 0x34B0BCB5E19B48A8,
   0x391C0CB3C5C95A63, 0x4ED8AA4AE3418ACB, 0x5B9CCA4F7763E373, 0x682E6FF3D6B2B8A3,
   0x748F82EE5DEFB2FC, 0x78A5636F43172F60, 0x84C87814A1F0AB72, 0x8CC702081A6439EC]
def roundK3 : List Nat :=
  [0x90BEFFFA23631E28, 0xA4506CEBDE82BDE9, 0xBEF9A3F7B2C67915, 0xC67178F2E372532B,
   0xCA273ECEEA26619C, 0xD186B8C721C0C207, 0xEADA7DD6CDE0EB1E, 0xF57D4F7FEE6ED178,
   0x6F067AA72176FBA, 0xA637DC5A2C898A6, 0x113F9804BEF90DAE, 0x1B710B35131C471B,
   0x28DB77F523047D84, 0x32CAAB7B40C72493, 0x3C9EBE0A15C9BEBC, 0x431D67C49C100D4C,
   0x4CC5D4BECB3E42B6, 0x597F299CFC657E2A, 0x5FCB6FAB3AD6FAEC, 0x6C44198C4A475817]
def roundK : List Nat := roundK0 ++ roundK1 ++ roundK2 ++ roundK3

/-- Initial values of SHA-512 and SHA-384. -/
def init512 : List Nat :=
  [0x6A09E667F3BCC908, 0xBB67AE8584CAA73B, 0x3C6EF372FE94F82B, 0xA54FF53A5F1D36F1,
   0x510E527FADE682D1, 0x9B05688C2B3E6C1F, 0x1F83D9ABFB41BD6B, 0x5BE0CD19137E2179]
def init384 : List Nat :=
  [0xCBBB9D5DC1059ED8, 0x629A292A367CD507, 0x9159015A3070DD17, 0x152FECD8F70E5939,
   0x67332667FFC00B31, 0x8EB44A8768581511, 0xDB0C2E0D64F98FA7, 0x47B5481DBEFA4FA4]

def m64 : Nat := 2 ^ 64
def rotr (n x : Nat) : Nat := x / 2 ^ n + x % 2 ^ n * 2 ^ (64 - n)
def bsig0 (x : Nat) : Nat := Nat.xor (Nat.xor (rotr 28 x) (rotr 34 x)) (rotr 39 x)
def bsig1 (x : Nat) : Nat := Nat.xor (Nat.xor (rotr 14 x) (rotr 18 x)) (rotr 41 x)
def ssig0 (x : Nat) : Nat := Nat.xor (Nat.xor (rotr 1 x) (rotr 8 x)) (x / 2 ^ 7)
def ssig1 (x : Nat) : Nat := Nat.xor (Nat.xor (rotr 19 x) (rotr 61 x)) (x / 2 ^ 6)
def ch (x y z : Nat) : Nat := Nat.xor (Nat.land x y) (Nat.land (m64 - 1 - x) z)
def maj (x y z : Nat) : Nat := Nat.xor (Nat.xor (Nat.land x y) (Nat.land x z)) (Nat.land y z)

/-- The eight words of a hash in progress. -/
structure H8 where
  a : Nat
  b : Nat
  c : Nat
  d : Nat
  e : Nat
  f : Nat
  g : Nat
  h : Nat
  deriving DecidableEq, Repr

def H8.ofList (l : List Nat) : H8 :=
  ⟨l.getD 0 0, l.getD 1 0, l.getD 2 0, l.getD 3 0, l.getD 4 0, l.getD 5 0, l.getD 6 0, l.getD 7 0⟩
def H8.words (s : H8) : List Nat := [s.a, s.b, s.c, s.d, s.e, s.f, s.g, s.h]

def round (s : H8) (kw : Nat × Nat) : H8 :=
  let t1 := s.h + bsig1 s.e + ch s.e s.f s.g + kw.1 + kw.2
  let t2 := bsig0 s.a + maj s.a s.b s.c
  ⟨(t1 + t2) % m64, s.a, s.b, s.c, (s.d + t1) % m64, s.e, s.f, s.g⟩

/-- The message schedule, the latest sixteen words first, by fuel. -/
def schedule : Nat → List Nat → List Nat
  | 0, ws => ws
  | f + 1, ws => schedule f
      ((ssig1 (ws.getD 1 0) + ws.getD 6 0 + ssig0 (ws.getD 14 0) + ws.getD 15 0) % m64 :: ws)

def block (s : H8) (bytes : List Byte) : H8 :=
  let ws := (upTo 16).map fun i => beNat ((bytes.drop (8 * i)).take 8)
  let sched := (schedule 64 ws.reverse).reverse
  let r := (List.zip roundK sched).foldl round s
  H8.ofList (List.zipWith (fun x y => (x + y) % m64) s.words r.words)

def blocks : Nat → H8 → List Byte → H8
  | 0, s, _ => s
  | n + 1, s, l => blocks n (block s (l.take 128)) (l.drop 128)

def pad (l : List Byte) : List Byte :=
  let z := (239 - l.length % 128) % 128
  l ++ [0x80] ++ List.replicate z 0 ++ beBytes 16 (8 * l.length)

def hashFrom (iv : List Nat) (l : List Byte) : List Byte :=
  let p := pad l
  (blocks (p.length / 128) (H8.ofList iv) p).words.flatMap (beBytes 8)

/-- A digest in hash output order. -/
def sha512 (l : List Byte) : List Byte := hashFrom init512 l
def sha384 (l : List Byte) : List Byte := (hashFrom init384 l).take 48

/-- A digest as a 512-bit value, byte 0 lowest. -/
def digest (l : List Byte) : BitVec 512 := BitVec.ofNat 512 (leNat (sha512 l))
def digestBytes (d : BitVec 512) : List Byte := leBytes 64 d.toNat

/-- b^e modulo m, by fuel over the bits of e. -/
def powGo : Nat → Nat → Nat → Nat → Nat → Nat
  | 0, _, _, _, acc => acc
  | f + 1, b, e, m, acc => powGo f (b * b % m) (e / 2) m (if e % 2 = 1 then acc * b % m else acc)

def powMod (b e m : Nat) : Nat := powGo (Nat.log2 e + 1) (b % m) e m (1 % m)

/-- The inverse modulo m by the extended algorithm on (r0, t0), (r1, t1), by fuel; none where there is none. -/
def invGo : Nat → Nat → Int → Nat → Int → Nat → Option Nat
  | 0, _, _, _, _, _ => none
  | f + 1, m, t0, r1, t1, r0 =>
    if r1 = 0 then (if r0 = 1 then some (t0 % (m : Int)).toNat else none)
    else invGo f m t1 (r0 % r1) (t0 - (r0 / r1 : Nat) * t1) r1

def inv (a m : Nat) : Option Nat := invGo (2 * Nat.log2 m + 4) m 0 (a % m) 1 m

/-- A prime curve y² = x³ − 3x + b. -/
structure Curve where
  p : Nat
  b : Nat
  gx : Nat
  gy : Nat
  n : Nat
  /-- Bytes of an operand slot (R336). -/
  slot : Nat
  deriving DecidableEq, Repr

def p256 : Curve where
  p := 0xFFFFFFFF00000001000000000000000000000000FFFFFFFFFFFFFFFFFFFFFFFF
  b := 0x5AC635D8AA3A93E7B3EBBD55769886BC651D06B0CC53B0F63BCE3C3E27D2604B
  gx := 0x6B17D1F2E12C4247F8BCE6E563A440F277037D812DEB33A0F4A13945D898C296
  gy := 0x4FE342E2FE1A7F9B8EE7EB4A7C0F9E162BCE33576B315ECECBB6406837BF51F5
  n := 0xFFFFFFFF00000000FFFFFFFFFFFFFFFFBCE6FAADA7179E84F3B9CAC2FC632551
  slot := 32

def p384 : Curve where
  p := 0xFFFFFFFFFFFFFFFFFFFFFFFFFFFFFFFFFFFFFFFFFFFFFFFFFFFFFFFFFFFFFFFEFFFFFFFF0000000000000000FFFFFFFF
  b := 0xB3312FA7E23EE7E4988E056BE3F82D19181D9C6EFE8141120314088F5013875AC656398D8A2ED19D2A85C8EDD3EC2AEF
  gx := 0xAA87CA22BE8B05378EB1C71EF320AD746E1D3B628BA79B9859F741E082542A385502F25DBF55296C3A545E3872760AB7
  gy := 0x3617DE4A96262C6F5D9E98BF9292DC29F8F41DBD289A147CE9DA3113B5F0B8C00A60B1CE1D7E819D7A431D7C90EA0E5F
  n := 0xFFFFFFFFFFFFFFFFFFFFFFFFFFFFFFFFFFFFFFFFFFFFFFFFC7634D81F4372DDF581A0DB248B0A77AECEC196ACCC52973
  slot := 48

def p521 : Curve where
  p := 0x1FFFFFFFFFFFFFFFFFFFFFFFFFFFFFFFFFFFFFFFFFFFFFFFFFFFFFFFFFFFFFFFFFFFFFFFFFFFFFFFFFFFFFFFFFFFFFFFFFFFFFFFFFFFFFFFFFFFFFFFFFFFFFFFFFF
  b := 0x51953EB9618E1C9A1F929A21A0B68540EEA2DA725B99B315F3B8B489918EF109E156193951EC7E937B1652C0BD3BB1BF073573DF883D2C34F1EF451FD46B503F00
  gx := 0xC6858E06B70404E9CD9E3ECB662395B4429C648139053FB521F828AF606B4D3DBAA14B5E77EFE75928FE1DC127A2FFA8DE3348B3C1856A429BF97E7E31C2E5BD66
  gy := 0x11839296A789A3BC0045C8A5FB42C7D1BD998F54449579B446817AFBD17273E662C97EE72995EF42640C550B9013FAD0761353C7086A272C24088BE94769FD16650
  n := 0x1FFFFFFFFFFFFFFFFFFFFFFFFFFFFFFFFFFFFFFFFFFFFFFFFFFFFFFFFFFFFFFFFFA51868783BF2F966B7FCC0148F709A5D03BB5C9B8899C47AEBB6FB71E91386409
  slot := 72

/-- The curve of an alg code (Table 13-4). -/
def Curve.ofAlg : Nat → Option Curve
  | 1 => some p256 | 2 => some p384 | 3 => some p521 | _ => none

/-- Points: none is the point at infinity. -/
abbrev Pt := Option (Nat × Nat)

def sub (p a b : Nat) : Nat := (a + (p - b % p)) % p

def Curve.onCurve (c : Curve) (x y : Nat) : Bool :=
  x < c.p && y < c.p && y * y % c.p == sub c.p (x * x * x + c.b) (3 * x)

def Curve.add (c : Curve) : Pt → Pt → Pt
  | none, q => q
  | q, none => q
  | some (x1, y1), some (x2, y2) =>
    if x1 = x2 ∧ (y1 + y2) % c.p = 0 then none
    else
      let l := if x1 = x2 then sub c.p (3 * x1 * x1) 3 * powMod (2 * y1) (c.p - 2) c.p % c.p
        else sub c.p y2 y1 * powMod (sub c.p x2 x1) (c.p - 2) c.p % c.p
      let x := sub c.p (l * l) (x1 + x2)
      some (x, sub c.p (l * sub c.p x1 x) y1)

/-- k·P, by fuel over the bits of k. -/
def Curve.mulGo (c : Curve) : Nat → Nat → Pt → Pt → Pt
  | 0, _, _, acc => acc
  | f + 1, k, q, acc => c.mulGo f (k / 2) (c.add q q) (if k % 2 = 1 then c.add acc q else acc)

def Curve.mul (c : Curve) (k : Nat) (q : Pt) : Pt := c.mulGo (Nat.log2 k + 1) k q none
def Curve.g (c : Curve) : Pt := some (c.gx, c.gy)
def Curve.pub (c : Curve) (d : Nat) : Nat × Nat := (c.mul d c.g).getD (0, 0)

/-- The integer that ECDSA takes from a digest: its leftmost min(L, bit length of n) bits (R336). -/
def Curve.digestInt (c : Curve) (d : List Byte) : Nat :=
  let L := 8 * d.length
  let nb := Nat.log2 c.n + 1
  if L ≤ nb then beNat d else beNat d / 2 ^ (L - nb)

/-- A signature with per-signature scalar k, already in [1, n − 1]. -/
def Curve.sign (c : Curve) (d k : Nat) (dig : List Byte) : Nat × Nat :=
  let r := ((c.mul k c.g).getD (0, 0)).1 % c.n
  (r, powMod k (c.n - 2) c.n * (c.digestInt dig + r * d) % c.n)

/-- Whether a signature verifies, on valid inputs. -/
def Curve.verify (c : Curve) (qx qy r s : Nat) (dig : List Byte) : Bool :=
  let w := powMod s (c.n - 2) c.n
  let u1 := c.digestInt dig * w % c.n
  let u2 := r * w % c.n
  match c.add (c.mul u1 c.g) (c.mul u2 (some (qx, qy))) with
  | none => false
  | some (x, _) => x % c.n == r % c.n

def Curve.scalarOk (c : Curve) (k : Nat) : Bool := 1 ≤ k && k < c.n

/-- The fingerprint of a public key: bytes 0 to 15 of SHA-512(x ‖ y), 66 B little-endian each, as a number (R324, R327). -/
def fingerprint (x y : Nat) : BitVec 128 := BitVec.ofNat 128 (leNat ((sha512 (leBytes 66 x ++ leBytes 66 y)).take 16))

/-- The manufacturing root fingerprint that the fuses hold (R320). -/
def mfgFp : BitVec 128 := fingerprint Config.mfgKeyX.toNat Config.mfgKeyY.toNat

/-- A DRBG draw taken into [1, n − 1] (R336, R340). -/
def toScalar (n : Nat) (x : Nat) : Nat := x % (n - 1) + 1

/-! ### Identity records (R323, R324) -/

/-- Bytes 0 to 375 of an identity record (Table 13-1), its signature fields 0. -/
def identityBody (kind boot : Nat) (pub : Nat × Nat) (meas : BitVec 512) (issuer : BitVec 128) : Nat :=
  packNat [(32, 0x44494B41), (16, 1), (8, kind), (8, 0), (64, Config.serial.toNat), (64, boot), (64, 0), (528, pub.1), (528, pub.2), (512, meas.toNat),
    (128, issuer.toNat)]

/-- A record with its signature. -/
def signedRecord (body : Nat) (sig : Nat × Nat) : BitVec 4096 := BitVec.ofNat 4096 (body + 2 ^ 3008 * sig.1 + 2 ^ 3536 * sig.2)

/-- The device record: the device identity public key bound to the serial number, issued by the manufacturing key. -/
def deviceRecord : BitVec 4096 :=
  signedRecord (identityBody 1 0 (p521.pub Config.deviceKey) 0 mfgFp) (Config.deviceSigR.toNat, Config.deviceSigS.toNat)

/-- A record's subject public key. -/
def recordKey (r : BitVec 4096) : Nat × Nat := (fld r 783 256, fld r 1311 784)

/-- An identity record of a kind is issued by a key: its form, its issuer_fp, and its signature over bytes 0 to 375 (R324). -/
def recordOk (r : BitVec 4096) (kind : Nat) (issuer : Nat × Nat) : Bool :=
  let sr := fld r 3535 3008
  let ss := fld r 4063 3536
  fld r 31 0 == 0x44494B41 && fld r 47 32 == 1 && fld r 55 48 == kind && fld r 1951 1824 == (fingerprint issuer.1 issuer.2).toNat &&
  p521.onCurve issuer.1 issuer.2 && p521.scalarOk sr && p521.scalarOk ss && p521.verify issuer.1 issuer.2 sr ss (sha512 (leBytes 376 r.toNat))

/-- A report verifies under an alias key over bytes 0x000 to 0x36F (R325), and carries the nonce. -/
def reportOk (r : BitVec 8192) (key : Nat × Nat) (nonce : BitVec 512) : Bool :=
  let sr := fld r 7567 7040
  let ss := fld r 8143 7616
  fld r 31 0 == 0x50524B41 && fld r 47 32 == 1 && fld r 55 48 == 3 && fld r 1023 512 == nonce.toNat &&
  p521.onCurve key.1 key.2 && p521.scalarOk sr && p521.scalarOk ss && p521.verify key.1 key.2 sr ss (sha512 (leBytes 880 r.toNat))

/-- A partner's chain in the order of R325: the device record under the manufacturing key that the fused fingerprint names, the alias record
under the device key, the report under the alias key with the expected nonce. -/
def chainOk (device alias_ : BitVec 4096) (report : BitVec 8192) (nonce : BitVec 512) : Bool :=
  recordOk device 1 (Config.mfgKeyX.toNat, Config.mfgKeyY.toNat) && recordOk alias_ 2 (recordKey device) &&
  reportOk report (recordKey alias_) nonce

/-- M0 to M3 of a report. -/
def reportMeas (r : BitVec 8192) : List (BitVec 512) := (upTo 4).map fun i => BitVec.ofNat 512 (fld r (3071 + 512 * i) (2560 + 512 * i))

/-! ### CRC-32 -/

/-- One byte into a CRC-32 register. -/
def crcByte (c : Nat) (b : Byte) : Nat :=
  (upTo 8).foldl (fun (c : Nat) _ => if c % 2 = 1 then Nat.xor (c / 2) 0xEDB88320 else c / 2) (Nat.xor c b.toNat)
/-- CRC-32 with the IEEE 802.3 polynomial. -/
def crc32 (l : List Byte) : Nat := Nat.xor (l.foldl crcByte 0xFFFFFFFF) 0xFFFFFFFF

end Sys2Proof.Machine.Crypto
end

