-- ==== Sys2Proof/Machine/Params.lean ====
section
/-! DEFINITION. The codes and constants of the spec's tables: status codes (Table 0-4), queue classes (Table 11-2),
parameter families (Tables 2-1, 2-2, 2-7, 4-6), layouts (Table 2-4), and the arithmetic of bounds (R39, R40). -/

namespace Sys2Proof.Machine

/-- Status codes of Table 0-4. -/
inductive Status where
  | ok | malformed | shapeMismatch | permission | keyMismatch | keyNotResident | keyCorrupt | noiseExhausted
  | carryExceeded | paramUnsupported | translationError | timeout | inputInvalid | faultDetected | unitFenced
  | shed | aborted
  deriving DecidableEq, Repr

/-- The 8-bit code of a status (Table 0-4). -/
def Status.code : Status → Nat
  | .ok => 0x00 | .malformed => 0x10 | .shapeMismatch => 0x11 | .permission => 0x12
  | .keyMismatch => 0x20 | .keyNotResident => 0x21 | .keyCorrupt => 0x22 | .noiseExhausted => 0x23
  | .carryExceeded => 0x24 | .paramUnsupported => 0x25 | .translationError => 0x30 | .timeout => 0x31
  | .inputInvalid => 0x40 | .faultDetected => 0x50 | .unitFenced => 0x51 | .shed => 0x52 | .aborted => 0x60

/-- The precedence number of a cause (Table 0-4); OK has none and stands after every cause. -/
def Status.prec : Status → Nat
  | .faultDetected => 1 | .aborted => 2 | .malformed => 3 | .permission => 4 | .paramUnsupported => 5
  | .shapeMismatch => 6 | .unitFenced => 7 | .shed => 8 | .translationError => 9 | .keyNotResident => 10
  | .keyCorrupt => 11 | .keyMismatch => 12 | .carryExceeded => 13 | .noiseExhausted => 14
  | .inputInvalid => 15 | .timeout => 16 | .ok => 17

/-- Of two causes, the one with the lower precedence number (R11). -/
def Status.worse (a b : Status) : Status := if a.prec ≤ b.prec then a else b

/-- The status posted for a list of causes (R11): OK when there is none. -/
def Status.pick (causes : List Status) : Status := causes.foldl Status.worse .ok

/-- The causes whose conditions hold. -/
def causesOf (l : List (Bool × Status)) : List Status := (l.filter (·.1)).map (·.2)

/-- Queue classes of Table 11-2. -/
inductive QClass where
  | clear | encNative | encJasil | gate | pke | admin
  deriving DecidableEq, Repr

def QClass.ofCode : Nat → Option QClass
  | 1 => some .clear | 2 => some .encNative | 3 => some .encJasil | 4 => some .gate | 5 => some .pke | 6 => some .admin
  | _ => none

/-- Parameter families of Table 2-1. -/
inductive Family where
  | P1 | P2 | P3 | P4 | P5 | P6 | J1 | J2 | J3 | J4
  deriving DecidableEq, Repr

namespace Family

def ofId : Nat → Option Family
  | 0x01 => some P1 | 0x02 => some P2 | 0x03 => some P3 | 0x04 => some P4 | 0x05 => some P5 | 0x06 => some P6
  | 0x81 => some J1 | 0x82 => some J2 | 0x83 => some J3 | 0x84 => some J4 | _ => none

def id : Family → Nat
  | P1 => 0x01 | P2 => 0x02 | P3 => 0x03 | P4 => 0x04 | P5 => 0x05 | P6 => 0x06
  | J1 => 0x81 | J2 => 0x82 | J3 => 0x83 | J4 => 0x84

/-- A J-family computes modulo 2^64 (R25). -/
def isJ : Family → Bool
  | J1 | J2 | J3 | J4 => true | _ => false

/-- Plaintext bits m. -/
def m : Family → Nat
  | P1 | J1 => 1 | P2 | J2 => 2 | P3 | J3 => 3 | P4 | J4 => 4 | P5 => 5 | P6 => 6

/-- LWE dimension n. -/
def lweDim : Family → Nat
  | P1 => 630 | P2 => 750 | P3 => 840 | P4 => 900 | P5 => 960 | P6 => 1020
  | J1 => 630 | J2 => 720 | J3 => 800 | J4 => 880

/-- log2 of the ring dimension N; k is 1 in every family. -/
def logN : Family → Nat
  | P1 | P2 | J1 | J2 => 10 | P3 | P4 | J3 | J4 => 11 | P5 => 12 | P6 => 13

def ring (f : Family) : Nat := 2 ^ f.logN

/-- Bootstrap levels ℓ. -/
def lev : Family → Nat
  | P1 => 2 | P2 | P3 | P4 => 1 | P5 | P6 => 2 | J1 => 3 | J2 | J3 | J4 => 2

/-- log2 of the bootstrap base. -/
def beta : Family → Nat
  | P1 => 15 | P2 | P3 => 23 | P4 => 22 | P5 => 16 | P6 => 15 | J1 => 7 | J2 | J3 => 15 | J4 => 16

/-- Key-switch levels; the base is 2^4. -/
def ksLev : Family → Nat
  | P1 | P2 => 4 | P3 | P4 => 5 | P5 | P6 => 6 | J1 | J2 | J3 | J4 => 5

/-- Grouping g. -/
def grouping : Family → Nat
  | P1 => 2 | P2 | P3 | P4 | P5 | P6 => 3 | J1 | J2 | J3 | J4 => 1

/-- Blind-rotation steps n / g. -/
def steps (f : Family) : Nat := f.lweDim / f.grouping

/-- GGSW ciphertexts of one step. -/
def ggswPerStep (f : Family) : Nat := 2 ^ f.grouping - 1

/-- Bytes of one GGSW ciphertext, 8·(k+1)²·ℓ·N (Table 2-2). -/
def ggswBytes (f : Family) : Nat := 32 * f.lev * f.ring

/-- Bytes of the key of one step. -/
def stepBytes (f : Family) : Nat := f.ggswPerStep * f.ggswBytes

/-- Bytes of the bootstrapping key (Table 2-2). -/
def bskBytes (f : Family) : Nat := f.steps * f.stepBytes

/-- Bytes of the key-switching key, 8·kN·ℓ_ks·(n+1) (Table 2-2). -/
def kskBytes (f : Family) : Nat := 8 * f.ring * f.ksLev * (f.lweDim + 1)

/-- Key window W of Table 4-6: two steps, and for a J-family three transformed pieces more. -/
def windowBytes (f : Family) : Nat := (if f.isJ then 5 else 2) * f.stepBytes

/-- Accumulator bytes A of Table 4-6. -/
def accBytes (f : Family) : Nat := 16 * f.ring

/-- The modulus Q of R24 and R25. -/
def modulus (f : Family) : Nat := if f.isJ then 2 ^ 64 else 2 ^ 64 - 2 ^ 32 + 1

/-- The noise constants of Table 2-7. -/
def limit (f : Family) : Nat := 1892 - 32 * f.m
def nRef : Family → Nat
  | P1 => 1392 | P2 | P3 | P4 => 1376 | P5 => 1344 | P6 => 1328 | J1 => 1408 | J2 | J3 | J4 => 1392
def nKs : Family → Nat
  | P1 | P2 | J1 | J2 => 1623 | P3 | P4 | J3 | J4 => 1520 | P5 | P6 => 1456
def nMs : Family → Nat
  | P1 => 1756 | P2 => 1760 | P3 => 1731 | P4 => 1732 | P5 => 1702 | P6 => 1671
  | J1 => 1756 | J2 => 1759 | J3 => 1729 | J4 => 1732

/-- Families accepted per queue class (Table 2-3). -/
def allowed (f : Family) : QClass → Bool
  | .encNative => !f.isJ
  | .encJasil => f.isJ
  | .gate => f == .P1
  | _ => false

end Family

/-- The prime of the native families. -/
def q64 : Nat := 2 ^ 64 - 2 ^ 32 + 1

/-- Ciphertext layouts of Table 2-4. -/
inductive Layout where
  | big | small | ms
  deriving DecidableEq, Repr

namespace Layout

def ofCode : Nat → Option Layout
  | 1 => some big | 2 => some small | 3 => some ms | _ => none

def code : Layout → Nat
  | big => 1 | small => 2 | ms => 3

/-- Coefficients of one ciphertext, body included. -/
def coeffs : Layout → Family → Nat
  | big, f => f.ring + 1
  | small, f => f.lweDim + 1
  | ms, f => f.lweDim + 1

def elemBytes : Layout → Nat
  | big => 8 | small => 8 | ms => 2

/-- Bytes per ciphertext. -/
def bytes (l : Layout) (f : Family) : Nat := l.elemBytes * l.coeffs f

end Layout

/-- The increment T of Table 2-6. -/
def lseT (d : Nat) : Nat :=
  if d ≤ 2 then 16 else if d ≤ 4 then 15 else if d ≤ 6 then 14 else if d ≤ 8 then 13
  else if d ≤ 11 then 12 else if d ≤ 14 then 11 else if d ≤ 17 then 10 else if d ≤ 20 then 9
  else if d ≤ 23 then 8 else if d ≤ 28 then 7 else if d ≤ 32 then 6 else if d ≤ 38 then 5
  else if d ≤ 45 then 4 else if d ≤ 55 then 3 else if d ≤ 71 then 2 else 1

/-- lse of two noise bounds (R39). -/
def lse (a b : Nat) : Nat := max a b + lseT (max a b - min a b)

/-- V(x): the least v ≥ 0 with 2^(v/16) ≥ x, that is 2^v ≥ x^16 (R40). -/
def vBound (x : Nat) : Nat := if x ≤ 1 then 0 else Nat.log2 (x ^ 16 - 1) + 1

/-- Partition counts by code (Table 11-2). -/
def partCount : Nat → Option Nat
  | 0 => some 1 | 1 => some 2 | 2 => some 4 | 3 => some 8 | 4 => some 16 | 5 => some 64 | _ => none

/-- Key kinds of Table 3-1. -/
def kindBSK : Nat := 1
def kindGBSK : Nat := 2
def kindKSK : Nat := 3
def kindLUT : Nat := 4

/-- Entry states of Table 3-8. -/
def stFREE : Nat := 0
def stLOADING : Nat := 1
def stVERIFYING : Nat := 2
def stRESIDENT : Nat := 3
def stEVICTING : Nat := 4
def stQUARANTINED : Nat := 5

end Sys2Proof.Machine
end

