-- ==== Sys2Proof/Machine/Numeric.lean ====
section
/-! DEFINITION. Clear-mode numbers: formats and their encodings (R139 to R143), rounding and conversion (R144 to R149),
maximum and minimum (R150), IEEE special values (R151), saturation, overflow and flushing (R152 to R154), the reference
accumulator and order (R156, R157), Jasil chunk sums (R160) and error-compensating pairs (R162, R164).
A value is exact: no rounding happens but where a definition says so. -/

namespace Sys2Proof.Machine

/-- An exact value: NaN, an infinity, or (−1)^neg · m · 2^e. -/
inductive FVal where
  | nan
  | inf (neg : Bool)
  | fin (neg : Bool) (m : Nat) (e : Int)
  deriving DecidableEq, Repr

namespace FVal

def zero (neg : Bool) : FVal := .fin neg 0 0
def one : FVal := .fin false 1 0
def ofInt (x : Int) : FVal := .fin (decide (x < 0)) x.natAbs 0

/-- ±2^e. -/
def pow2 (neg : Bool) (e : Int) : FVal := .fin neg 1 e

def isNan : FVal → Bool
  | .nan => true
  | _ => false
def isInf : FVal → Bool
  | .inf _ => true
  | _ => false
def isZero : FVal → Bool
  | .fin _ 0 _ => true
  | _ => false

def sign : FVal → Bool
  | .nan => false
  | .inf s => s
  | .fin s _ _ => s

def neg : FVal → FVal
  | .nan => .nan
  | .inf s => .inf (!s)
  | .fin s m e => .fin (!s) m e

def abs : FVal → FVal
  | .nan => .nan
  | .inf _ => .inf false
  | .fin _ m e => .fin false m e

/-- The signed integer that a finite value is at scale 2^e0, for e0 not above its exponent. -/
def scaled (neg : Bool) (m : Nat) (e e0 : Int) : Int :=
  let v : Nat := m * 2 ^ (e - e0).toNat
  if neg then -(v : Int) else v

/-- The finite value of an integer at scale 2^e; zero is +0. -/
def ofScaled (x : Int) (e : Int) : FVal := .fin (decide (x < 0)) x.natAbs e

/-- Exact sum, special values by R151. -/
def add : FVal → FVal → FVal
  | .nan, _ => .nan
  | _, .nan => .nan
  | .inf a, .inf b => if a = b then .inf a else .nan
  | .inf a, .fin _ _ _ => .inf a
  | .fin _ _ _, .inf b => .inf b
  | .fin a m e, .fin b n f =>
    if m = 0 ∧ n = 0 then zero (a && b)
    else if m = 0 then .fin b n f
    else if n = 0 then .fin a m e
    else
      let e0 := min e f
      ofScaled (scaled a m e e0 + scaled b n f e0) e0

def sub (a b : FVal) : FVal := a.add b.neg

/-- Exact product, special values by R151. -/
def mul : FVal → FVal → FVal
  | .nan, _ => .nan
  | _, .nan => .nan
  | .inf a, .inf b => .inf (a != b)
  | .inf a, .fin b n _ => if n = 0 then .nan else .inf (a != b)
  | .fin a m _, .inf b => if m = 0 then .nan else .inf (a != b)
  | .fin a m e, .fin b n f => .fin (a != b) (m * n) (e + f)

/-- a < b as real numbers (−0 equals +0); false when either is NaN. -/
def lt : FVal → FVal → Bool
  | .nan, _ => false
  | _, .nan => false
  | .inf a, .inf b => a && !b
  | .inf a, .fin _ _ _ => a
  | .fin _ _ _, .inf b => !b
  | .fin a m e, .fin b n f =>
    let e0 := min e f
    decide (scaled a m e e0 < scaled b n f e0)

/-- a = b as real numbers; false when either is NaN. -/
def eqv (a b : FVal) : Bool := !a.isNan && !b.isNan && !(a.lt b) && !(b.lt a)

/-- Maximum by R150: a NaN operand is ignored, −0 orders below +0. -/
def max (a b : FVal) : FVal :=
  match a, b with
  | .nan, b => b
  | a, .nan => a
  | a, b => if a.lt b then b else if b.lt a then a else if a.sign then b else a

/-- Minimum by R150. -/
def min (a b : FVal) : FVal :=
  match a, b with
  | .nan, b => b
  | a, .nan => a
  | a, b => if a.lt b then a else if b.lt a then b else if a.sign then a else b

/-- The exponent of the leading bit of a finite non-zero value m·2^e. -/
def msb (m : Nat) (e : Int) : Int := (Nat.log2 m : Int) + e

end FVal

/-- How a conversion rounds (R145, R146): to nearest-even, or stochastically with the element's 16-bit random number. -/
inductive RMode where
  | rne
  | stoch (r : Nat)
  deriving DecidableEq, Repr

/-- m·2^e rounded to a multiple of 2^q (R145, R146), as the multiple. -/
def roundAt (md : RMode) (m : Nat) (e q : Int) : Nat :=
  if q ≤ e then m * 2 ^ (e - q).toNat
  else
    let d := (q - e).toNat
    let a := m / 2 ^ d
    let rem := m % 2 ^ d
    match md with
    | .rne =>
      if 2 * rem > 2 ^ d ∨ (2 * rem = 2 ^ d ∧ a % 2 = 1) then a + 1 else a
    | .stoch r => if rem * 2 ^ 16 / 2 ^ d + r ≥ 2 ^ 16 then a + 1 else a

/-- Rounding to p significant bits, with spacing no finer than 2^emin where one is given and an exponent unbounded above. -/
def roundSig (md : RMode) (p : Nat) (emin : Option Int) : FVal → FVal
  | .fin s m e =>
    if m = 0 then .fin s 0 0
    else
      let q0 := FVal.msb m e - (p : Int) + 1
      let q := match emin with
        | some x => max q0 x
        | none => q0
      .fin s (roundAt md m e q) q
  | v => v

/-- A value rounded to the reference accumulator: 48 significand bits, no bound on the exponent (R156). -/
def roundRA : FVal → FVal := roundSig .rne 48 none

/-- Encoding of a binary floating-point format (Table 6-2). -/
structure FloatFmt where
  eb : Nat
  mb : Nat
  bias : Nat
  /-- The code of the largest finite value. -/
  maxCode : Nat
  hasInf : Bool
  /-- The canonical NaN, where the format has one. -/
  nan : Option Nat
  deriving DecidableEq, Repr

/-- What a format code of Table 6-1 stands for. -/
inductive Fmt where
  | float (f : FloatFmt)
  | int (bits : Nat)
  | ternary
  | vec64
  | pair
  | e8m0
  deriving DecidableEq, Repr

def fpE2M1 : FloatFmt := ⟨2, 1, 1, 0x7, false, none⟩
def fpE2M3 : FloatFmt := ⟨2, 3, 1, 0x1F, false, none⟩
def fpE3M2 : FloatFmt := ⟨3, 2, 3, 0x1F, false, none⟩
def fpE4M3 : FloatFmt := ⟨4, 3, 7, 0x7E, false, some 0x7F⟩
def fpE5M2 : FloatFmt := ⟨5, 2, 15, 0x7B, true, some 0x7E⟩
def fpBF16 : FloatFmt := ⟨8, 7, 127, 0x7F7F, true, some 0x7FC0⟩
def fpFP16 : FloatFmt := ⟨5, 10, 15, 0x7BFF, true, some 0x7E00⟩
def fpFP32 : FloatFmt := ⟨8, 23, 127, 0x7F7F_FFFF, true, some 0x7FC0_0000⟩

/-- The format of a 5-bit code (Table 6-1, Table 5-7). -/
def Fmt.ofCode : Nat → Option Fmt
  | 0x01 => some (.float fpE2M1) | 0x02 => some (.float fpE2M3) | 0x03 => some (.float fpE3M2)
  | 0x04 => some (.float fpE4M3) | 0x05 => some (.float fpE5M2) | 0x06 => some (.int 4) | 0x07 => some (.int 2)
  | 0x08 => some .ternary | 0x09 => some (.float fpBF16) | 0x0A => some (.float fpFP16) | 0x0B => some (.float fpFP32)
  | 0x0C => some .vec64 | 0x0D => some (.int 8) | 0x0E => some (.int 16) | 0x0F => some (.int 32)
  | 0x10 => some .pair | 0x11 => some .e8m0 | _ => none

/-- The width in bits of an element, by format code (Tables 5-7, 6-1). -/
def fmtBits : Nat → Nat
  | 0x01 => 4 | 0x02 => 6 | 0x03 => 6 | 0x04 => 8 | 0x05 => 8 | 0x06 => 4 | 0x07 => 2 | 0x08 => 2 | 0x09 => 16
  | 0x0A => 16 | 0x0B => 32 | 0x0C => 64 | 0x0D => 8 | 0x0E => 16 | 0x0F => 32 | 0x10 => 64 | 0x11 => 8 | _ => 0

/-- Formats with a block scale per 32 elements (Table 5-7). -/
def fmtScaled (c : Nat) : Bool := 1 ≤ c && c ≤ 5

/-- Float formats of 32 bits or fewer. -/
def fmtIsFloat (c : Nat) : Bool := (1 ≤ c && c ≤ 5) || (9 ≤ c && c ≤ 0xB)

/-- The value that a code of a float format spells (R140). -/
def FloatFmt.value (f : FloatFmt) (c : Nat) : FVal :=
  let s := c / 2 ^ (f.eb + f.mb) % 2 = 1
  let e := c / 2 ^ f.mb % 2 ^ f.eb
  let m := c % 2 ^ f.mb
  let mag := c % 2 ^ (f.eb + f.mb)
  if mag ≤ f.maxCode then
    if e = 0 then .fin s m (1 - (f.bias : Int) - f.mb)
    else .fin s (2 ^ f.mb + m) ((e : Int) - f.bias - f.mb)
  else if f.hasInf && m = 0 then .inf s else .nan

/-- The exponent of the finest spacing of a float format. -/
def FloatFmt.emin (f : FloatFmt) : Int := 1 - (f.bias : Int) - f.mb

/-- The code of a value that the float format represents exactly (finite, magnitude at most the largest finite). -/
def FloatFmt.code (f : FloatFmt) (s : Bool) (m : Nat) (e : Int) : Nat :=
  let sgn := boolNat s * 2 ^ (f.eb + f.mb)
  if m = 0 then sgn
  else
    let ex := FVal.msb m e
    if ex < 1 - (f.bias : Int) then sgn + roundAt .rne m e f.emin
    else sgn + (ex + f.bias).toNat * 2 ^ f.mb + (roundAt .rne m e (ex - f.mb) - 2 ^ f.mb)

/-- The value of one block scale byte (R142). -/
def scaleVal (s : Nat) : FVal := if s = 0xFF then .nan else FVal.pow2 false ((s : Int) - 127)

/-- The value of FP32 bits. -/
def f32Val (c : Nat) : FVal := fpFP32.value c

/-- Numeric modes of a context that conversions follow. -/
structure NumEnv where
  stoch : Bool := false
  seed : Nat := 0
  flush : Bool := false
  saturate : Bool := false
  jasil : Bool := false
  deriving DecidableEq, Repr

/-- The random number of an element (R147). -/
def rand16 (seed rs index : Nat) : Nat :=
  let M := 2 ^ 64
  let x := (seed + rs * 2 ^ 40 + index) % M
  let z := (Nat.xor x (x / 2 ^ 30)) * 0xBF58_476D_1CE4_E5B9 % M
  let z := (Nat.xor z (z / 2 ^ 27)) * 0x94D0_49BB_1331_11EB % M
  let z := Nat.xor z (z / 2 ^ 31)
  z / 2 ^ 48

/-- What a command counts: saturations (R152), overflows of wide destinations (R153), flushes (R154). -/
structure Events where
  sat : Nat := 0
  wide : Nat := 0
  flush : Bool := false
  deriving DecidableEq, Repr

def Events.add (a b : Events) : Events := ⟨a.sat + b.sat, a.wide + b.wide, a.flush || b.flush⟩

/-- A result with what it counted. -/
structure Conv where
  code : Nat
  ev : Events := {}
  deriving DecidableEq, Repr

/-- How an element rounds: stochastically only under that mode, native numerics and a destination other than FP32 and FP32X2
(R146, R160). -/
def NumEnv.mode (n : NumEnv) (rs index : Nat) (fmtCode : Nat) : RMode :=
  if n.stoch && !n.jasil && fmtCode != 0x0B && fmtCode != 0x10 then .stoch (rand16 n.seed rs index) else .rne

/-- Conversion into a float format without block scale (R145, R146, R149, R152 to R154). `wide` says 16 bits or more. -/
def convFloat (n : NumEnv) (md : RMode) (f : FloatFmt) (wide : Bool) (v : FVal) : Conv :=
  match v with
  | .nan => match f.nan with
    | some c => ⟨c, {}⟩
    | none => ⟨0, { sat := 1 }⟩
  | .inf s =>
    let sgn := boolNat s * 2 ^ (f.eb + f.mb)
    if wide then ⟨sgn + (2 ^ f.eb - 1) * 2 ^ f.mb, {}⟩ else ⟨sgn + f.maxCode, { sat := 1 }⟩
  | .fin s m e =>
    let sgn := boolNat s * 2 ^ (f.eb + f.mb)
    match roundSig md (f.mb + 1) (some f.emin) (.fin s m e) with
    | .fin _ m' e' =>
      if (f.value f.maxCode).lt (.fin false m' e') then
        if wide then
          (if n.saturate then ⟨sgn + f.maxCode, { wide := 1 }⟩ else ⟨sgn + (2 ^ f.eb - 1) * 2 ^ f.mb, { wide := 1 }⟩)
        else ⟨sgn + f.maxCode, { sat := 1 }⟩
      else if wide && n.flush && m' != 0 && (FVal.fin false m' e').lt (FVal.pow2 false (1 - (f.bias : Int))) then
        ⟨sgn, { flush := true }⟩
      else ⟨f.code s m' e', {}⟩
    | _ => ⟨sgn, {}⟩

/-- Conversion into a two's complement format from lo to hi (R141, R149, R152, R153). DESIGN CHOICE: what lies below the range becomes the
lowest code, -128 in INT8, which R141 lets the format hold (log 76). -/
def convInt (md : RMode) (bits : Nat) (lo hi : Int) (v : FVal) : Conv :=
  let ev : Events := if bits ≥ 16 then { wide := 1 } else { sat := 1 }
  match v with
  | .nan => ⟨0, ev⟩
  | .inf s => ⟨wrapInt bits (if s then lo else hi), ev⟩
  | .fin s m e =>
    let mag : Int := roundAt md m e 0
    let x := if s then -mag else mag
    if x < lo then ⟨wrapInt bits lo, ev⟩ else if hi < x then ⟨wrapInt bits hi, ev⟩ else ⟨wrapInt bits x, {}⟩

/-- FP32 nearest-even of an exact value, without counting, overflow to infinity: the fp32() of R181 and the arithmetic of
R164 (log 21). -/
def fp32 (v : FVal) : FVal := f32Val (convFloat {} .rne fpFP32 true v).code

/-- The same under the context's overflow mode, an overflow counted (R153). -/
def fp32O (n : NumEnv) (v : FVal) : FVal × Events :=
  let c := convFloat { n with flush := false } .rne fpFP32 true v
  (f32Val c.code, c.ev)

/-- The same under the context's subnormal mode (log 21). -/
def fp32F (n : NumEnv) (v : FVal) : FVal × Events :=
  let c := convFloat { n with saturate := false } .rne fpFP32 true v
  (f32Val c.code, { flush := c.ev.flush })

/-- The pair (hi, lo) of a value: hi nearest, lo the rest (R162). -/
def convPair (n : NumEnv) (v : FVal) : Conv :=
  let h := convFloat n .rne fpFP32 true v
  match f32Val h.code with
  | .fin s m e =>
    if h.ev.wide = 1 then ⟨h.code, h.ev⟩
    else
      let l := convFloat n .rne fpFP32 true (v.sub (.fin s m e))
      ⟨h.code + l.code * 2 ^ 32, h.ev.add l.ev⟩
  | _ => ⟨h.code, h.ev⟩

/-- The odd part of a significand and the exponent that goes with it, by fuel; zero as (0, 0). -/
def oddPart : Nat → Nat → Int → Nat × Int
  | 0, m, e => (m, e)
  | f + 1, m, e => if m = 0 then (0, 0) else if m % 2 = 0 then oddPart f (m / 2) (e + 1) else (m, e)

/-- The free byte of a value that the spec gives no E8M0 code (log 22). -/
def freeScale : FVal → Nat
  | .nan => 0xFF
  | .inf s => (Config.scaleByte s 0 1).toNat
  | .fin s m e => let (m', e') := oddPart (Nat.log2 m + 1) m e; (Config.scaleByte s m' e').toNat

/-- Conversion into E8M0, a format of 8 bits whose values are powers of two: rounded with an unbounded exponent (R145, R146); above
2^127 the largest value, counted (R149, R152). The spec states no result for the side of a tie, for a zero, for a magnitude below the
smallest value and for a value below zero: a free choice that the value fixes (log 22). -/
def convE8M0 (md : RMode) (v : FVal) : Conv :=
  match v with
  | .nan => ⟨0xFF, {}⟩
  | .inf s => if s then ⟨freeScale v, { sat := 1 }⟩ else ⟨0xFE, { sat := 1 }⟩
  | .fin s m e =>
    if m = 0 then ⟨freeScale v, {}⟩
    else
      let x := FVal.msb m e
      let tie := FVal.eqv (.fin false 3 (x - 1)) (.fin false m e)
      let up : Bool := match md with
        | .rne => if tie then freeScale v % 2 == 1 else FVal.lt (.fin false 3 (x - 1)) (.fin false m e)
        | .stoch _ => roundAt md m e x = 2
      let y := if up then x + 1 else x
      if 127 < y then ⟨if s then freeScale v else 0xFE, { sat := 1 }⟩
      else if s || y < -127 then ⟨freeScale v, {}⟩ else ⟨(y + 127).toNat, {}⟩

/-- One value into the format of a code, block scales aside (R149). -/
def convTo (n : NumEnv) (rs index fmtCode : Nat) (v : FVal) : Conv :=
  let md := n.mode rs index fmtCode
  match Fmt.ofCode fmtCode with
  | some (.float f) => convFloat n md f (9 ≤ fmtCode) v
  | some (.int b) => convInt md b (-(2 ^ (b - 1) : Nat)) ((2 ^ (b - 1) : Nat) - 1) v
  | some .ternary => convInt md 2 (-1) 1 v
  | some .pair => convPair n v
  | some .e8m0 => convE8M0 md v
  | some .vec64 => ⟨0, {}⟩
  | none => ⟨0, {}⟩

/-- The value of a code as an operand reads it (R140 to R142, R154): the flush of a subnormal operand is counted. -/
def readVal (n : NumEnv) (fmtCode code : Nat) : FVal × Events :=
  let flushF (f : FloatFmt) (c : Nat) : FVal × Events :=
    match f.value c with
    | .fin s m e =>
      if n.flush && m != 0 && (FVal.fin false m e).lt (FVal.pow2 false (1 - (f.bias : Int))) then
        (.fin s 0 0, { flush := true })
      else (.fin s m e, {})
    | v => (v, {})
  match Fmt.ofCode fmtCode with
  | some (.float f) => if 9 ≤ fmtCode then flushF f code else (f.value code, {})
  | some (.int b) => (.ofInt (signedOf b code), {})
  | some .ternary => (.ofInt (if code % 4 = 1 then 1 else if code % 4 = 3 then -1 else 0), {})
  | some .pair =>
    let (h, e1) := flushF fpFP32 (code % 2 ^ 32)
    let (l, e2) := flushF fpFP32 (code / 2 ^ 32 % 2 ^ 32)
    match h with
    | .inf s => (if l.isNan then .nan else .inf s, e1.add e2)
    | _ => (h.add l, e1.add e2)
  | some .e8m0 => (scaleVal (code % 256), {})
  | some .vec64 => (.ofInt code, {})
  | none => (.nan, {})

/-- The block scale of a block of exact values for a scaled float format (R148 steps 1 to 3). -/
def blockScale (f : FloatFmt) (vs : List FVal) : Nat :=
  if f.nan.isNone && vs.any FVal.isNan then 0xFF
  else
    let amax := vs.foldl (fun a v => match v with
      | .fin _ m e => if a.lt (.fin false m e) then .fin false m e else a
      | _ => a) (FVal.zero false)
    match amax with
    | .fin _ m e =>
      if m = 0 then 0x7F
      else
        match f.value f.maxCode with
        | .fin _ vm ve =>
          -- the least E with m·2^e ≤ vm·2^(ve+E)
          let e0 := FVal.msb m e - FVal.msb vm ve
          let E := if (FVal.fin false vm (ve + e0)).lt (.fin false m e) then e0 + 1 else e0
          (127 + max (-127) (min 127 E)).toNat
        | _ => 0x7F
    | _ => 0x7F

/-- A block of exact values into a scaled format, none where nothing is written: the scale byte, each code and what the block counts
(R148). The scale is chosen from the values that are written; a block with scale 0xFF counts 32 whatever it writes (R149). -/
def convBlock (n : NumEnv) (rs index fmtCode : Nat) (vs : List (Option FVal)) : Nat × List (Option Nat) × Events :=
  match Fmt.ofCode fmtCode with
  | some (.float f) =>
    let s := blockScale f (vs.filterMap id)
    if s = 0xFF then (s, vs.map (Option.map fun _ => 0), { sat := 32 })
    else
      let cs := (vs.zipIdx).map fun (o, i) => o.map fun v =>
        convFloat n (n.mode rs (index + i) fmtCode) f false (v.mul (FVal.pow2 false (127 - (s : Int))))
      (s, cs.map (Option.map Conv.code), cs.foldl (fun ev o => (o.map fun c => ev.add c.ev).getD ev) {})
  | _ => (0x7F, vs.map (Option.map fun _ => 0), {})

/-- The exact sum of the terms of a chunk, zeros and special values by R157. -/
def chunkSum (ts : List FVal) : FVal :=
  if ts.any FVal.isNan then .nan
  else if ts.contains (.inf false) && ts.contains (.inf true) then .nan
  else if ts.contains (.inf false) then .inf false
  else if ts.contains (.inf true) then .inf true
  else
    match ts with
    | [] => FVal.zero false
    | t :: r => r.foldl FVal.add t

/-- Chunks of 32 in order. -/
def chunks32 {α : Type} : Nat → List α → List (List α)
  | 0, _ => []
  | f + 1, l => if l.isEmpty then [] else l.take 32 :: chunks32 f (l.drop 32)

/-- One level of the tree of R156. -/
def treeLevel : List FVal → List FVal
  | a :: b :: r => roundRA (a.add b) :: treeLevel r
  | l => l

/-- The tree of R156, by fuel. -/
def tree : Nat → List FVal → FVal
  | 0, l => l.headD (FVal.zero false)
  | f + 1, l => match l with
    | [] => FVal.zero false
    | [a] => a
    | l => tree f (treeLevel l)

/-- A reduction in the reference order (R156), in the reference accumulator. -/
def reduceRA (ts : List FVal) : FVal :=
  let v := (chunks32 ts.length ts).map fun c => roundRA (chunkSum c)
  tree v.length v

/-- A reduction under Jasil numerics: chunk sums rounded to FP32 and added in ascending order from +0 (R160). -/
def reduceJasil (ts : List FVal) : FVal :=
  (chunks32 ts.length ts).foldl (fun a c => fp32 (a.add (fp32 (chunkSum c)))) (FVal.zero false)

/-- A pair held by the Brush: hi and lo (R162). -/
structure Pair where
  hi : FVal
  lo : FVal
  deriving DecidableEq, Repr

namespace Pair

def ofFp32 (v : FVal) : Pair := ⟨v, FVal.zero false⟩
def value (p : Pair) : FVal := match p.hi with
  | .inf s => if p.lo.isNan then .nan else .inf s
  | h => h.add p.lo

/-- two_sum of R164. -/
def twoSum (a b : FVal) : FVal × FVal :=
  let s := fp32 (a.add b)
  let bb := fp32 (s.sub a)
  let e := fp32 ((fp32 (a.sub (fp32 (s.sub bb)))).add (fp32 (b.sub bb)))
  (s, e)

/-- fast_two_sum of R164. -/
def fastTwoSum (a b : FVal) : FVal × FVal :=
  let s := fp32 (a.add b)
  (s, fp32 (b.sub (fp32 (s.sub a))))

/-- A pair whose hi is NaN is NaN; with an infinite hi lo is 0 (R162). -/
def fix (hi lo : FVal) : Pair := match hi with
  | .nan => ⟨.nan, FVal.zero false⟩
  | .inf s => ⟨.inf s, FVal.zero false⟩
  | h => if lo.isNan then ⟨.nan, FVal.zero false⟩ else ⟨h, lo⟩

/-- Pair addition, step by step (R164). -/
def add (x y : Pair) : Pair :=
  let (s, e) := twoSum x.hi y.hi
  let (t, f) := twoSum x.lo y.lo
  let e := fp32 (e.add t)
  let (s, e) := fastTwoSum s e
  let e := fp32 (e.add f)
  let (hi, lo) := fastTwoSum s e
  fix hi lo

def neg (p : Pair) : Pair := ⟨p.hi.neg, p.lo.neg⟩
def sub (x y : Pair) : Pair := add x y.neg

/-- The product with an FP32 operand (R187). -/
def mulFp32 (x : Pair) (o : FVal) : Pair :=
  let exact := x.hi.mul o
  let p := fp32 exact
  match p with
  | .fin _ _ _ =>
    let e := fp32 (exact.sub p)
    let e := fp32 (e.add (fp32 (x.lo.mul o)))
    let (hi, lo) := fastTwoSum p e
    fix hi lo
  | v => fix v (FVal.zero false)

/-- The pair of a value that FP32 may not hold: its nearest FP32 and the rest. -/
def split (v : FVal) : Pair :=
  let h := fp32 v
  match h with
  | .fin _ _ _ => ⟨h, fp32 (v.sub h)⟩
  | _ => ofFp32 h

/-- A computed pair as the module keeps it, `exact` being the value that the operands define: subnormal halves flushed under FLUSH
(R154, R164); a finite value beyond FP32's range is an overflow, counted, which SATURATE turns into the largest finite value (R153,
log 21). -/
def held (n : NumEnv) (exact : FVal) (p : Pair) : Pair × Events :=
  let ovf : Bool := match exact with
    | .fin _ _ _ => (fp32 exact).isInf
    | _ => false
  if ovf && n.saturate then (ofFp32 (f32Val (boolNat exact.sign * 2 ^ 31 + fpFP32.maxCode)), { wide := 1 })
  else
    let (h, e1) := fp32F n p.hi
    let (l, e2) := fp32F n p.lo
    (⟨h, l⟩, Events.add { wide := boolNat ovf } (e1.add e2))

def addN (n : NumEnv) (x y : Pair) : Pair × Events := held n (x.value.add y.value) (add x y)
def subN (n : NumEnv) (x y : Pair) : Pair × Events := addN n x y.neg
def mulN (n : NumEnv) (x : Pair) (o : FVal) : Pair × Events := held n (x.value.mul o) (mulFp32 x o)

/-- The code of a pair that is written (R162): normalised, so an unnormalised pair is converted from its value; lo 0 beside an infinite
hi; NaN when either half is. -/
def code (n : NumEnv) (p : Pair) : Conv :=
  match p.value with
  | .fin s m e =>
    if (fp32 (.fin s m e)).eqv p.hi then
      let h := convFloat n .rne fpFP32 true p.hi
      let l := convFloat n .rne fpFP32 true p.lo
      ⟨h.code + l.code * 2 ^ 32, h.ev.add l.ev⟩
    else convPair n (.fin s m e)
  | v => convPair n v

end Pair

/-- The FP32 code of a value that FP32 represents. -/
def f32Code (v : FVal) : Nat := (convFloat {} .rne fpFP32 true v).code

/-- Truncation of a finite value to 8 significand bits, BF16 subnormals kept (R161). -/
def truncBF16 : FVal → FVal
  | .fin s m e =>
    if m = 0 then .fin s 0 0
    else
      let q := max (FVal.msb m e - 7) (-133)
      if q ≤ e then .fin s m e else .fin s (m / 2 ^ (q - e).toNat) q
  | v => v

end Sys2Proof.Machine
end

