-- ==== Sys2Proof/Machine/SpecialFn.lean ====
section
/-! DEFINITION. The special functions of the Brush (R177, R178). A function's exact value is held as a dyadic number with
a sticky bit below it, computed by series in fixed point far finer than any format, so that one rounding of it is the rounding of
the exact value. For an FP32 destination the choice within one unit in the last place is Config.microPick (log 10). -/

namespace Sys2Proof.Machine.SpecialFn

/-- Fixed-point fraction bits. -/
def P : Nat := 960

def fixOne : Int := (2 ^ P : Nat)
def fmul (a b : Int) : Int := a * b / fixOne
def fdiv (a b : Int) : Int := a * fixOne / b

/-- The integer square root by Newton's steps from above, by fuel. -/
def isqrtFrom : Nat → Nat → Nat → Nat
  | 0, _, x => x
  | f + 1, n, x => let y := (x + n / x) / 2; if y < x then isqrtFrom f n y else x

def isqrt (n : Nat) : Nat := if n = 0 then 0 else isqrtFrom 4096 n (2 ^ (Nat.log2 n / 2 + 1))

/-- Sum of the terms t·x²ⁿ/(2n+1), x² given: the series of atanh, or of atan where x² is negative. -/
def oddSeries : Nat → Nat → Int → Int → Int → Int
  | 0, _, _, _, acc => acc
  | f + 1, k, x2, t, acc => oddSeries f (k + 1) x2 (fmul t x2) (acc + t / (2 * k + 1 : Nat))

/-- atanh x for |x| at most 1/3. -/
def atanhFix (x : Int) : Int := oddSeries 320 0 (fmul x x) x 0

/-- ln 2 = 2·atanh(1/3). -/
def ln2 : Int := 2 * atanhFix (fixOne / 3)

/-- π by Machin's formula. -/
def piFix : Int :=
  let at1 (d : Int) : Int := let x := fixOne / d; oddSeries 320 0 (-(fmul x x)) x 0
  4 * (4 * at1 5 - at1 239)

/-- The terms of e^r. -/
def expSeries : Nat → Nat → Int → Int → Int → Int
  | 0, _, _, _, acc => acc
  | f + 1, k, r, t, acc => expSeries f (k + 1) r (fmul t r / (k + 1 : Nat)) (acc + t)

/-- e^x for a fixed-point x, as a mantissa at scale 2^−P and a power of two. -/
def expFix (x : Int) : Int × Int :=
  let k := x / ln2
  (expSeries 200 0 (x - k * ln2) fixOne 0, k)

/-- A fixed-point value times 2^k as an exact value with a sticky bit. -/
def sticky (v : Int) (k : Int) : FVal := .fin (decide (v < 0)) (2 * v.natAbs + 1) (k - P - 1)

/-- A finite operand in fixed point; exact for exponents not below −P. -/
def toFix (s : Bool) (m : Nat) (e : Int) : Int :=
  if -(P : Int) ≤ e then FVal.scaled s m e (-(P : Int)) else (if s then -1 else 1) * ((m / 2 ^ (-(P : Int) - e).toNat : Nat) : Int)

/-- A magnitude below every format's reach. -/
def tiny (s : Bool) : FVal := .fin s 1 (-2000)
/-- A magnitude above every format's reach. -/
def huge : FVal := .fin false 1 2000
/-- A finite value less a relative 2^−200. -/
def justBelow (s : Bool) (m : Nat) (e : Int) : FVal := .fin s (m * 2 ^ 200 - 1) (e - 200)

/-- |x| compared with an integer. -/
def atLeast (m : Nat) (e : Int) (n : Nat) : Bool := !((FVal.fin false m e).lt (.fin false n 0))

def expF (s : Bool) (m : Nat) (e : Int) : FVal :=
  if atLeast m e 512 then (if s then tiny false else huge)
  else let (v, k) := expFix (toFix s m e); sticky v k

/-- 2^x, exact for an integer x. -/
def exp2F (s : Bool) (m : Nat) (e : Int) : FVal :=
  if atLeast m e 512 then (if s then tiny false else huge)
  else
    let x := toFix s m e
    let k := x / fixOne
    let f := x - k * fixOne
    if f = 0 && -(P : Int) ≤ e then FVal.pow2 false k
    else let (v, j) := expFix (fmul f ln2); sticky v (k + j)

/-- log2 of m·2^e, m > 0; exact for a power of two. -/
def log2F (m : Nat) (e : Int) : FVal :=
  let b := Nat.log2 m
  if m = 2 ^ b then .ofInt (e + b)
  else
    -- y = m/2^b in (1, 2); taken to (2/3, 4/3] for the series
    let y : Int := (m * 2 ^ P / 2 ^ b : Nat)
    let (y, k) := if 3 * y > 4 * fixOne then (y / 2, e + b + 1) else (y, e + b)
    let l := 2 * atanhFix (fdiv (y - fixOne) (y + fixOne))
    let v := fdiv l ln2 + k * fixOne
    sticky v 0

/-- 1/(m·2^e), exact where it is a dyadic number. -/
def rcpF (s : Bool) (m : Nat) (e : Int) : FVal :=
  let q := Nat.log2 m + P
  if 2 ^ q % m = 0 then .fin s (2 ^ q / m) (-e - q) else .fin s (2 * (2 ^ q / m) + 1) (-e - q - 1)

/-- 1/√(m·2^e), exact where it is a dyadic number. -/
def rsqrtF (m : Nat) (e : Int) : FVal :=
  let (m, e) := if e % 2 = 0 then (m, e) else (2 * m, e - 1)
  -- (2^q / √m)·2^(−q − e/2)
  let q := Nat.log2 m + P
  let r := isqrt (2 ^ (2 * q) / m)
  if r * r * m = 2 ^ (2 * q) then .fin false r (-(q : Int) - e / 2) else .fin false (2 * r + 1) (-(q : Int) - e / 2 - 1)

/-- e^−|x| in fixed point, |x| below 512. -/
def expNegFix (m : Nat) (e : Int) : Int :=
  let (v, k) := expFix (toFix true m e)
  v / (2 ^ (-k).toNat : Nat)

def sigmoidF (s : Bool) (m : Nat) (e : Int) : FVal :=
  if atLeast m e 512 then (if s then tiny false else justBelow false 1 0)
  else
    let t := expNegFix m e
    if s then sticky (fdiv t (fixOne + t)) 0 else sticky (fdiv fixOne (fixOne + t)) 0

def tanhF (s : Bool) (m : Nat) (e : Int) : FVal :=
  if atLeast m e 256 then justBelow s 1 0
  else
    let t := expNegFix m (e + 1)
    let v := fdiv (fixOne - t) (fixOne + t)
    sticky (if s then -v else v) 0

/-- The terms x^(2n+1)/(2n+1)!!. -/
def phiSeries : Nat → Nat → Int → Int → Int → Int
  | 0, _, _, _, acc => acc
  | f + 1, k, x2, t, acc => phiSeries f (k + 1) x2 (fmul t x2 / (2 * k + 3 : Nat)) (acc + t)

/-- GELU: x·Φ(x), Φ by φ(x)·Σ x^(2n+1)/(2n+1)!!. -/
def geluF (s : Bool) (m : Nat) (e : Int) : FVal :=
  if atLeast m e 16 then (if s then tiny true else justBelow false m e)
  else
    let x := toFix false m e
    let x2 := fmul x x
    let (g, k) := expFix (-(x2 / 2))
    let rt : Int := isqrt ((2 * piFix).toNat * 2 ^ P)
    let phi := fdiv (g / (2 ^ (-k).toNat : Nat)) rt
    let h := fmul phi (phiSeries 1000 0 x2 x 0)
    let c := if s then fixOne / 2 - h else fixOne / 2 + h
    let v := fmul x c
    sticky (if s then -v else v) 0

def siluF (s : Bool) (m : Nat) (e : Int) : FVal :=
  if atLeast m e 512 then (if s then tiny true else justBelow false m e)
  else
    let t := expNegFix m e
    let x := toFix false m e
    let c := if s then fdiv t (fixOne + t) else fdiv fixOne (fixOne + t)
    let v := fmul x c
    sticky (if s then -v else v) 0

/-- The exact value of a function of Table 7-7, special operands by Table 7-8; none for a code that is not built in. -/
def exact (func : Nat) (x : FVal) : Option FVal :=
  let z (b : Bool) : FVal := FVal.zero b
  match func with
  | 0x00 => some x
  | 0x01 => some x.neg
  | 0x02 => some x.abs
  | 0x10 => some <| match x with
    | .nan => .nan | .inf s => if s then z false else .inf false
    | .fin s m e => if m = 0 then .one else expF s m e
  | 0x11 => some <| match x with
    | .nan => .nan | .inf s => if s then z false else .inf false
    | .fin s m e => if m = 0 then .one else exp2F s m e
  | 0x12 => some <| match x with
    | .nan => .nan | .inf s => if s then .nan else .inf false
    | .fin s m e => if m = 0 then .inf true else if s then .nan else log2F m e
  | 0x13 => some <| match x with
    | .nan => .nan | .inf s => z s
    | .fin s m e => if m = 0 then .inf s else rcpF s m e
  | 0x14 => some <| match x with
    | .nan => .nan | .inf s => if s then .nan else z false
    | .fin s m e => if m = 0 then .inf s else if s then .nan else rsqrtF m e
  | 0x15 => some <| match x with
    | .nan => .nan | .inf s => if s then z false else .one
    | .fin s m e => if m = 0 then .fin false 1 (-1) else sigmoidF s m e
  | 0x16 => some <| match x with
    | .nan => .nan | .inf s => if s then FVal.one.neg else .one
    | .fin s m e => if m = 0 then z s else tanhF s m e
  | 0x17 => some <| match x with
    | .nan => .nan | .inf s => if s then z true else .inf false
    | .fin s m e => if m = 0 then z s else geluF s m e
  | 0x18 => some <| match x with
    | .nan => .nan | .inf s => if s then z true else .inf false
    | .fin s m e => if m = 0 then z s else siluF s m e
  | _ => none

/-- A function of Table 7-7 built in to every Brush. -/
def builtIn (func : Nat) : Bool := func ≤ 2 || (0x10 ≤ func && func ≤ 0x18)

/-- A special function: four passes, accuracy of R177. COPY, NEG and ABS are not. -/
def special (func : Nat) : Bool := 3 ≤ func

/-- The FP32 neighbour of a non-zero finite FP32 value, away from or toward zero. -/
def stepUlp (away : Bool) (v : FVal) : FVal :=
  match v with
  | .fin s _ _ =>
    let c := f32Code v % 2 ^ 31
    f32Val (boolNat s * 2 ^ 31 + (if away then (if c ≥ 0x7F7F_FFFF then c else c + 1) else c - 1))
  | v => v

/-- The FP32 result of a micro-program, within one unit in the last place of the exact value y (R177, log 10). A zero, infinite or NaN
result is the table's, and so is that of a zero or infinite operand (R178): exp of zero is 1, as R181 says of alpha. A value beyond FP32's
range overflows as it stands (R153). -/
def micro (func : Nat) (x y : FVal) : FVal :=
  match y with
  | .fin s m e =>
    let lo := roundSig (.stoch 0) 24 (some (-149)) (.fin s m e)
    if m = 0 || x.isZero || x.isInf || (f32Val fpFP32.maxCode).lt lo.abs then y
    else
      let isExact := lo.eqv y
      let up := stepUlp true lo
      match Config.microPick func (BitVec.ofNat 32 (f32Code x)) with
      | 0 => lo
      | 1 => if isExact then lo else up
      | 2 => if isExact then stepUlp false lo else lo
      | 3 => up
  | v => v

/-- The value of a function that converts into a format: exact for 16 bits or fewer, the micro-program's for FP32 (R177);
a loaded program's value is its image's (R179, log 7). `slot` gives the digest of a loaded slot. -/
def apply (func dstFmt : Nat) (slot : Nat → BitVec 512) (x : FVal) : FVal :=
  match exact func x with
  | some y => if special func && dstFmt == 0x0B then micro func x y else y
  | none => f32Val (Config.loadedFn (slot func) (BitVec.ofNat 32 (f32Code x))).toNat

/-- A function with an FP32 result. -/
def toF32 (func : Nat) (x : FVal) : FVal := match exact func x with
  | some y => fp32 (micro func x y)
  | none => .nan

end Sys2Proof.Machine.SpecialFn
end

