-- ==== Sys2Proof/Machine/Elems.lean ====
section
/-! DEFINITION. Elements in byte memory: packed rows (R143), block scales (R142, R173), tensors read as exact values and
written under the conversion rules. -/

namespace Sys2Proof.Machine

/-- The e-bit element at bit off of the byte string that starts at a (R143). -/
def getBits (m : Memory) (a off e : Nat) : Nat :=
  m.readNat (a + off / 8) ((off % 8 + e + 7) / 8) / 2 ^ (off % 8) % 2 ^ e

/-- The element written, the other bits of its bytes unchanged. -/
def setBits (m : Memory) (a off e v : Nat) : Memory :=
  let n := (off % 8 + e + 7) / 8
  let old := m.readNat (a + off / 8) n
  m.writeNat (a + off / 8) n (old - getBits m a off e * 2 ^ (off % 8) + v % 2 ^ e * 2 ^ (off % 8))

/-- Bytes of a packed row of k elements of a format. -/
def rowBytes (fmtCode k : Nat) : Nat := divUp (k * fmtBits fmtCode) 8

/-- A tensor of rows × cols elements in the Inkwell. -/
structure Tens where
  addr : Nat
  stride : Nat
  fmt : Nat
  rows : Nat
  cols : Nat
  deriving DecidableEq, Repr

/-- Where the scale table of a block-scaled tensor starts (R173). -/
def Tens.scaleBase (t : Tens) : Nat := alignUp (t.addr + t.rows * t.stride) 64

/-- Bytes of the scale table. -/
def Tens.scaleBytes (t : Tens) : Nat := if fmtScaled t.fmt then t.rows * divUp t.cols 32 else 0

/-- One past the last byte of the rows and of the scale table. -/
def Tens.last (t : Tens) : Nat :=
  max (t.addr + (t.rows - 1) * t.stride + rowBytes t.fmt t.cols)
    (if fmtScaled t.fmt then t.scaleBase + t.scaleBytes else 0)

/-- Element (i, j) as an exact value, its scale applied (R142). -/
def Tens.elem (n : NumEnv) (m : Memory) (t : Tens) (i j : Nat) : FVal × Events :=
  let (v, ev) := readVal n t.fmt (getBits m (t.addr + i * t.stride) (j * fmtBits t.fmt) (fmtBits t.fmt))
  if fmtScaled t.fmt then
    (v.mul (scaleVal (m.get (t.scaleBase + i * divUp t.cols 32 + j / 32)).toNat), ev)
  else (v, ev)

/-- One element into an unscaled tensor. -/
def Tens.putCode (m : Memory) (t : Tens) (i j code : Nat) : Memory :=
  setBits m (t.addr + i * t.stride) (j * fmtBits t.fmt) (fmtBits t.fmt) code

/-- A row of values written, none where masked: position j has rounding index base + j (R147). A block of a block-scaled tensor none of
whose elements is written keeps its scale. -/
def Tens.putRow (n : NumEnv) (rs base : Nat) (t : Tens) (i : Nat) (m : Memory) (vs : List (Option FVal)) : Memory × Events :=
  if fmtScaled t.fmt then
    ((chunks32 vs.length vs).zipIdx).foldl (fun (m, ev) (blk, c) =>
      if blk.all Option.isNone then (m, ev)
      else
        let (sc, codes, e) := convBlock n rs (base + 32 * c) t.fmt blk
        let m := m.put (t.scaleBase + i * divUp t.cols 32 + c) (BitVec.ofNat 8 sc)
        ((codes.zipIdx).foldl (fun m (o, j) => (o.map (t.putCode m i (32 * c + j))).getD m) m, Events.add ev e)) (m, {})
  else
    (vs.zipIdx).foldl (fun (m, ev) (o, j) =>
      match o with
      | none => (m, ev)
      | some v => let r := convTo n rs (base + j) t.fmt v; (t.putCode m i j r.code, ev.add r.ev)) (m, {})

/-- Rows written in order; row i starts at index i · cols. -/
def Tens.putAll (n : NumEnv) (rs : Nat) (t : Tens) (m : Memory) (rows : List (List (Option FVal))) : Memory × Events :=
  (rows.zipIdx).foldl (fun (m, ev) (vs, i) =>
    let (m, e) := t.putRow n rs (i * t.cols) i m vs
    (m, ev.add e)) (m, {})

/-- The code of FP32X2 or FP32 as a pair of halves, subnormal halves flushed under FLUSH; any other format's value split (R154, R162,
R164). -/
def pairOf (n : NumEnv) (fmtCode code : Nat) : Pair × Events :=
  if fmtCode = 0x10 then
    let (h, e1) := readVal n 0x0B (code % 2 ^ 32)
    let (l, e2) := readVal n 0x0B (code / 2 ^ 32)
    (⟨h, l⟩, e1.add e2)
  else
    let (x, ev) := readVal n fmtCode code
    (if fmtCode = 0x0B then Pair.ofFp32 x else Pair.split x, ev)

/-- The element of a tensor as a pair. -/
def Tens.pair (n : NumEnv) (m : Memory) (t : Tens) (i j : Nat) : Pair × Events :=
  if fmtScaled t.fmt then let (v, ev) := t.elem n m i j; (Pair.split v, ev)
  else pairOf n t.fmt (getBits m (t.addr + i * t.stride) (j * fmtBits t.fmt) (fmtBits t.fmt))

/-- An FP32 word of memory as an operand, flushed under FLUSH (R154). -/
def readF32 (n : NumEnv) (m : Memory) (a : Nat) : FVal × Events := readVal n 0x0B (m.readNat a 4)

/-- An FP32 result that stays FP32: its code, flushed under FLUSH (R154). -/
def codeF32 (n : NumEnv) (v : FVal) : Conv := let (x, ev) := fp32F n v; ⟨f32Code x, ev⟩

/-- The same written as a word of memory. -/
def putF32 (n : NumEnv) (m : Memory) (a : Nat) (v : FVal) : Memory × Events :=
  let c := codeF32 n v
  (m.writeNat a 4 c.code, c.ev)

end Sys2Proof.Machine
end

