-- ==== Sys2Proof/Machine/Brush.lean ====
section
/-! DEFINITION. The Brush (spec/07): the command body of Table 7-4, its issue checks (Table 7-15), the element operations,
reductions, soft maximum, ciphertext operations and pair updates, as functions of the Inkwell. Operands are all read before the
first result is written (log 25). -/

namespace Sys2Proof.Machine

/-- The range of the Inkwell. -/
def inkBytes : Nat := 2 ^ 24

/-- enc_w(μ) of R183. -/
def encW (f : Family) (w : Nat) (mu : Int) : Nat :=
  if f.isJ then wrapInt 64 (mu * (2 ^ (63 - w) : Nat))
  else
    let mag := (q64 * mu.natAbs + 2 ^ w) / 2 ^ (w + 1) % q64
    if mu < 0 then (q64 - mag) % q64 else mag

/-- The modulus of a layout's coefficients (R183). -/
def layoutModulus (f : Family) : Layout → Nat
  | .ms => 2 * f.ring
  | _ => f.modulus

/-- One coefficient under R184. -/
def mswCoeff (f : Family) (x : Nat) : Nat :=
  let N2 := 2 * f.ring
  if f.isJ then (x + 2 ^ (62 - f.logN)) / 2 ^ (63 - f.logN) % N2
  else (2 * (x % q64) * N2 + q64) / (2 * q64) % N2

/-- Coefficient c of the ciphertext at addr, read under R24. -/
def coeffAt (m : Memory) (f : Family) (l : Layout) (addr c : Nat) : Nat :=
  m.readNat (addr + c * l.elemBytes) l.elemBytes % layoutModulus f l

/-- The fields of a Brush command (Table 7-4). -/
structure BrCmd where
  opcode : Nat
  dst : Nat
  dstStride : Nat
  srcA : Nat
  aStride : Nat
  srcB : Nat
  bStride : Nat
  aux : Nat
  imm : Nat
  rows : Nat
  cols : Nat
  rs : Nat
  layer : Nat
  chain : Nat
  dstFmt : Nat
  aFmt : Nat
  bFmt : Nat
  mask : Nat
  maskOff : Nat
  sub : Nat
  monitor : Nat
  close : Bool
  family : Nat
  width : Nat
  reserved : Nat
  deriving DecidableEq, Repr

def BrCmd.of (b : BitVec 512) : BrCmd where
  opcode := fld b 7 0
  dst := fld b 479 456
  dstStride := fld b 455 436
  srcA := fld b 435 412
  aStride := fld b 411 392
  srcB := fld b 391 368
  bStride := fld b 367 348
  aux := fld b 347 324
  imm := fld b 323 292
  rows := fld b 291 276
  cols := fld b 275 260
  rs := fld b 259 236
  layer := fld b 235 228
  chain := fld b 227 220
  dstFmt := fld b 219 215
  aFmt := fld b 214 210
  bFmt := fld b 209 205
  mask := fld b 204 202
  maskOff := fld b 201 186
  sub := fld b 185 178
  monitor := fld b 177 172
  close := fld b 171 171 == 1
  family := fld b 170 163
  width := fld b 162 157
  reserved := fld b 156 8

/-- What Brush work runs under: the context's numeric modes and queue class, and the loaded micro-program slots (R179). -/
structure BrEnv where
  num : NumEnv
  cls : QClass
  slots : Table (BitVec 512)
  deriving DecidableEq, Repr

def BrEnv.digest (e : BrEnv) (func : Nat) : BitVec 512 := e.slots.get 0 func

/-- A function code that a command may name: built in, or a loaded slot that is not empty (R177, R179). -/
def BrEnv.funcOk (e : BrEnv) (func : Nat) : Bool :=
  SpecialFn.builtIn func || (0x20 ≤ func && func ≤ 0x3F && (e.slots.find func).isSome)

/-- What a finished piece of Brush work did: the Inkwell, the counts of its layer, the monitor sums (R167), whether the
tile is to be sent to block owners (R317) and the elements sent. -/
structure BrOut where
  ink : Memory
  ev : Events := {}
  /-- Σd² and Σw² in the reference accumulator. -/
  mon : Option (FVal × FVal) := none
  deriving DecidableEq, Repr

namespace BrCmd

def dstT (c : BrCmd) : Tens := ⟨c.dst, c.dstStride, c.dstFmt, c.rows, c.cols⟩
def aT (c : BrCmd) : Tens := ⟨c.srcA, c.aStride, c.aFmt, c.rows, c.cols⟩
def bT (c : BrCmd) : Tens := ⟨c.srcB, c.bStride, c.bFmt, c.rows, c.cols⟩
def bForm (c : BrCmd) : Nat := c.sub / 64
def op6 (c : BrCmd) : Nat := c.sub % 64
def immSigned (c : BrCmd) : Int := signedOf 16 c.imm
/-- imm is an INT16 sign-extended (R173, R199). -/
def immIs16 (c : BrCmd) : Bool := wrapInt 32 (signedOf 16 c.imm) = c.imm

/-- Whether element (R, C) is masked (Table 7-6); addr is aux or the header's mask_addr. -/
def masked (m : Memory) (kind off addr R C : Nat) : Bool :=
  match kind with
  | 1 => (m.get (addr + 64 * off * R + C / 8)).toNat / 2 ^ (C % 8) % 2 = 1
  | 2 => decide ((C : Int) > (R : Int) + signedOf 16 off)
  | 3 => decide (C ≥ off)
  | _ => false

def isMasked (c : BrCmd) (m : Memory) (i j : Nat) : Bool := masked m c.mask c.maskOff c.aux i j

/-- The tensor that operand b's element (i, j) stands in, and its place there, for the forms that read memory: row i, or value i or j of the values
packed at src_b (R173); a block-scaled vector has its scales at the first 64 B boundary after it (log 23). -/
def bPlace (c : BrCmd) (i j : Nat) : Tens × Nat × Nat :=
  match c.bForm with
  | 0 => (c.bT, i, j)
  | 1 => (⟨c.srcB, rowBytes c.bFmt c.rows, c.bFmt, 1, c.rows⟩, 0, i)
  | _ => (⟨c.srcB, rowBytes c.bFmt c.cols, c.bFmt, 1, c.cols⟩, 0, j)

/-- The immediate's code in b_fmt. -/
def immCode (c : BrCmd) : Nat := if c.bFmt = 0x0E then c.imm % 2 ^ 16 else c.imm

/-- Operand b of element (i, j) (R173). -/
def bElem (c : BrCmd) (n : NumEnv) (m : Memory) (i j : Nat) : FVal × Events :=
  if c.bForm = 3 then readVal n c.bFmt c.immCode else let (t, r, k) := c.bPlace i j; t.elem n m r k

/-- The same as a pair (R164). -/
def bPair (c : BrCmd) (n : NumEnv) (m : Memory) (i j : Nat) : Pair × Events :=
  if c.bForm = 3 then pairOf n c.bFmt c.immCode else let (t, r, k) := c.bPlace i j; t.pair n m r k

/-- a op b of R175. -/
def arith (op : Nat) (a b : FVal) : FVal :=
  match op with
  | 0 => a.add b
  | 1 => a.sub b
  | 2 => a.mul b
  | 3 => a.max b
  | _ => a.min b

/-- The rows of a command, element by element, masked elements none; flushes of the operands read are counted. -/
def mapRows (c : BrCmd) (m : Memory) (f : Nat → Nat → FVal × Events) : List (List (Option FVal)) × Events :=
  (upTo c.rows).foldl (fun (rows, ev) i =>
    let (r, e) := (upTo c.cols).foldl (fun (r, e) j =>
      if c.isMasked m i j then (r ++ [none], e) else let (v, e') := f i j; (r ++ [some v], Events.add e e')) (([] : List (Option FVal)), ev)
    (rows ++ [r], e)) ([], {})

/-- BR_MAP (R175, R177). -/
def runMap (c : BrCmd) (e : BrEnv) (m : Memory) : BrOut :=
  let (rows, ev) := c.mapRows m fun i j =>
    let (v, ev) := c.aT.elem e.num m i j
    (SpecialFn.apply c.op6 c.dstFmt e.digest v, ev)
  let (m', ev') := c.dstT.putAll e.num c.rs m rows
  ⟨m', ev.add ev', none⟩

/-- BR_BIN (R175); ADD and SUB into FP32X2 are the pair addition of R164 (R173). -/
def runBin (c : BrCmd) (e : BrEnv) (m : Memory) : BrOut :=
  let (rows, ev) := c.mapRows m fun i j =>
    if c.dstFmt = 0x10 && c.op6 ≤ 1 then
      let (a, e1) := c.aT.pair e.num m i j
      let (b, e2) := c.bPair e.num m i j
      let (p, e3) := if c.op6 = 0 then Pair.addN e.num a b else Pair.subN e.num a b
      (p.value, e1.add (e2.add e3))
    else
      let (a, e1) := c.aT.elem e.num m i j
      let (b, e2) := c.bElem e.num m i j
      (arith c.op6 a b, e1.add e2)
  let (m', ev') := c.dstT.putAll e.num c.rs m rows
  ⟨m', ev.add ev', none⟩

/-- The comparison of R175. -/
def compare (op : Nat) (a b : FVal) : Bool :=
  match op with
  | 0 => a.lt b
  | 1 => !a.isNan && !b.isNan && !(b.lt a)
  | 2 => a.eqv b
  | _ => !(a.eqv b)

/-- BR_CMP: mask bits (R175). -/
def runCmp (c : BrCmd) (e : BrEnv) (m : Memory) : BrOut :=
  (upTo c.rows).foldl (fun o i => (upTo c.cols).foldl (fun (o : BrOut) j =>
    let (a, e1) := c.aT.elem e.num m i j
    let (b, e2) := c.bElem e.num m i j
    { o with ink := setBits o.ink (c.dst + i * c.dstStride) j 1 (boolNat (compare c.op6 a b)), ev := o.ev.add (e1.add e2) }) o) ⟨m, {}, none⟩

/-- BR_SEL: a where the mask is 1, else b (R174). -/
def runSel (c : BrCmd) (e : BrEnv) (m : Memory) : BrOut :=
  let (rows, ev) := { c with mask := 0 }.mapRows m fun i j =>
    if c.isMasked m i j then c.aT.elem e.num m i j else c.bElem e.num m i j
  let (m', ev') := c.dstT.putAll e.num c.rs m rows
  ⟨m', ev.add ev', none⟩

/-- A reduction in the order of R156, or of R160 under Jasil numerics. -/
def reduce (n : NumEnv) (ts : List FVal) : FVal := if n.jasil then reduceJasil ts else reduceRA ts

/-- The reduction of one row (R176), masked terms by R174. -/
def redRow (n : NumEnv) (op : Nat) (vs : List (Option FVal)) : FVal :=
  let z := FVal.zero false
  match op with
  | 0 => reduce n (vs.map fun o => o.getD z)
  | 1 => reduce n (vs.map fun o => let v := o.getD z; v.mul v)
  | 2 => (vs.map fun o => o.getD (.pow2 true 127)).foldl FVal.max .nan
  | 3 => (vs.map fun o => o.getD (.pow2 false 127)).foldl FVal.min .nan
  | _ => (vs.map fun o => (o.getD z).abs).foldl FVal.max .nan

/-- BR_RED (R176): value i of the values packed at dst. -/
def runRed (c : BrCmd) (e : BrEnv) (m : Memory) : BrOut :=
  let (rows, ev) := c.mapRows m fun i j => c.aT.elem e.num m i j
  let t : Tens := ⟨c.dst, rowBytes c.dstFmt c.rows, c.dstFmt, 1, c.rows⟩
  let (m', ev') := t.putRow e.num c.rs 0 0 m (rows.map fun r => some (redRow e.num c.op6 r))
  ⟨m', ev.add ev', none⟩

/-- The row statistic of Table 7-9: max, sum, alpha, all_masked, tail_done. -/
structure Stat where
  mx : FVal
  sm : FVal
  alpha : FVal
  allMasked : Bool
  tail : Bool
  deriving DecidableEq, Repr

/-- The statistic at an address; `acc` says that its max, sum and alpha are operands of the step: max and sum of the soft-maximum steps, alpha of
ACC, flushed under FLUSH (R154). -/
def readStat (n : NumEnv) (m : Memory) (a : Nat) (acc : Bool) : Stat × Events :=
  let fl := m.readNat (a + 12) 4
  let (mx, e1) := readF32 n m a
  let (sm, e2) := readF32 n m (a + 4)
  let (al, e3) := readF32 n m (a + 8)
  (⟨mx, sm, al, fl % 2 = 1, fl / 2 % 2 = 1⟩, if acc then e1.add e3 else e1.add e2)

/-- The flags word of a statistic, reserved bits 0. -/
def putFlags (m : Memory) (a : Nat) (allMasked tail : Bool) : Memory :=
  m.writeNat (a + 12) 4 (packNat [(1, boolNat allMasked), (1, boolNat tail)])

def writeStat (n : NumEnv) (m : Memory) (a : Nat) (s : Stat) : Memory × Events :=
  let (m, e1) := putF32 n m a s.mx
  let (m, e2) := putF32 n m (a + 4) s.sm
  let (m, e3) := putF32 n m (a + 8) s.alpha
  (putFlags m a s.allMasked s.tail, e1.add (e2.add e3))

/-- The factor that normalises a row (R181, R182, R193): +0 where the sum is +0. -/
def inverse (sm : FVal) : FVal := if sm.isZero && !sm.sign then FVal.zero false else SpecialFn.toF32 0x13 sm

/-- One row of the soft-maximum step (R181): the new statistic, the row's probabilities, as FP32 values, and what the running sum counts. A
score below -2^127 contributes +0, as a masked position does. -/
def smaxRow (n : NumEnv) (first normalise : Bool) (st : Stat) (xs : List (Option FVal)) : Stat × List FVal × Events :=
  let low := FVal.pow2 true 127
  let (mx, sm, am) := if first then (low, FVal.zero false, true) else (st.mx, st.sm, st.allMasked)
  let mn := xs.foldl (fun a o => a.max (o.getD low)) mx
  let alpha := SpecialFn.toF32 0x10 (fp32 (mx.sub mn))
  let ps := xs.map fun o => match o with
    | some x => if x.lt low then FVal.zero false else SpecialFn.toF32 0x10 (fp32 (x.sub mn))
    | none => FVal.zero false
  let s := reduce n ps
  let (sm', ev) := fp32O n ((sm.mul alpha).add s)
  let am' := am && xs.all Option.isNone
  let ps := if normalise then ps.map fun p => fp32 (p.mul (inverse sm')) else ps
  (⟨mn, sm', alpha, am', false⟩, ps, ev)

/-- The statistic that a step continues: none is read when it is the first (R181). -/
def statOf (n : NumEnv) (first : Bool) (m : Memory) (a : Nat) : Stat × Events :=
  let (st, ev) := readStat n m a false
  (st, if first then {} else ev)

/-- BR_SMAX (R181). -/
def runSmax (c : BrCmd) (e : BrEnv) (m : Memory) : BrOut :=
  let first := c.sub % 2 = 1
  let norm := c.sub / 2 % 2 = 1
  let (rows, ev) := c.mapRows m fun i j => c.aT.elem e.num m i j
  let res := (rows.zipIdx).map fun (xs, i) =>
    let (old, e1) := statOf e.num first m (c.srcB + 16 * i)
    let ys : List (Option (FVal × Events)) := xs.map (Option.map (fp32O e.num))
    let (st, ps, e2) := smaxRow e.num first norm old (ys.map (Option.map Prod.fst))
    ((st, ps), ys.foldl (fun (ev : Events) (o : Option (FVal × Events)) => (o.elim ev fun (x : FVal × Events) => ev.add x.2)) (e1.add e2))
  let ev := res.foldl (fun a (_, e) => Events.add a e) ev
  let (m1, ev') := c.dstT.putAll e.num c.rs m (res.map fun ((_, ps), _) => ps.map some)
  let (m2, ev'') := (res.zipIdx).foldl (fun (m, ev) (((st, _), _), i) =>
    let (m, e1) := writeStat e.num m (c.srcB + 16 * i) st
    let (m, e2) := if norm then (m, ({} : Events)) else putF32 e.num m (c.imm % 2 ^ 24 + 4 * i) st.mx
    (m, Events.add ev (e1.add e2))) (m1, ({} : Events))
  ⟨m2, ev.add (ev'.add ev''), none⟩

/-- BR_SMAX_TAIL (R193): element (i, j) of tile t has rounding index (t·ρ + i)·κ + j. -/
def runTail (c : BrCmd) (e : BrEnv) (m : Memory) : BrOut :=
  (upTo c.rows).foldl (fun o i =>
    let (st, ev) := readStat e.num o.ink (c.srcA + 16 * i) false
    let inv := inverse st.sm
    let o := (upTo c.maskOff).foldl (fun (o : BrOut) t =>
      let at_ := c.srcB + t * c.bStride + 4 * i
      let (rec_, ev0) := readF32 e.num o.ink at_
      let (f, e0) := fp32O e.num ((SpecialFn.toF32 0x10 (fp32 (rec_.sub st.mx))).mul inv)
      let ev0 := ev0.add e0
      let resident := (o.ink.get (c.aux + t / 8)).toNat / 2 ^ (t % 8) % 2 = 1
      if resident then
        let tile : Tens := ⟨c.dst + t * (c.imm % 2 ^ 24), c.dstStride, c.dstFmt, c.rows, c.cols⟩
        let (vs, ev) := (upTo c.cols).foldl (fun (vs, ev) j =>
          let (v, e1) := tile.elem e.num o.ink i j
          (vs ++ [some (v.mul f)], Events.add ev e1)) (([] : List (Option FVal)), ev0)
        let (m', ev') := tile.putRow e.num c.rs ((t * c.rows + i) * c.cols) i o.ink vs
        ⟨m'.writeNat at_ 4 (f32Code .one), o.ev.add (ev.add ev'), none⟩
      else
        let (m', ev') := putF32 e.num o.ink at_ f
        { o with ink := m', ev := o.ev.add (ev0.add ev') }) { o with ev := o.ev.add ev }
    { o with ink := putFlags o.ink (c.srcA + 16 * i) st.allMasked true }) ⟨m, {}, none⟩

/-- BR_PAIRUPD (R196). DESIGN CHOICE: the monitor's sums are formed in RA under Jasil numerics too, RA being the entry's own format (R167, log
76). -/
def runPairupd (c : BrCmd) (e : BrEnv) (m : Memory) : BrOut :=
  let wT : Tens := ⟨c.srcA, c.aStride, 0x10, c.rows, c.cols⟩
  let dT : Tens := ⟨c.srcB, c.bStride, c.bFmt, c.rows, c.cols⟩
  let cells := (upTo c.rows).map fun i => (upTo c.cols).map fun j =>
    let (w, e1) := wT.pair e.num m i j
    let (d, e2) := dT.pair e.num m i j
    let (p, e3) := Pair.addN e.num w d
    (w, d, p, e1.add (e2.add e3))
  let ev := cells.foldl (fun ev r => r.foldl (fun ev (_, _, _, e') => Events.add ev e') ev) ({} : Events)
  let news := cells.map fun r => r.map fun (_, _, p, _) => some p.value
  let (m1, ev1) := wT.putAll e.num c.rs m news
  let (m2, ev2) := if c.dstFmt = 0 then (m1, {}) else
    ({ addr := c.aux, stride := c.dstStride, fmt := c.dstFmt, rows := c.rows, cols := c.cols : Tens }).putAll e.num c.rs m1 news
  let sq (f : Pair × Pair → Pair) : FVal := reduceRA ((cells.flatMap id).map fun (w, d, _, _) => let v := (f (w, d)).value; v.mul v)
  ⟨m2, ev.add (ev1.add ev2), if c.sub % 2 = 1 then some (sq (·.2), sq (·.1)) else none⟩

/-- One coefficient of CADD, CSUB, CNEG, SMUL (Table 7-10). -/
def ctCoeff (op Q : Nat) (a b : Nat) (k : Int) : Nat :=
  match op with
  | 0x60 => (a + b) % Q
  | 0x61 => (a + (Q - b % Q)) % Q
  | 0x62 => (Q - a % Q) % Q
  | _ => ((k * (a : Int)) % (Q : Int)).toNat

/-- The plaintext of BR_PADD for ciphertext i (Table 7-10). -/
def paddMu (c : BrCmd) (m : Memory) (i : Nat) : Int :=
  if c.bForm = 3 then c.immSigned else signedOf (fmtBits c.bFmt) (getBits m c.srcB (i * fmtBits c.bFmt) (fmtBits c.bFmt))

/-- The leveled ciphertext operations (R183, R184). -/
def runCt (c : BrCmd) (f : Family) (l : Layout) (m : Memory) : BrOut :=
  let Q := layoutModulus f l
  let w := l.elemBytes
  let ink := (upTo c.rows).foldl (fun m' i => (upTo c.cols).foldl (fun m' k =>
    let a := coeffAt m f l (c.srcA + i * c.aStride) k
    let at_ := c.dst + i * c.dstStride
    match c.opcode with
    | 0x65 => m'.writeNat (at_ + 2 * k) 2 (mswCoeff f a)
    | 0x63 => m'.writeNat (at_ + w * k) w (if k + 1 = c.cols then (a + encW f c.width (c.paddMu m i)) % Q else a)
    | op =>
      let b := coeffAt m f l (c.srcB + i * c.bStride) k
      m'.writeNat (at_ + w * k) w (ctCoeff op Q a b c.immSigned)) m') m
  ⟨ink, {}, none⟩

/-- Opcodes of ciphertext work. -/
def isCt (c : BrCmd) : Bool := 0x60 ≤ c.opcode && c.opcode ≤ 0x65

/-- Bytes of one row of operand a. -/
def ctLayout (c : BrCmd) : Option Layout := Layout.ofCode (c.sub % 4)

/-- A tensor's addresses: aligned, stride at least its packed row, inside the Inkwell. -/
def tensOk (t : Tens) : Bool := t.addr % 64 = 0 && rowBytes t.fmt t.cols ≤ t.stride && t.last ≤ inkBytes

/-- Formats that BR_MAP accepts for an operand or destination beside FP32X2: every defined one but VEC64. -/
def fmtAny (c : Nat) : Bool := (1 ≤ c && c ≤ 0x0B) || (0x0D ≤ c && c ≤ 0x0F) || c == 0x11

/-- Operand b's addresses and format. -/
def bOk (c : BrCmd) (fmtOk : Nat → Bool) : Bool :=
  match c.bForm with
  | 0 => fmtOk c.bFmt && tensOk c.bT && c.imm == 0
  | 1 => fmtOk c.bFmt && c.srcB % 64 = 0 && c.bStride == 0 && c.imm == 0 &&
      (Tens.last ⟨c.srcB, rowBytes c.bFmt c.rows, c.bFmt, 1, c.rows⟩ ≤ inkBytes)
  | 2 => fmtOk c.bFmt && c.srcB % 64 = 0 && c.bStride == 0 && c.imm == 0 &&
      (Tens.last ⟨c.srcB, rowBytes c.bFmt c.cols, c.bFmt, 1, c.cols⟩ ≤ inkBytes)
  | _ => c.srcB == 0 && c.bStride == 0 && (c.bFmt == 0x0B || (c.bFmt == 0x0E && c.immIs16))

/-- The mask field and its stream, for opcodes that accept masks (R174). -/
def maskOk (c : BrCmd) : Bool :=
  match c.mask with
  | 0 => c.maskOff == 0 && c.aux == 0
  | 1 => 1 ≤ c.maskOff && c.aux % 64 = 0 && c.aux + 64 * c.maskOff * (c.rows - 1) + divUp c.cols 8 ≤ inkBytes
  | 2 => c.aux == 0
  | 3 => c.aux == 0
  | _ => false

/-- Fields that only ciphertext opcodes use. -/
def noCt (c : BrCmd) : Bool := c.family == 0 && c.width == 0
def noB (c : BrCmd) : Bool := c.srcB == 0 && c.bStride == 0 && c.bFmt == 0
def noMask (c : BrCmd) : Bool := c.mask == 0 && c.maskOff == 0
def noMon (c : BrCmd) : Bool := c.monitor == 0 && !c.close

/-- Field values, alignment and ranges (R172 to R196): true where nothing is malformed. The chain record's own checks
are `Chain`'s. `entry` says that the named chain entry is not empty. -/
def wellFormed (c : BrCmd) (e : BrEnv) (entry : Bool) : Bool :=
  let dims := 1 ≤ c.rows && 1 ≤ c.cols
  let noP (f : Nat) : Bool := f != 0x10
  c.reserved == 0 && c.dst % 64 = 0 && c.srcA % 64 = 0 && c.srcB % 64 = 0 && c.aux % 64 = 0 &&
  match c.opcode with
  | 0x50 => dims && c.noCt && c.noB && c.noMon && c.imm == 0 && c.chain == 0 && c.sub / 64 = 0 && e.funcOk c.op6 &&
      maskOk c && tensOk c.dstT && tensOk c.aT &&
      (fmtAny c.dstFmt || (c.dstFmt == 0x10 && c.op6 == 0)) && (fmtAny c.aFmt || (c.aFmt == 0x10 && c.op6 == 0)) &&
      (if SpecialFn.special c.op6 then fmtIsFloat c.dstFmt || c.dstFmt == 0x0D || c.dstFmt == 0x0E else true)
  | 0x51 =>
      let pairOp := c.op6 ≤ 1
      let fo (f : Nat) : Bool := fmtAny f || (f == 0x10 && pairOp)
      dims && c.noCt && c.noMon && c.chain == 0 && c.op6 ≤ 4 && maskOk c && tensOk c.dstT && tensOk c.aT &&
      fo c.dstFmt && fo c.aFmt && c.bOk fo
  | 0x52 => dims && c.noCt && c.noMon && c.noMask && c.chain == 0 && c.aux == 0 && c.rs == 0 && c.layer == 0 && c.op6 ≤ 3 &&
      c.dstFmt == 0 && c.dstStride % 64 = 0 && divUp c.cols 8 ≤ c.dstStride &&
      c.dst + (c.rows - 1) * c.dstStride + divUp c.cols 8 ≤ inkBytes &&
      tensOk c.aT && fmtAny c.aFmt && noP c.aFmt && c.bOk (fun f => fmtAny f && noP f)
  | 0x53 => dims && c.noCt && c.noMon && c.chain == 0 && c.op6 == 0 && c.mask != 0 && maskOk c && tensOk c.dstT &&
      tensOk c.aT && fmtAny c.dstFmt && fmtAny c.aFmt && c.bOk fmtAny
  | 0x54 => dims && c.noCt && c.noB && c.noMon && c.imm == 0 && c.chain == 0 && c.bForm == 0 && c.op6 ≤ 4 && maskOk c &&
      c.dstStride == 0 && tensOk c.aT && fmtAny c.dstFmt && fmtAny c.aFmt &&
      (Tens.last ⟨c.dst, rowBytes c.dstFmt c.rows, c.dstFmt, 1, c.rows⟩ ≤ inkBytes)
  | 0x55 => dims && c.noCt && c.noMon && c.chain == 0 && c.bStride == 0 && c.bFmt == 0 && c.sub ≤ 3 && maskOk c &&
      tensOk c.dstT && tensOk c.aT && fmtAny c.dstFmt && fmtIsFloat c.aFmt && c.srcB + 16 * c.rows ≤ inkBytes &&
      (if c.sub / 2 % 2 = 1 then c.imm == 0 else c.imm % 4 = 0 && c.imm + 4 * c.rows ≤ inkBytes)
  | 0x56 => dims && c.noCt && c.noMon && c.mask == 0 && c.chain == 0 && c.sub == 0 && c.aFmt == 0 && c.bFmt == 0 &&
      c.aStride == 0 && 1 ≤ c.maskOff && c.maskOff ≤ 1024 && fmtAny c.dstFmt && !fmtScaled c.dstFmt && c.imm < inkBytes &&
      rowBytes c.dstFmt c.cols ≤ c.dstStride && c.srcA + 16 * c.rows ≤ inkBytes &&
      c.srcB + (c.maskOff - 1) * c.bStride + 4 * c.rows ≤ inkBytes && c.aux + divUp c.maskOff 8 ≤ inkBytes &&
      c.dst + (c.maskOff - 1) * c.imm + (c.rows - 1) * c.dstStride + rowBytes c.dstFmt c.cols ≤ inkBytes
  | 0x57 => dims && c.noCt && c.noMask && c.chain == 0 && c.imm == 0 && c.sub ≤ 1 && c.dst == c.srcA && c.aFmt == 0x10 &&
      (c.bFmt == 0x0B || c.bFmt == 0x10) && (if c.sub = 0 then c.noMon else true) && tensOk c.aT && tensOk c.bT &&
      (if c.dstFmt = 0 then c.aux == 0 else fmtAny c.dstFmt && tensOk ⟨c.aux, c.dstStride, c.dstFmt, c.rows, c.cols⟩)
  | 0x58 => dims && c.noCt && c.noMon && c.noMask && c.noB && c.imm == 0 && c.aux == 0 && c.rs == 0 && c.layer == 0 &&
      c.dstFmt == 0 && c.sub ≤ 3 && 1 ≤ c.chain && entry && 1 ≤ c.dstStride
  | 0x59 => c.noCt && c.noMon && c.noMask && c.noB && c.imm == 0 && c.aux == 0 && c.rs == 0 && c.layer == 0 && c.dstFmt == 0 &&
      c.aFmt == 0 && c.sub == 0 && c.rows == 0 && c.cols == 0 && c.dst == 0 && c.dstStride == 0 && c.aStride == 0 &&
      1 ≤ c.chain && c.srcA + 256 ≤ inkBytes
  | op =>
    if c.isCt then
      match c.ctLayout with
      | none => false
      | some l =>
        let f := (Family.ofId c.family).getD .P1
        let two := op == 0x60 || op == 0x61
        let rowA := l.elemBytes * c.cols
        let rowD := if op = 0x65 then 2 * c.cols else rowA
        dims && c.noMon && c.noMask && c.aux == 0 && c.rs == 0 && c.layer == 0 && c.chain == 0 && c.dstFmt == 0 && c.aFmt == 0 &&
        c.sub / 4 % 16 = 0 && rowA ≤ c.aStride && rowD ≤ c.dstStride && (op != 0x65 || c.dstStride % 2 = 0) &&
        c.srcA + (c.rows - 1) * c.aStride + rowA ≤ inkBytes && c.dst + (c.rows - 1) * c.dstStride + rowD ≤ inkBytes &&
        (if op = 0x65 then l == .small else if op = 0x63 || op = 0x64 then l != .ms else true) &&
        (if two then c.bForm == 0 && c.bFmt == 0 && c.imm == 0 && rowA ≤ c.bStride &&
            c.srcB + (c.rows - 1) * c.bStride + rowA ≤ inkBytes
         else if op = 0x63 then
           (if c.bForm = 1 then c.imm == 0 && c.bStride == 0 && (0x0D ≤ c.bFmt && c.bFmt ≤ 0x0F) &&
                c.srcB + rowBytes c.bFmt c.rows ≤ inkBytes
            else c.bForm == 3 && c.bFmt == 0x0E && c.srcB == 0 && c.bStride == 0 && c.immIs16)
         else if op = 0x64 then c.bForm == 3 && c.bFmt == 0x0E && c.srcB == 0 && c.bStride == 0 && c.immIs16
         else c.bForm == 0 && c.noB && c.imm == 0) &&
        (if op = 0x63 then f.m ≤ c.width && c.width ≤ 32 else c.width == 0)
    else false

/-- Shape conditions of R173, R183 and R188 (Table 7-15). -/
def shapeOk (c : BrCmd) : Bool :=
  if c.isCt then
    match c.ctLayout, Family.ofId c.family with
    | some l, some f => c.cols == l.coeffs f
    | _, _ => true
  else if 0x50 ≤ c.opcode && c.opcode ≤ 0x57 then
    !(fmtScaled c.aFmt || fmtScaled c.bFmt || fmtScaled c.dstFmt) || c.cols % 32 = 0
  else true

/-- Whether the queue class accepts the opcode and the family (Table 7-5, R30). -/
def classOk (c : BrCmd) (cls : QClass) : Bool :=
  if 0x50 ≤ c.opcode && c.opcode ≤ 0x57 then cls == .clear
  else if c.isCt then
    (match Family.ofId c.family with
     | some f => f.allowed cls
     | none => false)
  else cls == .clear || cls == .encNative || cls == .encJasil || cls == .gate

end BrCmd

end Sys2Proof.Machine
end

