-- ==== Sys2Proof/Machine/Chain.lean ====
section
/-! DEFINITION. Brush chains (spec/07): the 256-byte record of R185 with its checks (R185 to R187, R192), and an invocation of
an entry on a tile (R186 to R192). -/

namespace Sys2Proof.Machine

/-- A chain record: header in bits [511:0], step word i at [511 + 64(i+1) : 512 + 64i] (R185). -/
abbrev ChainRec := BitVec 2048

namespace Chain

def outBase (r : ChainRec) : Nat := fld r 255 232
def statAddr (r : ChainRec) : Nat := fld r 231 208
def trecAddr (r : ChainRec) : Nat := fld r 207 184
def trecStride (r : ChainRec) : Nat := fld r 183 164
def workFmt (r : ChainRec) : Nat := fld r 163 159
def outFmt (r : ChainRec) : Nat := fld r 158 154
def stat (r : ChainRec) : Nat := fld r 153 152
def nsteps (r : ChainRec) : Nat := fld r 149 145
def rs (r : ChainRec) : Nat := fld r 144 121
def layer (r : ChainRec) : Nat := fld r 120 113
def mask (r : ChainRec) : Nat := fld r 112 110
def maskOff (r : ChainRec) : Nat := fld r 109 94
def maskAddr (r : ChainRec) : Nat := fld r 93 70
def family (r : ChainRec) : Nat := fld r 69 62
def width (r : ChainRec) : Nat := fld r 61 56
def scaleBase (r : ChainRec) : Nat := fld r 55 32

/-- A stream word (Table 7-12). -/
structure Stream where
  base : Nat
  stride : Nat
  fmt : Nat
  form : Nat
  valid : Bool
  reserved : Nat
  deriving DecidableEq, Repr

/-- Stream s, 1 to 4. -/
def stream (r : ChainRec) (s : Nat) : Stream :=
  let w := fld r (64 * s + 255) (64 * s + 192)
  ⟨w / 2 ^ 40, w / 2 ^ 20 % 2 ^ 20, w / 2 ^ 15 % 32, w / 2 ^ 13 % 4, w / 2 ^ 12 % 2 = 1, w % 2 ^ 12⟩

/-- A step word (Table 7-13). -/
structure Stp where
  op : Nat
  opnd : Nat
  fmt : Nat
  func : Nat
  reserved : Nat
  imm : Nat
  deriving DecidableEq, Repr

def stepAt (r : ChainRec) (i : Nat) : Stp :=
  let w := fld r (511 + 64 * (i + 1)) (512 + 64 * i)
  ⟨w / 2 ^ 58, w / 2 ^ 55 % 8, w / 2 ^ 50 % 32, w / 2 ^ 44 % 64, w / 2 ^ 32 % 2 ^ 12, w % 2 ^ 32⟩

def stepList (r : ChainRec) : List Stp := (upTo (nsteps r)).map (stepAt r)

/-- A ciphertext chain: work_fmt VEC64. -/
def isCt (r : ChainRec) : Bool := workFmt r == 0x0C
def isPair (r : ChainRec) : Bool := workFmt r == 0x10
/-- The chain ends by sending its tile to block owners (R317). -/
def sends (r : ChainRec) : Bool := (stepList r).any (·.op == 0x18)

def ctOp (op : Nat) : Bool := 0x10 ≤ op && op ≤ 0x15
def imm16 (v : Nat) : Bool := wrapInt 32 (signedOf 16 v) = v

/-- One step by itself (Tables 7-13 and 7-14, R186, R187): operand code 5 is ACC's alone. DESIGN CHOICE: a STORE takes a TILE stream, since a
ROW or COLUMN stream gives many elements one place and the spec names no winner (log 26). -/
def stepOk (r : ChainRec) (e : BrEnv) (s : Stp) : Bool :=
  let st := stream r s.opnd
  let streamed := 1 ≤ s.opnd && s.opnd ≤ 4 && st.valid
  let fmtOk (f : Nat) : Bool := BrCmd.fmtAny f || (f == 0x10 && isPair r)
  s.reserved == 0 && (ctOp s.op == isCt r) &&
  match s.op with
  | 0x01 | 0x02 | 0x03 | 0x04 | 0x05 => s.opnd == 0 || streamed
  | 0x06 => s.opnd ≤ 4 && (if isPair r then s.func ≤ 2 else e.funcOk s.func)
  | 0x07 => s.opnd ≤ 4 && fmtOk s.fmt
  | 0x08 => streamed && st.form == 0
  | 0x09 => s.opnd ≤ 4 && !isPair r && stat r != 0
  | 0x0A => !isPair r && stat r == 2 && s.opnd == 5
  | 0x0B => streamed && st.form == 1
  | 0x10 | 0x11 => streamed && st.form == 0
  | 0x12 => s.opnd ≤ 4
  | 0x13 => (s.opnd == 0 && imm16 s.imm) || (streamed && st.form == 1 && 0x0D ≤ st.fmt && st.fmt ≤ 0x0F)
  | 0x14 => s.opnd == 0 && imm16 s.imm
  | 0x15 => s.opnd ≤ 4
  | 0x18 => s.opnd ≤ 4
  | _ => false

/-- What may follow: SEND is last, ACC is last, only CADD, CSUB, CNEG after MSW, and after SMAX under DEFERRED only MUL with
an immediate or COLUMN operand, ROUND and STORE (R186, R192). -/
def orderOk (r : ChainRec) : List Stp → Bool
  | [] => true
  | s :: rest =>
    (match s.op with
     | 0x18 => rest.isEmpty
     | 0x0A => rest.isEmpty
     | 0x15 => rest.all fun t => 0x10 ≤ t.op && t.op ≤ 0x12
     | 0x09 => if stat r = 2 then
         rest.all fun t => (t.op == 0x03 && (t.opnd == 0 || (stream r t.opnd).form == 2)) || t.op == 0x07 || t.op == 0x08
       else true
     | _ => true) && orderOk r rest

/-- The family of a ciphertext record is one of Table 2-1. DESIGN CHOICE: another family fails the load with R2's status, where the checks of
R185 do not name it (log 26). -/
def familyOk (r : ChainRec) : Bool := !isCt r || (Family.ofId (family r)).isSome

/-- The checks of a chain load (R185 to R192): a record that fails leaves its entry empty. DESIGN CHOICE: a ciphertext record whose mask kind
is not NONE loads, and its mask is ignored (log 26). -/
def recOk (r : ChainRec) (e : BrEnv) : Bool :=
  let ss := stepList r
  let nOf (op : Nat) : Nat := (ss.filter (·.op == op)).length
  fld r 151 150 == 0 && fld r 31 0 == 0 &&
  (workFmt r == 0x0B || workFmt r == 0x10 || workFmt r == 0x0C) &&
  (if isCt r then outFmt r == 0x0C else BrCmd.fmtAny (outFmt r) || (outFmt r == 0x10 && isPair r)) &&
  stat r ≤ 2 && 1 ≤ nsteps r && nsteps r ≤ 24 && mask r ≤ 3 && (mask r != 1 || 1 ≤ maskOff r) && trecAddr r % 4 = 0 &&
  ([1, 2, 3, 4].all fun s =>
    let st := stream r s
    st.reserved == 0 && (!st.valid ||
      (st.form ≤ 2 && !fmtScaled st.fmt &&
        (BrCmd.fmtAny st.fmt || (st.fmt == 0x10 && isPair r) || (st.fmt == 0x0C && isCt r))))) &&
  (if isCt r then
     match Family.ofId (family r) with
     | some f => !(ss.any (·.op == 0x13)) || (f.m ≤ width r && width r ≤ 32)
     | none => true
   else true) &&
  ss.all (stepOk r e) && orderOk r ss && nOf 0x09 ≤ 1 &&
  (if stat r = 2 then nOf 0x09 + nOf 0x0A == 1 else true)

/-- An invocation (R188): destination address, row stride, rows and columns. -/
structure Inv where
  d : Nat
  sigma : Nat
  rows : Nat
  cols : Nat
  deriving DecidableEq, Repr

namespace Inv

def off (v : Inv) (r : ChainRec) : Nat := v.d - outBase r
def y0 (v : Inv) (r : ChainRec) : Nat := v.off r / v.sigma
def x0 (v : Inv) (r : ChainRec) : Nat := 8 * (v.off r % v.sigma) / fmtBits (outFmt r)
/-- W of R188. -/
def rowW (v : Inv) (r : ChainRec) : Nat := 8 * v.sigma / fmtBits (outFmt r)

/-- The origin is an element of the output (R188). -/
def originOk (v : Inv) (r : ChainRec) : Bool :=
  outBase r ≤ v.d && 1 ≤ v.sigma && 8 * (v.off r % v.sigma) % fmtBits (outFmt r) = 0

/-- Bytes of an output row whose elements have a width of `bits`: that of out_fmt, or of the layout of a ciphertext chain's results. -/
def rowLen (v : Inv) (bits : Nat) : Nat := divUp (v.cols * bits) 8

/-- Every byte the invocation reads or writes lies in the Inkwell; `bits` is the width of an output element. -/
def rangeOk (v : Inv) (r : ChainRec) (bits : Nat) : Bool :=
  let y := v.y0 r + v.rows
  v.d + (v.rows - 1) * v.sigma + v.rowLen bits ≤ inkBytes &&
  (stat r == 0 || statAddr r + 16 * y ≤ inkBytes) &&
  (stat r != 2 || trecAddr r + 4 * y + v.x0 r / v.cols * trecStride r ≤ inkBytes) &&
  (!fmtScaled (outFmt r) || scaleBase r + y * divUp (v.rowW r) 32 ≤ inkBytes) &&
  ([1, 2, 3, 4].all fun s =>
    let st := stream r s
    !st.valid || (match st.form with
      | 0 => st.base + (y - 1) * st.stride + divUp ((v.x0 r + v.cols) * fmtBits st.fmt) 8 ≤ inkBytes
      | 1 => st.base + divUp (y * fmtBits st.fmt) 8 ≤ inkBytes
      | _ => st.base + divUp ((v.x0 r + v.cols) * fmtBits st.fmt) 8 ≤ inkBytes)) &&
  (mask r != 1 || maskAddr r + 64 * maskOff r * (y - 1) + divUp (v.x0 r + v.cols) 8 ≤ inkBytes)

/-- Shape conditions of a block-scaled output (R188). -/
def shapeOk (v : Inv) (r : ChainRec) : Bool := !fmtScaled (outFmt r) || (v.x0 r % 32 = 0 && v.cols % 32 = 0)

end Inv

/-- The code of stream s's value for element (i, j) of the invocation (R188). -/
def streamCode (m : Memory) (r : ChainRec) (v : Inv) (s i j : Nat) : Nat :=
  let st := stream r s
  let e := fmtBits st.fmt
  match st.form with
  | 0 => getBits m (st.base + (v.y0 r + i) * st.stride) ((v.x0 r + j) * e) e
  | 1 => getBits m st.base ((v.y0 r + i) * e) e
  | _ => getBits m st.base ((v.x0 r + j) * e) e

/-- The operand of a step, as a pair. -/
def operand (n : NumEnv) (m : Memory) (r : ChainRec) (v : Inv) (s : Stp) (i j : Nat) : Pair × Events :=
  if s.opnd = 0 then let (x, ev) := readVal n 0x0B s.imm; (Pair.ofFp32 x, ev)
  else
    let st := stream r s.opnd
    let code := streamCode m r v s.opnd i j
    if isPair r then pairOf n st.fmt code else let (x, ev) := readVal n st.fmt code; (Pair.ofFp32 x, ev)

/-- A result held in the work format FP32: one rounding, counted as a conversion into FP32. -/
def hold32 (n : NumEnv) (x : FVal) : Pair × Events :=
  let c := convFloat n .rne fpFP32 true x
  (Pair.ofFp32 (f32Val c.code), c.ev)

/-- The state of an invocation between steps. -/
structure Run where
  ink : Memory
  rows : List (List Pair)
  /-- Elements of a drained tile that overflowed in the drain, row after row; none are listed of a tile in the Inkwell (R153). -/
  ovf : List (List Bool)
  ev : Events
  deriving DecidableEq, Repr

/-- Every element changed, in row order. -/
def Run.each (q : Run) (f : Nat → Nat → Pair → Pair × Events) : Run :=
  let (rows, ev) := (q.rows.zipIdx).foldl (fun (rs, ev) (row, i) =>
    let (row', ev) := (row.zipIdx).foldl (fun (acc, ev) (p, j) =>
      let (p', e) := f i j p
      (acc ++ [p'], Events.add ev e)) (([] : List Pair), ev)
    (rs ++ [row'], ev)) (([] : List (List Pair)), q.ev)
  { q with rows := rows, ev := ev }

/-- What a write of element (i, j) counts beside its conversion: an overflow of the drain that is still an infinity where it is written into a
float format of 16 bits or more (R153); a conversion into INT16 or INT32 counts the infinity itself (Table 6-3). -/
def Run.drained (q : Run) (fmt i j : Nat) (p : Pair) : Events :=
  if p.hi.isInf && ((9 ≤ fmt && fmtIsFloat fmt) || fmt == 0x10) && (q.ovf.getD i []).getD j false then { wide := 1 } else {}

def isMasked (q : Run) (r : ChainRec) (v : Inv) (i j : Nat) : Bool :=
  BrCmd.masked q.ink (mask r) (maskOff r) (maskAddr r) (v.y0 r + i) (v.x0 r + j)

/-- The tile-record word of row i (R188). -/
def trecWord (r : ChainRec) (v : Inv) (i : Nat) : Nat := trecAddr r + 4 * (v.y0 r + i) + v.x0 r / v.cols * trecStride r

/-- The row statistic of row i (R188). -/
def statWord (r : ChainRec) (v : Inv) (i : Nat) : Nat := statAddr r + 16 * (v.y0 r + i)

/-- The SMAX step (R181, R186, R192): the probabilities are results held in FP32 (R195). -/
def smaxStep (e : BrEnv) (r : ChainRec) (v : Inv) (q : Run) : Run :=
  let norm := stat r = 1
  let first := norm || v.x0 r = 0
  (q.rows.zipIdx).foldl (fun (acc : Run) (row, i) =>
    let a := statWord r v i
    let xs := (row.zipIdx).map fun (p, j) => if isMasked q r v i j then none else some p.hi
    let (old, e1) := BrCmd.statOf e.num first q.ink a
    let (st, ps, e0) := BrCmd.smaxRow e.num first norm old xs
    let (m, e2) := BrCmd.writeStat e.num acc.ink a st
    let (m, e3) := if stat r = 2 then putF32 e.num m (trecWord r v i) st.mx else (m, ({} : Events))
    let held := ps.map (hold32 e.num)
    let ev := held.foldl (fun ev (_, e) => Events.add ev e) (acc.ev.add (e0.add (e1.add (e2.add e3))))
    { acc with ink := m, rows := acc.rows ++ [held.map (·.1)], ev := ev })
    { q with rows := [] }

/-- One step of a chain on clear values (Table 7-14, R187). DESIGN CHOICE: ADD to MIN and MAP leave a masked element's value, SMAX masks as
BR_SMAX does, and FACTOR, ROUND, STORE, ACC and the final write act on every element (log 26). DESIGN CHOICE, both open in the spec (log 25): a STORE rounds under the header's
stream number, and a ROUND to a block-scaled format cuts its blocks of 32 from the invocation's first column, the last one short where κ
is no multiple of 32. -/
def clearStep (e : BrEnv) (r : ChainRec) (v : Inv) (q : Run) (s : Stp) : Run :=
  let n := e.num
  match s.op with
  | 0x01 | 0x02 | 0x03 | 0x04 | 0x05 => q.each fun i j c =>
      if isMasked q r v i j then (c, {}) else
      let (o, e1) := operand n q.ink r v s i j
      let (p, e2) :=
        if isPair r then
          match s.op with
          | 0x01 => Pair.addN n c o
          | 0x02 => Pair.subN n c o
          | 0x03 => Pair.mulN n c o.hi
          | 0x04 => (if (c.value.max o.value) = c.value then c else o, {})
          | _ => (if (c.value.min o.value) = c.value then c else o, {})
        else hold32 n (BrCmd.arith (s.op - 1) c.hi o.hi)
      (p, e1.add e2)
  | 0x06 => q.each fun i j c =>
      if isMasked q r v i j then (c, {}) else
      if isPair r then
        (match s.func with
         | 0x01 => (c.neg, {})
         | 0x02 => (if c.hi.lt (FVal.zero false) then c.neg else c, {})
         | _ => (c, {}))
      else hold32 n (SpecialFn.apply s.func 0x0B e.digest c.hi)
  | 0x07 =>
      if fmtScaled s.fmt then
        let (rows, ev) := (q.rows.zipIdx).foldl (fun (rs', ev) (row, i) =>
          let base := (v.y0 r + i) * v.rowW r + v.x0 r
          let (row', ev) := ((chunks32 row.length row).zipIdx).foldl (fun (acc, ev) (blk, b) =>
            let (sc, cs, e') := convBlock n (s.imm % 2 ^ 24) (base + 32 * b) s.fmt (blk.map fun p => some p.value)
            let back := cs.map fun c => Pair.ofFp32 (((readVal n s.fmt (c.getD 0)).1).mul (scaleVal sc))
            (acc ++ back, Events.add ev e')) (([] : List Pair), ev)
          (rs' ++ [row'], ev)) (([] : List (List Pair)), q.ev)
        { q with rows := rows, ev := ev }
      else q.each fun i j c =>
        let k := convTo n (s.imm % 2 ^ 24) ((v.y0 r + i) * v.rowW r + v.x0 r + j) s.fmt c.value
        if s.fmt = 0x10 then (⟨f32Val (k.code % 2 ^ 32), f32Val (k.code / 2 ^ 32)⟩, k.ev)
        else
          let (x, e2) := readVal n s.fmt k.code
          (if isPair r then Pair.split x else Pair.ofFp32 (fp32 x), k.ev.add e2)
  | 0x08 =>
      let st := stream r s.opnd
      let w := fmtBits st.fmt
      (q.rows.zipIdx).foldl (fun (acc : Run) (row, i) => (row.zipIdx).foldl (fun (acc : Run) (c, j) =>
        let k := convTo n (rs r) ((v.y0 r + i) * v.rowW r + v.x0 r + j) st.fmt c.value
        { acc with
          ink := setBits acc.ink (st.base + (v.y0 r + i) * st.stride) ((v.x0 r + j) * w) w k.code
          ev := acc.ev.add (k.ev.add (q.drained st.fmt i j c)) }) acc) q
  | 0x09 => smaxStep e r v q
  | 0x0A =>
      let stats := (upTo v.rows).map fun i => BrCmd.readStat n q.ink (statWord r v i) true
      let q' := q.each fun i j c =>
        let alpha := ((stats[i]?).map fun (st, _) => st.alpha).getD .nan
        let w := fmtBits (outFmt r)
        let (d, e1) := readVal n (outFmt r) (getBits q.ink (v.d + i * v.sigma) (j * w) w)
        let d := if fmtScaled (outFmt r) then
            d.mul (scaleVal (q.ink.get (scaleBase r + (v.y0 r + i) * divUp (v.rowW r) 32 + (v.x0 r + j) / 32)).toNat) else d
        let (p, e2) := hold32 n ((alpha.mul d).add c.hi)
        (p, e1.add e2)
      (stats.zipIdx).foldl (fun (q : Run) ((st, e1), i) =>
        let (m, e2) := putF32 n q.ink (trecWord r v i) st.mx
        { q with ink := m, ev := q.ev.add (e1.add e2) }) q'
  | 0x0B => q.each fun i j c =>
      let (o, e1) := operand n q.ink r v s i j
      let (p, e2) := if isPair r then Pair.mulN n c o.hi else hold32 n (c.hi.mul o.hi)
      (p, e1.add e2)
  | _ => q

/-- The final write (R186, R188); a pair is written normalised (R162, R187). -/
def finalWrite (e : BrEnv) (r : ChainRec) (v : Inv) (q : Run) : BrOut :=
  let w := fmtBits (outFmt r)
  (q.rows.zipIdx).foldl (fun (o : BrOut) (row, i) =>
    let base := (v.y0 r + i) * v.rowW r + v.x0 r
    if fmtScaled (outFmt r) then
      ((chunks32 row.length row).zipIdx).foldl (fun (o : BrOut) (blk, b) =>
        let (sc, cs, ev) := convBlock e.num (rs r) (base + 32 * b) (outFmt r) (blk.map fun p => some p.value)
        let m := o.ink.put (scaleBase r + (v.y0 r + i) * divUp (v.rowW r) 32 + (v.x0 r + 32 * b) / 32) (BitVec.ofNat 8 sc)
        { o with
          ink := (cs.zipIdx).foldl (fun m (c, j) => setBits m (v.d + i * v.sigma) ((32 * b + j) * w) w (c.getD 0)) m
          ev := o.ev.add ev }) o
    else
      (row.zipIdx).foldl (fun (o : BrOut) (p, j) =>
        let c := if outFmt r = 0x10 then p.code e.num else convTo e.num (rs r) (base + j) (outFmt r) p.value
        { o with
          ink := setBits o.ink (v.d + i * v.sigma) (j * w) w c.code
          ev := o.ev.add (c.ev.add (q.drained (outFmt r) i j p)) }) o) ⟨q.ink, q.ev, none⟩

/-- A drained tile as an entry takes it (R189): FP32 drops the residual; FP32X2 reads it, flushed under FLUSH (R154). -/
def drainedTile (n : NumEnv) (r : ChainRec) (tile : List (List Pair)) : List (List Pair) × Events :=
  if isPair r then
    tile.foldl (fun (rows, ev) row =>
      let xs := row.map fun p => let (l, e) := fp32F n p.lo; ((⟨p.hi, l⟩ : Pair), e)
      (rows ++ [xs.map (·.1)], xs.foldl (fun ev (_, e) => Events.add ev e) ev)) ([], {})
  else (tile.map fun row => row.map fun p => Pair.ofFp32 p.hi, {})

/-- An invocation on clear values; `over` marks the elements that overflowed in a drain. -/
def runClear (e : BrEnv) (r : ChainRec) (v : Inv) (m : Memory) (tile : List (List Pair)) (ovf : List (List Bool)) : BrOut :=
  finalWrite e r v ((stepList r).foldl (clearStep e r v) ⟨m, tile, ovf, {}⟩)

/-- The state of a ciphertext invocation: coefficients and their layout. -/
structure CtRun where
  rows : List (List Nat)
  layout : Layout
  deriving DecidableEq, Repr

/-- One step of a ciphertext chain (R183, R184, R186). -/
def ctStep (r : ChainRec) (f : Family) (v : Inv) (m : Memory) (q : CtRun) (s : Stp) : CtRun :=
  let Q := layoutModulus f q.layout
  let each (g : Nat → Nat → Nat → Nat) : List (List Nat) :=
    (q.rows.zipIdx).map fun (row, i) => (row.zipIdx).map fun (c, j) => g i j c
  match s.op with
  | 0x10 => { q with rows := each fun i j c => BrCmd.ctCoeff 0x60 Q c (streamCode m r v s.opnd i j % Q) 0 }
  | 0x11 => { q with rows := each fun i j c => BrCmd.ctCoeff 0x61 Q c (streamCode m r v s.opnd i j % Q) 0 }
  | 0x12 => { q with rows := each fun _ _ c => BrCmd.ctCoeff 0x62 Q c 0 0 }
  | 0x13 => { q with rows := each fun i j c =>
      let mu := if s.opnd = 0 then signedOf 16 s.imm else signedOf (fmtBits (stream r s.opnd).fmt) (streamCode m r v s.opnd i 0)
      if j + 1 = v.cols then (c + encW f (width r) mu) % Q else c }
  | 0x14 => { q with rows := each fun _ _ c => BrCmd.ctCoeff 0x64 Q c 0 (signedOf 16 s.imm) }
  | 0x15 => { rows := each fun _ _ c => mswCoeff f c, layout := .ms }
  | _ => q

/-- The layouts of the steps agree with the input layout: PADD and SMUL take CT_BIG or CT_SMALL, MSW takes CT_SMALL (R183). -/
def ctLayoutOk (r : ChainRec) (l : Layout) : Bool :=
  (stepList r).all fun s => match s.op with
    | 0x13 | 0x14 => l != .ms
    | 0x15 => l == .small
    | _ => true

/-- The layout of a ciphertext chain's results. -/
def ctOut (r : ChainRec) (l : Layout) : Layout := if (stepList r).any (·.op == 0x15) then .ms else l

/-- Bits of an element as an invocation writes it: a coefficient of the result's layout, or out_fmt's width. -/
def outBits (r : ChainRec) (l : Layout) : Nat := if isCt r then 8 * (ctOut r l).elemBytes else fmtBits (outFmt r)

/-- An invocation of a ciphertext chain on the ciphertexts at addr. -/
def runCt (r : ChainRec) (f : Family) (l : Layout) (v : Inv) (m : Memory) (addr stride : Nat) : BrOut :=
  let rows := (upTo v.rows).map fun i => (upTo v.cols).map fun k => coeffAt m f l (addr + i * stride) k
  let q := (stepList r).foldl (ctStep r f v m) ⟨rows, l⟩
  let w := q.layout.elemBytes
  ⟨(q.rows.zipIdx).foldl (fun m (row, i) => (row.zipIdx).foldl (fun m (c, k) => m.writeNat (v.d + i * v.sigma + w * k) w c) m) m, {}, none⟩

end Chain

/-- The tile that BR_RUN reads (R190), held in the work format: a block-scaled value beyond FP32 overflows as R153 says. -/
def BrCmd.runTile (c : BrCmd) (e : BrEnv) (r : ChainRec) (m : Memory) : List (List Pair) × Events :=
  (upTo c.rows).foldl (fun (rows, ev) i =>
    let (row, ev) := (upTo c.cols).foldl (fun (row, ev) j =>
      let (v, e1) := c.aT.elem e.num m i j
      let (p, e2) :=
        if !Chain.isPair r then Chain.hold32 e.num v
        else if fmtScaled c.aFmt then Pair.held e.num v (Pair.split v)
        else ((c.aT.pair e.num m i j).1, {})
      (row ++ [p], Events.add ev (e1.add e2))) (([] : List Pair), ev)
    (rows ++ [row], ev)) (([] : List (List Pair)), ({} : Events))

/-- The input layout of a ciphertext BR_RUN (R190). -/
def BrCmd.runLayout (c : BrCmd) : Layout := (Layout.ofCode c.sub).getD .big

/-- BR_RUN's conditions on its entry (R173, R188, R190): format, layout, strides, origin, ranges. -/
def BrCmd.runOk (c : BrCmd) (r : ChainRec) : Bool :=
  let v : Chain.Inv := ⟨c.dst, c.dstStride, c.rows, c.cols⟩
  let bits := Chain.outBits r c.runLayout
  v.originOk r && v.rangeOk r bits && v.rowLen bits ≤ c.dstStride &&
  (if Chain.isCt r then
     c.aFmt == 0x0C &&
     (match Layout.ofCode c.sub with
      | some l => Chain.ctLayoutOk r l && l.elemBytes * c.cols ≤ c.aStride &&
          c.srcA + (c.rows - 1) * c.aStride + l.elemBytes * c.cols ≤ inkBytes
      | none => false)
   else c.sub == 0 && (fmtAny c.aFmt || (c.aFmt == 0x10 && Chain.isPair r)) && tensOk c.aT)

/-- BR_RUN's shape conditions. -/
def BrCmd.runShapeOk (c : BrCmd) (r : ChainRec) : Bool :=
  let v : Chain.Inv := ⟨c.dst, c.dstStride, c.rows, c.cols⟩
  v.shapeOk r && (!fmtScaled c.aFmt || c.cols % 32 = 0) &&
  (!Chain.isCt r ||
    match Layout.ofCode c.sub, Family.ofId (Chain.family r) with
    | some l, some f => c.cols == l.coeffs f
    | _, _ => true)

/-- BR_RUN (R190). -/
def BrCmd.runChain (c : BrCmd) (e : BrEnv) (r : ChainRec) (m : Memory) : BrOut :=
  let v : Chain.Inv := ⟨c.dst, c.dstStride, c.rows, c.cols⟩
  if Chain.isCt r then
    Chain.runCt r ((Family.ofId (Chain.family r)).getD .P1) c.runLayout v m c.srcA c.aStride
  else
    let (t, ev) := c.runTile e r m
    let o := Chain.runClear e r v m t []
    { o with ev := ev.add o.ev }

end Sys2Proof.Machine
end

