-- ==== Sys2Proof/Machine/NibCore.lean ====
section
/-! DEFINITION. The Nib's slots, loads, stores and chains (spec/05) as functions of the tile register file and the Inkwell.
The arrangement of a fragment's elements inside its slots is the Nib's own (R116); here they lie row after row at their width
(log 13). -/

namespace Sys2Proof.Machine

/-- The fields of a Nib command (Table 5-5). -/
structure NibCmd where
  opcode : Nat
  handle : Nat
  addr : Nat
  inAddr : Nat
  work : Nat
  stride : Nat
  stride2 : Nat
  slotA : Nat
  slotB : Nat
  slotC : Nat
  m : Nat
  n : Nat
  k : Nat
  kTotal : Nat
  finish : Bool
  start : Bool
  aFmt : Nat
  bFmt : Nat
  sel : Nat
  family : Nat
  deriving DecidableEq, Repr

def NibCmd.of (b : BitVec 512) : NibCmd where
  opcode := fld b 7 0
  handle := fld b 223 192
  addr := fld b 191 168
  inAddr := fld b 167 144
  work := fld b 143 132
  stride := fld b 131 116
  stride2 := fld b 115 100
  slotA := fld b 99 90
  slotB := fld b 89 80
  slotC := fld b 79 70
  m := fld b 69 62
  n := fld b 61 54
  k := fld b 53 43
  kTotal := fld b 42 27
  finish := fld b 26 26 == 1
  start := fld b 25 25 == 1
  aFmt := fld b 24 21
  bFmt := fld b 20 17
  sel := fld b 16 16
  family := fld b 15 8

/-- A slot shape tag (Table 5-3). -/
abbrev SlotTag := BitVec 40

namespace SlotTag
def invalid : Nat := 0
def loading : Nat := 1
def valid : Nat := 2
def state (t : SlotTag) : Nat := fld t 11 10
def cols (t : SlotTag) : Nat := fld t 31 24
/-- A tag from its fields. -/
def mk (part cols rows format state cls kdim : Nat) : SlotTag :=
  BitVec.ofNat 40 (packNat [(7, 0), (1, kdim), (2, cls), (2, state), (4, format), (8, rows), (8, cols), (8, part)])
end SlotTag

/-- A chain that is open, or finished and not yet drained (R126, R127). -/
structure NibChain where
  lin : Bool
  m : Nat
  n : Nat
  aFmt : Nat
  bFmt : Nat
  kTotal : Nat
  sel : Nat
  family : Nat
  /-- The reduction length so far. -/
  sum : Nat
  /-- A clear chain's partials: for each element, row after row, and each pass, the chunk sums in order: rounded to RA, or exact under Jasil
  numerics, whose running sum is formed when the chain finishes (log 25). -/
  parts : List (List (List FVal))
  /-- A ciphertext chain's limb accumulators A0 to A3 of each output coefficient, row after row. -/
  limbs : List (List Int)
  /-- The same of the bodies, with sel 1. -/
  bodies : List (List Int)
  /-- Whether an input was flushed (R128, R154). -/
  flush : Bool
  deriving DecidableEq, Repr

/-- The Nib of a cluster: the tile register file, its tags, the open chain and the halves that wait to be drained. -/
structure NibState where
  trf : Memory := []
  tags : Table SlotTag := []
  chain : Option NibChain := none
  /-- Finished chains not yet drained: the number of the finishing command, its body and the chain. -/
  drains : List (Nat × BitVec 512 × NibChain) := []
  /-- Drained tiles that wait for their epilogue: the command's number, its body, and the elements as (hi, lo), and which of
  them overflowed in the drain (R153). -/
  tiles : List (Nat × BitVec 512 × List (List Pair) × List (List Bool)) := []
  deriving DecidableEq, Repr

namespace NibState

def tag (s : NibState) (i : Nat) : SlotTag := s.tags.get 0 i

/-- Halves of the accumulator store in use (R127). -/
def halvesUsed (s : NibState) : Nat := (if s.chain.isSome then 1 else 0) + s.drains.length + s.tiles.length

def setTags (s : NibState) (first : Nat) (ts : List SlotTag) : NibState :=
  { s with tags := (ts.zipIdx).foldl (fun t (v, i) => t.set (first + i) v) s.tags }

end NibState

namespace NibCmd

/-- Data slots of an r × c fragment (R116). -/
def dataSlots (fmt r c : Nat) : Nat := divUp (r * c * fmtBits fmt) 4096
def fragSlots (fmt r c : Nat) : Nat := dataSlots fmt r c + (if fmtScaled fmt then 1 else 0)

/-- The tags of a fragment's slots. -/
def fragTags (fmt r c kdim state : Nat) : List SlotTag :=
  (upTo (fragSlots fmt r c)).map fun p => SlotTag.mk p c r fmt state 1 kdim
def vecTag (state : Nat) : SlotTag := SlotTag.mk 0 64 1 0xC state 2 0
def bodyTag (k state : Nat) : SlotTag := SlotTag.mk 0 k 1 0xC state 3 0

/-- Element (i, j) of the fragment that starts at a slot, with its block scale (R116, R142). -/
def fragElem (n : NumEnv) (trf : Memory) (slot fmt r c kdim i j : Nat) : FVal × Events :=
  let e := fmtBits fmt
  let (v, ev) := readVal n fmt (getBits trf (512 * slot) ((i * c + j) * e) e)
  if fmtScaled fmt then
    let b := if kdim = 0 then i * divUp c 32 + j / 32 else i / 32 * c + j
    (v.mul (scaleVal (trf.get (512 * (slot + dataSlots fmt r c) + b)).toNat), ev)
  else (v, ev)

/-- How many slots a command's loads or stores touch. -/
def span (c : NibCmd) : Nat :=
  match c.opcode with
  | 0x20 | 0x23 => fragSlots c.aFmt c.m c.n
  | 0x22 => 1
  | _ => c.k

/-- The tags that the load of this command writes (R121). -/
def loadTags (c : NibCmd) (state : Nat) : List SlotTag :=
  match c.opcode with
  | 0x20 => fragTags c.aFmt c.m c.n c.sel state
  | 0x22 => [bodyTag c.k state]
  | _ => (upTo c.k).map fun _ => vecTag state

/-- The register file after the load's data has landed (R121). -/
def loadData (c : NibCmd) (ink trf : Memory) : Memory :=
  let f := (Family.ofId c.family).getD .P1
  match c.opcode with
  | 0x20 =>
    let e := fmtBits c.aFmt
    let trf := trf.clear (512 * c.slotA) (512 * fragSlots c.aFmt c.m c.n)
    let trf := (upTo c.m).foldl (fun t i => (upTo c.n).foldl (fun t j =>
      setBits t (512 * c.slotA) ((i * c.n + j) * e) e (getBits ink (c.addr + 8 * c.stride * i) (j * e) e)) t) trf
    if fmtScaled c.aFmt then trf.write (512 * (c.slotA + dataSlots c.aFmt c.m c.n)) (ink.read c.inAddr (divUp (c.m * c.n) 32)) else trf
  | 0x22 => (upTo c.k).foldl (fun t i =>
      t.writeNat (512 * c.slotA + 8 * i) 8 (ink.readNat (c.addr + 8 * c.stride * i + 8 * f.ring) 8 % f.modulus)) (trf.clear (512 * c.slotA) 512)
  | _ => (upTo c.k).foldl (fun t i => (upTo 64).foldl (fun t w =>
      t.writeNat (512 * (c.slotA + i) + 8 * w) 8 (ink.readNat (c.addr + 8 * c.stride * i + 8 * w) 8 % f.modulus)) t) trf

/-- The Inkwell after a store (R121). -/
def storeData (c : NibCmd) (ink trf : Memory) : Memory :=
  match c.opcode with
  | 0x23 =>
    let e := fmtBits c.aFmt
    let ink := (upTo c.m).foldl (fun m i => (upTo c.n).foldl (fun m j =>
      setBits m (c.addr + 8 * c.stride * i) (j * e) e (getBits trf (512 * c.slotA) ((i * c.n + j) * e) e)) m) ink
    if fmtScaled c.aFmt then ink.write c.inAddr (trf.read (512 * (c.slotA + dataSlots c.aFmt c.m c.n)) (divUp (c.m * c.n) 32)) else ink
  | _ => (upTo c.k).foldl (fun m i => m.write (c.addr + 8 * c.stride * i) (trf.read (512 * (c.slotA + i)) 512)) ink

/-- The slots that a compute command or a store reads: first slot and how many. -/
def reads (c : NibCmd) : List (Nat × Nat) :=
  match c.opcode with
  | 0x23 | 0x24 => [(c.slotA, span c)]
  | 0x28 => [(c.slotA, fragSlots c.aFmt c.m c.k), (c.slotB, fragSlots c.bFmt c.k c.n)]
  | 0x29 => [(c.slotA, fragSlots c.aFmt c.m c.k), (c.slotB, c.k)] ++ (if c.sel = 1 then [(c.slotC, divUp c.k 64)] else [])
  | _ => []

/-- The slots that a load or an invalidation writes. -/
def writes (c : NibCmd) : List (Nat × Nat) :=
  match c.opcode with
  | 0x20 | 0x21 | 0x22 | 0x25 => [(c.slotA, span c)]
  | _ => []

def slotsOverlap (a b : List (Nat × Nat)) : Bool :=
  a.any fun (s, n) => b.any fun (t, m) => s < t + m && t < s + n

/-- The tags of the command's operands are those its shape asks for (Table 5-12). A body slot holds at least the
bodies taken from it (log 27). -/
def tagsOk (c : NibCmd) (s : NibState) : Bool :=
  let frag (slot fmt r k kdim : Nat) : Bool :=
    ((fragTags fmt r k kdim SlotTag.valid).zipIdx).all fun (t, i) => s.tag (slot + i) == t
  match c.opcode with
  | 0x23 => frag c.slotA c.aFmt c.m c.n 0 || frag c.slotA c.aFmt c.m c.n 1
  | 0x24 => (upTo c.k).all fun i => s.tag (c.slotA + i) == vecTag SlotTag.valid
  | 0x28 => frag c.slotA c.aFmt c.m c.k 0 && frag c.slotB c.bFmt c.k c.n 1
  | 0x29 => frag c.slotA c.aFmt c.m c.k 0 && ((upTo c.k).all fun i => s.tag (c.slotB + i) == vecTag SlotTag.valid) &&
      (c.sel == 0 || (upTo (divUp c.k 64)).all fun i =>
        let t := s.tag (c.slotC + i)
        t == bodyTag t.cols SlotTag.valid && min 64 (c.k - 64 * i) ≤ t.cols)
  | _ => true

/-- Format groups of Table 5-7. -/
def grpN4 (f : Nat) : Bool := 1 ≤ f && f ≤ 6
def grpN2 (f : Nat) : Bool := f == 7 || f == 8

/-- The pairs of Table 5-8. -/
def pairOk (a b : Nat) : Bool :=
  (grpN4 a && grpN4 b) || (grpN4 a && grpN2 b) || (grpN2 a && grpN4 b) || (a == b && 9 ≤ a && a ≤ 0xB)

def dim8 (x lo hi : Nat) : Bool := x % 8 = 0 && lo ≤ x && x ≤ hi

/-- Field values, alignment, ranges (R118, R120, R121, R130, R139); a field that Table 5-5 gives the opcode under a condition counts as unused
where the condition fails. Overlap with the work region is NIB_KSW's own. DESIGN CHOICE, the spec naming no status (log 62): k = 0 on NIB_LDV,
NIB_STV and NIB_INV, k outside 1 to 64 on NIB_LDB and a batch of 0 on NIB_KSW are malformed. -/
def wellFormed (c : NibCmd) : Bool :=
  let fragFmt (f : Nat) : Bool := 1 ≤ f && f ≤ 0xB
  let f := (Family.ofId c.family).getD .P1
  let zero (l : List Nat) : Bool := l.all (· == 0)
  let b (x : Bool) : Nat := boolNat x
  c.addr % 64 = 0 &&
  match c.opcode with
  | 0x20 | 0x23 =>
      zero [c.handle, c.work, c.stride2, c.slotB, c.slotC, c.k, c.kTotal, b c.finish, b c.start, c.bFmt, c.family] &&
      (c.opcode == 0x20 || c.sel == 0) && fragFmt c.aFmt && c.inAddr % 64 = 0 && (fmtScaled c.aFmt || c.inAddr == 0) &&
      c.slotA + fragSlots c.aFmt c.m c.n ≤ 1024 &&
      c.addr + 8 * c.stride * (c.m - 1) + rowBytes c.aFmt c.n ≤ 2 ^ 24 &&
      (!fmtScaled c.aFmt || c.inAddr + divUp (c.m * c.n) 32 ≤ 2 ^ 24)
  | 0x21 | 0x22 =>
      zero [c.handle, c.inAddr, c.work, c.stride2, c.slotB, c.slotC, c.m, c.n, c.kTotal, b c.finish, b c.start, c.bFmt, c.sel] &&
      c.aFmt == 0xC && 1 ≤ c.k && (c.opcode == 0x21 || c.k ≤ 64) && c.slotA + span c ≤ 1024 &&
      c.addr + 8 * c.stride * (c.k - 1) + (if c.opcode = 0x21 then 512 else 8 * f.ring + 8) ≤ 2 ^ 24
  | 0x24 =>
      zero [c.handle, c.inAddr, c.work, c.stride2, c.slotB, c.slotC, c.m, c.n, c.kTotal, b c.finish, b c.start, c.bFmt, c.sel, c.family] &&
      c.aFmt == 0xC && 1 ≤ c.k && c.slotA + c.k ≤ 1024 && c.addr + 8 * c.stride * (c.k - 1) + 512 ≤ 2 ^ 24
  | 0x25 =>
      zero [c.handle, c.addr, c.inAddr, c.work, c.stride, c.stride2, c.slotB, c.slotC, c.m, c.n, c.kTotal, b c.finish, b c.start,
        c.aFmt, c.bFmt, c.sel, c.family] && 1 ≤ c.k && c.slotA + c.k ≤ 1024
  | 0x28 =>
      zero [c.inAddr, c.work, c.stride2, c.slotC, c.sel, c.family] && fragFmt c.aFmt && fragFmt c.bFmt && c.handle < 256 && (c.finish || c.handle == 0) &&
      c.slotA + fragSlots c.aFmt c.m c.k ≤ 1024 && c.slotB + fragSlots c.bFmt c.k c.n ≤ 1024 &&
      (!c.finish || c.handle != 0 || c.addr + 8 * c.stride * (c.m - 1) + 4 * c.n ≤ 2 ^ 24)
  | 0x29 =>
      zero [c.handle, c.inAddr, c.work, c.stride2, c.bFmt] && 6 ≤ c.aFmt && c.aFmt ≤ 8 && (c.sel == 1 || c.slotC == 0) &&
      c.n < f.ring / 64 && c.slotA + fragSlots c.aFmt c.m c.k ≤ 1024 && c.slotB + c.k ≤ 1024 &&
      (c.sel == 0 || c.slotC + divUp c.k 64 ≤ 1024) &&
      (!c.finish || c.addr + 8 * c.stride * (c.m - 1) + (if c.sel = 1 then 8 * f.ring + 8 else 512 * c.n + 512) ≤ 2 ^ 24)
  | 0x2A =>
      zero [c.slotA, c.slotB, c.slotC, c.n, c.k, c.kTotal, b c.finish, b c.start, c.aFmt, c.bFmt, c.sel] && c.inAddr % 64 = 0 &&
      1 ≤ c.m
  | _ => false

/-- Whether the queue class accepts the opcode and the family (R119, R30). -/
def classOk (c : NibCmd) (cls : QClass) : Bool :=
  let enc := cls == .encNative || cls == .encJasil || cls == .gate
  let fam := match Family.ofId c.family with
    | some f => f.allowed cls
    | none => false
  match c.opcode with
  | 0x20 | 0x23 | 0x25 => enc || cls == .clear
  | 0x21 | 0x22 | 0x29 | 0x2A => enc && fam
  | 0x24 => enc
  | 0x28 => cls == .clear
  | _ => true

/-- The chain rules of R126 and R130. DESIGN CHOICE: a change of family within a NIB_LIN chain breaks it, where the list of held fields does
not name the family (log 62). -/
def chainOk (c : NibCmd) (s : NibState) : Bool :=
  match s.chain with
  | none => c.start && c.k ≤ c.kTotal && (!c.finish || c.k == c.kTotal)
  | some h => !c.start && h.lin == (c.opcode == 0x29) && h.m == c.m && h.n == c.n && h.aFmt == c.aFmt && h.bFmt == c.bFmt &&
      h.kTotal == c.kTotal && h.sel == c.sel && h.family == c.family && h.sum + c.k ≤ c.kTotal &&
      (!c.finish || h.sum + c.k == c.kTotal)

/-- Dimensions, pairs, tags and chains (Table 5-12, SHAPE_MISMATCH), NIB_KSW's batch and chain among them. DESIGN CHOICE: m or n out of range
on NIB_LDF and NIB_STF is SHAPE_MISMATCH, where R121 names no status (log 62). -/
def shapeOk (c : NibCmd) (s : NibState) : Bool :=
  match c.opcode with
  | 0x20 => dim8 c.m 8 128 && dim8 c.n 8 128
  | 0x23 => dim8 c.m 8 128 && dim8 c.n 8 128 && tagsOk c s
  | 0x24 => tagsOk c s
  | 0x28 => dim8 c.m 8 128 && dim8 c.n 8 128 && c.k % 32 = 0 && 32 ≤ c.k && c.k ≤ 128 && c.kTotal % 32 = 0 && c.kTotal ≤ 8192 &&
      pairOk c.aFmt c.bFmt && tagsOk c s && chainOk c s
  | 0x29 => dim8 c.m 8 64 && dim8 c.k 8 128 && dim8 c.kTotal 8 65528 && tagsOk c s && chainOk c s
  | 0x2A => c.m ≤ 8 && s.chain.isNone
  | _ => true

/-- The pieces of an operand under Jasil numerics (R161): h, m, l, each a BF16 value, what lies below its subnormals truncated. Of an infinity
the differences are NaN (R151). -/
def pieces (fmt : Nat) (x : FVal) : List FVal :=
  let h := truncBF16 x
  let r := x.sub h
  if fmt = 0xA then [h, truncBF16 r] else let m := truncBF16 r; [h, m, truncBF16 (r.sub m)]

/-- The passes of Table 6-4, as pairs of piece numbers, in listed order. -/
def passList (jasil : Bool) (fmt : Nat) : List (Nat × Nat) :=
  if jasil && fmt == 0xA then [(0, 0), (0, 1), (1, 0)]
  else if jasil && fmt == 0xB then [(0, 0), (0, 1), (1, 0), (0, 2), (1, 1), (2, 0)]
  else [(0, 0)]

/-- The chunk sums that one command adds to an element, one list per pass, rounded to RA or, under Jasil numerics, exact. -/
def mmaChunks (jasil : Bool) (fmt : Nat) (as bs : List FVal) : List (List FVal) :=
  let split (x : FVal) : List FVal := if jasil && (fmt == 0xA || fmt == 0xB) then pieces fmt x else [x]
  (passList jasil fmt).map fun (p, q) =>
    let terms := List.zipWith (fun a b => ((split a).getD p (FVal.zero false)).mul ((split b).getD q (FVal.zero false))) as bs
    (chunks32 terms.length terms).map fun t => if jasil then chunkSum t else roundRA (chunkSum t)

/-- NIB_MMA's products into the chain (R126). -/
def mmaStep (c : NibCmd) (n : NumEnv) (s : NibState) : NibChain :=
  let a := (upTo c.m).map fun i => (upTo c.k).map fun k => fragElem n s.trf c.slotA c.aFmt c.m c.k 0 i k
  let b := (upTo c.n).map fun j => (upTo c.k).map fun k => fragElem n s.trf c.slotB c.bFmt c.k c.n 1 k j
  let fl := (a ++ b).any fun r => r.any fun x => x.2.flush
  let new := a.flatMap fun ra => b.map fun rb => mmaChunks n.jasil c.aFmt (ra.map (·.1)) (rb.map (·.1))
  match (if c.start then none else s.chain) with
  | none => ⟨false, c.m, c.n, c.aFmt, c.bFmt, c.kTotal, c.sel, c.family, c.k, new, [], [], fl⟩
  | some h => { h with sum := h.sum + c.k, parts := List.zipWith (List.zipWith (· ++ ·)) h.parts new, flush := h.flush || fl }

/-- The limbs of a 64-bit coefficient (R129). -/
def limbsOf (x : Nat) : List Nat := [x % 2 ^ 16, x / 2 ^ 16 % 2 ^ 16, x / 2 ^ 32 % 2 ^ 16, x / 2 ^ 48]

/-- One accumulator quadruple after the products w[κ]·x_κ. -/
def macLimbs (acc : List Int) (ws : List Int) (xs : List Nat) : List Int :=
  (List.zip ws xs).foldl (fun acc (w, x) => List.zipWith (fun (a : Int) (l : Nat) => a + w * (l : Int)) acc (limbsOf x)) acc

/-- The signed weight at (j, κ) of the fragment (R129, R141). -/
def weight (c : NibCmd) (trf : Memory) (j k : Nat) : Int :=
  match (fragElem {} trf c.slotA c.aFmt c.m c.k 0 j k).1 with
  | .fin s m _ => if s then -(m : Int) else m
  | _ => 0

/-- NIB_LIN's products into the chain (R129). -/
def linStep (c : NibCmd) (s : NibState) : NibChain :=
  let ws := (upTo c.m).map fun j => (upTo c.k).map fun k => weight c s.trf j k
  let xs := (upTo 64).map fun i => (upTo c.k).map fun k => s.trf.readNat (512 * (c.slotB + k) + 8 * i) 8
  let bs := (upTo c.k).map fun k => s.trf.readNat (512 * (c.slotC + k / 64) + 8 * (k % 64)) 8
  let z : List Int := [0, 0, 0, 0]
  match (if c.start then none else s.chain) with
  | none => ⟨true, c.m, c.n, c.aFmt, c.bFmt, c.kTotal, c.sel, c.family, c.k, [],
      ws.flatMap fun w => xs.map fun x => macLimbs z w x,
      if c.sel = 1 then ws.map fun w => macLimbs z w bs else [], false⟩
  | some h =>
    { h with
      sum := h.sum + c.k
      limbs := List.zipWith (fun (a : List Int) (p : List Int × List Nat) => macLimbs a p.1 p.2) h.limbs (ws.flatMap fun w => xs.map fun x => (w, x))
      bodies := if c.sel = 1 then List.zipWith (fun a w => macLimbs a w bs) h.bodies ws else [] }

/-- A0 + 2^16·A1 + 2^32·A2 + 2^48·A3 in [0, Q). -/
def limbValue (f : Family) (l : List Int) : Nat :=
  let v := (l.zipIdx).foldl (fun (a : Int) (x, i) => a + x * (2 ^ (16 * i) : Nat)) 0
  (v % (f.modulus : Int)).toNat

/-- A drained element: hi and lo, whether hi was flushed, and whether it overflowed FP32 though its terms are finite (R153). -/
structure Drained where
  pair : Pair
  flush : Bool
  ovf : Bool

/-- The FP32 running sum of a pass under Jasil numerics, from +0 (R160). -/
def jasilSum (cs : List FVal) : FVal := cs.foldl (fun a c => fp32 (a.add (fp32 c))) (FVal.zero false)

/-- One element of a finished clear chain (R128, R160, R161, R163). The residual is rounded to FP32 and not flushed here: only an FP32X2
epilogue reads it. DESIGN CHOICE: under Jasil numerics FLUSH acts on the element that leaves, not on the FP32 running sums before it (log 76). -/
def finishElem (n : NumEnv) (passes : List (List FVal)) : Drained :=
  if n.jasil then
    let sums := (passes.map jasilSum).reverse
    let v := match sums with
      | [] => FVal.zero false
      | x :: r => r.foldl (fun a p => fp32 (a.add p)) x
    let (h, e) := fp32F n v
    ⟨Pair.ofFp32 h, e.flush, h.isInf && passes.all fun cs => cs.all fun c => !c.isInf⟩
  else
    let ra := match passes with
      | [] => FVal.zero false
      | cs :: _ => tree cs.length cs
    let (h, e) := fp32F n ra
    match h with
    | .fin _ _ _ => ⟨⟨h, fp32 (ra.sub h)⟩, e.flush, false⟩
    | h => ⟨Pair.ofFp32 h, e.flush, h.isInf && !ra.isInf⟩

/-- Rows of n from a flat list. -/
def rowsOf {α : Type} : Nat → Nat → List α → List (List α)
  | 0, _, _ => []
  | r + 1, n, l => l.take n :: rowsOf r n (l.drop n)

/-- The tile of a finished clear chain, which of its elements overflowed, and whether anything was flushed. -/
def clearTile (n : NumEnv) (h : NibChain) : List (List Pair) × List (List Bool) × Bool :=
  let es := h.parts.map (finishElem n)
  (rowsOf h.m h.n (es.map (·.pair)), rowsOf h.m h.n (es.map (·.ovf)), h.flush || es.any (·.flush))

/-- A clear tile drained to the Inkwell as FP32 (R128). -/
def drainClear (c : NibCmd) (t : List (List Pair)) (ink : Memory) : Memory :=
  (t.zipIdx).foldl (fun m (row, i) => (row.zipIdx).foldl (fun m (p, j) =>
    m.writeNat (c.addr + 8 * c.stride * i + 4 * j) 4 (f32Code p.hi)) m) ink

/-- A ciphertext chain drained to the Inkwell (R129). -/
def drainLin (c : NibCmd) (h : NibChain) (ink : Memory) : Memory :=
  let f := (Family.ofId h.family).getD .P1
  let ink := ((rowsOf h.m 64 h.limbs).zipIdx).foldl (fun m (row, j) => (row.zipIdx).foldl (fun m (l, i) =>
    m.writeNat (c.addr + 8 * c.stride * j + 512 * h.n + 8 * i) 8 (limbValue f l)) m) ink
  (h.bodies.zipIdx).foldl (fun m (l, j) => m.writeNat (c.addr + 8 * c.stride * j + 8 * f.ring) 8 (limbValue f l)) ink

end NibCmd

end Sys2Proof.Machine
end

