-- ==== Sys2Proof/Machine/ThawCore.lean ====
section
/-! DEFINITION. The arithmetic of refresh and key switch (spec/04, R132, R133): evaluation form (R86), decomposition (R87),
blind-rotation steps of both kinds of family (R89, R99), test vectors (R90, R98), extraction (R91) and key-switching blocks. Polynomials are
lists of N coefficients, coefficient 0 first. -/

namespace Sys2Proof.Machine

abbrev Poly := List Nat

namespace Refresh

/-- b^e modulo m, by fuel over the bits of e. -/
def powModGo : Nat → Nat → Nat → Nat → Nat → Nat
  | 0, _, _, _, acc => acc
  | f + 1, b, e, m, acc => powModGo f (b * b % m) (e / 2) m (if e % 2 = 1 then acc * b % m else acc)

def powMod (b e m : Nat) : Nat := powModGo (Nat.log2 e + 1) (b % m) e m (1 % m)

/-- ψ of R86. -/
def psi (N : Nat) : Nat := powMod 7 ((q64 - 1) / (2 * N)) q64

/-- The low k bits of i reversed (R86). -/
def rev : Nat → Nat → Nat
  | 0, _ => 0
  | k + 1, i => i % 2 * 2 ^ k + rev k (i / 2)

/-- Σ a_j·x^j modulo q64. -/
def evalAt (a : Poly) (x : Nat) : Nat := a.foldr (fun c acc => (c + x * acc) % q64) 0

/-- The evaluation form (R86), N = 2^k. -/
def forward (k : Nat) (a : Poly) : Poly := (upTo (2 ^ k)).map fun i => evalAt a (powMod (psi (2 ^ k)) (2 * rev k i + 1) q64)

/-- The inverse transform: coefficient j is N⁻¹·Σ A_i·ψ^(−j(2·rev(i)+1)). -/
def inverse (k : Nat) (A : Poly) : Poly :=
  let N := 2 ^ k
  let ni := powMod N (q64 - 2) q64
  (upTo N).map fun j =>
    ni * ((A.zipIdx).foldl (fun acc (v, i) =>
      (acc + v * powMod (psi N) ((2 * N - j * (2 * rev k i + 1) % (2 * N)) % (2 * N)) q64) % q64) 0) % q64

/-- The digits d_1 to d_ℓ of a coefficient (R87), with base 2^β. -/
def decompose (f : Family) (lev beta c : Nat) : List Int :=
  let B : Int := (2 ^ beta : Nat)
  let v0 : Int :=
    if f.isJ then ((c + 2 ^ (63 - lev * beta)) / 2 ^ (64 - lev * beta) % 2 ^ (lev * beta) : Nat)
    else
      let c' : Int := if 2 * (c % q64) > q64 then (c % q64 : Nat) - (q64 : Int) else (c % q64 : Nat)
      (2 * c' * (2 ^ (lev * beta) : Nat) + q64) / (2 * q64 : Nat)
  let step (p : List Int × Int) (_ : Nat) : List Int × Int :=
    let r := p.2 % B
    let d := if 2 * r < B then r else r - B
    (d :: p.1, (p.2 - d) / B)
  ((upTo lev).foldl step ([], v0)).1

/-- An integer modulo q64. -/
def toQ (x : Int) : Nat := (x % (q64 : Int)).toNat

/-- X^e times a polynomial modulo X^N + 1 and Q, e below 2N. -/
def mulX (Q : Nat) (a : Poly) (e : Nat) : Poly :=
  let N := a.length
  (upTo N).map fun i =>
    -- coefficient i comes from j with j + e ≡ i modulo 2N, negated where it wraps
    let j := (i + 2 * N - e % (2 * N)) % (2 * N)
    if j < N then a.getD j 0 % Q else (Q - a.getD (j - N) 0 % Q) % Q

def addP (Q : Nat) (a b : Poly) : Poly := List.zipWith (fun x y => (x + y) % Q) a b
def subP (Q : Nat) (a b : Poly) : Poly := List.zipWith (fun x y => (x + (Q - y % Q)) % Q) a b
def mulP (a b : Poly) : Poly := List.zipWith (fun x y => x * y % q64) a b
def zeroP (N : Nat) : Poly := List.replicate N 0

/-- An accumulator: mask polynomial A and body polynomial B. -/
structure Acc where
  A : Poly
  B : Poly
  deriving DecidableEq, Repr

/-- The digit polynomials of an accumulator, rows in R88 order: mask levels 1 to ℓ, then body levels 1 to ℓ. -/
def digitRows (f : Family) (a : Acc) : List (List Int) :=
  let rows (p : Poly) : List (List Int) :=
    let ds := p.map (decompose f f.lev f.beta)
    (upTo f.lev).map fun t => ds.map fun d => d.getD t 0
  rows a.A ++ rows a.B

/-- Polynomial `col` of row r of GGSW j of a step whose key bytes start at 0 of `key` (R88); j counts from 0. -/
def keyPoly (f : Family) (key : Memory) (j r col : Nat) : Poly :=
  (upTo f.ring).map fun i => key.readNat (j * f.ggswBytes + (2 * r + col) * 8 * f.ring + 8 * i) 8

/-- X^e − 1 in evaluation form. -/
def rotEval (f : Family) (e : Nat) : Poly :=
  forward f.logN (subP q64 (mulX q64 (1 :: zeroP (f.ring - 1)) e) (1 :: zeroP (f.ring - 1)))

/-- One step of a P-family (R89): as are the step's g mask coefficients. -/
def stepP (f : Family) (key : Memory) (as : List Nat) (acc : Acc) : Acc :=
  let dhat := (digitRows f acc).map fun d => forward f.logN (d.map toQ)
  let total (col : Nat) : Poly :=
    (upTo f.ggswPerStep).foldl (fun t j =>
      let e := ((as.zipIdx).foldl (fun s (a, i) => if (j + 1) / 2 ^ i % 2 = 1 then s + a else s) 0) % (2 * f.ring)
      let inner := (dhat.zipIdx).foldl (fun t (d, r) => addP q64 t (mulP d (keyPoly f key j r col))) (zeroP f.ring)
      addP q64 t (mulP (rotEval f e) inner)) (zeroP f.ring)
  ⟨addP q64 acc.A (inverse f.logN (total 0)), addP q64 acc.B (inverse f.logN (total 1))⟩

/-- The pieces of a key word (R99). -/
def pieceOf (p k : Nat) : Nat := match p with
  | 0 => k % 2 ^ 22
  | 1 => k / 2 ^ 22 % 2 ^ 21
  | _ => k / 2 ^ 43

/-- The centred lift of a residue modulo q64. -/
def lift (x : Nat) : Int := if 2 * x > q64 then (x : Int) - q64 else x

/-- One step of a J-family (R89, R99). -/
def stepJ (f : Family) (key : Memory) (a : Nat) (acc : Acc) : Acc :=
  let M := 2 ^ 64
  let diff : Acc := ⟨subP M (mulX M acc.A a) acc.A, subP M (mulX M acc.B a) acc.B⟩
  let dhat := (digitRows f diff).map fun d => forward f.logN (d.map toQ)
  let pass (col p : Nat) : List Int :=
    (inverse f.logN ((dhat.zipIdx).foldl (fun t (d, r) =>
      addP q64 t (mulP d (forward f.logN ((keyPoly f key 0 r col).map (pieceOf p))))) (zeroP f.ring))).map lift
  let prod (col : Nat) : Poly :=
    (List.zip (pass col 0) (List.zip (pass col 1) (pass col 2))).map fun (p0, p1, p2) =>
      wrapInt 64 (p0 + (2 ^ 22 : Nat) * p1 + (2 ^ 43 : Nat) * p2)
  ⟨addP M acc.A (prod 0), addP M acc.B (prod 1)⟩

/-- One blind-rotation step, by the kind of the family; `a` are all mask exponents of the ciphertext. -/
def stepAcc (f : Family) (key : Memory) (s : Nat) (a : List Nat) (acc : Acc) : Acc :=
  if f.isJ then stepJ f key (a.getD s 0) acc else stepP f key ((a.drop (s * f.grouping)).take f.grouping) acc

/-- x rounded to the nearest multiple of θ, halves upward, modulo 2N (R89). -/
def roundTheta (theta N2 x : Nat) : Nat := if theta ≤ 1 then x % N2 else (x % N2 + theta / 2) / theta * theta % N2

/-- The test vector (R90): tables as functions of the box. -/
def testVector (f : Family) (m w theta : Nat) (tabs : List (List Int)) : Poly :=
  let N := f.ring
  let h := N / 2 ^ (m + 1)
  (upTo N).map fun i =>
    let t := tabs.getD (i % theta) []
    if i < N - h then encW f w (t.getD ((i + h) / (2 * h)) 0)
    else (f.modulus - encW f w (t.getD 0 0)) % f.modulus

/-- The entries f(0), f(1) of a gate code (Table 4-4). -/
def gateTable (code : Nat) : List Int := if code % 2 = 0 then [0, 1] else [1, 0]

/-- The accumulator before step 0 (R89): body exponent b already rounded and shifted. -/
def start (f : Family) (tv : Poly) (b : Nat) : Acc := ⟨zeroP f.ring, mulX f.modulus tv ((2 * f.ring - b) % (2 * f.ring))⟩

/-- Output r of an accumulator: mask coefficients, then body (R91). -/
def extract (f : Family) (acc : Acc) (r : Nat) : List Nat :=
  let N := f.ring
  ((upTo N).map fun i => if i ≤ r then acc.A.getD (r - i) 0
    else (f.modulus - acc.A.getD (N + r - i) 0 % f.modulus) % f.modulus) ++ [acc.B.getD r 0]

/-- A ciphertext in progress: the exponents a_i, rounded, and its accumulator. -/
structure Rot where
  a : List Nat
  acc : Acc
  deriving DecidableEq, Repr

/-- The rotation that starts on the CT_MS ciphertext at addr. -/
def Rot.init (f : Family) (ink : Memory) (addr theta : Nat) (gate : Bool) (tv : Poly) : Rot :=
  let N2 := 2 * f.ring
  let x (i : Nat) : Nat := roundTheta theta N2 (ink.readNat (addr + 2 * i) 2 % N2)
  let b := x f.lweDim
  let b := if gate then (b + N2 - f.ring / 8) % N2 else b
  ⟨(upTo f.lweDim).map x, start f tv b⟩

end Refresh

namespace Ksw

/-- Offset of block number `blk` of a key-switching key and its width: row group and column block in key order (R132). -/
def blocksPerGroup (f : Family) : Nat := divUp (f.lweDim + 1) 64
def groups (f : Family) : Nat := divUp (f.ring * f.ksLev) 64
def blocks (f : Family) : Nat := groups f * blocksPerGroup f
def width (f : Family) (blk : Nat) : Nat := min 64 (f.lweDim + 1 - 64 * (blk % blocksPerGroup f))
def offset (f : Family) (blk : Nat) : Nat :=
  512 * (f.lweDim + 1) * (blk / blocksPerGroup f) + 32768 * (blk % blocksPerGroup f)
def blockBytes (f : Family) (blk : Nat) : Nat := 512 * width f blk

/-- The 64 digits of row group g of the CT_BIG input at addr (R133). -/
def digits (f : Family) (ink : Memory) (addr g : Nat) : List Int :=
  (upTo 64).map fun r =>
    let rho := 64 * g + r
    let c := ink.readNat (addr + 8 * (rho / f.ksLev)) 8 % f.modulus
    (Refresh.decompose f f.ksLev 4 c).getD (rho % f.ksLev) 0

/-- The accumulators of one input after a block (R133): `key` reads the key from its own byte 0. -/
def blockAcc (f : Family) (key : Memory) (ds : List Int) (blk : Nat) (acc : List Nat) : List Nat :=
  let j0 := 64 * (blk % blocksPerGroup f)
  let w := width f blk
  (acc.zipIdx).map fun (v, j) =>
    if j0 ≤ j ∧ j < j0 + w then
      let s := (ds.zipIdx).foldl (fun (s : Int) (d, r) =>
        s + d * (key.readNat (offset f blk + 8 * w * r + 8 * (j - j0)) 8 : Int)) 0
      (((v : Int) + s) % (f.modulus : Int)).toNat
    else v

/-- The CT_SMALL output of an input's accumulators (R133). -/
def output (f : Family) (body : Nat) (acc : List Nat) : List Nat :=
  (acc.zipIdx).map fun (v, j) =>
    if j = f.lweDim then (body + (f.modulus - v % f.modulus)) % f.modulus else (f.modulus - v % f.modulus) % f.modulus

end Ksw

end Sys2Proof.Machine
end

