-- ==== Sys2Proof/Machine/State.lean ====
section
/-! DEFINITION. The state of the module: everything the spec gives it, as plain data, in the order of the spec's chapters,
and its value right after a module reset. INVENTORY.md lists every field with the rule that names it and its reset value. -/

namespace Sys2Proof.Machine

/-- No command faults: every failure the spec names ends in a status, an event, a record or a state of SRC_STATE. -/
inductive Fault where
  /-- Raised by nobody; the type needs a name (safe). -/
  | none
  deriving DecidableEq, Repr

inductive Refusal where
  /-- Raised by a dispatch arm whose command has no meaning yet (safe). -/
  | notModelled (mnemonic : String)
  deriving DecidableEq, Repr

/-- Pins, straps and the port of the last window read (16, 18, 19). -/
structure Board where
  pg48v : Bool := false
  /-- MOD_RST_N is deasserted. -/
  running : Bool := false
  jcompatN : Bool := true
  bootSel : BitVec 2 := 0
  mgmtAddr : BitVec 2 := 0
  thermAlert : Bool := false
  smbAlert : Bool := false
  /-- The answer of the last window read (R420). -/
  readPort : BitVec 64 := 0
  deriving DecidableEq, Repr

/-- SRC_STATE.state (Table 16-10). -/
inductive SrcState where
  | off | serac | firmware | rails | memory | test | setup | ready | failed | stopped
  deriving DecidableEq, Repr

/-- A firmware bank of module flash (R402). -/
structure Bank where
  version : BitVec 64 := 0
  rollback : BitVec 8 := Config.fusedRollback
  digest : BitVec 512 := 0
  staged : Bool := false
  deriving DecidableEq, Repr

/-- Module flash: it keeps its contents through every reset (R404). -/
structure Flash where
  /-- The committed bank, B where true. -/
  committed : Bool := false
  /-- The bank marked for trial, and how many resets have tried it. -/
  mark : Option Bool := none
  tries : Nat := 0
  bankA : Bank := {}
  bankB : Bank := {}
  /-- Moraine records in flash, by position modulo 65,536, and the position of the next one. -/
  log : Table (BitVec 512) := []
  logPos : Nat := 0
  deriving DecidableEq, Repr

/-- A command of SRC_FW_CTRL in progress (R402): 1 STAGE, 2 ACTIVATE, 3 COMMIT. -/
structure FwCmd where
  slot : BitVec 8
  micro : Bool
  deriving DecidableEq, Repr

/-- The Moraine's mirror in hub SRAM (R400, R401). -/
structure Moraine where
  log : Table (BitVec 512) := []
  pos : Nat := 0
  seq : Nat := 0
  deriving DecidableEq, Repr

/-- The Serac: start-up, firmware, and the event log (16). -/
structure Serac where
  st : SrcState := .off
  failCode : BitVec 8 := 0
  trial : Bool := false
  bank : Bool := false
  bootSel : BitVec 2 := 0
  /-- BOOT_SEL 11: an image set over the management bus is awaited (R403). -/
  awaiting : Bool := false
  /-- What the boot ROM's verification found of the banks. -/
  banksOk : BanksOk := {}
  /-- A go that R423 accepts has locked set-up. -/
  locked : Bool := false
  bootCount : BitVec 64 := 0
  flash : Flash := {}
  rollback : BitVec 8 := Config.fusedRollback
  fwAddr : BitVec 64 := 0
  fwSlot : BitVec 8 := 0
  fwBusy : Option FwCmd := none
  fwDone : Bool := false
  fwResult : BitVec 8 := 0
  /-- Brush micro-program slots 0x20 to 0x3F: the digest of the loaded image (R179). -/
  micro : Table (BitVec 512) := []
  deriving DecidableEq, Repr

/-- SRC_DIE_V, SRC_DIE_RATE and the governor's ceiling of one compute die. -/
structure DiePower where
  limiter : BitVec 4 := 0
  ask : BitVec 12 := 750
  set : BitVec 12 := 750
  /-- The voltage decided and not yet in force (R387). -/
  pending : Option (BitVec 12) := none
  ceiling : Nat := 850
  rate : BitVec 32 := 0xFFFF0000
  /-- Own thermal step (R397); the levels that the previous sample reached and held; the junction is at 115 °C (R395). -/
  step : Nat := 0
  up : Nat := 0
  down : Nat := 0
  hot : Bool := false
  deriving DecidableEq, Repr

/-- One supply level of Table 16-5: since when each enter condition and the leave condition have held. -/
structure SupplyWatch where
  inputLow : Option Nat := none
  railSag : Option Nat := none
  leave : Option Nat := none
  deriving DecidableEq, Repr

/-- Shedding (R394 to R396). -/
structure Shed where
  level : Nat := 0
  peak : Nat := 0
  cause : BitVec 8 := 0
  /-- Levels that the supply, the power cap and the thermal rule ask for. -/
  supply : Nat := 0
  power : Nat := 0
  thermal : Nat := 0
  /-- Since when PG_48V has been deasserted. -/
  pgLow : Option Nat := none
  watch : Vector SupplyWatch 5 := Vector.replicate 5 {}
  changedAt : Nat := 0
  /-- For each level, since when neither the power cap nor the thermal rule has asked for it. -/
  unasked : Vector (Option Nat) 5 := Vector.replicate 5 (some 0)
  deriving DecidableEq, Repr

/-- Sensors, the governor and shedding (16). -/
structure Power where
  temp : Vector (BitVec 32) 64 := Vector.replicate 64 0x80000000
  volt : Vector (BitVec 32) 24 := Vector.replicate 24 0xFFFF0000
  curr : Vector (BitVec 32) 8 := Vector.replicate 8 0
  power : BitVec 32 := 0
  /-- Voltage sensors 0 to 4 sampled since reset: the 48 V input and the core rails. -/
  seen : BitVec 5 := 0
  /-- Power samples since the last decision: their sum in units of 0.1 mW, and how many. -/
  sum : Nat := 0
  samples : Nat := 0
  cap : BitVec 16 := 2000
  /-- The cap in force, which a written one becomes at the next decision (R393). -/
  capNow : BitVec 16 := 2000
  capErr : Bool := false
  dies : Vector DiePower 4 := Vector.replicate 4 {}
  /-- The instant of the last decision. -/
  decidedAt : Nat := 0
  /-- Consecutive decisions at or below 0.97 and 0.95 of the cap, and above it with every die at 0.65 V (R393, R394). -/
  under97 : Nat := 0
  under95 : Nat := 0
  floorOver : Nat := 0
  /-- Since when the input current has exceeded 1.2 × cap / 48 V. -/
  overSince : Option Nat := none
  shed : Shed := {}
  deriving DecidableEq, Repr

/-- Set-up registers of the HUB block (11, 14, 18). -/
structure Setup where
  partCode : BitVec 3 := 0
  keyPool : BitVec 64 := 0
  statePool : BitVec 64 := 0
  keyDir : BitVec 64 := 0
  setupErr : BitVec 5 := 0
  ctx0Desc : BitVec 64 := 0
  ctx0Err : Bool := false
  deriving DecidableEq, Repr

/-- Fences, the fault count and the LNK registers (15, 18). -/
structure Hub where
  fenceCl : BitVec 64 := 0
  fenceThaw : BitVec 128 := 0
  fenceCh : BitVec 160 := 0
  fenceMisc : BitVec 32 := 0
  faultCnt : BitVec 32 := 0
  fclUp : Bool := false
  fclLanes : BitVec 4 := 0
  /-- The instants at which LNK_FCL_RETRY and LNK_FPL_RETRY were last read: what they count since is a free value (log 11). -/
  fclReadAt : Nat := 0
  fplReadAt : Vector Nat 2 := Vector.replicate 2 0
  deriving DecidableEq, Repr

/-- The classes of memory requests (Table 10-3), from the highest priority down. -/
inductive MemClass where
  | lc | ks | bulk | test
  deriving DecidableEq, Repr

/-- A request that waits at a channel (R259): its class, its range of module memory, its channel blocks from first to last, and its bursts of
256 B not yet served. -/
structure MemReq where
  who : MemWho
  cls : MemClass
  write : Bool
  addr : Nat
  len : Nat
  first : Nat
  last : Nat
  left : Nat
  deriving DecidableEq, Repr

/-- A generator's run as it started (R267): MEM_TG_CTRL, the seed, the range, and the bursts served so far. -/
structure TgRun where
  ctrl : BitVec 32 := 0
  seed : BitVec 32 := 0
  first : Nat := 0
  last : Nat := 0
  served : Nat := 0
  deriving DecidableEq, Repr

/-- One channel: its MEM registers, its generator run and the guarantees of its round (10). -/
structure Chan where
  ce : BitVec 32 := 0
  ue : BitVec 32 := 0
  last : BitVec 64 := 0
  tgCtrl : BitVec 32 := 0
  tgSeed : BitVec 32 := 1
  tgRange : BitVec 64 := 0
  tgBusy : Bool := false
  tgStopping : Bool := false
  tgDone : Bool := false
  tgRefused : Bool := false
  tgCodec : BitVec 32 := 0
  tgErrs : BitVec 32 := 0
  tgFail : BitVec 64 := 0
  /-- The run in progress. -/
  tgRun : TgRun := {}
  /-- Slots of the round in progress: all, and the guarantees of LC, KS and BULK after the cut (R260). -/
  slots : Nat := 64
  lc : Nat := 16
  ks : Nat := 32
  bulk : Nat := 8
  /-- Blocks whose corrected write-back is queued (R256, R258), oldest first. -/
  writeBack : List (BitVec 24) := []
  /-- Corrected reads of the last hour: (rank, bank, row) as one number, and when (R258). -/
  corrected : List (Nat × Nat) := []
  /-- Requests that wait, in the order of their arrival (R260, R261). -/
  reqs : List MemReq := []
  /-- The patrol of R258: the next burst, and the instant from which it is due. -/
  patrol : Nat := 0
  patrolAt : Nat := 3400000
  deriving DecidableEq, Repr

/-- A stack's MEM_THERM register, its level, and the levels that the previous sample reached and held (R263). -/
structure Stack where
  therm : BitVec 32 := 0
  level : Nat := 0
  up : Nat := 0
  down : Nat := 0
  deriving DecidableEq, Repr

structure MemSys where
  stackRegs : Vector Stack 20 := Vector.replicate 20 {}
  chans : Vector Chan 160 := Vector.replicate 160 {}
  /-- What a stored code word differs by from its encoder's output, by module beat: what a generator injected (R267). -/
  flips : Table (BitVec 152) := []
  deriving DecidableEq, Repr

/-- The modes a descriptor copies at its admission (R360). -/
structure Modes where
  flush : Bool := false
  saturate : Bool := false
  stoch : Bool := false
  seed : BitVec 64 := 0
  insert : Bool := false
  dual : Bool := false
  jasil : Bool := false
  trace : Nat := 0
  deriving DecidableEq, Repr

/-- A range of bytes of a destination: space 0 Inkwell of a cluster, 1 module memory, 2 host memory (log 18). -/
structure Dest where
  space : Nat
  cl : Nat
  addr : Nat
  len : Nat
  deriving DecidableEq, Repr

/-- A body in a queue: its bits with the tag filled in, its number in its queue and among the cluster's placements, its nest
sideband and its QRUN (R218); whether it runs again after it had issued, with the marks that sampling gave it (R414), and at which row of a DM_SCATTER_ADD and with what counted
so far. -/
structure Body where
  bits : BitVec 512
  tag : BitVec 32
  no : Nat
  ord : Nat
  run : DRef
  iter : Nat := 0
  ix : Nat := 0
  placedAt : Nat := 0
  again : Bool := false
  sampled : Bool := false
  follow : Bool := false
  row : Nat := 0
  ev : Events := {}
  /-- What a DM_SCATTER_ADD that runs again has partly added to: undefined if it leaves its queue unfinished (Table 9-8). -/
  left : List Dest := []
  deriving DecidableEq, Repr

/-- What stands in a queue: a body, or the mark of a gate with the number of its QGATE (R215). -/
inductive QItem where
  | body (b : Body)
  | mark (gate : Nat) (src : Nat) (count : BitVec 32)
  deriving DecidableEq, Repr

/-- A Thaw command that runs (R102): the engine, the next step, the rotations, the key bytes landed of the step, and how many
sweeps it still needs (R356). -/
structure ThawWork where
  f : Family
  engine : Nat
  dual : Bool
  /-- DUAL: both engines run it together (R356). -/
  both : Bool := false
  step : Nat := 0
  rots : List Refresh.Rot
  theta : Nat
  key : Memory := []
  landed : Nat := 0
  sweepsLeft : Nat := 1
  gsub : Nat
  ended : Bool := false
  deriving DecidableEq, Repr

/-- A NIB_KSW that runs (R135): the next block, the accumulators and bodies of its inputs. -/
structure KswWork where
  f : Family
  blk : Nat := 0
  accs : List (List Nat)
  key : Memory := []
  landed : Nat := 0
  gsub : Nat
  ended : Bool := false
  deriving DecidableEq, Repr

/-- Where a transfer reads or writes: 0 Inkwell of a cluster, 1 module memory, 2 host memory under a pasid or physical,
3 the window of the context bound to a peer port. -/
structure Place where
  space : Nat
  id : Nat := 0
  addr : Nat
  deriving DecidableEq, Repr

/-- Where the elements of a run of DM_XPOSE go (R239): a row for each, the rows `step` bytes apart, at the same bit of each; `width` bits an
element, of which the run holds `count`. -/
structure Turned where
  mod : Bool
  base : Nat
  step : Nat
  bit : Nat
  width : Nat
  count : Nat
  deriving DecidableEq, Repr

/-- A transfer of the data mover (R238): its command (or the QRUN of a SEND part), its run and the byte offset in it,
its ends, and the bytes read once it has issued. -/
structure Xfer where
  no : Nat := 0
  owner : Option Nat
  run : DRef
  row : Nat := 0
  off : Nat := 0
  src : Option Place
  dst : List Place
  len : Nat
  turned : Option Turned := none
  data : List Byte := []
  /-- Its bytes have all been read. -/
  loaded : Bool := false
  /-- Remote ends that the target has still to serve (R244). -/
  remote : List (Fin 64) := []
  deriving DecidableEq, Repr

/-- What an issued command still has to do. -/
inductive WorkKind where
  | plain
  | held (deadline : Option Nat) (phase : BitVec 16) (counted : Bool)
  | load
  | thaw (t : ThawWork)
  | ksw (k : KswWork)
  | mover (todo : List Xfer)
  | gsub (engine : Nat) (handle : BitVec 32) (sel batch : Nat) (presented : Bool)
  | gate (target src : Nat) (count : BitVec 32)
  deriving DecidableEq, Repr

/-- A command issued and not retired (R213): the status once it has ended, the causes so far, what it counted. -/
structure Work where
  b : Body
  issuedAt : Nat
  cls : QClass
  kind : WorkKind
  causes : List Status := []
  done : Bool := false
  ev : Events := {}
  /-- Its output destinations, and its work region, once it has passed its issue checks (R12). -/
  dests : List Dest := []
  region : List Dest := []
  mon : Option (FVal × FVal) := none
  layer : Nat := 0
  /-- Bytes of an element of DM_SCATTER_ADD that the cut of its row splits (R238, R241). -/
  carry : List Byte := []
  /-- Reads a key or a LUTSET: KRT indices whose use it counts (R66). -/
  uses : List Nat := []
  sampled : Bool := false
  follow : Bool := false
  deriving DecidableEq, Repr

structure Queue where
  items : List QItem := []
  /-- Bodies ever placed: the counter placed[q] is its low 32 bits. -/
  placed : Nat := 0
  retired : BitVec 32 := 0
  works : List Work := []
  samples : Nat := 0
  deriving DecidableEq, Repr

/-- Why a task waits (R207, R216, R222, R224): a retired count; room in a queue for a PUSH; a free issuer for a PUSHN; no
placement in progress into the queues of a mask for a CLW; the argument block; the end of its own long-word stream. -/
inductive WaitWhy where
  | retired (q : Nat) (count : BitVec 32)
  | push (q : Nat)
  | pushn (q : Nat)
  | clw (queues : Nat)
  | args
  | stream
  deriving DecidableEq, Repr

inductive TaskState where
  | ready | running | waiting (w : WaitWhy)
  deriving DecidableEq, Repr

/-- A task in a place (R206). -/
structure Task where
  run : DRef
  slot : Nat
  st : TaskState := .ready
  pc : Nat
  regs : Vector (BitVec 64) 32
  seq : Nat := 0
  since : Nat := 0
  /-- Bytes of the argument block that the task has, and whether they have landed. -/
  landed : Bool
  argBytes : Nat
  /-- The long-word stream the task has run has ended: its CLW completes. -/
  streamDone : Bool := false
  deriving DecidableEq, Repr

/-- A loop nest in an issuer (R222): the copied record and the next body to place. -/
structure Nest where
  queue : Nat
  counts : List Nat
  nbody : Nat
  patches : List (BitVec 64)
  edges : List (BitVec 64)
  templates : List (BitVec 512)
  iter : Nat := 0
  body : Nat := 0
  tag : BitVec 32
  run : DRef
  deriving DecidableEq, Repr

/-- A long-word stream (R224): the next word's address, how many are left, and the queues that they name, as a mask (R216). -/
structure Stream where
  addr : Nat
  left : Nat
  queues : Nat := 0
  run : DRef
  deriving DecidableEq, Repr

/-- A program of the store (R203): the slot it begins at is its key. -/
structure Prog where
  length : Nat
  entry : Nat
  deriving DecidableEq, Repr

/-- The engine state of a context on a cluster: what a switch saves (R291). -/
structure Eng where
  nib : NibState := {}
  chains : Table ChainRec := []
  store : Memory := []
  progs : Table Prog := []
  dmem : Memory := []
  tasks : Vector (Option Task) 8 := Vector.replicate 8 none
  cur : Option (Fin 8) := none
  last : Fin 8 := 7
  queues : Vector Queue 7 := Vector.replicate 7 {}
  /-- Bodies ever placed in the cluster's queues. -/
  nextOrd : Nat := 0
  nests : Vector (Option Nest) 2 := Vector.replicate 2 none
  streams : List (Nat × Stream) := []
  /-- The number that the next transfer takes. -/
  nextXfer : Nat := 0
  /-- Transfers issued and outstanding, and SEND parts not yet issued (R238, R317). -/
  xfers : List Xfer := []
  sends : List Xfer := []
  deriving DecidableEq, Repr

structure Cluster where
  ink : Memory := []
  eng : Eng := {}
  /-- The context that runs here (R290). -/
  ctx : Option (Fin 4096) := none
  deriving DecidableEq, Repr

/-- A slot of the key header directory (R65). -/
structure DirSlot where
  header : BitVec 4096
  first : Nat
  base : Nat
  length : Nat
  owner : Nat
  gen : Nat
  kind : Nat
  pin : Bool
  evicting : Bool
  /-- The public key under which its header verified (R328, R329; log 65). -/
  key : Nat × Nat := (0, 0)
  deriving DecidableEq, Repr

/-- A subscription presented and waiting for a sweep (R78, R79). -/
structure Sub where
  cl : Fin 64
  engine : Nat
  /-- The body number of its GSUB. -/
  gsub : Nat
  ctx : Fin 4096
  run : DRef
  batch : Nat
  arrived : Nat
  deriving DecidableEq, Repr

/-- A subscriber of a sweep: its credits and the next unit it takes (R81). -/
structure Subscriber where
  sub : Sub
  credit : Nat := 64
  /-- Fragments issued to it and not arrived: their units, oldest first. -/
  flight : List Nat := []
  /-- The next unit it takes, the unit that the last tag named, and the first fragment's tag. -/
  next : Nat := 0
  last : Nat := 0
  first : Option (BitVec 256) := none
  deriving DecidableEq, Repr

/-- A sweep (R79, R81): the index, the entry copied at its start, the next unit, its subscribers. -/
structure Sweep where
  idx : Nat
  entry : BitVec 256
  unit : Nat := 0
  subs : List Subscriber
  startedAt : Nat
  staged : Bool
  deriving DecidableEq, Repr

/-- A rebuild in progress (R71): when the lookup started it, the state and q_cause that the entry had, and whether the header's signature has
verified. Work that names the entry waits where it stands. -/
structure Rebuild where
  since : Nat
  was : Nat × Nat := (3, 0)
  verified : Bool := false
  /-- The engine could not verify the signature (R339, R340). -/
  failed : Bool := false
  deriving DecidableEq, Repr

/-- Evaluation keys and sweeps (03). -/
structure Keys where
  a : Table (BitVec 256) := []
  b : Table (BitVec 256) := []
  use : Table Nat := []
  epoch : Table Nat := []
  dir : Table DirSlot := []
  /-- Space of the key pool taken by loads and entries: first unit row per stack, and how many (log 14). -/
  alloc : Table (Nat × Nat) := []
  nextStack : Nat := 0
  rebuilds : Table Rebuild := []
  /-- Entries that a KEY_FREE named while a load held them, and that an ABORT or a teardown ended: they go into EVICTING with the load's end (R68). -/
  doomed : List Nat := []
  /-- Waiting subscriptions, by KRT index, oldest first. -/
  subs : Table (List Sub) := []
  sweeps : Vector (Option Sweep) 8 := Vector.replicate 8 none
  /-- Keys that the last epoch chose for the Firn in rank order (R75). -/
  chosen : List Nat := []
  /-- The next unit that a staging copy asks for, by KRT index (R75, R252). -/
  staging : Table Nat := []
  /-- The instant of the last epoch of R75. -/
  epochAt : Nat := 0
  deriving DecidableEq, Repr

/-- What the governor steers a context by (R361): perf, contract address, the contract block as read and whether it is valid, weight,
quantum and sweep bounds. -/
structure Steer where
  perf : Nat := 0
  contract : Nat := 0
  valid : Bool := false
  block : BitVec 512 := 0
  weight : Nat := 1
  quantum : Nat := 10
  sbMin : Nat := 1
  sbMax : Nat := 1
  swMin : Nat := 0
  swMax : Nat := 0
  deriving DecidableEq, Repr

/-- The governor's data of a context (R354, R389 to R391): the values last in force, those it has chosen, and its window. -/
structure Gov where
  last : Steer := {}
  weight : Nat := 1
  batch : Nat := 1
  wait : Nat := 0
  ask : Nat := 750
  hist : Table Nat := []
  errors : Nat := 0
  windowAt : Nat := 0
  admitted : Bool := false
  windows : Nat := 0
  gotRate : Nat := 0
  gotLat : Nat := 0
  short : Bool := false
  risk : Bool := false
  cause : Nat := 0
  /-- The contract block has no translation: the next window ends without writing it. -/
  noWrite : Bool := false
  /-- The block has been read and its risk field not been written since (R388). -/
  unwritten : Bool := false
  deriving DecidableEq, Repr

/-- A context's state (Table 11-3); a FREE context has no entry. -/
inductive CtxState where
  | active | faulted | teardown
  deriving DecidableEq, Repr

def CtxState.code : CtxState → Nat
  | .active => 1 | .faulted => 2 | .teardown => 3

/-- A descriptor read from its ring and not admitted (R276). -/
structure Waiting where
  ring : Fin 4
  idx : BitVec 32
  bits : BitVec 512
  deriving DecidableEq, Repr

/-- A completion record held for credit or a translation: its record with phase 0, and its descriptor (R289, R294). -/
structure Held where
  bits : BitVec 256
  of : DRef
  deriving DecidableEq, Repr

/-- A live context (R270, R275): its descriptor, counts, records held, tenant state, governor data and saved engine state;
`blocks` gives the device block of each local flag slot. -/
structure Ctx where
  st : CtxState := .active
  desc : BitVec 2048 := 0
  faultCause : BitVec 8 := 0
  sqTail : Vector (BitVec 32) 4 := Vector.replicate 4 0
  sqHead : Vector (BitVec 32) 4 := Vector.replicate 4 0
  cqHead : BitVec 32 := 0
  cqPosted : BitVec 32 := 0
  evtHead : BitVec 32 := 0
  evtPosted : BitVec 32 := 0
  evtLost : BitVec 32 := 0
  evtDrop : Nat := 0
  admissions : BitVec 32 := 0
  waiting : List Waiting := []
  held : List Held := []
  heldEvt : List (BitVec 256) := []
  /-- Areas that have failed: 1 submission ring, 2 completion ring, 3 event ring, 4 doorbell page (R289). -/
  failed : List Nat := []
  dropped : Nat := 0
  lostAt : Option Nat := none
  session : Option (BitVec 512 × Nat) := none
  ids : Vector (Option (Nat × Nat)) 8 := Vector.replicate 8 none
  gov : Gov := {}
  /-- What its descriptor says now of R361, which descriptors copy at their admission. -/
  steer : Steer := {}
  runTime : Nat := 0
  inSince : Option Nat := none
  parkedAt : Option Nat := none
  /-- Engine state of the clusters of its partition, by position, once it has run (R291). -/
  saved : Table Eng := []
  /-- Clusters, by position, whose state record it has written. -/
  ran : List Nat := []
  keyUse : Nat := 0
  /-- The running sums of its monitors, Σd² and Σw² (R167). -/
  monSums : Table (FVal × FVal) := []
  blocks : Table Nat := []
  /-- The teardown in progress: the descriptors to complete when it ends. -/
  tearing : List DRef := []
  deriving DecidableEq, Repr

/-- One operand tensor of a plan's step (R445). -/
structure Tensor where
  f : Family
  kset : BitVec 32
  layout : Layout
  count : Nat
  width : Nat
  msg : Nat
  noise : Nat
  carry : Nat
  addr : Nat := 0
  stride : Nat := 0
  deriving DecidableEq, Repr

/-- An output entry of a plan: its descriptor's place and the step's result (R449). -/
structure PlanOut where
  host : Bool
  addr : Nat
  res : Tensor
  deriving DecidableEq, Repr

/-- An input that R47 chose to refresh: its tensor, place and insertion region (R448). -/
structure Insertion where
  t : Tensor
  host : Bool
  addr : Nat
  into : Nat
  deriving DecidableEq, Repr

/-- A QRUN in progress (R205 to R209). -/
structure Run where
  /-- Its clusters, in the order of its set, and the partition's list in force at its admission (R376). -/
  set : List (Fin 64)
  list : List (Fin 64)
  started : Bool := false
  /-- The plan has been checked (R446); families, key handles and LUT handles it names (R447). -/
  checked : Bool := false
  families : List Family := []
  ksets : List (BitVec 32) := []
  luts : List (BitVec 32) := []
  /-- Fingerprints read at admission, by KRT index, of every key set that the plan names (R82, R446), and the entries that its steps need. -/
  fps : Table (BitVec 128) := []
  names : List Nat := []
  outs : List PlanOut := []
  /-- Its descriptors in module memory have been asked for at the channels; its results are on their way there (R259). -/
  descsAsked : Bool := false
  outsSent : Bool := false
  inserts : List Insertion := []
  inserted : Bool := false
  insInk : Nat := 0
  insSize : Nat := 0
  /-- The argument block as the tasks receive it (R448). -/
  args : List Byte := []
  argsRead : Bool := false
  /-- Host pages that the plan check could not have translated (R446). -/
  badPages : List Nat := []
  causes : List (Status × BitVec 32) := []
  failed : Bool := false
  ev : Events := {}
  /-- Additions to the numeric record by layer: saturated, wide (R166), and monitor updates (R167). -/
  layers : Table (Nat × Nat) := []
  mons : List (Nat × FVal × FVal × Bool) := []
  deriving DecidableEq, Repr

/-- A key load in progress (R60): its entry, whether it allocated a pair, the generations to give back (R52), the header once
its checks have passed. -/
structure KeyLoad where
  idx : Nat
  pair : Bool
  oldGen : Nat × Nat := (0, 0)
  started : Bool := false
  header : BitVec 4096 := 0
  qx : Nat := 0
  qy : Nat := 0
  base : Nat := 0
  first : Nat := 0
  units : Nat := 0
  sigDone : Bool := false
  sigOk : Bool := false
  copyDone : Bool := false
  causes : List Status := []
  deriving DecidableEq, Repr

/-- How far an admitted descriptor has come. -/
inductive Progress where
  | fresh
  /-- A CTX_CREATE or CTX_UPDATE whose contract block cannot be translated (R388). -/
  | noContract
  | keyLoad (k : KeyLoad)
  | keyFree (idxs : List Nat)
  /-- A KEY_PIN that waits for its staging: the entries it names, and those that it pinned, with the firn code each had. -/
  | keyPin (idxs : List Nat) (pinned : List (Nat × Nat))
  | flagWait (host : Bool) (index : Nat) (consume : Bool) (deadline : Option Nat)
  | barWait (bar : Nat) (phase : BitVec 16) (deadline : Option Nat)
  | barConfirm
  | peerConfig
  | peerBind (deadline : Nat)
  | pke
  | qrun (r : Run)
  | teardown
  | aborting (left : List DRef) (count : Nat)
  deriving DecidableEq, Repr

/-- An admitted descriptor (R278): its bits, class, mode copy (R360) and what it has met so far. -/
structure Adm where
  bits : BitVec 512
  admitted : Nat
  cls : QClass
  modes : Modes
  /-- Its context's descriptor as it stood at the admission (R295, R360): numeric record, pin permission, quota, fault timeout, flag page. -/
  desc : BitVec 2048 := 0
  steer : Steer := {}
  prog : Progress := .fresh
  degraded : Bool := false
  refreshIns : Bool := false
  /-- KRT indices whose use it counts (R66). -/
  uses : List Nat := []
  deriving DecidableEq, Repr

/-- A translation held by the hub (R286). -/
structure Xl where
  pasid : BitVec 20
  va : Nat
  size : Nat
  write : Bool
  deriving DecidableEq, Repr

/-- An invalidation not yet acknowledged (R288): its range, and the transfers that were outstanding when its entries went. -/
structure Inval where
  pasid : BitVec 20
  va : Nat
  len : Nat
  users : List (Fin 64 × Nat)
  deriving DecidableEq, Repr

/-- A translation asked for (R286), or a page asked for, with the instant its wait ends (R287). -/
structure XlReq where
  pasid : BitVec 20
  va : Nat
  write : Bool
  who : XlWho
  paged : Bool := false
  deadline : Option Nat := none
  deriving DecidableEq, Repr

/-- A device barrier (R309). -/
structure Barrier where
  owner : Fin 4096
  expected : Nat := 0
  root : Nat := 0
  rootBar : Nat := 0
  relValid : Bool := false
  relFlag : Nat := 0
  configured : Bool := false
  count : BitVec 16 := 0
  phase : BitVec 16 := 0
  /-- The port of each arrival of the phase that came from a peer (R312). -/
  ports : List (Fin 2) := []
  deriving DecidableEq, Repr

/-- A peer port (R313, R330): enabled once trained and attested; `msg` is the partner's message while the engine checks it. -/
structure Port where
  enabled : Bool := false
  lanes : BitVec 4 := 0
  partner : BitVec 16 := 0
  attesting : Bool := false
  /-- The nonce that this module has sent and whose report it awaits. -/
  nonce : BitVec 512 := 0
  /-- What the partner has sent in the exchange in progress. -/
  records : Option PeerRecords := none
  report : Option (BitVec 8192) := none
  deriving DecidableEq, Repr

/-- An arrival forwarded to a peer's root barrier and in no phase that has ended there (R312): port, root barrier, barrier here, who waits. -/
structure Forwarded where
  port : Fin 2
  root : Nat
  bar : Nat
  who : Option WaitRef
  deriving DecidableEq, Repr

/-- A binding of R314. -/
structure Binding where
  port : Fin 2
  ctx : Fin 4096
  remote : Fin 4096
  window : Nat
  deriving DecidableEq, Repr

/-- A peer's write under way to module memory (R315): the context, the place and the bytes, the flag that follows, and whether a word of it
has not been written (R257). -/
structure Arrival where
  no : Nat
  ctx : Fin 4096
  addr : Nat
  data : List Byte
  flag : Option (BitVec 12)
  failed : Bool := false
  deriving DecidableEq, Repr

/-- Flags, barriers and peers (12). -/
structure Sync where
  flags : BitVec 32768 := 0
  /-- Owner context and local slot of each allocated block. -/
  blocks : Table (Fin 4096 × Nat) := []
  bars : Table Barrier := []
  moduleId : BitVec 16 := 0
  ports : Vector Port 2 := Vector.replicate 2 {}
  bindings : List Binding := []
  /-- Writes of peers that the channels have not all served (R315), and the number that the next takes. -/
  arrivals : List Arrival := []
  nextArrival : Nat := 0
  /-- Arrivals forwarded to peers' roots, oldest first. -/
  forwarded : List Forwarded := []
  deriving DecidableEq, Repr

/-- An operation of the public-key engine (R333, R334). -/
inductive PkeOp where
  | context (d : DRef)
  | keyVerify (d : DRef)
  | rebuild (idx : Nat)
  /-- The report over a partner's nonce, and the check of the partner's chain (R330). -/
  | peerReport (port : Fin 2)
  | peer (port : Fin 2)
  deriving DecidableEq, Repr

/-- Owner of an operation for the wipe (R333): the module, or a context. -/
inductive PkeOwner where
  | module
  | context (c : Fin 4096)
  deriving DecidableEq, Repr

/-- The running operation: the instant it ends, and what its operands were at its start. -/
structure PkeRun where
  op : PkeOp
  ends : Nat
  /-- The status decided, the result bytes and the result word; what a session operation leaves. -/
  status : Status
  out : List Byte := []
  word : Nat := 0
  session : Option (BitVec 512) := none
  register : Option (Nat × Nat) := none
  /-- T has passed; the wipe that follows is not over. -/
  ended : Bool := false
  /-- It writes nothing at its end, not even undefined bytes: a difference or an unclean wipe (R339), or its context's teardown (R341). -/
  mute : Bool := false
  deriving DecidableEq, Repr

/-- The security block (13). -/
structure Security where
  aliasKey : Option Nat := none
  aliasRecord : BitVec 4096 := 0
  waiting : List PkeOp := []
  running : Option PkeRun := none
  /-- The instant at which the wipe in progress ends (R333). -/
  wiping : Option Nat := none
  owner : Option PkeOwner := none
  testing : Bool := false
  entropyFail : Bool := false
  mismatch : BitVec 32 := 0
  deriving DecidableEq, Repr

/-- A fault record as it stands at its detection (Table 15-2), and the trace level of the command it names, or of its context (R360). -/
structure FaultRec where
  bits : BitVec 512
  level : Nat
  /-- Cluster and queue of its trace record: of the failed command, else of the unit. -/
  cluster : Nat := 0
  queue : Nat := 0
  deriving DecidableEq, Repr

/-- A latent-fault test of a unit (R378). -/
structure UnitTest where
  lastPass : Nat := 0
  due : Bool := false
  testing : Bool := false
  /-- Detections that wait for the unit's test: the fault records to write when it ends (R369). -/
  faults : List FaultRec := []
  deriving DecidableEq, Repr

/-- Transients and tests of the units, by unit number (15). -/
structure Health where
  /-- When the tests of start-up passed. -/
  basePass : Nat := 0
  transients : Table (List Nat) := []
  tests : Table UnitTest := []
  deriving DecidableEq, Repr

/-- An observation counter (R408, R409). -/
structure Counter where
  sel : BitVec 32 := 0
  val : BitVec 64 := 0
  rem : Nat := 0
  deriving DecidableEq, Repr

/-- Observation (17). -/
structure Obs where
  ctrs : Table Counter := []
  freeze : Bool := false
  snapBusy : Option (List (BitVec 64)) := none
  snapErr : Bool := false
  freezeTime : BitVec 64 := 0
  /-- The instants F and U of the latest freeze and unfreeze (R410). -/
  holdAt : Nat := 0
  resumeAt : Nat := 0
  /-- F and U of earlier freezes whose U had not come when the counters were frozen again. -/
  holds : List (Nat × Nat) := []
  /-- The counters at the instant F of a snapshot in progress, and whether freeze was set. -/
  snapAt : Nat := 0
  snapFrozen : Bool := false
  snapAddr : BitVec 64 := 0
  snapSeq : BitVec 32 := 0
  traceBase : BitVec 64 := 0
  traceCb : BitVec 64 := 0
  traceOn : Bool := false
  traceSize : BitVec 4 := 0
  head : BitVec 32 := 0
  tail : BitVec 32 := 0
  lost : BitVec 32 := 0
  lostSince : Nat := 0
  lastAt : Option Nat := none
  /-- A record that waits for its 16 ns behind the LOST record that goes before it (R416, R418). -/
  due : Option (BitVec 256) := none
  stoppedAt : Option Nat := none
  deriving DecidableEq, Repr

/-- What the module has sent (R269, R284, R313, R372): interrupt data written to an address, the link error message,
frames to a peer. -/
inductive Message where
  | interrupt (sp : HostSpace) (addr : BitVec 64) (data : BitVec 32)
  | linkError
  | translate (pasid : BitVec 20) (va : Nat)
  | pageRequest (pasid : BitVec 20) (va : Nat)
  | invalidateAck (pasid : BitVec 20) (va : Nat)
  | peerWrite (port : Fin 2) (ctx : Fin 4096) (off : Nat) (data : List Byte) (rflag : Option (BitVec 12))
  | peerArrive (port : Fin 2) (ctx : Fin 4096) (bar : Nat)
  | peerRelease (port : Fin 2) (bar arrivals : Nat)
  | peerBind (port : Fin 2) (ctx remote : Fin 4096)
  | peerConfirm (port : Fin 2) (ctx : Fin 4096) (bar : Nat)
  | peerAttest (port : Fin 2) (report : List Byte)
  /-- The module's own address, in answer to the alert response address (R438). -/
  | alertAnswer (addr : BitVec 7)
  deriving DecidableEq, Repr

/-- Pins, management, power and set-up: what the work of engines, rings and keys reads and never changes. -/
structure Env where
  board : Board := {}
  serac : Serac := {}
  power : Power := {}
  setup : Setup := {}
  /-- MEM_CLASS_SHARE: bulk, ks, lc (Table 10-7). -/
  share : BitVec 24 := 0x082010
  shareErr : Bool := false
  /-- M0 to M7 (R322). -/
  meas : Vector (BitVec 512) 8 := Vector.replicate 8 0
  deriving DecidableEq, Repr

structure State where
  /-- Commands that wait, first in, first out. -/
  pending : List Instr := []
  env : Env := {}
  /-- The counter of free values (log 7). -/
  free : Nat := 0
  /-- HUB_TIMEBASE, in ns (R436). -/
  timebase : Nat := 0
  hub : Hub := {}
  moraine : Moraine := {}
  mem : Memory := []
  memsys : MemSys := {}
  /-- Host memory as the link has shown it: 0 physical, pasid + 1 otherwise (log 6). -/
  host : Table Memory := []
  keys : Keys := {}
  clusters : Vector Cluster 64 := Vector.replicate 64 {}
  ctxs : Table Ctx := []
  /-- Admitted descriptors that have not completed, oldest first. -/
  descs : List (DRef × Adm) := []
  xls : List Xl := []
  reqs : List XlReq := []
  /-- Invalidations not yet acknowledged (R288). -/
  invals : List Inval := []
  sync : Sync := {}
  sec : Security := {}
  health : Health := {}
  obs : Obs := {}
  /-- Messages sent, newest first. -/
  sent : List Message := []
  /-- A context switch in progress in a partition: the context that comes in (R290). -/
  switching : Table (Option (Fin 4096) × Nat) := []
  deriving DecidableEq, Repr

/-- The module right after a module reset: every field at the value the spec gives, or the value log 16 names. -/
def State.reset : State := {}

end Sys2Proof.Machine
end

