-- ==== Sys2Proof/Machine/Ops.lean ====
section
/-! DEFINITION. Operations that many commands share: places and partitions, time, host memory and its translations,
the Moraine, counters, trace, events, completion records. -/

namespace Sys2Proof.Machine

/-- What a command answers. -/
abbrev Out := Host.Outcome State Fault Refusal

/-- The state after work of engines, rings or keys: whatever f does, pins, management, power, set-up and the queue of
commands stay as they were. -/
def State.work (s : State) (f : State → State) : State := { f s with env := s.env, pending := s.pending }

/-- A draw of the counter of free values (log 7). -/
def State.drawn (s : State) : State := { s with free := s.free + 1 }

abbrev State.shed (s : State) : Nat := s.env.power.shed.level
/-- The module is ready for rings (Table 16-10). -/
def State.ready (s : State) : Bool := s.env.serac.st == .ready

/-- Happens only when its condition holds: a command whose happening cannot take place here changes nothing (log 2). -/
def State.when (c : Bool) (s t : State) : State := if c then t else s

/-! ### Places -/

def State.parts (s : State) : Nat := (partCount s.env.setup.partCode.toNat).getD 1
/-- Clusters of one partition (R19). -/
def State.perPart (s : State) : Nat := 64 / s.parts
def State.partOf (s : State) (cl : Nat) : Nat := cl / s.perPart
def allClusters : List (Fin 64) := List.finRange 64
def State.clustersOf (s : State) (part : Nat) : List (Fin 64) := allClusters.filter fun c => s.partOf c == part
def dieOf (cl : Nat) : Nat := cl / 16

def State.clFenced (s : State) (cl : Nat) : Bool := s.hub.fenceCl.getLsbD cl
def State.thawFenced (s : State) (cl e : Nat) : Bool := s.hub.fenceThaw.getLsbD (2 * cl + e)
def State.chFenced (s : State) (ch : Nat) : Bool := s.hub.fenceCh.getLsbD ch
/-- Some channel of a stack is fenced. -/
def State.stackFenced (s : State) (stk : Nat) : Bool := fld s.hub.fenceCh (8 * stk + 7) (8 * stk) != 0
/-- A range of module memory touches a stack with a fenced channel (R253, R265). -/
def State.memFenced (s : State) (a len : Nat) : Bool :=
  s.hub.fenceCh != 0 && (upTo (min 20 ((a % 4096 + len + 4095) / 4096))).any fun i => s.stackFenced ((a / 4096 + i) % 20)
def State.glacierFenced (s : State) (d : Nat) : Bool := s.hub.fenceMisc.getLsbD (3 + d)
def State.firnFenced (s : State) (d : Nat) : Bool := s.hub.fenceMisc.getLsbD (7 + d)
def State.portFenced (s : State) (p : Nat) : Bool := s.hub.fenceMisc.getLsbD (21 + p)
def State.krtFenced (s : State) : Bool := fld s.hub.fenceMisc 24 23 != 0
def State.pkeFenced (s : State) : Bool := s.hub.fenceMisc.getLsbD 25
/-- Every Glacier is fenced (Table 15-5). -/
def State.noGlacier (s : State) : Bool := fld s.hub.fenceMisc 6 3 == 15

/-- The logical list of a partition: its unfenced clusters in ascending number (R376). -/
def State.unfenced (s : State) (part : Nat) : List (Fin 64) := (s.clustersOf part).filter fun c => !s.clFenced c

/-- The partition of a context has no unfenced cluster: every command of it completes with UNIT_FENCED (R376). Context 0 has no partition. -/
def State.deadPart (s : State) (cx : Nat) : Bool := cx != 0 && match s.ctxs.find cx with
  | some c => (s.unfenced (fld c.desc 101 96)).isEmpty
  | none => false

/-- Unit numbers of Table 15-4. -/
def unitNo (kind idx : Nat) : Nat := kind * 2048 + idx

/-- A unit's test data: units not listed passed their tests at start-up. -/
def State.testOf (s : State) (u : Nat) : UnitTest := s.health.tests.get { lastPass := s.health.basePass } u
def State.updTest (s : State) (u : Nat) (f : UnitTest → UnitTest) : State :=
  { s with health := { s.health with tests := s.health.tests.set u (f (s.testOf u)) } }

/-- A unit is out of service: under its latent-fault test, or suspect after a detection (R369, R378). -/
def State.unitOut (s : State) (kind idx : Nat) : Bool :=
  let t := s.testOf (unitNo kind idx)
  t.testing || !t.faults.isEmpty

/-- A unit is under its latent-fault test: what runs on it pauses (R378). -/
def State.underTest (s : State) (kind idx : Nat) : Bool := (s.testOf (unitNo kind idx)).testing

/-- The bridge between two compute dies (Table 15-4): 0 to 5, a pair of dies each. -/
def bridgeNo (a b : Nat) : Nat := match min a b, max a b with
  | 0, 1 => 0 | 0, 2 => 1 | 0, _ => 2
  | 1, 2 => 3 | 1, _ => 4
  | _, _ => 5

/-! ### Time -/

/-- Whether events stamped now are counted (R410): not between F and U of a freeze. -/
def Obs.counting (o : Obs) (now : Nat) : Bool :=
  (now < o.holdAt || (!o.freeze && o.resumeAt ≤ now)) && o.holds.all fun h => now < h.1 || h.2 ≤ now

/-- The ns from a to b that are counted. -/
def Obs.counted (o : Obs) (a b : Nat) : Nat :=
  b - a - (((o.holdAt, if o.freeze then b else o.resumeAt) :: o.holds).map fun h => min b h.2 - max a h.1).sum

/-- Events of Table 17-3 that count waits and busy times in nc, turns of stretch, or physical accesses: free values (log 11). -/
def physEvent (e : Nat) : Bool := [0x101, 0x200, 0x203, 0x302, 0x400, 0x502, 0x600, 0x601, 0x602, 0xA00].contains e

/-- What the time from a to b adds to a counter: ns of event 0xF00 in the hub's, or what a physical event's counter finds. -/
def Obs.passed (o : Obs) (a b n : Nat) (sel : BitVec 32) : BitVec 64 :=
  let e := fld sel 11 0
  if !sel.getLsbD 31 || o.counted a b = 0 then 0
  else if e = 0xF00 && n < 64 then BitVec.ofNat 64 (o.counted a b)
  else if physEvent e then Config.physCount sel.toNat n a b
  else 0

/-- The time from a to b in every counter, but for those of a fenced cluster. -/
def Obs.elapse (o : Obs) (fenced : Nat → Bool) (a b : Nat) : Obs :=
  { o with ctrs := o.ctrs.map fun p => if 192 ≤ p.1 && fenced ((p.1 - 192) / 16) then p else (p.1, { p.2 with val := p.2.val + o.passed a b p.1 p.2.sel }) }

/-- The counters' places of Table 17-1. -/
def ctrPlace (n : Nat) (die cl : Option Nat) : Bool :=
  if n < 64 then true
  else if n < 192 then die == some ((n - 64) / 32)
  else cl == some ((n - 192) / 16)

/-- The number of units that add 1 to a counter (Table 17-3). -/
def ctrScale (e : Nat) : Nat := if e = 0x201 ∨ e = 0x202 then 4096 else if e = 0x401 ∨ e = 0x501 then 64 else 1

/-- The values at the instant F of a snapshot in progress are held once it has come (R411). -/
def Obs.capture (o : Obs) (now : Nat) : Obs :=
  match o.snapBusy with
  | some [] => if o.snapAt ≤ now then { o with snapBusy := some ((upTo 1216).map fun n => (o.ctrs.get {} n).val) } else o
  | _ => o

/-- n units of an event counted in every counter that selects it (R407 to R409). -/
def Obs.count (o : Obs) (now : Nat) (e : Nat) (die cl ctx : Option Nat) (n : Nat) : Obs :=
  let o := o.capture now
  if o.counting now then
    let bump (p : Nat × Counter) : Nat × Counter :=
      let (k, c) := p
      if c.sel.getLsbD 31 && fld c.sel 11 0 == e && ctrPlace k die cl && (!c.sel.getLsbD 30 || ctx == some (fld c.sel 29 18)) then
        let t := c.rem + n
        (k, { c with val := c.val + BitVec.ofNat 64 (t / ctrScale e), rem := t % ctrScale e })
      else (k, c)
    { o with ctrs := o.ctrs.map bump }
  else o

/-- An event of a cluster, of a die, or of the hub. -/
def State.tallyCl (s : State) (e : Nat) (cl : Nat) (ctx : Option Nat) (n : Nat := 1) : State :=
  { s with obs := s.obs.count s.timebase e (some (dieOf cl)) (some cl) ctx n }
def State.tallyDie (s : State) (e die n : Nat) : State := { s with obs := s.obs.count s.timebase e (some die) none none n }
def State.tally (s : State) (e : Nat) (ctx : Option Nat := none) (n : Nat := 1) : State :=
  { s with obs := s.obs.count s.timebase e none none ctx n }

/-- The timebase moves forward to t (R436, log 3); elapsed ns are counted, and a snapshot whose instant F lies on the way takes the values that the
counters have there (R411). -/
def State.advance (s : State) (t : Nat) : State :=
  if t ≤ s.timebase then s
  else
    let mid := max s.timebase (min t s.obs.snapAt)
    { s with timebase := t, obs := ((((s.obs.capture s.timebase).elapse s.clFenced s.timebase mid).capture mid).elapse s.clFenced mid t).capture t }

/-- The next instant of a period: a multiple of it after the last instant and not in the past (log 3). -/
def nextTick (period last now : Nat) : Nat := max (last / period * period + period) (divUp now period * period)

/-! ### Contexts -/

/-- Bits of a context descriptor (Table 11-2). -/
def Ctx.f (c : Ctx) (hi lo : Nat) : Nat := fld c.desc hi lo
def Ctx.part (c : Ctx) : Nat := c.f 101 96
def Ctx.ringClass (c : Ctx) (r : Nat) : Option QClass := QClass.ofCode (c.f (4 * r + 147) (4 * r + 144))
def Ctx.sqSize (c : Ctx) (r : Nat) : Nat := 2 ^ (6 + c.f (4 * r + 163) (4 * r + 160))
def Ctx.sqBase (c : Ctx) (r : Nat) : Nat := c.f (64 * r + 575) (64 * r + 512)
def Ctx.cqSize (c : Ctx) : Nat := 2 ^ (6 + c.f 179 176)
def Ctx.evtSize (c : Ctx) : Nat := 2 ^ (6 + c.f 183 180)
def Ctx.cqBase (c : Ctx) : Nat := c.f 831 768
def Ctx.dbPage (c : Ctx) : Nat := c.f 895 832
def Ctx.evtBase (c : Ctx) : Nat := c.f 959 896
def Ctx.flagPage (c : Ctx) : Nat := c.f 1215 1152
def Ctx.faultTimeout (c : Ctx) : Nat := c.f 255 240
def Ctx.numrec (c : Ctx) : Nat := c.f 1151 1088
def Ctx.pasid (c : Ctx) : BitVec 20 := BitVec.ofNat 20 (c.f 83 64)

/-- Module memory, in units of 2 MiB (R252). -/
def memUnits : Nat := 491520

/-- A range lies in the context's window of module memory (R285). DESIGN CHOICE: of a window that reaches past the stacks only what they hold
counts (log 78). -/
def Ctx.inWindow (c : Ctx) (a len : Nat) : Bool :=
  let base := 2 ^ 21 * c.f 339 320
  base ≤ a && a + len ≤ base + 2 ^ 21 * c.f 371 352 && a + len ≤ 2 ^ 21 * memUnits

/-- Classes of a context's rings. -/
def Ctx.classes (c : Ctx) : List QClass := (upTo 4).filterMap c.ringClass

/-- Jasil compatibility in force (R346): jcompat 2, or 0 with JCOMPAT_N sampled low. -/
def State.jasilEff (s : State) (c : Ctx) : Bool := c.f 134 133 == 2 || (c.f 134 133 == 0 && !s.env.board.jcompatN)

/-- The copy of the modes that a descriptor takes at its admission (R360). -/
def State.modesOf (s : State) (c : Ctx) : Modes where
  flush := c.f 128 128 == 1
  saturate := c.f 129 129 == 1
  stoch := c.f 130 130 == 1
  seed := BitVec.ofNat 64 (c.f 511 448)
  insert := c.f 131 131 == 1
  dual := c.f 132 132 == 1
  jasil := s.jasilEff c
  trace := c.f 139 137

/-- The ignored field of ctx_status (R349). -/
def State.ignoredBits (s : State) (c : Ctx) : Nat :=
  let cl := c.classes
  let clear := cl.contains .clear
  let enc := cl.contains .encNative || cl.contains .encJasil || cl.contains .gate
  let j := s.jasilEff c
  packNat [(1, boolNat (c.f 128 128 == 1 && !clear)), (1, boolNat (c.f 129 129 == 1 && !clear)),
    (1, boolNat ((c.f 130 130 == 1 && !clear) || (c.f 130 130 == 1 && j))), (1, boolNat (c.f 131 131 == 1 && !enc)),
    (1, boolNat (c.f 132 132 == 1 && !clear && !enc)), (1, boolNat ((c.f 134 133 != 0 && !clear) || (j && !clear))),
    (1, boolNat (c.f 136 135 != 0 && cl.all (· == .admin))), (1, boolNat (c.f 139 137 != 0 && cl.all (· == .admin)))]

/-- The command of a context waits for a page response (R287). -/
def State.parkedOf (s : State) (cx : Nat) : Bool :=
  s.reqs.any fun r => r.paged && match r.who with
    | .work c _ => c.val == cx
    | .area _ _ => false

/-- ctx_status (Table 11-9); 0 for a FREE context (R424). -/
def State.ctxStatus (s : State) (cx : Nat) : BitVec 32 :=
  match s.ctxs.find cx with
  | none => 0
  | some c => BitVec.ofNat 32 (packNat [(2, c.st.code), (1, boolNat (s.jasilEff c)), (1, boolNat (s.parkedOf cx)), (4, 0),
      (8, s.ignoredBits c), (8, c.faultCause.toNat)])

def State.updCtx (s : State) (cx : Nat) (f : Ctx → Ctx) : State := { s with ctxs := s.ctxs.upd cx f }

/-- Clusters that a context's partition has; context 0 has none. -/
def State.ctxClusters (s : State) (cx : Nat) : List (Fin 64) :=
  if cx = 0 then [] else match s.ctxs.find cx with
    | some c => s.clustersOf c.part
    | none => []

/-- A command of the context would carry DEGRADED now (R358). -/
def State.degradedNow (s : State) (cx : Nat) : Bool :=
  s.shed ≥ 1 || s.hub.fenceCh != 0 || fld s.hub.fenceMisc 26 3 != 0 ||
  (s.ctxClusters cx).any fun c => s.clFenced c || s.thawFenced c 0 || s.thawFenced c 1

/-- Every admitted descriptor marked DEGRADED whose partition a fence or the shed level now touches (R358). -/
def State.markDegraded (s : State) : State :=
  { s with descs := s.descs.map fun (d, a) => (d, { a with degraded := a.degraded || s.degradedNow d.ctx }) }

def State.adm (s : State) (d : DRef) : Option Adm := (s.descs.find? (·.1 == d)).map (·.2)
def State.updAdm (s : State) (d : DRef) (f : Adm → Adm) : State :=
  { s with descs := s.descs.map fun (e, a) => if e = d then (e, f a) else (e, a) }
def State.setProg (s : State) (d : DRef) (p : Progress) : State := s.updAdm d fun a => { a with prog := p }

/-- The body of a descriptor: bytes 16 to 63 (R277). -/
def Adm.body (a : Adm) : BitVec 384 := BitVec.ofNat 384 (fld a.bits 511 128)
/-- The context as the descriptor sees it: with the fields in force at its admission (R295). -/
def Adm.view (a : Adm) (c : Ctx) : Ctx := { c with desc := a.desc }
def Adm.opcode (a : Adm) : Nat := fld a.bits 7 0
def Adm.fence (a : Adm) : Bool := fld a.bits 8 8 == 1

/-! ### What the governor steers by (R354, R361) -/

def Steer.isContract (t : Steer) : Bool := t.perf == 0 && t.contract != 0 && t.valid

/-- The copy of the oldest admitted descriptor of a context that has not completed; without one, the values last in force. -/
def State.steerOf (s : State) (cx : Nat) : Steer :=
  match s.descs.find? fun (p : DRef × Adm) => p.1.ctx.val == cx with
  | some p => p.2.steer
  | none => ((s.ctxs.find cx).map fun (c : Ctx) => c.gov.last).getD {}

/-- A context has admitted work. -/
def State.hasWork (s : State) (cx : Nat) : Bool := s.descs.any fun (p : DRef × Adm) => p.1.ctx.val == cx

def clampNat (lo hi x : Nat) : Nat := max lo (min hi x)

/-- Weight, sweep_batch and sweep_wait in force. -/
def State.weightOf (s : State) (cx : Nat) : Nat :=
  let t := s.steerOf cx
  if t.isContract then clampNat t.weight 255 (((s.ctxs.find cx).map fun (c : Ctx) => c.gov.weight).getD 1) else t.weight
def State.batchOf (s : State) (cx : Nat) : Nat :=
  let t := s.steerOf cx
  if t.isContract then clampNat t.sbMin t.sbMax (((s.ctxs.find cx).map fun (c : Ctx) => c.gov.batch).getD 1) else t.sbMax
def State.sweepWaitOf (s : State) (cx : Nat) : Nat :=
  let t := s.steerOf cx
  if t.isContract then clampNat t.swMin t.swMax (((s.ctxs.find cx).map fun (c : Ctx) => c.gov.wait).getD 0) else t.swMax

/-! ### Host memory and translation -/

/-- The key of a host address space in the state: 0 physical, pasid + 1 otherwise. -/
def spaceKey : HostSpace → Nat
  | .phys => 0
  | .pasid p => p.toNat + 1

/-- The space of a context's addresses: physical for context 0 (11). -/
def State.spaceOf (s : State) (cx : Nat) : HostSpace :=
  if cx = 0 then .phys else match s.ctxs.find cx with
    | some c => .pasid c.pasid
    | none => .phys

def State.hostMem (s : State) (sp : HostSpace) : Memory := s.host.get [] (spaceKey sp)
def State.hostRead (s : State) (sp : HostSpace) (a n : Nat) : List Byte := (s.hostMem sp).read a n
def State.hostNat (s : State) (sp : HostSpace) (a n : Nat) : Nat := (s.hostMem sp).readNat a n
def State.hostWrite (s : State) (sp : HostSpace) (a : Nat) (bs : List Byte) : State :=
  { s with host := s.host.set (spaceKey sp) ((s.hostMem sp).write a bs) }
def State.hostPut (s : State) (sp : HostSpace) (a n v : Nat) : State := s.hostWrite sp a (leBytes n v)

def State.send (s : State) (m : Message) : State := { s with sent := m :: s.sent }

/-- The 4 KiB pages that a range touches. -/
def pagesOf (va len : Nat) : List Nat := if len = 0 then [] else (upTo ((va + len - 1) / 4096 - va / 4096 + 1)).map fun i => (va / 4096 + i) * 4096

def Xl.covers (x : Xl) (p : BitVec 20) (va : Nat) (write : Bool) : Bool :=
  x.pasid == p && x.va ≤ va && va < x.va + x.size && (!write || x.write)

/-- The hub holds a translation of every byte of the range with the access needed (R286). -/
def State.xlOk (s : State) (sp : HostSpace) (va len : Nat) (write : Bool) : Bool :=
  match sp with
  | .phys => true
  | .pasid p => (pagesOf va len).all fun a => s.xls.any (·.covers p a write)

/-- Translations asked for on behalf of someone, one request a page (R286). -/
def State.ask (s : State) (who : XlWho) (sp : HostSpace) (va len : Nat) (write : Bool) : State :=
  match sp with
  | .phys => s
  | .pasid p =>
    let cx : Option Nat := some who.ctx.val
    ((pagesOf va len).filter fun a => !s.xls.any (·.covers p a write)).foldl (fun (s : State) a =>
      if s.reqs.any fun r => r.pasid == p && r.va == a && r.who == who then s
      else ({ s with reqs := s.reqs ++ [({ pasid := p, va := a, write := write, who := who } : XlReq)] }.send (.translate p a)).tally 0xC04 cx) s

/-- Someone waits for a translation or a page. -/
def State.waitsXl (s : State) (who : XlWho) : Bool := s.reqs.any (·.who == who)

/-- A grant of the host enters the cache of 16,384 entries; the oldest leaves when it is full (log 30). -/
def State.grantXl (s : State) (p : BitVec 20) (va : Nat) (g : Granule) (write : Bool) : State :=
  let size := match g with
    | .g4k => 2 ^ 12
    | .g2m => 2 ^ 21
    | .g1g => 2 ^ 30
  { s with xls := (if s.xls.length < 16384 then s.xls else s.xls.drop 1) ++ [({ pasid := p, va := va / size * size, size, write } : Xl)] }

/-! ### The Moraine -/

/-- A record enters the mirror at the next position (R400, R401), its seq filled in at [149:118]. -/
def State.log (s : State) (rec : BitVec 512) : State :=
  let m := s.moraine
  { s with moraine := { log := m.log.set (m.pos % 65536) (putFld rec 149 118 m.seq), pos := m.pos + 1, seq := m.seq + 1 } }.tally 0xE01

/-- A record of Table 16-9. -/
def State.record (s : State) (kind data0 data1 : Nat) : State :=
  s.log (BitVec.ofNat 512 (packNat [(8, kind), (312, 0), (64, data1), (64, data0), (64, s.timebase)]))

/-! ### Trace -/

/-- A trace record's fields (Table 17-8), time and phase apart. -/
structure TraceRec where
  kind : Nat
  ctx : Nat
  data : Nat := 0
  aux : Nat := 0
  tag : Nat := 0
  iter : Nat := 0
  body : Nat := 0
  cluster : Nat := 0
  queue : Nat := 0
  status : Nat := 0

def Obs.traceCount (o : Obs) : Nat := 2 ^ (11 + o.traceSize.toNat)

/-- A record of an event of this instant, its phase apart. -/
def State.traceBits (s : State) (r : TraceRec) : BitVec 256 :=
  BitVec.ofNat 256 (packNat [(8, r.kind), (1, 0), (32, r.aux), (8, r.status), (3, r.queue), (6, r.cluster),
    (12, r.ctx), (2, r.body), (24, r.iter), (32, r.tag), (64, r.data), (64, s.timebase)])

/-- One record into the buffer, at the next place, with the phase of R281. -/
def State.tracePut (s : State) (b : BitVec 256) : State :=
  let o := s.obs
  let p := o.tail.toNat
  let s := s.hostPut .phys (o.traceBase.toNat + 32 * (p % o.traceCount)) 32 (putFld b 8 8 (boolNat (p / o.traceCount % 2 == 0))).toNat
  let s := { s with obs := { o with tail := o.tail + 1, lastAt := some s.timebase } }
  s.hostPut .phys (o.traceCb.toNat + 0x40) 4 (o.tail + 1).toNat

/-- One dropped record (R416). -/
def State.traceDrop (s : State) : State :=
  let l := if s.obs.lost = 0xFFFFFFFF#32 then s.obs.lost else s.obs.lost + 1
  { s with obs := { s.obs with lost := l, lostSince := s.obs.lostSince + 1 } }.hostPut .phys (s.obs.traceCb.toNat + 0x44) 4 l.toNat

/-- 16 ns have passed since the last record; the buffer has a place. -/
def State.traceRate (s : State) : Bool := match s.obs.lastAt with
  | none => true
  | some t => t + 16 ≤ s.timebase
def State.traceRoom (s : State) : Bool := (s.obs.tail - s.obs.head).toNat < s.obs.traceCount

/-- A record that waits behind a LOST record goes into the buffer once 16 ns have passed, or is dropped where the buffer is full. -/
def State.traceDue (s : State) : State :=
  match s.obs.due with
  | some b =>
    if !s.traceRate then s
    else
      let t := { s with obs := { s.obs with due := none } }
      if s.traceRoom then t.tracePut b else t.traceDrop
  | none => s

/-- A record written, or dropped and counted, for the rate or for a full buffer alone (R416); after a drop a LOST record goes before it, and it waits
the 16 ns (log 28). -/
def State.traceAny (s : State) (r : TraceRec) : State :=
  if !s.obs.traceOn then s
  else
    let s := s.traceDue
    if s.obs.due.isSome || !s.traceRate || !s.traceRoom then s.traceDrop
    else if s.obs.lostSince > 0 then
      let n := s.obs.lostSince
      { s with obs := { s.obs with lostSince := 0, due := some (s.traceBits r) } }.tracePut (s.traceBits { kind := 0x20, ctx := 0, data := n })
    else s.tracePut (s.traceBits r)

/-- The head line is read when the module comes to hold it (R415, R275). -/
def State.traceHold (s : State) : State :=
  { s with obs := { s.obs with head := BitVec.ofNat 32 (s.hostNat .phys s.obs.traceCb.toNat 4) } }

/-- The trace level of a context. -/
def State.traceLevel (s : State) (cx : Nat) : Nat := ((s.ctxs.find cx).map fun c => c.f 139 137).getD 0

/-- A record of a context's level, made only at shed level 0 (R413, R416). -/
def State.trace (s : State) (level lv : Nat) (r : TraceRec) : State :=
  if s.shed ≥ 1 || level < lv then s else s.traceAny r

/-! ### Events and completion records -/

/-- The phase bit of record p of a ring: 1 on odd passes, the first pass being 1 (Table 11-12). -/
def phaseOf (p size : Nat) : Nat := boolNat (p / size % 2 == 0)

/-- The words of the doorbell page that the module writes (Table 11-8). -/
def State.writeDb (s : State) (cx : Nat) : State :=
  match s.ctxs.find cx with
  | none => s
  | some c =>
    let sp := s.spaceOf cx
    if s.xlOk sp (c.dbPage + 0x180) 0x20 true then
      s.hostPut sp (c.dbPage + 0x180) 0x20 (packNat ([c.sqHead[0], c.sqHead[1], c.sqHead[2], c.sqHead[3], c.cqPosted, c.evtPosted,
        c.evtLost, s.ctxStatus cx].map fun w => (32, w.toNat)))
    else if c.failed.contains 4 then s
    else s.ask (.area (Fin.ofNat 4096 cx) 4) sp (c.dbPage + 0x180) 0x20 true

/-- Waits for translations end. With the last one that parked its work a context's parked bit goes, and the instant of its parking (R275,
R287). -/
def State.endReqs (s : State) (cx : Nat) (gone : XlReq → Bool) : State :=
  let was := s.parkedOf cx
  let s := { s with reqs := s.reqs.filter fun r => !gone r }
  if !was || s.parkedOf cx then s else (s.updCtx cx fun c => { c with parkedAt := none }).writeDb cx

/-- The interrupt message of R284. -/
def State.interrupt (s : State) (cx : Nat) : State :=
  match s.ctxs.find cx with
  | none => s
  | some c =>
    let a := c.f 1023 960
    if a = 0 then s
    else if s.xlOk (s.spaceOf cx) a 4 true then s.send (.interrupt (s.spaceOf cx) (BitVec.ofNat 64 a) (BitVec.ofNat 32 (c.f 1055 1024)))
    else s.ask (.area (Fin.ofNat 4096 cx) 5) (s.spaceOf cx) a 4 true

/-- An event record into its ring (R282): dropped and counted when the ring is full, held while its page has no translation. -/
def State.putEvent (s : State) (cx : Nat) (bits : BitVec 256) : State :=
  match s.ctxs.find cx with
  | none => s
  | some c =>
    let size := c.evtSize
    let p := c.evtPosted.toNat
    let at_ := c.evtBase + 32 * (p % size)
    let sp := s.spaceOf cx
    if (c.evtPosted - c.evtHead).toNat ≥ size then
      (s.updCtx cx fun c => { c with evtLost := if c.evtLost = 0xFFFFFFFF#32 then c.evtLost else c.evtLost + 1, evtDrop := c.evtDrop + 1 }).writeDb cx
    else if !c.heldEvt.isEmpty || !s.xlOk sp at_ 32 true then
      if c.failed.contains 3 then s
      else (s.updCtx cx fun c => { c with heldEvt := c.heldEvt ++ [bits] }).ask (.area (Fin.ofNat 4096 cx) 3) sp at_ 32 true
    else
      let b := putFld (putFld bits 32 32 (phaseOf p size)) 31 16 (min c.evtDrop 0xFFFF)
      let s := s.hostPut sp at_ 32 b.toNat
      let s := (s.updCtx cx fun c => { c with evtPosted := c.evtPosted + 1, evtDrop := 0 }).writeDb cx
      if (c.evtPosted + 1 - c.evtHead) = 1 then s.interrupt cx else s

/-- An event of Table 11-14 raised into a context's ring; `about` is the context concerned. -/
def State.raise (s : State) (cx code about p0 p1 : Nat) : State :=
  s.putEvent cx (BitVec.ofNat 256 (packNat [(8, code), (28, 0), (12, about), (16, 0), (64, s.timebase), (64, p0), (64, p1)]))

/-- An area of a context has failed: the context goes into FAULTED (R289). -/
def State.faultCtx (s : State) (cx cause va : Nat) : State :=
  let s := s.updCtx cx fun c => { c with failed := if c.failed.contains cause then c.failed else c.failed ++ [cause] }
  match s.ctxs.find cx with
  | some c =>
    if c.st = .active then
      ((s.updCtx cx fun c => { c with st := .faulted, faultCause := BitVec.ofNat 8 cause }).writeDb cx).raise 0 0x05 cx va cause
    else s
  | none => s

/-- One completion record dropped (R289): RECORD_LOST at a context's first drop. -/
def State.dropRecord (s : State) (cx : Nat) : State :=
  match s.ctxs.find cx with
  | none => s
  | some c =>
    if c.lostAt.isNone then
      (s.updCtx cx fun c => { c with lostAt := some s.timebase, dropped := 0 }).raise 0 0x07 cx (c.dropped + 1) 0
    else s.updCtx cx fun c => { c with dropped := c.dropped + 1 }

/-- The record of a descriptor has been written, or dropped: an ABORT waits for it no longer (R294). -/
def State.recordOut (s : State) (d : DRef) : State :=
  let left (p : DRef × Adm) : DRef × Adm := match p.2.prog with
    | .aborting l n => (p.1, { p.2 with prog := .aborting (l.filter (· != d)) n })
    | _ => p
  { s with descs := s.descs.map left }

/-- A completion record into its ring (R281), held for room and for a translation, dropped once the ring has failed. -/
def State.putRecord (s : State) (cx : Nat) (h : Held) : State :=
  match s.ctxs.find cx with
  | none => s.recordOut h.of
  | some c =>
    let size := c.cqSize
    let p := c.cqPosted.toNat
    let at_ := c.cqBase + 32 * (p % size)
    let sp := s.spaceOf cx
    if !c.held.isEmpty || ((c.cqPosted - c.cqHead).toNat ≥ size && !c.failed.contains 2) then s.updCtx cx fun c => { c with held := c.held ++ [h] }
    else if c.failed.contains 2 then (s.dropRecord cx).recordOut h.of
    else if s.xlOk sp at_ 32 true then
      (((s.hostPut sp at_ 32 (putFld h.bits 32 32 (phaseOf p size)).toNat).updCtx cx fun c => { c with cqPosted := c.cqPosted + 1 }).writeDb cx
        |>.tally 0xC01 (some cx)).recordOut h.of
    else (s.updCtx cx fun c => { c with held := c.held ++ [h] }).ask (.area (Fin.ofNat 4096 cx) 2) sp at_ 32 true

/-- Held records of a context written again in order, by fuel over their number; none once the hub has stopped (R372). -/
def State.flushHeld : Nat → Nat → State → State
  | 0, _, s => s
  | n + 1, cx, s =>
    match s.ctxs.find cx with
    | none => s
    | some c =>
      match c.held with
      | [] => s
      | h :: r =>
        let gone := c.failed.contains 2
        if s.env.serac.st = .stopped || (!gone && ((c.cqPosted - c.cqHead).toNat ≥ c.cqSize ||
          !s.xlOk (s.spaceOf cx) (c.cqBase + 32 * (c.cqPosted.toNat % c.cqSize)) 32 true)) then s
        else
          let s := (s.updCtx cx fun c => { c with held := [] }).putRecord cx h
          flushHeld n cx (s.updCtx cx fun c => { c with held := c.held ++ r })

def State.flushHeldEvt : Nat → Nat → State → State
  | 0, _, s => s
  | n + 1, cx, s =>
    match s.ctxs.find cx with
    | none => s
    | some c =>
      match c.heldEvt with
      | [] => s
      | h :: r =>
        if !s.xlOk (s.spaceOf cx) (c.evtBase + 32 * (c.evtPosted.toNat % c.evtSize)) 32 true && !c.failed.contains 3 then s
        else
          let s := (s.updCtx cx fun c => { c with heldEvt := [] }).putEvent cx h
          flushHeldEvt n cx (s.updCtx cx fun c => { c with heldEvt := c.heldEvt ++ r })

/-- Everything a context's rings hold back, tried again. -/
def State.flushCtx (s : State) (cx : Nat) : State :=
  let n := ((s.ctxs.find cx).map fun c => c.held.length + c.heldEvt.length).getD 0
  (State.flushHeldEvt n cx (State.flushHeld n cx s)).writeDb cx

/-! ### Faults -/

/-- What a fault record says of the failed command: its descriptor, and the fields of Table 15-2. -/
structure FaultOf where
  run : Option DRef := none
  ctx : Nat := 0
  tag : Nat := 0
  iter : Nat := 0
  body : Nat := 0
  status : Status := .ok
  addr : Nat := 0
  detail : Nat := 0
  /-- Cluster and queue of the failed engine command. -/
  place : Option (Nat × Nat) := none

/-- A failed descriptor that is no engine command. -/
def FaultOf.desc (d : DRef) (st : Status) (addr : Nat) : FaultOf := { run := some d, ctx := d.ctx, status := st, addr }

/-- The detail of a mechanism: the bits that Table 15-3 gives it, and 0 for the mechanisms it does not list. -/
def detailOf (mech d : Nat) : Nat := match mech with
  | 0x01 | 0x04 | 0x05 | 0x06 => d % 2 ^ 24
  | 0x03 => d % 2 ^ 25
  | 0x09 | 0x0A | 0x11 => d % 2 ^ 32
  | 0x0C | 0x20 => d % 2 ^ 52
  | _ => 0

/-- A fault record of Table 15-2 as it stands at the detection, its action and sequence number apart. -/
def State.faultBits (s : State) (unit mech : Nat) (o : FaultOf) : BitVec 512 :=
  BitVec.ofNat 512 (packNat [(8, 1), (110, 0), (32, 0), (4, 0), (8, o.status.code), (8, mech), (16, unit), (12, o.ctx),
    (2, o.body), (24, o.iter), (32, o.tag), (64, detailOf mech o.detail), (64, o.addr), (64, (s.testOf unit).lastPass),
    (64, s.timebase)])

/-- The cluster of a unit, for the trace record of a fault that no command is named for (R18). -/
def unitCluster (unit : Nat) : Nat :=
  let i := unit % 2048
  match unit / 2048 with
  | 1 | 2 | 4 | 6 | 7 => i
  | 3 => i / 2
  | 5 => i / 32
  | _ => 0

/-- The queue of a unit, for the trace record of its faults. -/
def unitQueue (unit : Nat) : Nat := match unit / 2048 with
  | 3 => 1 + unit % 2
  | 4 => 3
  | 7 => 4
  | _ => 0

/-- The same with what its trace record takes beside it: the trace level of the failed command's admission (R360), else of its context; the failed
command's cluster and queue, else the unit's. -/
def State.faultRec (s : State) (unit mech : Nat) (o : FaultOf) : FaultRec where
  bits := s.faultBits unit mech o
  level := match o.run.bind s.adm with
    | some a => a.modes.trace
    | none => s.traceLevel o.ctx
  cluster := (o.place.map (·.1)).getD (unitCluster unit)
  queue := (o.place.map (·.2)).getD (unitQueue unit)

/-- A fault record written with its action (R373): one more in HUB_FAULT_CNT, and a trace record at level 3 (R413). -/
def State.logFault (s : State) (r : FaultRec) (action : Nat) : State :=
  let b := r.bits
  let pos := s.moraine.pos
  let s := s.log (putFld b 153 150 action)
  let s := { s with hub := { s.hub with faultCnt := if s.hub.faultCnt = 0xFFFFFFFF#32 then s.hub.faultCnt else s.hub.faultCnt + 1 } }
  s.trace r.level 3 {
    kind := 0x0A, ctx := fld b 197 186, data := pos, tag := fld b 255 224, iter := fld b 223 200, body := fld b 199 198,
    cluster := r.cluster, queue := r.queue, status := fld b 161 154 }

/-- A detection that takes no unit out of service (R371): its record is written at once, with action bit 0. -/
def State.dataFault (s : State) (unit mech : Nat) (o : FaultOf) : State := s.logFault (s.faultRec unit mech o) 1

end Sys2Proof.Machine
end

