-- ==== Sys2Proof/Machine/Symbols.lean ====
section
/-! DEFINITION. The symbol code of the memory channels (R255 to R257): a Reed–Solomon code over GF(2^8) with three check symbols over a
beat's 16 data bytes and its place. DESIGN CHOICE (log 64): the spec names the field, the length and the distance; the roots 1, α, α²,
the order of the symbols and the place's four symbols, which are not stored, are the model's. -/

namespace Sys2Proof.Machine.Rs

/-- Multiplication by α under x^8 + x^4 + x^3 + x^2 + 1. -/
def mulA (a : Nat) : Nat := if 2 * a < 256 then 2 * a else Nat.xor (2 * a) 0x11D

def mul (a b : Nat) : Nat :=
  ((upTo 8).foldl (fun (p : Nat × Nat) i => (if b.testBit i then Nat.xor p.1 p.2 else p.1, mulA p.2)) (0, a)).1

/-- α^n · a. -/
def mulPow : Nat → Nat → Nat
  | 0, a => a
  | n + 1, a => mulA (mulPow n a)

/-- The place's four symbols: the channel block's three bytes, and its column group with the beat. -/
def place (block beat : Nat) : List Nat := [block % 256, block / 256 % 256, block / 65536 % 256, block % 4 + 4 * (beat % 32)]

def symbols (n w : Nat) : List Nat := (upTo n).map fun i => w / 2 ^ (8 * i) % 256

/-- Σ c_i α^(ij) over a list of symbols in order of their exponents. -/
def eval (j : Nat) (l : List Nat) : Nat := l.foldr (fun c acc => Nat.xor c (mulPow j acc)) 0

/-- A code word's 23 symbols in order of their exponents: three checks, 16 data symbols, four of the place. -/
def word (data checks block beat : Nat) : List Nat := symbols 3 checks ++ symbols 16 data ++ place block beat

/-- The remainder on division by (x + 1)(x + α)(x + α²) = x³ + 7x² + 14x + 8, from the highest symbol down. -/
def remainder : List Nat → Nat × Nat × Nat
  | [] => (0, 0, 0)
  | m :: r =>
    let (r0, r1, r2) := remainder r
    let f := Nat.xor m r2
    (mul 8 f, Nat.xor r0 (mul 14 f), Nat.xor r1 (mul 7 f))

/-- The check symbols of a beat. -/
def checks (data block beat : Nat) : Nat :=
  let (r0, r1, r2) := remainder (symbols 16 data ++ place block beat)
  r0 + 256 * r1 + 65536 * r2

/-- The 152 bits of a beat on its channel: data symbols 0 to 15, check symbols 16 to 18. -/
def encode (data block beat : Nat) : Nat := data + 2 ^ 128 * checks data block beat

def syndromes (data checks block beat : Nat) : Nat × Nat × Nat :=
  let w := word data checks block beat
  (eval 0 w, eval 1 w, eval 2 w)

/-- The exponent of the one symbol whose error of magnitude s0 gives s1 and s2. -/
def locate (s0 s1 s2 : Nat) : Option Nat :=
  if s0 = 0 || s1 = 0 then none
  else (List.range 23).find? fun e => mulPow e s0 == s1 && mulPow e s1 == s2

/-- What a read finds (Table 10-2), and the data delivered. A single error that lies in the place is none of the 19 symbols, so it cannot be
corrected. -/
def decode (cw block beat : Nat) : Syndrome × Nat :=
  let data := cw % 2 ^ 128
  let (s0, s1, s2) := syndromes data (cw / 2 ^ 128) block beat
  if s0 = 0 ∧ s1 = 0 ∧ s2 = 0 then (.zero, data)
  else match locate s0 s1 s2 with
    | some e =>
      if e < 3 then (.corrected (Fin.ofNat 19 (16 + e)), data)
      else if e < 19 then (.corrected (Fin.ofNat 19 (e - 3)), Nat.xor data (s0 * 2 ^ (8 * (e - 3))))
      else (.uncorrectable, 0)
    | none => (.uncorrectable, 0)

end Sys2Proof.Machine.Rs
end

