-- ==== Sys2Proof/Machine/Channels.lean ====
section
/-! DEFINITION. The memory channels (10): requests that wait at them and the loop that serves them (R259 to R261), writes to module memory, what
a read of a beat finds (R255, R256), and the traffic generators' runs (R267, R268). -/

namespace Sys2Proof.Machine

def State.updChan (s : State) (c : Fin 160) (f : Chan → Chan) : State :=
  { s with memsys := { s.memsys with chans := vupd s.memsys.chans c f } }

/-- The module address of channel block L of a channel (R253). -/
def blockAddr (c : Fin 160) (l : Nat) : Nat := 4096 * (20 * l + c.val / 8) + 512 * (c.val % 8)

/-! ### Requests (R259) -/

/-- The class of a read, by who asks for it (Table 10-3); a data-mover command's by its cls. -/
def requestClass (moverCls : Nat) : Requester → MemClass
  | .mover _ _ => if moverCls = 1 then .lc else .bulk
  | .stream _ _ | .plan _ | .hub => .lc
  | .sweep _ | .rebuild _ => .ks
  | .stage _ | .lut _ _ _ | .pass _ => .bulk
  | .generator => .test

/-- Lines of a stack from lo to hi: the first, and how many. -/
def linesOf (stk lo hi : Nat) : Nat × Nat :=
  let f := lo + (stk + 20 - lo % 20) % 20
  (f, if hi < f then 0 else (hi - f) / 20 + 1)

/-- The blocks of a channel, first and last, and the bursts of 256 B that a range of module memory has there. -/
def burstsOf (ch : Fin 160) (a len : Nat) : Option (Nat × Nat × Nat) :=
  if len = 0 then none
  else
    let lo := a / 256
    let hi := (a + len - 1) / 256
    let part (h : Nat) : Nat × Nat :=
      let p := 2 * (ch.val % 8) + h
      if hi < p then (0, 0) else linesOf (ch.val / 8) (divUp (lo - p) 16) ((hi - p) / 16)
    let (f0, n0) := part 0
    let (f1, n1) := part 1
    if n0 + n1 = 0 then none
    else
      let l0 := f0 + 20 * (n0 - 1)
      let l1 := f1 + 20 * (n1 - 1)
      let (f, l) := if n0 = 0 then (f1, l1) else if n1 = 0 then (f0, l0) else (min f0 f1, max l0 l1)
      some (f / 20, l / 20, n0 + n1)

/-- A channel with the request of a range, where it holds some of it. -/
def Chan.post (h : Chan) (c : Fin 160) (who : MemWho) (cls : MemClass) (write : Bool) (a len : Nat) : Chan :=
  match burstsOf c a len with
  | some (first, last, left) => { h with reqs := h.reqs ++ [{ who, cls, write, addr := a, len, first, last, left }] }
  | none => h

/-- A request of a range of module memory arrives at the channels that hold it. A fenced channel takes none: what it would have moved does not
move (R265). -/
def State.post (s : State) (who : MemWho) (cls : MemClass) (write : Bool) (a len : Nat) : State :=
  let chans : Vector Chan 160 := Vector.ofFn fun (c : Fin 160) =>
    if s.chFenced c then s.memsys.chans[c] else s.memsys.chans[c].post c who cls write a len
  { s with memsys := { s.memsys with chans } }

/-- Requests that nobody waits for any more. -/
def State.unpost (s : State) (p : MemWho → Bool) : State :=
  { s with memsys := { s.memsys with chans := s.memsys.chans.map fun h => { h with reqs := h.reqs.filter fun q => !p q.who } } }

/-- Some request of someone has not been served. -/
def State.memWaits (s : State) (who : MemWho) : Bool := s.memsys.chans.toList.any fun h => h.reqs.any (·.who == who)

/-! ### Serving (R260, R261) -/

/-- Two requests touch the same channel block. -/
def MemReq.clash (x y : MemReq) : Bool := x.first ≤ y.last && y.first ≤ x.last

/-- One burst of the oldest request of a class that no earlier request to the same block holds back (R261), and the request whose last burst it is;
`none` where none is ready. A patrol's burst holds its block until its outcome is known (R258). DESIGN CHOICE: within a class the order of arrival, one
of those that R260 allows (log 64). -/
def serveIn (c : MemClass) : List MemReq → List MemReq → Option (List MemReq × Option MemReq)
  | _, [] => none
  | seen, q :: r =>
    if q.cls = c && q.left != 0 && !seen.any q.clash then
      some (if q.left = 1 && q.who != .scrub then (r, some q) else ({ q with left := q.left - 1 } :: r, none))
    else (serveIn c (q :: seen) r).map fun x => (q :: x.1, x.2)

/-- Bursts granted in a round, or guaranteed. -/
structure Grants where
  lc : Nat := 0
  ks : Nat := 0
  bulk : Nat := 0

def Grants.of (g : Grants) : MemClass → Nat
  | .lc => g.lc
  | .ks => g.ks
  | .bulk => g.bulk
  | .test => 0

def Grants.add (g : Grants) : MemClass → Grants
  | .lc => { g with lc := g.lc + 1 }
  | .ks => { g with ks := g.ks + 1 }
  | .bulk => { g with bulk := g.bulk + 1 }
  | .test => g

/-- A round in progress: the requests that wait, what each class has been granted and served, and the requests whose last burst has been served, in
the order of service. -/
structure Round where
  reqs : List MemReq
  granted : Grants := {}
  served : Grants := {}
  done : List MemReq := []

/-- One burst slot: the first class within its guarantee with a request ready, then the first class with one. -/
def Round.slot (g : Grants) (x : Round) : Round :=
  let classes : List MemClass := [.lc, .ks, .bulk]
  let serve (ok : MemClass → Bool) : Option (MemClass × List MemReq × Option MemReq) :=
    classes.findSome? fun c => if ok c then (serveIn c [] x.reqs).map fun y => (c, y) else none
  match serve fun c => x.granted.of c < g.of c with
  | some (c, l, q) => { reqs := l, granted := x.granted.add c, served := x.served.add c, done := x.done ++ q.toList }
  | none => match serve fun _ => true with
    | some (c, l, q) => { x with reqs := l, served := x.served.add c, done := x.done ++ q.toList }
    | none => x

/-- A round of burst slots. -/
def roundServe (guarantee : Grants) (slots : Nat) (l : List MemReq) : Round :=
  (upTo slots).foldl (fun x _ => x.slot guarantee) { reqs := l }

/-! ### Writes and reads -/

/-- Module memory changed within a range: the code words there are the encoder's own. -/
def State.putMem (s : State) (a len : Nat) (m : Memory) : State :=
  { s with mem := m, memsys := { s.memsys with flips := s.memsys.flips.filter fun p => !(a < 16 * p.1 + 16 && 16 * p.1 < a + len) } }

/-- The channel holds a byte of module memory (R253). -/
def inChan (c : Fin 160) (a : Nat) : Bool := a / 4096 % 20 == c.val / 8 && a % 4096 / 512 == c.val % 8

/-- A channel writes its part of a range as it stands in `new`, but for the words that fail SECDED at its encoder (R257). -/
def State.putPart (s : State) (c : Fin 160) (a len : Nat) (bad : List Nat) (new : Memory) : State :=
  let lands (x : Nat) : Bool := inChan c x && !bad.contains (x / 8)
  let l := ((upTo len).map (a + ·)).filter lands
  { s with
    mem := l.foldl (fun (m : Memory) x => m.put x (new.get x)) s.mem
    memsys := { s.memsys with flips := s.memsys.flips.filter fun p => !l.any fun x => x / 16 == p.1 } }

def State.memWrite (s : State) (a : Nat) (bs : List Byte) : State := s.putMem a bs.length (s.mem.write a bs)

/-- The code word that a beat's place holds. -/
def codeWord (m : Memory) (flips : Table (BitVec 152)) (c : Fin 160) (l beat : Nat) : Nat :=
  let a := blockAddr c l + 16 * beat
  Nat.xor (Rs.encode (m.readNat a 16) l beat) (flips.get 0 (a / 16)).toNat

/-- What a read of a beat finds (Table 10-2). -/
def State.readBeat (s : State) (c : Fin 160) (l beat : Nat) (o : ReadObs) : Syndrome :=
  let (l', b') : Nat × Nat := match o.wrong with
    | some (x, y) => (x.toNat, y.val)
    | none => (l, beat)
  if o.recompute then .uncorrectable
  else (Rs.decode (Nat.xor (codeWord s.mem s.memsys.flips c l' b') o.err.toNat) l beat).1

/-! ### Traffic generators (R267, R268) -/

namespace TgRun

def op (r : TgRun) : Nat := fld r.ctrl 23 22
def blocks (r : TgRun) : Nat := r.last + 1 - r.first
/-- Bursts of one pass over the range, for a write or a read. -/
def sweep (r : TgRun) : Nat := 2 * r.blocks
def passBursts (r : TgRun) : Nat := (if r.op = 2 then 2 else 1) * r.sweep
/-- Bursts of the whole run. -/
def bursts (r : TgRun) : Nat := (fld r.ctrl 15 0 + 1) * r.passBursts

/-- The pattern of a beat (Table 10-10), the n-th of its pass. PRBS31 and the first of the walking ones are free; the address is the beat's
module address (log 34). -/
def pattern (r : TgRun) (c : Fin 160) (l beat : Nat) : Nat :=
  let n := 32 * (l - r.first) + beat
  match fld r.ctrl 27 24 with
  | 0 => (Config.prbs31 r.seed n).toNat
  | 1 => (~~~ Config.prbs31 r.seed n).toNat
  | 2 => blockAddr c l + 16 * beat
  | 3 => 2 ^ ((Config.walkFirst.val + n) % 128)
  | _ => r.seed.toNat * (1 + 2 ^ 32 + 2 ^ 64 + 2 ^ 96)

/-- What is injected into a written beat: one symbol, or two neighbours, inverted, one symbol on at each beat (log 34). -/
def inject (r : TgRun) (l beat : Nat) : Nat :=
  let n := 32 * (l - r.first) + beat
  let flip (i : Nat) : Nat := 255 * 2 ^ (8 * (i % 19))
  match fld r.ctrl 21 20 with
  | 1 => flip n
  | 2 => flip n + flip (n + 1)
  | _ => 0

end TgRun

/-- What a run has done so far: memory and code words, and the checker's counts. -/
structure TgAcc where
  mem : Memory
  flips : Table (BitVec 152)
  ce : Nat := 0
  ue : Nat := 0
  errs : Nat := 0
  /-- The first mismatch: block, beat, mask of differing data symbols. -/
  fail : Option (Nat × Nat × Nat) := none

/-- The data symbols in which two beats differ. -/
def symbolMask (x y : Nat) : Nat := (upTo 16).foldl (fun m i => if x / 2 ^ (8 * i) % 256 = y / 2 ^ (8 * i) % 256 then m else m + 2 ^ i) 0

def TgAcc.writeBeat (x : TgAcc) (r : TgRun) (c : Fin 160) (l beat : Nat) : TgAcc :=
  let a := blockAddr c l + 16 * beat
  let f := r.inject l beat
  { x with
    mem := x.mem.writeNat a 16 (r.pattern c l beat)
    flips := if f = 0 then x.flips.erase (a / 16) else x.flips.set (a / 16) (BitVec.ofNat 152 f) }

def TgAcc.readBeat (x : TgAcc) (r : TgRun) (c : Fin 160) (l beat err : Nat) : TgAcc :=
  let (syn, d) := Rs.decode (Nat.xor (codeWord x.mem x.flips c l beat) err) l beat
  let x := match syn with
    | .zero => x
    | .corrected _ => { x with ce := x.ce + 1 }
    | .uncorrectable => { x with ue := x.ue + 1 }
  let m := symbolMask d (r.pattern c l beat)
  if syn = .uncorrectable || m = 0 then x else { x with errs := x.errs + 1, fail := some (x.fail.getD (l, beat, m)) }

/-- The lines in error at one read. -/
def noiseAt (o : TgObs) (pass l beat : Nat) : Nat :=
  ((o.noise.find? fun n => n.pass.toNat == pass && n.block.toNat == l && n.beat.val == beat).map (·.err.toNat)).getD 0

/-- The j-th burst of a run: blocks in ascending order, each pass written before it is read. -/
def TgAcc.burst (r : TgRun) (c : Fin 160) (o : TgObs) (x : TgAcc) (j : Nat) : TgAcc :=
  let k := j % r.passBursts
  let l := r.first + k % r.sweep / 2
  let writes := r.op = 0 || (r.op = 2 && k < r.sweep)
  (upTo 16).foldl (fun (x : TgAcc) i =>
    let beat := 16 * (k % 2) + i
    if writes then x.writeBeat r c l beat else x.readBeat r c l beat (noiseAt o (j / r.passBursts) l beat)) x

/-- A run's bursts served so far, done. -/
def State.tgResult (s : State) (c : Fin 160) (r : TgRun) (o : TgObs) : TgAcc :=
  (upTo (min r.served r.bursts)).foldl (TgAcc.burst r c o) { mem := s.mem, flips := s.memsys.flips }

def State.tgLeaves (s : State) (x : TgAcc) : State := { s with mem := x.mem, memsys := { s.memsys with flips := x.flips } }

/-- The run of a channel's latent-fault test: one pass over the test region, written and read, with one symbol or two injected (R268). -/
def testRun (inject : Nat) : TgRun :=
  let r : TgRun := { ctrl := BitVec.ofNat 32 (2 ^ 22 * 2 + 2 ^ 20 * inject), first := 12582896, last := 12582911 }
  { r with served := r.bursts }

/-- What a run's checker adds to its channel's registers (R268). -/
def Chan.tgCount (h : Chan) (x : TgAcc) : Chan := { h with
  tgCodec := BitVec.ofNat 32 (packNat [(16, min (fld h.tgCodec 15 0 + x.ce) 0xFFFF), (16, min (fld h.tgCodec 31 16 + x.ue) 0xFFFF)])
  tgErrs := h.tgErrs + BitVec.ofNat 32 x.errs
  tgFail := match x.fail with
    | some (b, t, m) => BitVec.ofNat 64 (packNat [(24, b), (5, t), (16, m)])
    | none => h.tgFail }

/-- A run has ended: its counts are in its channel's registers, and the blocks that it wrote hold its pattern. -/
def State.tgEnds (s : State) (c : Fin 160) (x : TgAcc) : State := (s.tgLeaves x).updChan c fun h => h.tgCount x

/-- A channel passes its latent-fault test (R268), and what the test's two runs leave. -/
def State.channelTest (s : State) (c : Fin 160) (one two : TgObs) : Bool × State :=
  let r1 := s.tgResult c (testRun 1) one
  let s := s.tgEnds c r1
  let r2 := s.tgResult c (testRun 2) two
  (r1.ce == 512 && r1.errs == 0 && r2.ue == 512, s.tgEnds c r2)

/-! ### Invalidations (R288) -/

/-- Where the elements of a transfer of DM_XPOSE go: address of the row, bit in it, width, and the bit of the transfer each begins at. An element
that a cut splits comes in two parts (R238). -/
def Xfer.pieces (x : Xfer) (t : Turned) : List (Nat × Nat × Nat × Nat) :=
  let lo := 8 * x.off
  let hi := min (8 * (x.off + x.len)) (t.width * t.count)
  ((upTo (divUp hi t.width - lo / t.width)).map (lo / t.width + ·)).map fun j =>
    let from_ := max lo (j * t.width)
    (t.base + j * t.step, t.bit + (from_ - j * t.width), min hi ((j + 1) * t.width) - from_, from_ - lo)

/-- The bytes that a piece touches. -/
def pieceBytes (p : Nat × Nat × Nat × Nat) : Nat × Nat := (p.1 + p.2.1 / 8, divUp (p.2.1 % 8 + p.2.2.1) 8)

/-- The ranges of module memory that a transfer writes. -/
def Xfer.modPuts (x : Xfer) : List (Nat × Nat) :=
  (x.dst.filterMap fun (p : Place) => if p.space = 1 then some (p.addr, x.len) else none) ++ match x.turned with
    | some t => if t.mod then (x.pieces t).map pieceBytes else []
    | none => []

/-- The ranges of module memory that a transfer touches. -/
def Xfer.mods (x : Xfer) : List (Nat × Nat) :=
  (x.src.toList.filterMap fun (p : Place) => if p.space = 1 then some (p.addr, x.len) else none) ++ x.modPuts

/-- Outstanding transfers that read or write host memory of a space in a range. -/
def State.usersOf (s : State) (p : BitVec 20) (va len : Nat) : List (Fin 64 × Nat) :=
  allClusters.flatMap fun cl => s.clusters[cl].eng.xfers.filterMap fun x =>
    if (x.src.toList ++ x.dst).any fun (y : Place) => y.space == 2 && y.id == p.toNat + 1 && y.addr < va + len && va < y.addr + x.len then some (cl, x.no)
    else none

/-- Invalidations whose last user has ended are acknowledged (R288). -/
def State.ackInvals (s : State) : State :=
  let live (x : Inval) : Bool := x.users.any fun (cl, no) => s.clusters[cl].eng.xfers.any (·.no == no)
  (s.invals.filter fun x => !live x).foldl (fun (s : State) x => s.send (.invalidateAck x.pasid x.va)) { s with invals := s.invals.filter live }

end Sys2Proof.Machine
end

