-- ==== Sys2Proof/Machine/Flow.lean ====
section
/-! DEFINITION. How work ends: KRT entries and their release (R66, R68), completion of descriptors (R281, R389), QRUNs
(R208, R209, R449), retirement of engine commands and gates (R213, R215), and the tasks of the Quill (R207). -/

namespace Sys2Proof.Machine

/-! ### KRT entries (Table 3-7) -/

namespace Krt
abbrev Entry := BitVec 256
def fp (e : Entry) : Nat := fld e 255 128
def length (e : Entry) : Nat := fld e 127 108
def base (e : Entry) : Nat := fld e 107 84
def first (e : Entry) : Nat := fld e 83 79
def gen (e : Entry) : Nat := fld e 78 64
def owner (e : Entry) : Nat := fld e 63 52
def family (e : Entry) : Nat := fld e 51 44
def kind (e : Entry) : Nat := fld e 43 41
def state (e : Entry) : Nat := fld e 40 38
def pin (e : Entry) : Bool := fld e 37 37 == 1
def firn (e : Entry) : Nat := fld e 36 35
def qCause (e : Entry) : Nat := fld e 34 34
def sweepsLast (e : Entry) : Nat := fld e 15 0
def setState (e : Entry) (st : Nat) : Entry := putFld e 40 38 st
end Krt

/-- Copy A of an entry, which a lookup whose copies agree uses (R70). -/
def State.entry (s : State) (i : Nat) : Krt.Entry := s.keys.a.get 0 i
/-- Both copies written. -/
def State.setEntry (s : State) (i : Nat) (e : Krt.Entry) : State :=
  { s with keys := { s.keys with a := s.keys.a.set i e, b := s.keys.b.set i e } }
def State.useOf (s : State) (i : Nat) : Nat := s.keys.use.get 0 i
def State.useInc (s : State) (l : List Nat) : State :=
  { s with keys := { s.keys with use := l.foldl (fun t i => t.set i (t.get 0 i + 1)) s.keys.use } }
def State.useDec (s : State) (l : List Nat) : State :=
  { s with keys := { s.keys with use := l.foldl (fun t i => t.set i (t.get 0 i - 1)) s.keys.use } }
/-- A sweep of the entry is in progress. -/
def State.swept (s : State) (i : Nat) : Bool := s.keys.sweeps.toList.any fun w => (w.map (·.idx)) == some i

/-- Index and generation of a handle (R51 to R53): [16:0] and [31:17]. -/
def handleIdx (h : BitVec 32) : Nat := fld h 16 0
def handleGen (h : BitVec 32) : Nat := fld h 31 17
def mkHandle (i g : Nat) : Nat := i + 2 ^ 17 * g

/-- The status that naming an entry gives by its state (Table 3-8). -/
def Krt.stateStatus (e : Krt.Entry) : Status :=
  if Krt.state e = stRESIDENT then .ok
  else if Krt.state e = stQUARANTINED ∧ Krt.qCause e = 1 then .keyCorrupt else .keyNotResident

/-- The rebuild of an entry is given up: nothing of it is written (R68). -/
def State.dropRebuild (s : State) (i : Nat) : State :=
  ({ s with
    keys := { s.keys with rebuilds := s.keys.rebuilds.erase i }
    sec := { s.sec with waiting := s.sec.waiting.filter (· != PkeOp.rebuild i) } } : State).unpost (· == .rebuild i)

/-- A request of an entry's staging copy. -/
def MemWho.stages (i : Nat) : MemWho → Bool
  | .stage j _ => j == i
  | _ => false

/-- A staging copy of an entry is given up. -/
def State.dropStaging (s : State) (i : Nat) : State :=
  { s with keys := { s.keys with staging := s.keys.staging.erase i } }.unpost (MemWho.stages i)

/-- An entry goes back to FREE with its generation: its pool space and directory slot are released, and a rebuild or a staging copy of it is
given up (R63, R68). -/
def State.freeEntry (s : State) (i : Nat) (gen : Nat) : State :=
  let e := s.entry i
  let s := ((s.dropRebuild i).dropStaging i).unpost (· == .slot i)
  let s := s.setEntry i (putFld 0 78 64 gen)
  let s := { s with keys := { s.keys with alloc := s.keys.alloc.erase i, dir := s.keys.dir.erase i } }
  s.updCtx (Krt.owner e) fun c => { c with keyUse := c.keyUse - Krt.length e }

/-- The entries that are freed as one with an entry (R68). -/
def State.groupOf (s : State) (i : Nat) : List Nat :=
  if Krt.kind (s.entry i) = kindLUT then [i] else [i / 2 * 2, i / 2 * 2 + 1].filter fun j => Krt.state (s.entry j) == stEVICTING

/-- Every EVICTING entry whose use count is 0 and that no sweep reads returns to FREE, a pair as one (R68). -/
def State.releaseKeys (s : State) : State :=
  (s.keys.a.map (·.1)).foldl (fun s i =>
    if Krt.state (s.entry i) = stEVICTING then
      let g := s.groupOf i
      let pairBusy := Krt.kind (s.entry i) != kindLUT && [i / 2 * 2, i / 2 * 2 + 1].any fun j =>
        Krt.state (s.entry j) != stFREE && Krt.state (s.entry j) != stEVICTING
      if !pairBusy && g.all fun j => s.useOf j = 0 && !s.swept j then g.foldl (fun s j => s.freeEntry j (Krt.gen (s.entry j))) s else s
    else s) s

/-! ### Completion of descriptors -/

/-- The bucket of a latency (R389). -/
def bucketOf (l : Nat) : Nat :=
  if l < 1024 then 0 else let e := Nat.log2 l; min 383 (16 * (e - 10) + (16 * l / 2 ^ e - 16) + 1)

/-- Completions counted by the governor (R389). -/
def Gov.complete (g : Gov) (st : Status) (nohist : Bool) (lat : Nat) : Gov :=
  if st = .ok then (if nohist then g else { g with hist := g.hist.updD 0 (bucketOf lat) (· + 1) }) else { g with errors := g.errors + 1 }

/-- The command ran in Jasil compatibility mode: under Jasil numerics, as every CLEAR-class command of a context with jasil_eff (R160), or
as a J-family command (R25), which a QRUN with a plan on an ENC_JASIL ring is whether or not its plan has been read (R14). -/
def Adm.ranJasil (a : Adm) : Bool :=
  (a.modes.jasil && a.cls == .clear) || (a.opcode == 0x79 && a.cls == .encJasil && fld a.body 273 262 != 0) || match a.prog with
    | .qrun r => r.families.any (·.isJ)
    | _ => false

/-- The flags of a completion (R13, R14). -/
def Adm.flags (a : Adm) (st : Status) (ev : Events) : Nat :=
  let ok := st == .ok
  packNat [(1, boolNat (ok && ev.sat > 0)), (1, boolNat (ok && ev.flush)), (1, boolNat (ok && a.refreshIns)),
    (1, boolNat a.ranJasil), (1, boolNat a.degraded)]

/-- A completion record (Table 11-12), its phase apart. -/
def Adm.recordOf (a : Adm) (d : DRef) (st : Status) (result tag lat flags : Nat) : BitVec 256 :=
  BitVec.ofNat 256 (packNat [(8, a.opcode), (8, st.code), (8, flags), (8, 0), (1, 0), (13, 0), (2, d.ring.val), (16, d.idx.toNat),
    (32, lat), (32, tag), (64, result), (64, fld a.bits 127 64)])

/-- A descriptor completes with its one record (R10, R281), unless the hub has stopped (R372). -/
def State.complete1 (s : State) (d : DRef) (st : Status) (result tag : Nat) (ev : Events) : State :=
  match s.adm d with
  | none => s
  | some a =>
    if s.env.serac.st = .stopped then s
    else
      let lat := min (s.timebase - a.admitted) 0xFFFFFFFF
      let cx := d.ctx.val
      let last := s.steerOf cx
      let s := { s with descs := s.descs.filter fun (p : DRef × Adm) => p.1 != d }
      let s := s.useDec a.uses
      let s := s.updCtx cx fun c => { c with gov := { c.gov.complete st (fld a.bits 10 10 == 1) lat with last := last } }
      let s := s.endReqs cx fun (r : XlReq) => r.who == XlWho.work d.ctx (.desc d)
      let s := s.trace a.modes.trace 1 { kind := 0x02, ctx := cx, data := fld a.bits 127 64, aux := lat, tag, status := st.code }
      let s := s.putRecord cx ⟨a.recordOf d st result tag lat (a.flags st ev), d⟩
      if fld a.bits 9 9 = 1 then s.raise cx 0x01 cx (fld a.bits 127 64) (st.code + 256 * d.ring.val) else s

/-- An operation that waits on others and may complete now: an ABORT whose descriptors' records are all out (R294), a KEY_FREE whose
entries are FREE (R68). -/
def State.readyDesc (s : State) : Option (DRef × Nat) :=
  let one (p : DRef × Adm) : Option (DRef × Nat) := match p.2.prog with
    | .aborting [] n => some (p.1, n)
    | .keyFree l => if l.all fun i => Krt.state (s.entry i) == stFREE then some (p.1, 0) else none
    | _ => none
  s.descs.findSome? one

/-- The placement record of a directory slot (R65), its CRC-32 apart. DESIGN CHOICE: the spec names its fields and not their places (log 65). -/
def DirSlot.record (x : DirSlot) : List Byte :=
  leBytes 32 (packNat [(5, x.first), (24, x.base), (20, x.length), (12, x.owner), (15, x.gen), (3, x.kind), (1, boolNat x.pin),
    (3, if x.evicting then stEVICTING else stRESIDENT)])

/-- The 1,024 bytes of a slot: the header, the placement record with its CRC-32, and zeros. -/
def DirSlot.bytes (x : DirSlot) : List Byte :=
  leBytes 512 x.header.toNat ++ x.record ++ leBytes 4 (Crypto.crc32 x.record) ++ List.replicate 476 0

/-- The module address of an entry's slot in the key header directory. -/
def State.slotAddr (s : State) (i : Nat) : Nat := s.env.setup.keyDir.toNat + 1024 * i

/-- The directory slot of an entry is to be written as it stands (R65): a write of the hub, of class LC (R259). -/
def State.writeSlot (s : State) (i : Nat) : State :=
  if (s.keys.dir.find i).isSome then s.post (.slot i) .lc true (s.slotAddr i) 1024 else s

/-- The CRC-32 of an entry's placement record is the one that stands behind it (R71). -/
def State.slotOk (s : State) (i : Nat) : Bool :=
  Crypto.crc32 (s.mem.read (s.slotAddr i + 512) 32) == s.mem.readNat (s.slotAddr i + 544) 4

/-- An entry enters EVICTING (R68): its pin goes, and its directory slot is rewritten (R65). -/
def State.evict (s : State) (i : Nat) : State :=
  let s := s.setEntry i (putFld (Krt.setState (s.entry i) stEVICTING) 37 37 0)
  ({ s with keys := { s.keys with
      dir := s.keys.dir.upd i fun d => { d with evicting := true, pin := false }
      rebuilds := s.keys.rebuilds.upd i fun r => { r with was := (stEVICTING, 0) } } } : State).writeSlot i

def Krt.loading (e : Krt.Entry) : Bool := Krt.state e == stLOADING || Krt.state e == stVERIFYING

/-- What KEY_FREE has named and no load holds any more goes into EVICTING (R68). -/
def State.evictNamed (s : State) : State :=
  let named := (s.descs.flatMap fun (p : DRef × Adm) => match p.2.prog with
    | .keyFree l => if l.any fun i => Krt.loading (s.entry i) then [] else l
    | _ => []) ++ s.keys.doomed.filter fun i => !Krt.loading (s.entry i)
  let s := named.foldl (fun (s : State) i => if Krt.state (s.entry i) = stFREE || Krt.state (s.entry i) = stEVICTING then s else s.evict i) s
  { s with keys := { s.keys with doomed := s.keys.doomed.filter fun i => Krt.loading (s.entry i) } }

/-- Releases and the operations that wait on them, by fuel over the descriptors. -/
def State.settle : Nat → State → State
  | 0, s => s.evictNamed.releaseKeys
  | n + 1, s =>
    let s := s.evictNamed.releaseKeys
    match s.readyDesc with
    | some (d, r) => settle n (s.complete1 d .ok r 0 {})
    | none => s

def State.settleAll (s : State) : State := State.settle s.descs.length s

/-- A descriptor completes, and what waited on it follows. -/
def State.complete (s : State) (d : DRef) (st : Status) (result : Nat := 0) (tag : Nat := 0) (ev : Events := {}) : State :=
  (s.complete1 d st result tag ev).settleAll

/-! ### QRUNs -/

def State.run (s : State) (d : DRef) : Option Run :=
  match s.adm d with
  | none => none
  | some a => match a.prog with
    | .qrun r => some r
    | _ => none

def State.updRun (s : State) (d : DRef) (f : Run → Run) : State :=
  s.updAdm d fun a => match a.prog with
    | .qrun r => { a with prog := .qrun (f r) }
    | _ => a

def State.updCl (s : State) (cl : Fin 64) (f : Cluster → Cluster) : State := { s with clusters := vupd s.clusters cl f }
def State.updEng (s : State) (cl : Fin 64) (f : Eng → Eng) : State := s.updCl cl fun c => { c with eng := f c.eng }
def State.queue (s : State) (cl : Fin 64) (q : Fin 7) : Queue := s.clusters[cl].eng.queues[q]
def State.updQueue (s : State) (cl : Fin 64) (q : Fin 7) (f : Queue → Queue) : State :=
  s.updEng cl fun e => { e with queues := vupd e.queues q f }
def allQueues : List (Fin 7) := List.finRange 7

/-- The bytes of a command's destinations become undefined (R12, log 18). -/
def State.undefine (s : State) (l : List Dest) : State :=
  if l.isEmpty then s
  else (l.foldl (fun s d =>
    if d.space = 0 then s.updCl (Fin.ofNat 64 d.cl) fun c => { c with ink := c.ink.fillFree s.free d.addr d.len }
    else if d.space = 1 then s.putMem d.addr d.len (s.mem.fillFree s.free d.addr d.len)
    else { s with host := s.host.updD [] (d.space - 2) fun m => m.fillFree s.free d.addr d.len }) s).drawn

/-- retired − c, signed, is at least 0 (R213). -/
def reached (retired c : BitVec 32) : Bool := (retired - c).toInt ≥ 0

/-- The address or handle that a SAMPLE record carries (Table 17-9). -/
def sampleData (q : Nat) (b : BitVec 512) : Nat := match q with
  | 0 => fld b 191 168
  | 1 | 2 => fld b 135 112
  | 3 => fld b 479 456
  | 4 => fld b 415 352
  | 5 => fld b 95 64
  | _ => fld b 43 32

/-- SAMPLE and FOLLOW records of a command that retires (R414). Stage times are left out (log 11): they read 0. -/
def State.sampleOf (s : State) (cl : Fin 64) (q : Fin 7) (w : Work) : State :=
  let cx := w.b.run.ctx.val
  let st := (Status.pick w.causes).code
  if w.sampled then
    s.trace 7 4 {
      kind := 0x10, ctx := cx, data := sampleData q w.b.bits, tag := w.b.tag.toNat, iter := w.b.iter, body := w.b.ix,
      cluster := cl, queue := q, status := st, aux := fld w.b.bits 7 0 * 2 ^ 24 + min (s.timebase - w.issuedAt) 0xFFFFFF }
  else if w.follow then
    s.trace 7 4 {
      kind := 0x12, ctx := cx, data := min (w.issuedAt - w.b.placedAt) 0xFFFF, tag := w.b.tag.toNat, iter := w.b.iter, body := w.b.ix,
      cluster := cl, queue := q, status := st, aux := fld w.b.bits 7 0 * 2 ^ 24 + min (s.timebase - w.b.placedAt) 0xFFFFFF }
  else s

/-- The same of works that leave together, each with its queue. -/
def State.samplesOf (s : State) (cl : Fin 64) (l : List (Fin 7 × Work)) : State := l.foldl (fun s x => s.sampleOf cl x.1 x.2) s

/-- The number of bodies of a run among a queue's items. -/
def bodiesOf (d : DRef) (l : List QItem) : Nat := (l.filter fun i => match i with
  | .body b => b.run == d
  | .mark _ _ _ => false).length

/-- Issued commands of a run that have not issued in the sense of R209: gates still shut, and GSUBs that no command has paired
with (log 31). -/
def Work.unissued (w : Work) (d : DRef) (paired : List Nat) : Bool :=
  w.b.run == d && !w.done && match w.kind with
    | .gate _ _ _ => true
    | .gsub _ _ _ _ _ => !paired.contains w.b.no
    | _ => false

/-- A queue without the bodies of a run that have not issued: each retires at once (R209). -/
def Queue.discard (k : Queue) (d : DRef) (paired : List Nat) : Queue :=
  { k with
    items := k.items.filter fun i => match i with
      | .body b => b.run != d
      | .mark _ _ _ => true
    works := k.works.filter fun w => !w.unissued d paired
    retired := k.retired + BitVec.ofNat 32 (bodiesOf d k.items + (k.works.filter (·.unissued d paired)).length) }

/-- The GSUB that a command has paired with (R104, R134). -/
def Work.gsub? (w : Work) : Option Nat := match w.kind with
  | .thaw t => some t.gsub
  | .ksw k => some k.gsub
  | _ => none
/-- GSUBs that an issued command has paired with. -/
def Eng.paired (e : Eng) : List Nat := [e.queues[0], e.queues[1], e.queues[2]].flatMap fun k => k.works.filterMap (·.gsub?)

/-- The gates of a run, unissued or shut, on a cluster: their marks go with them (R209). -/
def Eng.gatesOf (e : Eng) (d : DRef) : List Nat :=
  let q := e.queues[6]
  (q.items.filterMap fun i => match i with
    | .body b => if b.run = d then some b.no else none
    | .mark _ _ _ => none) ++
  q.works.filterMap fun w => match w.kind with
    | .gate _ _ _ => if w.b.run = d && !w.done then some w.b.no else none
    | _ => none

def Queue.unmark (k : Queue) (gates : List Nat) : Queue :=
  { k with items := k.items.filter fun i => match i with
      | .mark g _ _ => !gates.contains g
      | .body _ => true }

/-- Everything of a run that has not issued leaves a cluster, and its tasks end (R209). -/
def Eng.dropRun (e : Eng) (d : DRef) : Eng :=
  let gates := e.gatesOf d
  let ends (t : Option Task) : Bool := (t.map (·.run)) == some d
  { e with
    queues := e.queues.map fun k => (k.discard d e.paired).unmark gates
    nests := e.nests.map fun n => if (n.map (·.run)) == some d then none else n
    streams := e.streams.filter fun p => p.2.run != d
    cur := e.cur.bind fun p => if ends e.tasks[p] then none else some p
    tasks := e.tasks.map fun t => if ends t then none else t }

/-- The works of an engine state that satisfy a condition, with their queues. -/
def Eng.worksWhere (e : Eng) (p : Work → Bool) : List (Fin 7 × Work) :=
  allQueues.flatMap fun q => (e.queues[q].works.filter p).map fun w => (q, w)

/-- What put-back commands of a run have partly written and will not complete (Table 9-8). -/
def Eng.leftOf (e : Eng) (d : DRef) : List Dest := e.queues.toList.flatMap fun k => k.items.flatMap fun i => match i with
  | .body b => if b.run = d then b.left else []
  | .mark _ _ _ => []

/-- Uses of keys that what leaves had counted (R66). -/
def Eng.droppedUses (e : Eng) (d : DRef) : List Nat :=
  e.queues.toList.flatMap fun k => (k.works.filter (·.unissued d e.paired)).flatMap (·.uses)

/-- What the channels still had to read for streams that have gone goes with them. -/
def State.pruneStreams (s : State) (cl : Fin 64) : State :=
  s.unpost fun w => match w with
    | .stream c p => c == cl && !s.clusters[cl].eng.streams.any (·.1 == p)
    | _ => false

/-- Nothing of a run is left in an engine state: what has issued retires with it. DESIGN CHOICE: a chain that its commands left open in the Nib
stays open, so that the next start is refused; the spec is silent on it (log 62). -/
def Eng.purgeRun (e : Eng) (d : DRef) : Eng :=
  let e := e.dropRun d
  let mine (i : Nat) : Bool := e.queues[0].works.any fun w => w.b.no == i && w.b.run == d
  { e with
    nib := { e.nib with drains := e.nib.drains.filter (fun x => !mine x.1), tiles := e.nib.tiles.filter (fun x => !mine x.1) }
    queues := e.queues.map fun k => { k with
      works := k.works.filter (·.b.run != d)
      retired := k.retired + BitVec.ofNat 32 (k.works.filter (·.b.run == d)).length }
    sends := e.sends.filter (·.run != d)
    xfers := e.xfers.filter (·.run != d) }

def Eng.purgedUses (e : Eng) (d : DRef) : List Nat :=
  e.queues.toList.flatMap fun k => (k.works.filter fun w => w.b.run == d && !w.done).flatMap (·.uses)

/-- Place of a cluster in its partition. -/
def State.placeOf (s : State) (cl : Fin 64) : Nat := cl.val % s.perPart

/-- The engine state that a context has on a cluster: the running one, or what a switch saved (R291). -/
def State.engOf (s : State) (cx : Fin 4096) (cl : Fin 64) : Eng :=
  if s.clusters[cl].ctx = some cx then s.clusters[cl].eng else ((s.ctxs.find cx).map fun c => c.saved.get {} (s.placeOf cl)).getD {}

def State.updEngOf (s : State) (cx : Fin 4096) (cl : Fin 64) (f : Eng → Eng) : State :=
  if s.clusters[cl].ctx = some cx then s.updEng cl f else s.updCtx cx fun c => { c with saved := c.saved.upd (s.placeOf cl) f }

def State.purge (s : State) (cl : Fin 64) (d : DRef) : State :=
  let gone (w : MemWho) : Bool := match w with
    | .xfer c no => c == cl && s.clusters[cl].ctx == some d.ctx && s.clusters[cl].eng.xfers.any fun x => x.no == no && x.run == d
    | _ => false
  let s := (s.samplesOf cl ((s.engOf d.ctx cl).worksWhere (·.b.run == d))).undefine ((s.engOf d.ctx cl).leftOf d)
  ((((s.useDec ((s.engOf d.ctx cl).purgedUses d)).unpost gone).updEngOf d.ctx cl fun e => e.purgeRun d).pruneStreams cl).ackInvals

/-- Outstanding transfers of a cluster end without their effect, and what the channels still had to serve of them goes. -/
def State.dropXfers (s : State) (cl : Fin 64) (p : Xfer → Bool) : State :=
  let gone (w : MemWho) : Bool := match w with
    | .xfer c no => c == cl && s.clusters[cl].eng.xfers.any fun x => x.no == no && p x
    | _ => false
  ((s.unpost gone).updEng cl fun e => { e with xfers := e.xfers.filter (!p ·) }).ackInvals

/-! ### Tasks -/

/-- The queue has room for n bodies more (Table 8-8). -/
def queueDepth (q : Nat) : Nat := match q with
  | 1 | 2 => 16
  | 5 | 6 => 32
  | _ => 64
def Queue.bodies (k : Queue) : Nat := (k.items.filter fun i => match i with
  | .body _ => true
  | .mark _ _ _ => false).length
def Eng.room (e : Eng) (q : Nat) : Bool := match vget? e.queues q with
  | some k => k.bodies < queueDepth q
  | none => true
/-- A nest places into the queue (R216). -/
def Eng.streaming (e : Eng) (q : Nat) : Bool := e.nests.toList.any (fun n => (n.map (·.queue)) == some q)
/-- No stream that places now names the queue in a word that is left (R216). -/
def Eng.streamFree (e : Eng) (q : Nat) : Bool := e.streams.all fun p => p.2.queues / 2 ^ q % 2 == 0
/-- A body may enter the queue beside what places now (R216). -/
def Eng.mayPlace (e : Eng) (q : Nat) : Bool := !e.streaming q && e.streamFree q
/-- The same of every queue of a mask. -/
def Eng.mayStream (e : Eng) (queues : Nat) : Bool := (upTo 7).all fun q => queues / 2 ^ q % 2 == 0 || e.mayPlace q

/-- The condition that a waiting task waits for holds (R207). -/
def Eng.wakes (e : Eng) (t : Task) : WaitWhy → Bool
  | .retired q c => reached (((vget? e.queues q).map (·.retired)).getD 0) c
  | .push q => e.room q && e.mayPlace q
  | .pushn q => e.nests.toList.any (·.isNone) && e.mayPlace q
  | .clw queues => e.mayStream queues
  | .args => t.landed
  | .stream => t.streamDone

/-- Waiting tasks whose condition holds become READY (R207). -/
def Eng.wake (e : Eng) : Eng :=
  { e with tasks := e.tasks.map fun o => o.map fun t => match t.st with
      | .waiting w => if e.wakes t w then { t with st := .ready } else t
      | _ => t }

/-- The next READY task in ascending place order after `last`, wrapping (R207). -/
def Eng.nextReady (e : Eng) : Option (Fin 8) :=
  ((upTo 8).map fun i => Fin.ofNat 8 (e.last.val + 1 + i)).find? fun p => (e.tasks[p].map (·.st)) == some .ready

/-- When no task runs, the next READY task starts. -/
def Eng.schedule (e : Eng) : Eng :=
  if e.cur.isSome then e
  else match e.nextReady with
    | some p => { e with cur := some p, last := p, tasks := vupd e.tasks p fun o => o.map fun t => { t with st := .running, since := 0 } }
    | none => e

def Eng.resume (e : Eng) : Eng := e.wake.schedule

/-- Tasks wake and the next one starts; a start is a task switch (event 0x102). -/
def State.resume (s : State) (cl : Fin 64) : State :=
  let s' := s.updEng cl Eng.resume
  if s.clusters[cl].eng.cur.isSome then s'
  else match s'.clusters[cl].eng.cur.bind fun p => s'.clusters[cl].eng.tasks[p] with
    | some t => s'.tallyCl 0x102 cl (some t.run.ctx.val)
    | none => s'

/-! ### Retirement -/

/-- Finished commands retire in the order of their placement, below the number of the first body that has not issued (R213); the
retired ones are returned. -/
def popDone (lim : Option Nat) : List Work → List Work × List Work
  | [] => ([], [])
  | w :: r =>
    if w.done && (match lim with
      | some n => w.b.no < n
      | none => true) then
      let (a, b) := popDone lim r
      (w :: a, b)
    else ([], w :: r)

/-- The number of the first body of a queue that has not issued. -/
def Queue.firstNo (k : Queue) : Option Nat := k.items.findSome? fun i => match i with
  | .body b => some b.no
  | .mark _ _ _ => none

def State.retire1 (s : State) (cl : Fin 64) (q : Fin 7) : State :=
  let (out, rest) := popDone (s.queue cl q).firstNo (s.queue cl q).works
  let s := s.updQueue cl q fun k => { k with works := rest, retired := k.retired + BitVec.ofNat 32 out.length }
  out.foldl (fun s w => s.sampleOf cl q w) s

/-- The source of a gate has reached its count (R213, R215). -/
def Eng.gateOpen (e : Eng) (src : Nat) (c : BitVec 32) : Bool := ((vget? e.queues src).map fun k => reached k.retired c) == some true

/-- Gates whose source has reached their count open, wherever they stand: their marks go, and the ones that have issued end (R215). -/
def Eng.openGates (e : Eng) : Eng :=
  let queues := e.queues.map fun k => { k with items := k.items.filter fun i => match i with
      | .mark _ src c => !e.gateOpen src c
      | .body _ => true }
  { e with queues := vupd queues 6 fun k => { k with works := k.works.map fun w => match w.kind with
      | .gate _ src c => if e.gateOpen src c then { w with done := true } else w
      | _ => w } }

/-- Retirement in a queue and what follows on the cluster: gates open, tasks wake. -/
def State.retire (s : State) (cl : Fin 64) (q : Fin 7) : State :=
  let s := s.retire1 cl q
  ((s.updEng cl Eng.openGates).retire1 cl 6).resume cl

/-! ### The end of a QRUN -/

/-- Nothing of a run is left on a cluster (R208). -/
def Eng.quiet (e : Eng) (d : DRef) : Bool :=
  e.tasks.toList.all (fun t => (t.map (·.run)) != some d) &&
  e.queues.toList.all (fun k => bodiesOf d k.items == 0 && k.works.all (·.b.run != d)) &&
  e.nests.toList.all (fun n => (n.map (·.run)) != some d) && e.streams.all (·.2.run != d) &&
  e.sends.all (·.run != d) && e.xfers.all (·.run != d)

/-- The first command whose status is the one posted gives the record's tag (Table 11-12). -/
def Run.outcome (r : Run) : Status × Nat :=
  let st := Status.pick (r.causes.map (·.1))
  (st, if st = .ok then 0 else ((r.causes.find? (·.1 == st)).map (·.2.toNat)).getD 0)

/-- The fields that a QRUN with a plan writes into an output descriptor (R449): family_id, layout, width, msg_bits,
kset_index and kset_gen, noise_bound, carry_bound of the 32-byte descriptor of Table 2-5. -/
def Tensor.putDesc (t : Tensor) (b : BitVec 256) : BitVec 256 :=
  let b := putFld (putFld b 7 0 t.f.id) 15 8 t.layout.code
  let b := putFld (putFld b 25 20 t.width) 19 16 t.msg
  putFld (putFld (putFld b 95 80 t.carry) 75 64 t.noise) 63 32 t.kset.toNat

/-- √(Σd² / Σw²) rounded to FP32 (R167). -/
def ratio (d2 w2 : FVal) : FVal :=
  match d2, w2 with
  | .fin _ m1 e1, .fin _ m2 e2 =>
    if m2 = 0 then (if m1 = 0 then .nan else .inf false)
    else if m1 = 0 then FVal.zero false
    else
      let e := e1 - e2
      let sh : Nat := 512 + (e % 2).toNat
      let n := m1 * 2 ^ sh
      let r := SpecialFn.isqrt (n / m2)
      let sticky := if r * r * m2 = n then 0 else 1
      fp32 (.fin false (2 * r + sticky) ((e - sh) / 2 - 1))
  | .inf _, .fin _ _ _ => .inf false
  | .fin _ _ _, .inf _ => FVal.zero false
  | _, _ => .nan

/-- A closing update's evaluation of a monitor entry (R167): the new entry, and whether an event follows. -/
def monitorEval (b : BitVec 256) (r : FVal) : BitVec 256 × Bool :=
  let out := r.isNan || r.lt (f32Val (fld b 159 128)) || (f32Val (fld b 191 160)).lt r
  let b := putFld (putFld b 223 192 (f32Code r)) 127 64 (fld b 127 64 + 1)
  (if out then putFld b 63 32 (min (fld b 63 32 + 1) 0xFFFFFFFF) else b, out)

/-- One counter of the numeric record raised, stopping at 0xFFFF_FFFF (R166). -/
def State.numAdd (s : State) (sp : HostSpace) (a n : Nat) : State := s.hostPut sp a 4 (min (s.hostNat sp a 4 + n) 0xFFFFFFFF)

/-- The additions of an OK QRUN to the numeric record (R166). -/
def State.numRecord (s : State) (cx base : Nat) (r : Run) : State :=
  let sp := s.spaceOf cx
  r.layers.foldl (fun s (l, sat, wide) =>
    let s := if sat = 0 then s else s.numAdd sp (base + 4 * l) sat
    if wide = 0 then s else s.numAdd sp (base + 0x400 + 4 * l) wide) s

/-- Monitor sums of an OK QRUN, evaluations, and the events that follow its record (R167). -/
def State.monitors (s : State) (cx base : Nat) (r : Run) : State × List (Nat × Nat) :=
  r.mons.foldl (fun (s, evs) (k, d2, w2, close) =>
    match s.ctxs.find cx with
    | none => (s, evs)
    | some c =>
      let sp := s.spaceOf cx
      let a := base + 0x800 + 32 * k
      let b := BitVec.ofNat 256 (s.hostNat sp a 32)
      if fld b 8 8 = 0 then (s, evs)
      else
        let (x, y) := c.monSums.get (FVal.zero false, FVal.zero false) k
        let sums := (roundRA (x.add d2), roundRA (y.add w2))
        if close then
          let v := ratio sums.1 sums.2
          let (b, out) := monitorEval b v
          let s := (s.hostPut sp a 32 b.toNat).updCtx cx fun c => { c with monSums := c.monSums.erase k }
          (s, if out then evs ++ [(f32Code v + 2 ^ 32 * fld b 7 0, k)] else evs)
        else (s.updCtx cx fun c => { c with monSums := c.monSums.set k sums }, evs)) (s, [])

/-- The output descriptors of an OK QRUN that lie in host memory written (R449). -/
def State.writeOuts (s : State) (cx : Nat) (r : Run) : State :=
  r.outs.foldl (fun s o =>
    if o.host then s.hostPut (s.spaceOf cx) o.addr 32 (o.res.putDesc (BitVec.ofNat 256 (s.hostNat (s.spaceOf cx) o.addr 32))).toNat else s) s

/-- Those that lie in module memory. -/
def Run.modOuts (r : Run) : List PlanOut := r.outs.filter (!·.host)

/-- Their writes go to the channels, as descriptor traffic of the hub (R259). -/
def State.sendOuts (s : State) (d : DRef) (r : Run) : State :=
  r.modOuts.foldl (fun (s : State) o => s.post (.plan d) .lc true o.addr 32) (s.updRun d fun r => { r with outsSent := true })

/-- The bytes of module memory with one of them as it will stand. -/
def PlanOut.into (o : PlanOut) (m : Memory) : Memory := m.write o.addr (leBytes 32 (o.res.putDesc (BitVec.ofNat 256 (m.readNat o.addr 32))).toNat)

/-- The host ranges that the end of an OK QRUN writes. -/
def Run.endRanges (r : Run) (base : Nat) : List (Nat × Nat) :=
  ((r.outs.filter (·.host)).map fun o => (o.addr, 32)) ++
  (if r.layers.any (fun l => l.2 != (0, 0)) || !r.mons.isEmpty then [(base, 4096)] else [])

/-- A started QRUN whose tasks have ended and whose commands have retired completes (R208), once what it writes can be translated and the channels
have served its output descriptors; one in a fenced stack cannot be written (R265). -/
def State.finishRun (s : State) (d : DRef) : State :=
  match s.run d with
  | none => s
  | some r =>
    if !(r.started || r.failed) || !r.set.all fun c => (s.engOf d.ctx c).quiet d then s
    else
      let (st, tag) := r.outcome
      if st != .ok then s.complete d st 0 tag r.ev
      else
        let cx := d.ctx.val
        let sp := s.spaceOf cx
        -- the numeric record of its admission (R295)
        let base := ((s.adm d).map fun (a : Adm) => fld a.desc 1151 1088).getD 0
        match (r.endRanges base).find? fun (a, n) => !s.xlOk sp a n true with
        | some (a, n) => s.ask (.work d.ctx (.desc d)) sp a n true
        | none =>
          if r.modOuts.any fun o => s.memFenced o.addr 32 then s.complete d .unitFenced 0 0 r.ev
          else if !r.modOuts.isEmpty && !r.outsSent then s.sendOuts d r
          else if s.memWaits (.plan d) then s
          else
          let s := (s.writeOuts cx r).numRecord cx base r
          let (s, evs) := s.monitors cx base r
          let s := s.complete d .ok 0 0 r.ev
          evs.foldl (fun s (p0, p1) => s.raise cx 0x02 cx p0 p1) s

/-- Every QRUN of which nothing is left completes. -/
def State.finishRuns (s : State) : State := s.descs.foldl (fun (s : State) (p : DRef × Adm) => s.finishRun p.1) s

/-- Finished commands of every queue retire in an engine state. -/
def Eng.popAll (e : Eng) : Eng :=
  { e with queues := e.queues.map fun k =>
      let (out, rest) := popDone k.firstNo k.works
      { k with works := rest, retired := k.retired + BitVec.ofNat 32 out.length } }

/-- What popAll retires. -/
def Eng.popped (e : Eng) : List (Fin 7 × Work) := allQueues.flatMap fun q => (popDone e.queues[q].firstNo e.queues[q].works).1.map fun w => (q, w)

/-- Everything that may retire on a cluster does, and what follows: gates open, tasks wake. -/
def State.retireAll (s : State) (cx : Fin 4096) (cl : Fin 64) : State :=
  if s.clusters[cl].ctx = some cx then
    let s := allQueues.foldl (fun (s : State) q => s.retire1 cl q) s
    ((s.updEng cl Eng.openGates).retire1 cl 6).resume cl
  else
    let e := s.engOf cx cl
    ((s.samplesOf cl e.popped).samplesOf cl e.popAll.openGates.popped).updEngOf cx cl fun e => e.popAll.openGates.popAll.wake

/-- TASK_START and TASK_END records (Table 17-9). -/
def State.traceTask (s : State) (kind : Nat) (cl : Fin 64) (p : Nat) (d : DRef) : State :=
  match s.adm d with
  | some a => s.trace a.modes.trace 2 { kind, ctx := d.ctx, aux := p, cluster := cl }
  | none => s

/-- The tasks of a run on a cluster have ended. -/
def State.traceEnds (s : State) (cl : Fin 64) (d : DRef) : State :=
  (List.finRange 8).foldl (fun s p => match (s.engOf d.ctx cl).tasks[p] with
    | some t => if t.run = d then s.traceTask 0x04 cl p d else s
    | none => s) s

/-- Requests of bodies that are gone end with them, and parked with the last (R275). -/
def State.pruneReqs (s : State) (cx : Fin 4096) : State :=
  let stays (r : XlReq) : Bool := match r.who with
    | .work c (.body cl q i) => c != cx || (let k := (s.engOf cx cl).queues[q]
        k.works.any (·.b.no == i) || k.items.any fun x => match x with
          | .body b => b.no == i
          | .mark _ _ _ => false)
    | _ => true
  s.endReqs cx fun r => !stays r

/-- The first non-OK end fails a QRUN (R209): what has not issued leaves every cluster of its set, and its tasks end. -/
def State.failRun (s : State) (d : DRef) (st : Status) (tag : BitVec 32) : State :=
  match s.run d with
  | none => s
  | some r =>
    let s := s.updRun d fun r => { r with causes := r.causes ++ [(st, tag)], failed := true }
    let s := if r.failed then s
      else r.set.foldl (fun (s : State) c =>
        let e := s.engOf d.ctx c
        ((((((s.traceEnds c d).undefine (e.leftOf d)).samplesOf c (e.worksWhere fun w => w.unissued d e.paired)).useDec (e.droppedUses d)).updEngOf d.ctx c fun e => e.dropRun d).pruneStreams c).retireAll d.ctx c) s
    (s.pruneReqs d.ctx).finishRuns

/-! ### The end of an engine command -/

def State.work? (s : State) (cl : Fin 64) (q : Fin 7) (i : Nat) : Option Work := (s.queue cl q).works.find? (·.b.no == i)
def State.updWork (s : State) (cl : Fin 64) (q : Fin 7) (i : Nat) (f : Work → Work) : State :=
  s.updQueue cl q fun k => { k with works := k.works.map fun w => if w.b.no = i then f w else w }

/-- Statuses that leave destinations undefined (Table 0-4). -/
def Status.undefines (st : Status) : Bool := st == .faultDetected || st == .aborted || st == .translationError

/-- An engine command ends with its causes: what they leave undefined, its counts to the QRUN, the failure of the QRUN, and its
retirement in order (R12, R209, R213). -/
def State.endWork (s : State) (cl : Fin 64) (q : Fin 7) (w : Work) (causes : List Status) : State :=
  let all := w.causes ++ causes
  let st := Status.pick all
  let d := w.b.run
  let s := s.undefine (w.region ++ if st.undefines then w.dests else [])
  let s := s.updWork cl q w.b.no fun w => { w with done := true, causes := all }
  let s := s.endReqs d.ctx fun (r : XlReq) => r.who == XlWho.work d.ctx (.body cl q w.b.no)
  let s := (s.useDec w.uses).releaseKeys
  let s := if st = .ok then s.updRun d fun r => { r with
      ev := r.ev.add w.ev
      layers := if w.ev.sat = 0 && w.ev.wide = 0 then r.layers else r.layers.updD (0, 0) w.layer fun (a, b) => (a + w.ev.sat, b + w.ev.wide)
      mons := match w.mon with
        | some (x, y) => r.mons ++ [(fld w.b.bits 177 172, x, y, fld w.b.bits 171 171 == 1)]
        | none => r.mons }
    else s.failRun d st w.b.tag
  let s := s.retire cl q
  s.settleAll.finishRuns

end Sys2Proof.Machine
end

