-- ==== Sys2Proof/Machine/Firn.lean ====
section
/-! DEFINITION. Where keys lie (R64, R253), what the Glaciers read (R252), and the Firn: its staged set and staging copies (R75, R76). -/

namespace Sys2Proof.Machine

/-! ### Placement (R64, R253) -/

/-- The module address of unit u of a key. -/
def unitAddr (first base u : Nat) : Nat := 4096 * (20 * (base + u / 20) + (first + u) % 20)

/-- The die whose stacks hold unit u. -/
def unitDie (first u : Nat) : Nat := (first + u) % 20 / 5

/-- A request of the units of a key that lie in the k-th stack from its first (R64): they are consecutive lines of that stack. -/
def State.postRows (s : State) (who : MemWho) (cls : MemClass) (write : Bool) (e : Krt.Entry) (k : Nat) : State :=
  let n := if Krt.length e ≤ k then 0 else (Krt.length e - k - 1) / 20 + 1
  let stk := (Krt.first e + k) % 20
  if n = 0 then s
  else
    let chans : Vector Chan 160 := Vector.ofFn fun (c : Fin 160) =>
      let h := s.memsys.chans[c]
      if c.val / 8 = stk && !s.chFenced c then { h with reqs := h.reqs ++ [{
        who, cls, write, addr := unitAddr (Krt.first e) (Krt.base e) k, len := 81920 * (n - 1) + 4096, first := Krt.base e, last := Krt.base e + n - 1, left := 2 * n }] }
      else h
    { s with memsys := { s.memsys with chans } }

/-! ### What a Glacier reads (R252) -/

/-- The die whose Glacier reads a die's units (Table 15-5): the next unfenced in ascending order, wrapping. -/
def State.glacierOf (s : State) (die : Nat) : Nat :=
  (((upTo 4).map fun k => (die + k) % 4).find? fun k => !s.glacierFenced k).getD die

/-- The Glacier that has asked for a request: a sweep's fragment, or a unit of a staging copy. -/
def State.readerOf (s : State) : MemWho → Option Nat
  | .fragment slot u => s.keys.sweeps[slot].map fun w => s.glacierOf (unitDie (Krt.first w.entry) u)
  | .stage i u => some (s.glacierOf (unitDie (Krt.first (s.entry i)) u))
  | _ => none

/-- Reads that a Glacier has outstanding. -/
def State.glacierReads (s : State) (die : Nat) : Nat :=
  ((s.memsys.chans.toList.flatMap fun h => h.reqs.map (·.who)).filter fun w => s.readerOf w == some die).eraseDups.length

/-! ### The Firn (R74 to R76) -/

/-- Units of a key on a die. -/
def dieUnits (first length die : Nat) : Nat :=
  ((upTo 5).map fun j =>
    let r := (5 * die + j + 20 - first) % 20
    if length ≤ r then 0 else (length - r - 1) / 20 + 1).sum
def Krt.share (e : Krt.Entry) (die : Nat) : Nat := dieUnits (Krt.first e) (Krt.length e) die
def Krt.largest (e : Krt.Entry) : Nat := (upTo 4).foldl (fun m k => max m (Krt.share e k)) 0

/-- No key is staged while a Firn or a Glacier is fenced (Table 15-5). -/
def State.firnOff (s : State) : Bool := fld s.hub.fenceMisc 10 3 != 0

/-- Units of the entries listed on a die. -/
def State.firnUsed (s : State) (l : List Nat) (die : Nat) : Nat := (l.map fun i => Krt.share (s.entry i) die).sum
/-- 64 MiB a die, in units. -/
def firnUnits : Nat := 16384
def State.firnFits (s : State) (l : List Nat) : Bool := (upTo 4).all fun k => s.firnUsed l k ≤ firnUnits

/-- The staging copy of an entry asks for its units in order while their Glaciers have reads left (R75, R252), by fuel over its length. -/
def State.stageUnits : Nat → Nat → State → State
  | 0, _, s => s
  | n + 1, i, s => match s.keys.staging.find i with
    | none => s
    | some u =>
      let e := s.entry i
      if u ≥ Krt.length e then { s with keys := { s.keys with staging := s.keys.staging.erase i } }
      else if s.glacierReads (s.glacierOf (unitDie (Krt.first e) u)) ≥ 1024 then s
      else stageUnits n i
        ({ s with keys := { s.keys with staging := s.keys.staging.set i (u + 1) } }.post (.stage i u) .bulk false (unitAddr (Krt.first e) (Krt.base e) u) 4096)

/-- Every staging copy goes on as far as it may. -/
def State.stageMore (s : State) : State :=
  (s.keys.staging.map (·.1)).foldl (fun (s : State) i => State.stageUnits (Krt.length (s.entry i) + 1) i s) s

/-- Some unit of a staging copy has not been read. -/
def State.stageWaits (s : State) (i : Nat) : Bool :=
  (s.keys.staging.find i).isSome || s.memsys.chans.toList.any fun h => h.reqs.any fun q => MemWho.stages i q.who

/-- The firn field of an entry changes: with 1 a staging copy starts, which reads every unit with class BULK (R75, R76); any other value ends one. -/
def State.setFirn (s : State) (i v : Nat) : State :=
  let s := (s.dropStaging i).setEntry i (putFld (s.entry i) 36 35 v)
  if v = 1 then { s with keys := { s.keys with staging := s.keys.staging.set i 0 } }.stageMore else s

def State.listed (s : State) (p : Krt.Entry → Bool) : List Nat := (s.keys.a.filter fun x => p x.2).map (·.1)
def Krt.pinned (e : Krt.Entry) : Bool := Krt.pin e

/-- Rank of R75: at-risk contexts first, then sweeps of the last epoch times the largest die share. -/
def State.rank (s : State) (i : Nat) : Nat :=
  let e := s.entry i
  let risk := ((s.ctxs.find (Krt.owner e)).map (·.gov.risk)).getD false
  (if risk then 2 ^ 64 else 0) + Krt.sweepsLast e * Krt.largest e

def insertRank (f : Nat → Nat) (x : Nat) : List Nat → List Nat
  | [] => [x]
  | y :: r => if f y < f x then x :: y :: r else y :: insertRank f x r
def byRank (f : Nat → Nat) (l : List Nat) : List Nat := l.foldl (fun acc x => insertRank f x acc) []

/-- The unpinned keys of an epoch's choice (R75): RESIDENT ones in rank order, as they fit into the space that pins leave. -/
def State.chooseFirn (s : State) : List Nat :=
  if s.firnOff then []
  else
    let pins := s.listed Krt.pin
    (byRank s.rank (s.listed fun e => Krt.state e == stRESIDENT && !Krt.pin e)).foldl (fun l i => if s.firnFits (pins ++ l ++ [i]) then l ++ [i] else l) []

/-- The keys that should be staged and are not begin their copies as the Firns have room, pinned ones first, then the chosen ones in rank order. -/
def State.stageWanted (s : State) : State :=
  if s.firnOff then s
  else (s.listed (fun e => Krt.pin e && Krt.state e == stRESIDENT) ++ s.keys.chosen.filter fun i => Krt.state (s.entry i) == stRESIDENT).foldl (fun (s : State) i =>
    if Krt.firn (s.entry i) = 0 && s.firnFits (s.listed (fun e => Krt.firn e != 0) ++ [i]) then s.setFirn i 1 else s) s

/-- A key that is not to stay leaves the Firn: at once, or, staged and swept, with the end of its sweep. -/
def State.leaveFirn (s : State) (i : Nat) : State := s.setFirn i (if Krt.firn (s.entry i) ≥ 2 && s.swept i then 3 else 0)

/-- Unpinned keys leave, the lowest rank first, until the Firns have room for the pinned ones. -/
def State.makeRoom (s : State) : State :=
  (byRank s.rank (s.listed fun e => Krt.firn e != 0 && !Krt.pin e)).reverse.foldl (fun (s : State) i =>
    if s.firnFits (s.listed fun e => (Krt.firn e != 0 && Krt.firn e != 3) || Krt.pin e) then s else s.leaveFirn i) s

end Sys2Proof.Machine
end

