-- ==== Sys2Proof/Machine/Window.lean ====
section
/-! DEFINITION. The set-up window (18): which register an offset names, what it reads as, and what a read clears. -/

namespace Sys2Proof.Machine

/-- The registers of the window; wide ones by 64-bit word. -/
inductive Reg where
  | hubId | serial | partCfg | statePool | keyPool | keyDir | setupErr | timebase | ctx0Desc | ctx0Ctrl
  | fenceCl | fenceThaw (w : Nat) | fenceCh (w : Nat) | fenceMisc | faultCnt
  | ctxStatus (c : Nat) | dieStatus (k : Fin 4) | dieFirn (k : Fin 4)
  | fclStatus | fclRetry | fplStatus (p : Fin 2) | fplRetry (p : Fin 2)
  | temp (i : Fin 64) | volt (i : Fin 24) | curr (i : Fin 8) | power | powerCap | dieV (k : Fin 4) | dieRate (k : Fin 4)
  | shed | srcState | go | morainePos | fwAddr | fwCtrl | fwStatus
  | pkeStat | pkeMismatch | pkeFwFp (w : Nat) | pkeMfgFp (w : Nat)
  | obsGlobal | freezeTime | snapAddr | snapSeq | traceBase | traceCb | traceCtrl | ctrSel (n : Nat) | ctrVal (n : Nat)
  | classShare | therm (k : Fin 20) | eccCe (c : Fin 160) | eccUe (c : Fin 160) | eccLast (c : Fin 160)
  | tgCtrl (c : Fin 160) | tgSeed (c : Fin 160) | tgRange (c : Fin 160) | tgStatus (c : Fin 160) | tgCodec (c : Fin 160)
  | tgErrs (c : Fin 160) | tgFail (c : Fin 160)
  | moraine (p w : Nat) | view (c w : Nat)
  deriving DecidableEq, Repr

/-- A register of an array of n, 4 bytes apart from lo. -/
def arr4 (o lo n : Nat) (f : Nat → Reg) : Option (Reg × Bool) :=
  if lo ≤ o && o < lo + 4 * n then some (f ((o - lo) / 4), false) else none

/-- The registers of a channel's sub-block (Table 10-6). -/
def chanReg (c : Fin 160) : Nat → Option (Reg × Bool)
  | 0x00 => some (.eccCe c, false) | 0x04 => some (.eccUe c, false) | 0x08 => some (.eccLast c, true)
  | 0x10 => some (.tgCtrl c, false) | 0x14 => some (.tgSeed c, false) | 0x18 => some (.tgRange c, true)
  | 0x20 => some (.tgStatus c, false) | 0x24 => some (.tgCodec c, false) | 0x28 => some (.tgErrs c, false)
  | 0x30 => some (.tgFail c, true) | _ => none

/-- The HUB block (Table 18-3). -/
def hubReg : Nat → Option (Reg × Bool)
  | 0x00 => some (.hubId, false) | 0x08 => some (.serial, true) | 0x10 => some (.partCfg, false)
  | 0x18 => some (.statePool, true) | 0x20 => some (.keyPool, true) | 0x28 => some (.keyDir, true)
  | 0x30 => some (.setupErr, false) | 0x38 => some (.timebase, true) | 0x40 => some (.ctx0Desc, true)
  | 0x48 => some (.ctx0Ctrl, false) | 0x100 => some (.fenceCl, true) | 0x110 => some (.fenceThaw 0, true)
  | 0x118 => some (.fenceThaw 1, true) | 0x120 => some (.fenceCh 0, true) | 0x128 => some (.fenceCh 1, true)
  | 0x130 => some (.fenceCh 2, true) | 0x138 => some (.fenceMisc, false) | 0x13C => some (.faultCnt, false) | _ => none

/-- The SRC block (Table 18-7). -/
def srcReg (o : Nat) : Option (Reg × Bool) :=
  match o with
  | 0x1A0 => some (.power, false) | 0x1A4 => some (.powerCap, false) | 0x1D0 => some (.shed, false)
  | 0x1D4 => some (.srcState, false) | 0x1D8 => some (.go, false) | 0x1DC => some (.morainePos, false)
  | 0x1E0 => some (.fwAddr, true) | 0x1E8 => some (.fwCtrl, false) | 0x1EC => some (.fwStatus, false)
  | _ => (arr4 o 0x000 64 fun i => .temp (Fin.ofNat 64 i)) <|> (arr4 o 0x100 24 fun i => .volt (Fin.ofNat 24 i)) <|>
    (arr4 o 0x180 8 fun i => .curr (Fin.ofNat 8 i)) <|> (arr4 o 0x1B0 4 fun i => .dieV (Fin.ofNat 4 i)) <|>
    (arr4 o 0x1C0 4 fun i => .dieRate (Fin.ofNat 4 i))

/-- The OBS block (17). -/
def obsReg (o : Nat) : Option (Reg × Bool) :=
  match o with
  | 0x00 => some (.obsGlobal, false) | 0x08 => some (.freezeTime, true) | 0x10 => some (.snapAddr, true)
  | 0x18 => some (.snapSeq, false) | 0x20 => some (.traceBase, true) | 0x28 => some (.traceCb, true) | 0x30 => some (.traceCtrl, false)
  | _ =>
    if 0x1000 ≤ o && o < 0x1000 + 4 * 1216 then some (.ctrSel ((o - 0x1000) / 4), false)
    else if 0x4000 ≤ o && o < 0x4000 + 8 * 1216 && o % 8 = 0 then some (.ctrVal ((o - 0x4000) / 8), true) else none

/-- The register at an offset of the window, and whether it is 64 bits wide (Table 18-1). -/
def regAt (o : Nat) : Option (Reg × Bool) :=
  if o % 4 != 0 then none
  else if o < 0x1_0000 then hubReg o
  else if o < 0x1_4000 then some (.ctxStatus ((o - 0x1_0000) / 4), false)
  else if 0x2_0000 ≤ o && o < 0x2_4000 then
    let k := Fin.ofNat 4 ((o - 0x2_0000) / 0x1000)
    match o % 0x1000 with
    | 0 => some (.dieStatus k, false) | 4 => some (.dieFirn k, false) | _ => none
  else if 0x3_0000 ≤ o && o < 0x3_1000 then
    match o % 0x1000 with
    | 0x00 => some (.fclStatus, false) | 0x04 => some (.fclRetry, false) | 0x10 => some (.fplStatus 0, false)
    | 0x14 => some (.fplRetry 0, false) | 0x18 => some (.fplStatus 1, false) | 0x1C => some (.fplRetry 1, false) | _ => none
  else if 0x4_0000 ≤ o && o < 0x4_1000 then srcReg (o % 0x1000)
  else if 0x5_0000 ≤ o && o < 0x5_1000 then
    match o % 0x1000 with
    | 0x00 => some (.pkeStat, false) | 0x04 => some (.pkeMismatch, false) | 0x10 => some (.pkeFwFp 0, true)
    | 0x18 => some (.pkeFwFp 1, true) | 0x20 => some (.pkeMfgFp 0, true) | 0x28 => some (.pkeMfgFp 1, true) | _ => none
  else if 0x6_0000 ≤ o && o < 0x7_0000 then obsReg (o % 0x1_0000)
  else if o = 0x10_0000 then some (.classShare, false)
  else if 0x10_1000 ≤ o && o < 0x11_5000 then
    let k := (o - 0x10_1000) / 0x1000
    let r := o % 0x1000
    if r = 0 then some (.therm (Fin.ofNat 20 k), false)
    else if 0x100 ≤ r && r < 0x300 then chanReg (Fin.ofNat 160 (8 * k + (r - 0x100) / 0x40)) (r % 0x40)
    else none
  else if 0x40_0000 ≤ o && o < 0x80_0000 then (if o % 8 = 0 then some (.moraine ((o - 0x40_0000) / 64) (o % 64 / 8), true) else none)
  else if 0x200_0000 ≤ o && o < 0x400_0000 then
    (if o % 8 = 0 then some (.view ((o - 0x200_0000) / 8192) (o % 8192 / 8), true) else none)
  else none

/-- Units of a key, 4 KiB each, that lie on a compute die's five stacks (R64). -/
def dieShare (first length die : Nat) : Nat :=
  ((upTo 5).map fun j =>
    let st := 5 * die + j
    let r := (st + 20 - first) % 20
    if length ≤ r then 0 else (length - r - 1) / 20 + 1).sum

/-- Shares of the entries that satisfy a condition, on a die, in units of 64 KiB rounded up (Table 18-5). -/
def State.shares (s : State) (die : Nat) (p : Krt.Entry → Bool) : Nat :=
  divUp ((s.keys.a.filter fun x => p x.2).map fun x => dieShare (Krt.first x.2) (Krt.length x.2) die).sum 16

/-- The step that a die's stacks ask for (R263). -/
def State.stackStep (s : State) (die : Nat) : Nat :=
  ((s.memsys.stackRegs.toList.drop (5 * die)).take 5).foldl (fun m k => max m (fld k.therm 5 4)) 0

/-- The throttle step in force on a die (R397). -/
def State.dieStep (s : State) (die : Fin 4) : Nat := max s.env.power.dies[die].step (s.stackStep die)

def SrcState.code : SrcState → Nat
  | .off => 0 | .serac => 1 | .firmware => 2 | .rails => 3 | .memory => 4 | .test => 5 | .setup => 6 | .ready => 7
  | .failed => 8 | .stopped => 9

/-- SRC_STATE (Table 16-8). -/
def Serac.word (c : Serac) : Nat :=
  packNat [(4, c.st.code), (4, 0), (8, c.bootSel.toNat), (1, boolNat c.bank), (1, boolNat c.trial), (6, 0), (8, c.failCode.toNat)]

/-- What a tenant's view returns for a counter (R412). -/
def State.viewWord (s : State) (c w : Nat) : Nat :=
  match s.ctxs.find c with
  | none => 0
  | some x =>
    let j := w / 16
    let k := s.obs.ctrs.get {} (192 + 16 * (x.part * s.perPart + j) + w % 16)
    if x.f 140 140 = 1 && c ≠ 0 && j < s.perPart && k.sel.getLsbD 31 && k.sel.getLsbD 30 && fld k.sel 29 18 = c then k.val.toNat else 0

/-- A 64-bit word of a wider register (R420). -/
def wordOf {n : Nat} (b : BitVec n) (w : Nat) : Nat := fld b (64 * w + 63) (64 * w)

/-- Retries of a link since its register was last read (R426): a free value, and 0 where no time has passed. -/
def State.retries (s : State) (link since : Nat) : Nat := if since = s.timebase then 0 else (Config.linkRetries link since s.timebase).toNat

/-- The value that a read returns (R9: WO fields read 0). -/
def State.regRead (s : State) : Reg → Nat
  | .hubId => packNat [(4, Config.orderCode.toNat), (4, 0), (8, 0xB0), (16, 0x2400)]
  | .serial => Config.serial.toNat
  | .partCfg => packNat [(3, s.env.setup.partCode.toNat), (1, boolNat s.env.serac.locked)]
  | .statePool => s.env.setup.statePool.toNat
  | .keyPool => s.env.setup.keyPool.toNat
  | .keyDir => s.env.setup.keyDir.toNat
  | .setupErr => s.env.setup.setupErr.toNat
  | .timebase => s.timebase % 2 ^ 64
  | .ctx0Desc => s.env.setup.ctx0Desc.toNat
  | .ctx0Ctrl => packNat [(1, 0), (2, fld (s.ctxStatus 0) 1 0), (1, boolNat s.env.setup.ctx0Err)]
  | .fenceCl => s.hub.fenceCl.toNat
  | .fenceThaw w => wordOf s.hub.fenceThaw w
  | .fenceCh w => wordOf s.hub.fenceCh w
  | .fenceMisc => s.hub.fenceMisc.toNat
  | .faultCnt => s.hub.faultCnt.toNat
  | .ctxStatus c => (s.ctxStatus c).toNat
  | .dieStatus k => packNat [(2, s.stackStep k), (2, s.env.power.dies[k].step), (2, s.dieStep k), (10, 0),
      (5, ((upTo 16).filter fun i => !s.clFenced (16 * k + i)).length)]
  | .dieFirn k => packNat [(11, s.shares k fun e => Krt.firn e == 2), (5, 0), (11, s.shares k Krt.pin)]
  | .fclStatus => packNat [(4, 0), (4, s.hub.fclLanes.toNat), (23, 0), (1, boolNat s.hub.fclUp)]
  | .fclRetry => s.retries 0 s.hub.fclReadAt
  | .fplStatus p =>
      let q := s.sync.ports[p]
      packNat [(16, if q.enabled then q.partner.toNat else 0), (4, q.lanes.toNat), (10, 0), (1, boolNat (s.portFenced p)), (1, boolNat q.enabled)]
  | .fplRetry p => s.retries (1 + p.val) s.hub.fplReadAt[p]
  | .temp i => s.env.power.temp[i].toNat
  | .volt i => s.env.power.volt[i].toNat
  | .curr i => s.env.power.curr[i].toNat
  | .power => s.env.power.power.toNat
  | .powerCap => packNat [(16, s.env.power.cap.toNat), (1, boolNat s.env.power.capErr)]
  | .dieV k => let d := s.env.power.dies[k]; packNat [(12, d.set.toNat), (12, d.ask.toNat), (4, d.limiter.toNat)]
  | .dieRate k => s.env.power.dies[k].rate.toNat
  | .shed => packNat [(3, s.shed), (1, 0), (4, s.env.power.shed.peak), (8, s.env.power.shed.cause.toNat)]
  | .srcState => s.env.serac.word
  | .go => 0
  | .morainePos => s.moraine.pos % 2 ^ 32
  | .fwAddr => s.env.serac.fwAddr.toNat
  | .fwCtrl => packNat [(8, 0), (8, s.env.serac.fwSlot.toNat)]
  | .fwStatus => packNat [(8, 0), (8, s.env.serac.rollback.toNat), (8, s.env.serac.fwResult.toNat), (6, 0), (1, boolNat s.env.serac.fwDone),
      (1, boolNat s.env.serac.fwBusy.isSome)]
  | .pkeStat => packNat [(8, 0), (1, boolNat (s.sec.running.isSome || s.sec.wiping.isSome)), (9, min s.sec.waiting.length 256), (11, 0),
      (1, boolNat s.sec.entropyFail), (1, boolNat s.sec.testing), (1, boolNat s.pkeFenced)]
  | .pkeMismatch => s.sec.mismatch.toNat
  | .pkeFwFp w => wordOf Config.fwFp w
  | .pkeMfgFp w => wordOf Crypto.mfgFp w
  | .obsGlobal => packNat [(1, boolNat s.obs.freeze), (1, 0), (1, boolNat s.obs.snapBusy.isSome), (1, boolNat s.obs.snapErr)]
  | .freezeTime => s.obs.freezeTime.toNat
  | .snapAddr => s.obs.snapAddr.toNat
  | .snapSeq => s.obs.snapSeq.toNat
  | .traceBase => s.obs.traceBase.toNat
  | .traceCb => s.obs.traceCb.toNat
  | .traceCtrl => packNat [(4, s.obs.traceSize.toNat), (27, 0), (1, boolNat s.obs.traceOn)]
  | .ctrSel n => (s.obs.ctrs.get {} n).sel.toNat
  | .ctrVal n => (s.obs.ctrs.get {} n).val.toNat
  | .classShare => packNat [(24, s.env.share.toNat), (1, boolNat s.env.shareErr)]
  | .therm k => s.memsys.stackRegs[k].therm.toNat
  | .eccCe c => s.memsys.chans[c].ce.toNat
  | .eccUe c => s.memsys.chans[c].ue.toNat
  | .eccLast c => s.memsys.chans[c].last.toNat
  | .tgCtrl c => (s.memsys.chans[c].tgCtrl).toNat
  | .tgSeed c => s.memsys.chans[c].tgSeed.toNat
  | .tgRange c => s.memsys.chans[c].tgRange.toNat
  | .tgStatus c =>
      let h := s.memsys.chans[c]
      packNat [(29, 0), (1, boolNat h.tgRefused), (1, boolNat h.tgDone), (1, boolNat h.tgBusy)]
  | .tgCodec c => s.memsys.chans[c].tgCodec.toNat
  | .tgErrs c => s.memsys.chans[c].tgErrs.toNat
  | .tgFail c => s.memsys.chans[c].tgFail.toNat
  | .moraine p w => wordOf (s.moraine.log.get 0 p) w
  | .view c w => s.viewWord c w

def State.updPower (s : State) (f : Power → Power) : State := { s with env := { s.env with power := f s.env.power } }
def State.updSerac (s : State) (f : Serac → Serac) : State := { s with env := { s.env with serac := f s.env.serac } }
def State.updSetup (s : State) (f : Setup → Setup) : State := { s with env := { s.env with setup := f s.env.setup } }
def State.updBoard (s : State) (f : Board → Board) : State := { s with env := { s.env with board := f s.env.board } }

/-- What a completed read clears: the RC fields go back to their cleared value (R9), a peak or low to its reset value. -/
def State.regClear (s : State) : Reg → State
  | .faultCnt => { s with hub := { s.hub with faultCnt := 0 } }
  | .fclRetry => { s with hub := { s.hub with fclReadAt := s.timebase } }
  | .fplRetry p => { s with hub := { s.hub with fplReadAt := s.hub.fplReadAt.set p s.timebase } }
  | .temp i => s.updPower fun p => { p with temp := vupd p.temp i fun x => putFld x 31 16 0x8000 }
  | .volt i => s.updPower fun p => { p with volt := vupd p.volt i fun x => putFld x 31 16 0xFFFF }
  | .curr i => s.updPower fun p => { p with curr := vupd p.curr i fun x => putFld x 31 16 0 }
  | .power => s.updPower fun p => { p with power := putFld p.power 31 16 0 }
  | .dieRate k => s.updPower fun p => { p with dies := vupd p.dies k fun d => { d with rate := putFld d.rate 31 16 0xFFFF } }
  | .shed => s.updPower fun p => { p with shed := { p.shed with peak := 0 } }
  | .pkeMismatch => { s with sec := { s.sec with mismatch := 0 } }
  | .therm k => { s with memsys := { s.memsys with stackRegs := vupd s.memsys.stackRegs k fun x => { x with therm := putFld x.therm 15 8 0 } } }
  | .eccCe c => s.updChan c fun h => { h with ce := 0 }
  | .eccUe c => s.updChan c fun h => { h with ue := 0 }
  | .eccLast c => s.updChan c fun h => { h with last := 0 }
  | .tgCodec c => s.updChan c fun h => { h with tgCodec := 0 }
  | .tgErrs c => s.updChan c fun h => { h with tgErrs := 0 }
  | _ => s

/-- A read of the window (R420): an access of the wrong width or of an offset without a register reads 0 and clears nothing. -/
def State.windowRead (s : State) (off : Nat) (wide : Bool) : State :=
  match regAt off with
  | some (r, w) =>
    if w = wide then (s.updBoard fun b => { b with readPort := BitVec.ofNat 64 (s.regRead r) }).regClear r
    else s.updBoard fun b => { b with readPort := 0 }
  | none => s.updBoard fun b => { b with readPort := 0 }

end Sys2Proof.Machine
end

