-- ==== Sys2Proof/Machine/Issue.lean ====
section
/-! DEFINITION. Issue from the engine queues (R212, R213): whether a queue may issue, its head, what issuing records, sampling
(R414), agreement with the plan (R447), and how a sweep's subscriber leaves (R83, R213). -/

namespace Sys2Proof.Machine

/-! ### The head of a queue -/

/-- The body at the head of a queue; a gate mark there holds back what stands behind it (R215). -/
def Queue.head? (k : Queue) : Option Body := match k.items with
  | .body b :: _ => some b
  | _ => none

/-- A context runs in the cluster's partition, no switch is in progress, and the cluster is not fenced (R290, R293, R375). -/
def State.inService (s : State) (cl : Fin 64) : Bool :=
  s.clusters[cl].ctx.isSome && (s.switching.find (s.partOf cl)).isNone && !s.clFenced cl

def State.nibOut (s : State) (cl : Nat) : Bool := s.unitOut 2 cl || s.unitOut 6 cl

/-- A bank of a cluster's Inkwell is out of service: no queue whose commands use the Inkwell issues (R369). -/
def State.bankOut (s : State) (cl : Nat) : Bool := (upTo 32).any fun k => s.unitOut 5 (32 * cl + k)

/-- The queue may issue: throttle step 3 holds NIB, THAW0, THAW1, BRUSH and MOVER (R263, R397), a unit under test its own queue (R369). -/
def State.mayIssue (s : State) (cl : Fin 64) (q : Nat) : Bool :=
  s.inService cl && (q > 4 || (s.dieStep (Fin.ofNat 4 (dieOf cl)) < 3 && !s.bankOut cl)) && match q with
    | 0 => !s.nibOut cl
    | 3 => !s.unitOut 4 cl
    | 4 => !s.unitOut 7 cl
    | _ => true

/-- A body waits for a page response (R287). -/
def State.bodyParked (s : State) (cx : Fin 4096) (cl : Fin 64) (q : Fin 7) (i : Nat) : Bool :=
  s.reqs.any fun (r : XlReq) => r.paged && r.who == XlWho.work cx (.body cl q i)

/-- A page fault of a data-mover command parks its context on the cluster (R287, Table 9-8). -/
def State.clParked (s : State) (cx : Fin 4096) (cl : Fin 64) : Bool :=
  s.reqs.any fun (r : XlReq) => r.paged && match r.who with
    | .work c (.body k _ _) => c == cx && k == cl
    | _ => false

/-- The head of a queue that may issue, with the descriptor whose command it is; a command that runs again waits until shed level
5 has fallen (Tables 4-11, 9-8). While the context is parked on the cluster, the data mover issues nothing and a discarded load waits (R123). -/
def State.issueHead (s : State) (cl : Fin 64) (q : Fin 7) : Option (Body × Adm) :=
  if s.mayIssue cl q then (s.queue cl q).head?.bind fun b =>
    if (b.again && s.shed ≥ 5) || s.bodyParked b.run.ctx cl q b.no || ((q.val = 4 || (q.val = 0 && b.again)) && s.clParked b.run.ctx cl) then none
    else (s.adm b.run).map fun a => (b, a)
  else none

def Body.opcode (b : Body) : Nat := fld b.bits 7 0

/-- The head, where its opcode is the one given. -/
def State.headOp (s : State) (cl : Fin 64) (q : Fin 7) (op : Nat) : Option (Body × Adm) :=
  (s.issueHead cl q).bind fun x => if x.1.opcode = op then some x else none

/-! ### What issuing records -/

/-- The sampling period of a trace level (Table 17-6). -/
def samplePeriod (level : Nat) : Option Nat := match level with
  | 4 => some 4096 | 5 => some 1024 | 6 => some 256 | 7 => some 64
  | _ => none

/-- A work takes its place by the number of its body. -/
def insertWork (w : Work) : List Work → List Work
  | [] => [w]
  | x :: r => if w.b.no < x.b.no then w :: x :: r else x :: insertWork w r

/-- A command issues: it leaves the queue's items, its work begins, and sampling counts or tags it (R414); one that runs again keeps its mark and
counts once. -/
def State.issue (s : State) (cl : Fin 64) (q : Fin 7) (a : Adm) (w : Work) : State :=
  let n := (s.queue cl q).samples
  let small := s.perPart ≤ 8
  let (sampled, follow) := if w.b.again then (w.b.sampled, w.b.follow) else match samplePeriod a.modes.trace with
    | some N => if s.shed ≥ 1 then (false, false)
        else if small then (n % N == N - 1, false) else (false, Config.tagDraw s.free % N == 0)
    | none => (false, false)
  let s := if small || w.b.again then s else s.drawn
  (s.updQueue cl q fun k => { k with
    items := k.items.drop 1
    samples := if w.b.again then k.samples else k.samples + 1
    works := insertWork { w with sampled := sampled, follow := follow } k.works }).resume cl

/-- The work of a body that issues now. -/
def State.workOf (s : State) (b : Body) (a : Adm) (kind : WorkKind) (causes : List Status) : Work :=
  { b, issuedAt := s.timebase, cls := a.cls, kind, causes }

/-- What a fault record says of an engine command. -/
def Work.fault (w : Work) (cl q : Nat) (st : Status) (addr detail : Nat) : FaultOf :=
  { place := some (cl, q), run := some w.b.run, ctx := w.b.run.ctx.val, tag := w.b.tag.toNat, iter := w.b.iter, body := w.b.ix, status := st, addr, detail }

/-- A command refused at issue: it ends with its causes when ENGINE_COMMAND_END reports (R213). -/
def State.refuse (s : State) (cl : Fin 64) (q : Fin 7) (b : Body) (a : Adm) (causes : List Status) : State :=
  s.issue cl q a (s.workOf b a .plain causes)

/-- The numeric modes that a command carries (R360): a command of another class than CLEAR ignores them (R348). -/
def State.num (_ : State) (a : Adm) : NumEnv :=
  let clear := a.cls == .clear
  { flush := clear && a.modes.flush, saturate := clear && a.modes.saturate, stoch := clear && a.modes.stoch && !a.modes.jasil,
    seed := a.modes.seed.toNat, jasil := clear && a.modes.jasil }

/-! ### Plan agreement (R447) -/

def State.planFamily (s : State) (d : DRef) (f : Family) : Bool := ((s.run d).map (·.families.contains f)).getD false
def State.planKset (s : State) (d : DRef) (h : BitVec 32) : Bool := ((s.run d).map (·.ksets.contains h)).getD false
def State.planLut (s : State) (d : DRef) (h : BitVec 32) : Bool := ((s.run d).map (·.luts.contains h)).getD false

/-- A Thaw engine that is out of service for its test counts as fenced (R369). -/
def State.thawOut (s : State) (cl e : Nat) : Bool := s.thawFenced cl e || s.unitOut 3 (2 * cl + e)

/-- The engine that serves the queue or the name of Thaw engine e of a cluster (R109, R217). DESIGN CHOICE: at shed level 4 and above, while engine 0
is fenced or under test, engine 1 goes on serving; Table 4-11 parks it for engine 0, which R217 replaces by engine 1, and the spec does not say which
of the two rules yields (log 66). -/
def State.serves (s : State) (cl e : Nat) : Option Nat :=
  if e = 1 && !s.thawOut cl 1 && s.shed < 4 then some 1
  else if !s.thawOut cl 0 then some 0
  else if !s.thawOut cl 1 then some 1
  else none

/-! ### Leaving a sweep -/

def Sweep.has (cl : Fin 64) (g : Nat) (x : Sub) : Bool := x.cl == cl && x.gsub == g

/-- The context of a sweep's records: of the first subscriber whose command was admitted with trace level 2 or more (R360, R413). -/
def State.sweepCtx (s : State) (l : List Subscriber) : Option Nat :=
  (l.find? fun x => ((s.adm x.sub.run).map fun a => a.modes.trace).getD (s.traceLevel x.sub.ctx) ≥ 2).map fun x => x.sub.ctx.val

/-- A sweep ends and frees its slot (R83); a key that was to leave the Firn while a sweep of it ran leaves it once none does (R75). -/
def State.endSweep (s : State) (slot : Fin 8) (l : List Subscriber) : State :=
  match s.keys.sweeps[slot] with
  | none => s
  | some w =>
    let s := ({ s with keys := { s.keys with sweeps := s.keys.sweeps.set slot none } } : State).unpost fun o => match o with
      | .fragment k _ => k == slot
      | _ => false
    let s := if Krt.firn (s.entry w.idx) = 3 && !s.swept w.idx then (s.setFirn w.idx 0).stageWanted else s
    match s.sweepCtx l with
    | some cx => s.trace 2 2 { kind := 0x06, ctx := cx, data := mkHandle w.idx (Krt.gen w.entry), aux := min (s.timebase - w.startedAt) 0xFFFFFFFF }
    | none => s

/-- The subscription of a GSUB leaves: it waits no longer, or leaves its sweep, which ends when nobody remains. -/
def State.unsubscribe (s : State) (cl : Fin 64) (g : Nat) : State :=
  let drop (p : Nat × List Sub) : Nat × List Sub := (p.1, p.2.filter fun x => !Sweep.has cl g x)
  let s := { s with keys := { s.keys with subs := (s.keys.subs.map drop).filter fun p => !p.2.isEmpty } }
  (List.finRange 8).foldl (fun s i =>
    match s.keys.sweeps[i] with
    | none => s
    | some w =>
      if w.subs.any (fun x => Sweep.has cl g x.sub) then
        let l := w.subs.filter fun x => !Sweep.has cl g x.sub
        if l.isEmpty then s.endSweep i w.subs
        else { s with keys := { s.keys with sweeps := s.keys.sweeps.set i (some { w with subs := l }) } }
      else s) s

/-- A GSUB retires as its subscriber leaves (R213). -/
def State.dropGsub (s : State) (cl : Fin 64) (g : Nat) : State :=
  let s := s.unsubscribe cl g
  match s.work? cl 5 g with
  | some w => if w.done then s else s.endWork cl 5 w []
  | none => s

/-- The slots of a Nib load turn INVALID. -/
def State.loadInvalid (s : State) (cl : Fin 64) (w : Work) : State :=
  let c := NibCmd.of w.b.bits
  s.updEng cl fun e => { e with nib := e.nib.setTags c.slotA ((c.loadTags SlotTag.valid).map fun _ => (0 : SlotTag)) }

/-- An engine command ends (R213): its subscription goes first (R83), then its status and what follows. DESIGN CHOICE: a Nib load that ends with a cause
after it has started leaves its slots INVALID; Table 5-12 says what it writes and not what its tags read (log 62). -/
def State.endCmd (s : State) (cl : Fin 64) (q : Fin 7) (w : Work) (causes : List Status) : State :=
  let s := if w.kind == .load && !(w.causes ++ causes).isEmpty then s.loadInvalid cl w else s
  let s := match w.gsub? with
    | some g => s.dropGsub cl g
    | none => s
  s.endWork cl q w causes

/-- A command goes back to the head of its queue, with its GSUB unpaired, and runs again later (Table 4-11, Table 8-13, Table 9-8):
its destinations are undefined meanwhile. -/
def State.rerun (s : State) (cl : Fin 64) (q : Fin 7) (w : Work) : State :=
  let s := match w.gsub? with
    | some g => (s.unsubscribe cl g).updWork cl 5 g fun x => match x.kind with
        | .gsub e h sel batch _ => { x with kind := .gsub e h sel batch false }
        | _ => x
    | none => s
  let s := s.undefine (w.region ++ w.dests)
  s.updQueue cl q fun k => { k with
    works := k.works.filter (·.b.no != w.b.no)
    items := .body { w.b with again := true, sampled := w.sampled, follow := w.follow } :: k.items }

/-- An issued command meets a cause; it ends with it when ENGINE_COMMAND_END reports. -/
def State.addCause (s : State) (cl : Fin 64) (q : Fin 7) (i : Nat) (c : Status) : State :=
  s.updWork cl q i fun w => { w with causes := w.causes ++ [c] }

end Sys2Proof.Machine
end

