-- ==== Sys2Proof/Machine/Keys.lean ====
section
/-! DEFINITION. Evaluation keys (03): lookups and rebuilds, key operations, the Firn, subscriptions and sweeps. -/

namespace Sys2Proof.Machine

/-! ### Lookups (R70, R71) -/

/-- A record of kind CORRECTED (Table 16-9): the unit and the mechanism. -/
def State.corrected (s : State) (unit mech : Nat) : State := s.record 0x07 unit mech

/-- A rebuild starts: its directory slot is read with class KS (R259), and its signature goes to the public-key engine, with first claim on it
(R71, R72). -/
def State.startRebuild (s : State) (i : Nat) : State :=
  ({ s with
    keys := { s.keys with rebuilds := s.keys.rebuilds.set i { since := s.timebase, was := (Krt.state (s.entry i), Krt.qCause (s.entry i)) } }
    sec := { s.sec with waiting := s.sec.waiting ++ [.rebuild i] } } : State).post (.rebuild i) .ks false (s.slotAddr i) 1024

/-- A lookup of an entry finds its two copies as the operand says (Table 3-9): a bad copy is rewritten from the good one and
logged; copies that differ, or are both bad, start a rebuild. Two bad copies are two detections, of which the spec fixes no syndrome. -/
def State.lookup (s : State) (i : Nat) (look : KrtLook) : State :=
  let s := s.tally 0xD00
  if (s.keys.rebuilds.find i).isSome || s.krtFenced then s
  else match look with
    | .agree => s
    | .badA => ({ s with keys := { s.keys with a := s.keys.a.set i (s.keys.b.get 0 i) } }).corrected (unitNo 0x0C 0) 0x09
    | .badB => ({ s with keys := { s.keys with b := s.keys.b.set i (s.keys.a.get 0 i) } }).corrected (unitNo 0x0C 1) 0x09
    | .differ => (s.startRebuild i).dataFault (unitNo 0x0C 0) 0x0D {}
    | .bothBad =>
      let o (k : Nat) : FaultOf := { detail := (Config.freeByte s.free k).toNat }
      (((s.startRebuild i).dataFault (unitNo 0x0C 0) 0x09 (o 0)).dataFault (unitNo 0x0C 1) 0x09 (o 1)).drawn

/-- The entries that a command names are looked up (R70): what each lookup finds, where the copies do not agree. -/
def State.lookups (s : State) (idxs : List Nat) (looks : List (Fin 131072 × KrtLook)) : State :=
  idxs.foldl (fun (s : State) i => s.lookup i (((looks.find? fun p => p.1.val == i).map (·.2)).getD .agree)) s

/-- A rebuild of the entry is in progress: work that names it is parked (R71). -/
def State.rebuilding (s : State) (i : Nat) : Bool := (s.keys.rebuilds.find i).isSome

/-- A KRT copy is out of service for its test: lookups pause (R369, R378). -/
def State.krtOut (s : State) : Bool := s.unitOut 12 0 || s.unitOut 12 1

/-- What naming an entry costs (R52, R54, R67, R441, Table 15-5): nothing when it is RESIDENT, the context's own and of a kind taken. A command that
runs again still holds, EVICTING, what it had named (Table 4-11). -/
def State.keyCauses (s : State) (cx : Nat) (h : BitVec 32) (i : Nat) (kinds : List Nat) (held : List Nat := []) : List Status :=
  let e := s.entry i
  let live := Krt.state e == stRESIDENT || (Krt.state e == stEVICTING && held.contains i)
  (if s.krtFenced then [.unitFenced] else []) ++
  if Krt.state e = stFREE ∨ Krt.gen e ≠ handleGen h then [.keyNotResident]
  else causesOf [(Krt.owner e != cx, .permission), (!live, Krt.stateStatus e), (live && !kinds.contains (Krt.kind e), .malformed)]

/-- The entries of a key set: the bootstrapping key, and the KSK (R51); an odd index is no key set. -/
def State.bskCauses (s : State) (cx : Nat) (h : BitVec 32) (held : List Nat := []) : List Status :=
  if handleIdx h % 2 = 1 then [.malformed] else s.keyCauses cx h (handleIdx h) [kindBSK, kindGBSK] held
def State.kskCauses (s : State) (cx : Nat) (h : BitVec 32) (held : List Nat := []) : List Status :=
  if handleIdx h % 2 = 1 then [.malformed] else s.keyCauses cx h (handleIdx h + 1) [kindKSK] held
/-- Both entries, as a refresh or a key switch needs them (R67). -/
def State.ksetCauses (s : State) (cx : Nat) (h : BitVec 32) : List Status := s.bskCauses cx h ++ s.kskCauses cx h
def State.lutCauses (s : State) (cx : Nat) (h : BitVec 32) (held : List Nat := []) : List Status := s.keyCauses cx h (handleIdx h) [kindLUT] held

/-- The family of a key set's bootstrapping key. -/
def State.ksetFamily (s : State) (h : BitVec 32) : Option Family := Family.ofId (Krt.family (s.entry (handleIdx h)))

/-! ### Placement (R64, R253) -/

/-- Key data written, or read, unit by unit. -/
def keyWrite : Nat → Nat → Nat → Nat → List Byte → Memory → Memory
  | 0, _, _, _, _, m => m
  | n + 1, first, base, u, bs, m =>
    let b := bs.take 4096
    keyWrite n first base (u + 1) (bs.drop 4096) (m.write (unitAddr first base u) (b ++ List.replicate (4096 - b.length) 0))

/-- A key's data written into its stripes: the code words there are the encoder's own. -/
def State.keyPlace (s : State) (n first base : Nat) (bs : List Byte) : State :=
  { s with
    mem := keyWrite n first base 0 bs s.mem
    memsys := { s.memsys with flips := s.memsys.flips.filter fun p => !(upTo n).any fun u => unitAddr first base u == 4096 * (p.1 / 256) } }

def State.unitBytes (s : State) (e : Krt.Entry) (u : Nat) : List Byte := s.mem.read (unitAddr (Krt.first e) (Krt.base e) u) 4096

/-- A table record of a LUTSET (R92): its 512 bytes as a number. -/
def State.lutRecord (s : State) (i t : Nat) : Nat :=
  let e := s.entry i
  s.mem.readNat (unitAddr (Krt.first e) (Krt.base e) (t / 8) + 512 * (t % 8)) 512

def lutEntry (r j : Nat) : Int := signedOf 32 (r / 2 ^ (32 * j))
def lutTmax (r : Nat) : Nat := r / 2 ^ 2048 % 2 ^ 32

/-- A record that KEY_LOAD accepts (R93). -/
def lutOk (f : Family) (r : Nat) : Bool :=
  let used := 2 ^ f.m
  r / 2 ^ 2080 = 0 && ((upTo 64).drop used).all (fun j => r / 2 ^ (32 * j) % 2 ^ 32 = 0) &&
  lutTmax r = (upTo used).foldl (fun m j => max m (lutEntry r j).natAbs) 0

/-- The rows of the key pool below the directory. -/
def State.poolRows (s : State) : Nat × Nat :=
  let kp := s.env.setup.keyPool
  let base := fld kp 19 0
  let size := fld kp 51 32
  (divUp (512 * base) 20, 512 * (base + size - 64) / 20)

/-- The lowest run of n free rows (log 14). -/
def freeRows : Nat → List (Nat × Nat) → Nat → Nat → Option Nat
  | 0, _, _, _ => none
  | fuel + 1, taken, lo, n =>
    match taken.find? fun (b, m) => b < lo + n && lo < b + m with
    | some (b, m) => freeRows fuel taken (b + m) n
    | none => some lo

def State.allocRows (s : State) (n : Nat) : Option Nat :=
  let (lo, hi) := s.poolRows
  let taken := s.keys.alloc.map (·.2)
  (freeRows (taken.length + 1) taken lo n).bind fun b => if b + n ≤ hi then some b else none

/-! ### The Firn (R74 to R76) -/

/-- Every 1 ms epoch (R75). -/
def State.firnEpoch (s : State) : State :=
  let t := nextTick 1000000 s.keys.epochAt s.timebase
  let s := s.advance t
  let s := { s with keys := { s.keys with epochAt := t } }
  let s := (s.keys.a.map (·.1)).foldl (fun s i => s.setEntry i (putFld (s.entry i) 15 0 (min (s.keys.epoch.get 0 i) 0xFFFF))) s
  let s := { s with keys := { s.keys with epoch := [] } }
  let chosen := s.chooseFirn
  let s := { s with keys := { s.keys with chosen } }
  let s := (s.listed fun e => Krt.firn e != 0 && !Krt.pin e).foldl (fun (s : State) i =>
    if !chosen.contains i then s.leaveFirn i else if Krt.firn (s.entry i) = 3 then s.setFirn i 2 else s) s
  s.stageWanted

/-- KEY_PIN operations whose keys are staged on every die complete (R76). DESIGN CHOICE: one whose key a KEY_FREE or a KEY_UNPIN has reached
first waits on, until the key is staged after all, or an abort, a teardown or a fence ends it; the spec is silent on it (log 40). -/
def State.pinsDone (s : State) : State :=
  s.descs.foldl (fun s (p : DRef × Adm) => match p.2.prog with
    | .keyPin l _ => if l.all fun i => Krt.firn (s.entry i) == 2 then s.complete p.1 .ok else s
    | _ => s) s

def State.firnStageDone (s : State) (i : Nat) : State :=
  if Krt.firn (s.entry i) = 1 && !s.firnOff && !s.swept i && !s.stageWaits i then (s.setFirn i 2).pinsDone else s

/-- A key is dropped from the Firn (R71, R74); a pinned one is staged again. -/
def State.dropFirn (s : State) (i : Nat) : State :=
  s.setFirn i (if Krt.pin (s.entry i) && !s.firnOff then 1 else 0)

/-! ### Key operations (R58, R59) -/

structure KeyBody where
  addr : Nat
  handle : BitVec 32
  pin : Bool
  kind : Nat
  select : Nat
  reserved : Bool

def KeyBody.of (b : BitVec 384) : KeyBody where
  addr := fld b 63 0
  handle := BitVec.ofNat 32 (fld b 95 64)
  pin := fld b 96 96 == 1
  kind := fld b 99 97
  select := fld b 105 104
  reserved := fld b 103 100 != 0 || fld b 383 106 != 0

def QClass.keyOps : QClass → Bool
  | .encNative | .encJasil | .gate | .pke => true
  | _ => false

/-- A descriptor that waits for its own row: admitted with the opcode and not begun. -/
def State.fresh (s : State) (d : DRef) (op : Nat) : Option Adm :=
  (s.adm d).bind fun a => if a.opcode = op && a.prog == .fresh then some a else none

/-- The entries that a handle names for KEY_FREE: a LUTSET, or both of a pair. -/
def State.handleMembers (s : State) (i : Nat) : List Nat := if Krt.kind (s.entry i) = kindLUT then [i] else [i / 2 * 2, i / 2 * 2 + 1]
/-- A handle names a RESIDENT entry with its generation: only such an entry is judged by its kind (R441). -/
def State.judged (s : State) (h : BitVec 32) : Bool :=
  let e := s.entry (handleIdx h)
  Krt.state e = stRESIDENT && Krt.gen e = handleGen h
/-- An odd index is taken only as a LUTSET's (Table 3-6); one that names no entry is judged by that alone. -/
def State.oddBad (s : State) (h : BitVec 32) : Bool :=
  let e := s.entry (handleIdx h)
  handleIdx h % 2 = 1 && Krt.state e != stFREE && Krt.gen e = handleGen h && Krt.kind e != kindLUT

/-- The entries in a pair that is not allocated, and those in no pair (R53, R60). -/
def State.pairFree (s : State) (i : Nat) : Bool := Krt.state (s.entry i) = stFREE && Krt.state (s.entry (i + 1)) = stFREE
def State.lutFree (s : State) (i : Nat) : Bool :=
  let j := if i % 2 = 0 then i + 1 else i - 1
  Krt.state (s.entry i) = stFREE && (Krt.state (s.entry j) = stFREE || Krt.kind (s.entry j) = kindLUT)
/-- The lowest free one (log 14). -/
def State.findEntry (s : State) (pair : Bool) : Option Nat :=
  if pair then (firstFrom (fun k => s.pairFree (2 * k)) 65536 0).map (2 * ·) else firstFrom s.lutFree 131072 0

/-- The next generation (R52). -/
def nextGen (g : Nat) : Nat := if g ≥ 32767 then 1 else g + 1

/-- An entry goes into LOADING with its owner, kind and generation. -/
def State.beginLoad (s : State) (i cx kind gen : Nat) : State :=
  s.setEntry i (BitVec.ofNat 256 (packNat [(38, 0), (3, stLOADING), (3, kind), (8, 0), (12, cx), (15, gen)]))

/-- A load ends without its key (R52, R63): entry or pair FREE, pool and quota released, an allocation's generation given back. -/
def State.loadFail (s : State) (k : KeyLoad) (alloc : Bool) : State :=
  let e := s.entry k.idx
  let s := s.freeEntry k.idx (if alloc then k.oldGen.1 else Krt.gen e)
  if alloc && k.pair then s.setEntry (k.idx + 1) (putFld 0 78 64 k.oldGen.2) else s

def Adm.keyBody (a : Adm) : KeyBody := KeyBody.of a.body
def KeyBody.allocates (b : KeyBody) : Bool := b.handle == 0xFFFFFFFF#32

def State.failLoad (s : State) (d : DRef) (a : Adm) (k : KeyLoad) (st : Status) : State :=
  let s := { s with sec := { s.sec with waiting := s.sec.waiting.filter (· != PkeOp.keyVerify d) } }
  ((s.unpost (· == .keyLoad d)).loadFail k a.keyBody.allocates).complete d st

/-- The permission to pin that the descriptor's admission gave (R295). -/
def Adm.pinAllowed (a : Adm) : Bool := fld a.desc 141 141 == 1

/-- Step 1 of R60: the causes of the body and of the named pair. -/
def State.loadCauses (s : State) (cx : Nat) (a : Adm) : List Status :=
  let b := a.keyBody
  let i := handleIdx b.handle
  causesOf [(b.reserved || b.select != 0 || b.addr % 64 != 0 || b.kind = 0 || b.kind > 4, .malformed),
    (b.allocates == (b.kind == kindKSK), .malformed), (!a.cls.keyOps, .paramUnsupported),
    (b.pin && !a.pinAllowed, .permission),
    (s.krtFenced || s.deadPart cx, .unitFenced)] ++
  if b.allocates then []
  else s.bskCauses cx b.handle ++ causesOf [(i % 2 = 0 && Krt.gen (s.entry i) = handleGen b.handle && Krt.state (s.entry i) == stRESIDENT &&
    Krt.state (s.entry (i + 1)) != stFREE, .malformed)]

/-- Step 1: allocation; `none` where no entry or pair is free. DESIGN CHOICE: where the two FREE entries of a pair hold different generations, as
LUTSETs may leave them, the pair's counts on from the larger (R52 is silent on it; log 14). -/
def State.loadAlloc (s : State) (d : DRef) (b : KeyBody) : Option State :=
  let cx := d.ctx.val
  if b.allocates then
    let pair := b.kind != kindLUT
    (s.findEntry pair).map fun i =>
      let g0 := Krt.gen (s.entry i)
      let g1 := Krt.gen (s.entry (i + 1))
      let g := nextGen (if pair then max g0 g1 else g0)
      let s := s.beginLoad i cx b.kind g
      let s := if pair then s.setEntry (i + 1) (putFld 0 78 64 g) else s
      s.setProg d (.keyLoad { idx := i, pair, oldGen := (g0, g1) })
  else
    let i := handleIdx b.handle + 1
    some ((s.beginLoad i cx kindKSK (handleGen b.handle)).setProg d (.keyLoad { idx := i, pair := false }))

/-- The header's checks (R55, R57, R92, R60 step 2). -/
def headerCauses (h : BitVec 4096) (kind : Nat) (bsk : Option (BitVec 4096)) : List Status :=
  let kb := fld h 127 64
  let lc := fld h 863 832
  let form := fld h 4095 4064 != 0 || fld h 3007 864 != 0 || fld h 63 59 != 0 || fld h 31 0 != 0x4B484452 || fld h 47 32 != 2 ||
    fld h 58 56 != kind
  match Family.ofId (fld h 55 48) with
  | none => causesOf [(form, .malformed), (true, .paramUnsupported)]
  | some f =>
    let size := if kind = kindLUT then !(1 ≤ lc && lc ≤ 4096 && kb = 512 * lc)
      else lc != 0 || kb != (if kind = kindKSK then f.kskBytes else f.bskBytes) || (kind == kindBSK && !f.isJ) || (kind == kindGBSK && f.isJ)
    causesOf [(form || size, .malformed)] ++ match bsk with
      | some e => causesOf [(fld h 55 48 != fld e 55 48, .malformed), (fld h 255 128 != fld e 255 128, .permission)]
      | none => []

/-- The identity of a context whose fingerprint is the header's tenant_id (R328). -/
def Ctx.identity (c : Ctx) (tenant : Nat) : Option (Nat × Nat) :=
  c.ids.toList.findSome? fun o => o.bind fun (x, y) => if (Crypto.fingerprint x y).toNat = tenant then some (x, y) else none

/-- The entries of loads that will pin their key. DESIGN CHOICE: their shares are kept from the header's checks on, so that no other pin takes them
while the key loads; the pin bit itself is set as the key becomes RESIDENT (Table 3-4; log 71). -/
def State.pinLoads (s : State) : List Nat := s.descs.filterMap fun (p : DRef × Adm) => match p.2.prog with
  | .keyLoad k => if k.started && p.2.keyBody.pin then some k.idx else none
  | _ => none

/-- Shares of a key added to the pinned ones stay within 48 MiB on every die (R76). -/
def State.pinOk (s : State) (l : List Nat) (first length : Nat) : Bool :=
  (upTo 4).all fun k => s.firnUsed (s.listed Krt.pin ++ s.pinLoads) k + s.firnUsed l k + dieUnits first length k ≤ 12288

/-- Steps 2 to 5 of R60, once the header can be read. -/
def State.loadHeader (s : State) (d : DRef) (a : Adm) (k : KeyLoad) : State :=
  let b := a.keyBody
  let cx := d.ctx.val
  let sp := s.spaceOf cx
  if !s.xlOk sp b.addr 512 false then s.ask (.work d.ctx (.desc d)) sp b.addr 512 false
  else
    let h := BitVec.ofNat 4096 (s.hostNat sp b.addr 512)
    let bsk := if b.kind = kindKSK then (s.keys.dir.find (k.idx - 1)).map (·.header) else none
    let kb := fld h 127 64
    let units := max 1 (divUp kb 4096)
    match s.ctxs.find cx with
    | none => s
    | some c =>
      let ident := c.identity (fld h 255 128)
      let causes := headerCauses h b.kind bsk ++ causesOf [(ident.isNone, .permission)]
      let rows := s.allocRows (divUp units 20)
      let quota := causesOf [(c.keyUse + units > fld a.desc 223 192, .permission), (rows.isNone, .permission),
        (b.pin && !s.pinOk [] s.keys.nextStack units, .permission)]
      match Status.pick (causes ++ quota), rows, ident with
      | .ok, some base, some (x, y) =>
        let first := s.keys.nextStack
        let e := s.entry k.idx
        let s := s.setEntry k.idx (putFld (putFld (putFld (putFld e 127 108 units) 107 84 base) 83 79 first) 51 44 (fld h 55 48))
        let s := { s with keys := { s.keys with alloc := s.keys.alloc.set k.idx (base, divUp units 20), nextStack := (first + 1) % 20 } }
        let s := s.updCtx cx fun c => { c with keyUse := c.keyUse + units }
        let s := s.setProg d (.keyLoad { k with started := true, header := h, qx := x, qy := y, base, first, units })
        let s := (upTo 20).foldl (fun (s : State) j => s.postRows (.keyLoad d) .ks true (s.entry k.idx) j) s
        if s.pkeFenced then s.failLoad d a k .faultDetected
        else { s with sec := { s.sec with waiting := s.sec.waiting ++ [.keyVerify d] } }
      | st, _, _ => s.failLoad d a k st

/-- KEY_LOAD (R60): allocation, header, and the start of verification and copy; held at shed level 5 (R62). -/
def State.keyLoad (s : State) (d : DRef) : State :=
  match s.adm d with
  | none => s
  | some a =>
    if a.opcode != 0x70 || s.shed ≥ 5 then s
    else match a.prog with
      | .keyLoad k => if k.started then s else s.loadHeader d a k
      | .fresh =>
        let b := a.keyBody
        if !b.allocates && s.rebuilding (handleIdx b.handle) then s
        else match Status.pick (s.loadCauses d.ctx.val a) with
          | .ok => match s.loadAlloc d b with
            | none => s.complete d .permission
            | some s => match s.adm d with
              | some { prog := .keyLoad k, .. } => s.loadHeader d a k
              | _ => s
          | st => s.complete d st
      | _ => s

/-- Step 7 of R60 (KEY_LOAD_FINISH): the directory slot and both copies written, RESIDENT, and the completion. -/
def State.loadFinish (s : State) (d : DRef) (a : Adm) (k : KeyLoad) : State :=
  let e := s.entry k.idx
  let b := a.keyBody
  let pin := b.pin
  let slot : DirSlot := {
    header := k.header, first := k.first, base := k.base, length := k.units, owner := d.ctx.val, gen := Krt.gen e, kind := b.kind,
    pin, evicting := false, key := (k.qx, k.qy) }
  let e := putFld (putFld (Krt.setState e stRESIDENT) 255 128 (fld k.header 447 320)) 37 37 (boolNat pin)
  let s := { s.setEntry k.idx e with keys := { (s.setEntry k.idx e).keys with dir := s.keys.dir.set k.idx slot } }.writeSlot k.idx
  let s := if pin then s.makeRoom.stageWanted else s
  s.complete d .ok (if b.allocates then mkHandle k.idx (Krt.gen e) else 0)

/-- A load goes on when both its copy and its verification have ended; the first failure ends it (R60, R63). -/
def State.loadSettle (s : State) (d : DRef) : State :=
  match s.adm d with
  | some a => match a.prog with
    | .keyLoad k =>
      if s.rebuilding k.idx then s
      else match Status.pick k.causes with
        | .ok => if k.sigDone && k.copyDone then s.loadFinish d a k else s
        | st => s.failLoad d a k st
    | _ => s
  | none => s

def State.updLoad (s : State) (d : DRef) (f : KeyLoad → KeyLoad) : State :=
  s.updAdm d fun a => match a.prog with
    | .keyLoad k => { a with prog := .keyLoad (f k) }
    | _ => a

/-- The module address of the first unit of an entry's key. -/
def Krt.addr (e : Krt.Entry) : Nat := unitAddr (Krt.first e) (Krt.base e) 0

/-- The copy ends (R60 steps 5 and 6) once its stripes are written: the digest and a LUTSET's records are compared. `fault` is a check of the
loader that failed (Table 3-6): its mechanism and unit. A word that fails at a memory channel ends the load at that channel's round (R257). While the
entry is rebuilt, the load is parked (R71). -/
def State.keyCopyDone (s : State) (d : DRef) (fault : Option (BitVec 8 × BitVec 16)) : State :=
  match s.adm d with
  | some a => match a.prog with
    | .keyLoad k =>
      let b := a.keyBody
      let sp := s.spaceOf d.ctx.val
      let n := fld k.header 127 64
      let ofChannel := (fault.map fun (_, u) => u.toNat / 2048 == 10).getD false
      if !k.started || k.copyDone || s.shed ≥ 5 || s.rebuilding k.idx || ofChannel || s.memWaits (.keyLoad d) then s
      else if !s.xlOk sp (b.addr + 512) n false then s.ask (.work d.ctx (.desc d)) sp (b.addr + 512) n false
      else
        let data := s.hostRead sp (b.addr + 512) n
        let s := if fault.isSome then s else s.keyPlace k.units k.first k.base data
        let s := match fault with
          | some (m, u) => s.dataFault u.toNat m.toNat (.desc d .faultDetected (Krt.addr (s.entry k.idx)))
          | none => s
        let s := s.setEntry k.idx (Krt.setState (s.entry k.idx) stVERIFYING)
        let same := (Crypto.digest data).toNat = fld k.header 831 320
        let luts := match Family.ofId (fld k.header 55 48) with
          | some f => b.kind != kindLUT || (upTo (fld k.header 863 832)).all fun t => lutOk f (leNat ((data.drop (512 * t)).take 512))
          | none => false
        (s.updLoad d fun k => { k with copyDone := true, causes := k.causes ++ causesOf [(fault.isSome || s.hub.fenceCh != 0, .faultDetected), (!same || !luts, .malformed)] }).loadSettle d
    | _ => s
  | none => s

/-- The causes of a KEY_FREE. -/
def State.freeCauses (s : State) (cx : Nat) (a : Adm) : List Status :=
  let b := a.keyBody
  let e := s.entry (handleIdx b.handle)
  let gone := Krt.state e = stFREE || Krt.gen e != handleGen b.handle
  causesOf [(b.reserved || b.select != 0 || b.kind != 0 || b.pin || b.addr != 0 || s.oddBad b.handle, .malformed),
    (!a.cls.keyOps, .paramUnsupported), (s.krtFenced || s.deadPart cx, .unitFenced), (gone, .keyNotResident), (!gone && Krt.owner e != cx, .permission)]

/-- KEY_FREE (R68). -/
def State.keyFree (s : State) (d : DRef) : State :=
  match s.fresh d 0x71 with
  | none => s
  | some a =>
    let l := s.handleMembers (handleIdx a.keyBody.handle)
    if l.any s.rebuilding then s
    else match Status.pick (s.freeCauses d.ctx a) with
      | .ok => (s.setProg d (.keyFree l)).settleAll
      | st => s.complete d st

/-- What an admitted KEY_FREE names goes into EVICTING though the operation ends with ABORTED: at once, or with the end of a load that holds it
(R68, Table 3-6). -/
def State.abortFree (s : State) (d : DRef) (a : Adm) : State :=
  let doom (l : List Nat) : State := { s with keys := { s.keys with doomed := (s.keys.doomed ++ l).eraseDups } }
  match a.prog with
  | .keyFree l => doom l
  | .fresh => if (s.freeCauses d.ctx a).isEmpty then doom (s.handleMembers (handleIdx a.keyBody.handle)) else s
  | _ => s

/-- The entries that KEY_PIN and KEY_UNPIN name: a LUTSET, or those of a pair that select picks. -/
def KeyBody.pinned (b : KeyBody) (lut : Bool) : List Nat :=
  let i := handleIdx b.handle
  if lut then [i] else (if b.select % 2 = 1 then [i] else []) ++ (if b.select ≥ 2 then [i + 1] else [])

/-- The handle names a RESIDENT LUTSET. -/
def State.lutHandle (s : State) (h : BitVec 32) : Bool := s.judged h && Krt.kind (s.entry (handleIdx h)) = kindLUT

/-- The causes of KEY_PIN and KEY_UNPIN: state and generation of what is named come before its kind (R52, R63, R441). -/
def State.pinCauses (s : State) (cx : Nat) (a : Adm) : List Status :=
  let b := a.keyBody
  let h := b.handle
  let i := handleIdx h
  let pair (n : Nat) : List Status := if i % 2 = 1 then s.keyCauses cx h i [] else s.keyCauses cx h (i + n) (if n = 0 then [kindBSK, kindGBSK] else [kindKSK])
  causesOf [(b.reserved || b.kind != 0 || b.pin || b.addr != 0 || s.oddBad h, .malformed), (!a.cls.keyOps, .paramUnsupported), (s.deadPart cx, .unitFenced)] ++
  if s.lutHandle h then s.lutCauses cx h ++ causesOf [(b.select != 0, .malformed)]
  else if b.select = 0 then (if s.judged h then s.keyCauses cx h i [] else s.keyCauses cx h i [kindBSK, kindGBSK, kindKSK, kindLUT])
  else (if b.select % 2 = 1 then pair 0 else []) ++ (if b.select ≥ 2 then pair 1 else [])

def State.setPin (s : State) (i : Nat) (p : Bool) : State :=
  let s := s.setEntry i (putFld (s.entry i) 37 37 (boolNat p))
  ({ s with keys := { s.keys with dir := s.keys.dir.upd i fun x => { x with pin := p } } } : State).writeSlot i

/-- Some Firn is fenced: no KEY_PIN sets a pin (R76). -/
def State.pinOff (s : State) : Bool := fld s.hub.fenceMisc 10 7 != 0

/-- Pins that a KEY_PIN has set are taken back, and so is the staging that it began (R63, R76). -/
def State.unpin (s : State) (pinned : List (Nat × Nat)) : State :=
  pinned.foldl (fun (s : State) (i, firn) =>
    let s := s.setPin i false
    if firn = 0 && Krt.firn (s.entry i) != 0 then s.leaveFirn i else s) s

/-- KEY_PIN (R76): the pin is set, and the operation waits until the key is staged on every die. -/
def State.keyPin (s : State) (d : DRef) : State :=
  match s.fresh d 0x72 with
  | none => s
  | some a =>
    let b := a.keyBody
    let l := b.pinned (s.lutHandle b.handle)
    if l.any s.rebuilding then s
    else
      let newly := l.filter fun i => !Krt.pin (s.entry i)
      let causes := s.pinCauses d.ctx.val a ++ causesOf [(!a.pinAllowed, .permission), (s.pinOff, .unitFenced), (!s.pinOk newly 0 0, .permission)]
      match Status.pick causes with
      | .ok =>
        let was := newly.map fun i => (i, Krt.firn (s.entry i))
        let s := l.foldl (fun s i =>
          let s := s.setPin i true
          if Krt.firn (s.entry i) = 3 then s.setFirn i 2 else s) s
        (s.makeRoom.stageWanted.setProg d (.keyPin l was)).pinsDone
      | st => s.complete d st

/-- KEY_UNPIN: the pin goes; the residency choice of R75 may then drop the key. -/
def State.keyUnpin (s : State) (d : DRef) : State :=
  match s.fresh d 0x73 with
  | none => s
  | some a =>
    let b := a.keyBody
    let l := b.pinned (s.lutHandle b.handle)
    if l.any s.rebuilding then s
    else match Status.pick (s.pinCauses d.ctx.val a) with
      | .ok => (l.foldl (fun s i => s.setPin i false) s).complete d .ok
      | st => s.complete d st

/-- The entry as KEY_QUERY returns it: use_count mirrored from the counter array (R66). -/
def State.queryEntry (s : State) (i : Nat) : BitVec 256 := putFld (s.entry i) 31 16 (s.useOf i)

/-- KEY_QUERY (R58): an odd index names the KSK entry of its pair. -/
def State.keyQuery (s : State) (d : DRef) : State :=
  match s.fresh d 0x74 with
  | none => s
  | some a =>
    let b := a.keyBody
    let i := handleIdx b.handle
    if s.rebuilding i then s
    else
      let causes := causesOf [(b.reserved || b.select != 0 || b.kind != 0 || b.pin || b.addr % 64 != 0, .malformed), (!a.cls.keyOps, .paramUnsupported), (s.deadPart d.ctx, .unitFenced)] ++
        s.keyCauses d.ctx.val b.handle i [kindBSK, kindGBSK, kindKSK, kindLUT]
      let sp := s.spaceOf d.ctx
      match Status.pick causes with
      | .ok => if s.xlOk sp b.addr 32 true then (s.hostPut sp b.addr 32 (s.queryEntry i).toNat).complete d .ok
          else s.ask (.work d.ctx (.desc d)) sp b.addr 32 true
      | st => s.complete d st

/-! ### The end of a rebuild (R71) -/

/-- KEY_QUARANTINED for a key (R71, R73): the handle is the pair's, or the LUTSET's. -/
def State.quarantineEvent (s : State) (i cause : Nat) : State :=
  let e := s.entry i
  let key := if Krt.kind e = kindLUT then i else i / 2 * 2
  s.raise (Krt.owner e) 0x04 (Krt.owner e) (mkHandle key (Krt.gen e) + 2 ^ 32 * cause) 0

/-- The entry that a rebuild writes from its directory slot. DEDUCED: an entry that was QUARANTINED stays so with its cause, since R69 lets it leave
that state through KEY_FREE or teardown alone, where R71 takes the state from a slot that has no such state (log 65). -/
def State.rebuilt (s : State) (i : Nat) (x : DirSlot) (was : Nat × Nat) : BitVec 256 :=
  let quar := was.1 = stQUARANTINED && !x.evicting
  BitVec.ofNat 256 (packNat [(16, 0), (16, s.useOf i), (2, 0), (1, if quar then was.2 else 0), (2, 0), (1, boolNat x.pin),
    (3, if x.evicting then stEVICTING else if quar then stQUARANTINED else stRESIDENT), (3, fld x.header 58 56), (8, fld x.header 55 48), (12, x.owner),
    (15, x.gen), (5, x.first), (24, x.base), (20, x.length), (128, fld x.header 447 320)])

/-- The key operations parked on a rebuild that fails (R71): a load of the entry ends with KEY_CORRUPT and leaves it QUARANTINED. DEDUCED: R69 lets an
entry leave that state through KEY_FREE or teardown alone, where R63 returns the entry of a failed load to FREE (log 72). A KEY_FREE that names it ends with
KEY_CORRUPT beside its own causes and frees nothing. -/
def State.parkedFail (s : State) (i : Nat) : State :=
  s.descs.foldl (fun (s : State) (p : DRef × Adm) => match p.2.prog with
    | .keyLoad k => if k.idx != i then s
        else (({ s with sec := { s.sec with waiting := s.sec.waiting.filter (· != PkeOp.keyVerify p.1) } } : State).unpost (· == .keyLoad p.1)).complete p.1 .keyCorrupt
    | .fresh => if p.2.opcode = 0x71 && (s.handleMembers (handleIdx p.2.keyBody.handle)).contains i then
        s.complete p.1 (Status.pick (s.freeCauses p.1.ctx p.2 ++ [.keyCorrupt])) else s
    | _ => s) s

/-- A rebuild ends once its slot has been read and its signature has verified, or when a check of it fails; a fenced engine counts as one (R339).
A placement record whose CRC fails is a detection of its own (Table 15-1). -/
def State.krtRebuildEnd (s : State) (i : Nat) (ok : Bool) : State :=
  match s.keys.rebuilds.find i with
  | none => s
  | some r =>
    let crc := s.slotOk i
    let failed := !ok || !crc || r.failed || (s.pkeFenced && !r.verified) || (s.keys.dir.find i).isNone || s.memFenced (s.slotAddr i) 1024
    if s.memWaits (.rebuild i) || (!failed && !r.verified) then s
    else
      let s := (s.dropRebuild i).tally 0xD01
      match s.keys.dir.find i, failed with
      | some x, false =>
        let s := (s.setEntry i (s.rebuilt i x r.was)).dropFirn i
        s.settleAll
      | _, _ =>
        let s := if ok && crc then s else s.dataFault (unitNo 0x0C 0) 0x0B { status := .keyCorrupt, ctx := Krt.owner (s.entry i), addr := s.slotAddr i }
        let s := s.setEntry i (putFld (Krt.setState (s.entry i) stQUARANTINED) 34 34 1)
        let s := (s.parkedFail i).quarantineEvent i 1
        -- what a KEY_FREE or a teardown had put into EVICTING goes there again (R68)
        if r.was.1 = stEVICTING then (s.evict i).settleAll else s

/-- An uncorrectable error in a key's data in a stack (R73): a RESIDENT entry is quarantined, one in EVICTING stays there. -/
def State.keyDataFailed (s : State) (i : Nat) : State :=
  if Krt.state (s.entry i) = stRESIDENT then
    (s.setEntry i (putFld (Krt.setState (s.entry i) stQUARANTINED) 34 34 0)).quarantineEvent i 0
  else s.settleAll

/-! ### Subscriptions (R78, R104) -/

structure GsubBody where
  handle : BitVec 32
  batch : Nat
  engine : Nat
  select : Nat
  reserved : Bool

def GsubBody.of (b : BitVec 512) : GsubBody where
  handle := BitVec.ofNat 32 (fld b 95 64)
  batch := fld b 23 16
  engine := fld b 11 10
  select := fld b 9 8
  reserved := fld b 63 24 != 0 || fld b 15 12 != 0

def GsubBody.idx (g : GsubBody) : Nat := handleIdx g.handle + (if g.select = 2 then 1 else 0)
/-- The form of a GSUB: a select that suits its engine, a batch, no reserved bit (R78, R214). -/
def GsubBody.formBad (g : GsubBody) : Bool :=
  g.reserved || g.batch = 0 || !((g.engine < 2 && g.select = 1) || (g.engine = 2 && g.select = 2)) || handleIdx g.handle % 2 = 1

/-- Sweeps are served: some Glacier is unfenced, and no channel is fenced (R265, Table 15-5). -/
def State.sweepsOff (s : State) : Bool := s.noGlacier || s.hub.fenceCh != 0

/-- The family of an entry is one of the queue class (Table 2-3). -/
def Krt.classOk (e : Krt.Entry) (c : QClass) : Bool := match Family.ofId (Krt.family e) with
  | some f => f.allowed c
  | none => false

/-- GSUB at the head of its queue: its issue checks; a body whose entry is being rebuilt stays there (R71). -/
def State.gsub (s : State) (cl : Fin 64) (look : KrtLook) : State :=
  match s.headOp cl 5 0x30 with
  | none => s
  | some (b, a) =>
    let g := GsubBody.of b.bits
    let cx := b.run.ctx.val
    if s.krtOut then s
    else
    let first := causesOf [(g.formBad, .malformed), (!s.planKset b.run g.handle, .malformed), (s.shed ≥ 5, .shed), (s.sweepsOff, .unitFenced)]
    if g.formBad then s.refuse cl 5 b a first
    else
      let s := s.lookup g.idx look
      if s.rebuilding g.idx then s
      else
        let kc := if g.select = 1 then s.bskCauses cx g.handle else s.kskCauses cx g.handle
        let causes := first ++ kc ++ causesOf [(kc.isEmpty && !Krt.classOk (s.entry g.idx) a.cls, .paramUnsupported)]
        if causes.isEmpty then
          (s.useInc [g.idx]).issue cl 5 a { s.workOf b a (.gsub g.engine g.handle g.select g.batch false) [] with uses := [g.idx] }
        else s.refuse cl 5 b a causes

/-- The engine that a GSUB names, by which engine serves it (Table 4-11, R217). -/
def State.gsubEngine (s : State) (cl e : Nat) : Option Nat := if e < 2 then s.serves cl e else some e

/-- Issued GSUBs of a cluster that name an engine and no command has paired with, oldest first. -/
def State.unpaired (s : State) (cl : Fin 64) (engine : Nat) : List Work :=
  let paired := s.clusters[cl].eng.paired
  (s.queue cl 5).works.filter fun w => !w.done && w.causes.isEmpty && !paired.contains w.b.no && match w.kind with
    | .gsub e _ _ _ p => !p && s.gsubEngine cl e == some engine
    | _ => false

/-- A GSUB that names the engine, was placed before the command, and has not passed or failed its own issue checks (R104). -/
def State.gsubAtChecks (s : State) (cl : Fin 64) (engine : Nat) (ord : Nat) : Bool :=
  (s.queue cl 5).items.any fun i => match i with
    | .body b => b.opcode = 0x30 && b.ord < ord && s.gsubEngine cl (fld b.bits 11 10) == some engine
    | .mark _ _ _ => false

/-- Works of a cluster that run on an engine and have not ended their last step: Thaw works by engine, or key switches. -/
def State.onEngine (s : State) (cl : Fin 64) (engine : Nat) : List (Fin 7 × Work) :=
  ([0, 1, 2] : List (Fin 7)).flatMap fun q => (s.queue cl q).works.filterMap fun w =>
    if w.done || !w.causes.isEmpty then none
    else match w.kind with
      | .thaw t => if t.engine = engine && !t.ended then some (q, w) else none
      | .ksw k => if engine = 2 && !k.ended then some (q, w) else none
      | _ => none

/-- The one that issued first. -/
def oldest : List (Fin 7 × Work) → Option (Fin 7 × Work)
  | [] => none
  | x :: r => match oldest r with
    | none => some x
    | some y => if y.2.issuedAt < x.2.issuedAt then some y else some x

/-- It has taken key data. -/
def Work.begun (w : Work) : Bool := match w.kind with
  | .thaw t => t.step > 0 || t.landed > 0
  | .ksw k => k.blk > 0 || k.landed > 0
  | _ => false

def Work.presented (w : Work) : Bool := match w.kind with
  | .gsub _ _ _ _ p => p
  | _ => false

/-- The GSUB of a work has been presented. -/
def State.presentedFor (s : State) (cl : Fin 64) (w : Work) : Bool :=
  (w.gsub?.bind fun g => (s.work? cl 5 g).map (·.presented)).getD false

/-- The first of a command's two runs (R356) has key data and has not ended: its GSUB is not presented again yet. -/
def Work.midRun (w : Work) : Bool := match w.kind with
  | .thaw t => t.sweepsLeft > 1 && t.landed > 0
  | _ => false

/-- An engine holds a subscription, waiting or in a sweep. -/
def State.subscribed (s : State) (cl : Fin 64) (engine : Nat) : Bool :=
  let mine (x : Sub) : Bool := x.cl == cl && x.engine == engine
  s.keys.subs.any (fun p => p.2.any mine) || s.keys.sweeps.toList.any fun o => (o.map fun (w : Sweep) => w.subs.any fun x => mine x.sub).getD false

/-- What an engine works on: the command whose subscription has been presented, or that has taken key data; else the one that issued first (R104). -/
def State.currentOn (s : State) (cl : Fin 64) (on : List (Fin 7 × Work)) : Option (Fin 7 × Work) :=
  match on.find? fun x => s.presentedFor cl x.2 || x.2.begun with
  | some x => some x
  | none => oldest on

/-- A paired GSUB is presented to the Glacier once the engine's previous command has ended its last step and its subscription has gone (R104). -/
def State.gsubPresent (s : State) (cl : Fin 64) (engine : Nat) : State :=
  let on := s.onEngine cl engine
  if !s.inService cl || s.subscribed cl engine || on.any (fun x => s.presentedFor cl x.2 || x.2.midRun) then s
  else match oldest on with
    | none => s
    | some (q, w) =>
      match w.gsub?.bind fun g => s.work? cl 5 g with
      | none => s
      | some gw =>
        if s.sweepsOff then s.addCause cl q w.b.no .unitFenced
        else match gw.kind with
          | .gsub e h sel batch false =>
            let x : Sub := { cl, engine, gsub := gw.b.no, ctx := w.b.run.ctx, run := w.b.run, batch, arrived := s.timebase }
            let i := handleIdx h + (if sel = 2 then 1 else 0)
            let s := { s with keys := { s.keys with subs := s.keys.subs.updD [] i (· ++ [x]) } }
            s.updWork cl 5 gw.b.no fun w => { w with kind := .gsub e h sel batch true }
          | _ => s

/-! ### Sweeps (R79 to R83, R443) -/

def State.subBatch (s : State) (x : Sub) : Nat := s.batchOf x.ctx
def State.subWait (s : State) (x : Sub) : Nat := 1000 * s.sweepWaitOf x.ctx
/-- The oldest subscription's deadline: its arrival plus its context's sweep_wait; 0 for none. -/
def State.subDeadline (s : State) (l : List Sub) : Nat := match l with
  | x :: _ => x.arrived + s.subWait x
  | [] => 0

/-- The start condition of R79, the slot apart. -/
def State.sweepDue (s : State) (l : List Sub) : Bool :=
  match l with
  | [] => false
  | x :: r =>
    let need := r.foldl (fun m y => min m (s.subBatch y)) (s.subBatch x)
    let wait := r.foldl (fun m y => min m (s.subWait y)) (s.subWait x)
    need ≤ (l.map (·.batch)).sum || x.arrived + wait ≤ s.timebase

/-- Ciphertexts' subscribers end with a status: their paired commands meet the cause (R73, R265, Table 15-5). -/
def State.subsEnd (s : State) (l : List Sub) (c : Status) : State :=
  l.foldl (fun s x =>
    let s := s.unsubscribe x.cl x.gsub
    match ([0, 1, 2] : List (Fin 7)).findSome? fun q => ((s.queue x.cl q).works.find? fun w => w.gsub? == some x.gsub && !w.done).map fun w => (q, w) with
    | some (q, w) => s.addCause x.cl q w.b.no c
    | none => s) s

def State.freeSlot (s : State) : Option (Fin 8) := (List.finRange 8).find? fun i => s.keys.sweeps[i].isNone

/-- A Glacier or a Firn is out of service for its test: no sweep starts, and no unit is issued (R369, R378). -/
def State.glacierOut (s : State) : Bool := (upTo 4).any fun k => s.unitOut 8 k || s.unitOut 9 k

/-- The sweep that a slot would start: the earliest deadline among those ready (R79). A key under rebuild is parked, and not ready (R71). -/
def State.firstReady (s : State) (i : Nat) : Bool :=
  let l := s.keys.subs.get [] i
  s.sweepDue l && s.keys.subs.all fun (j, m) => j == i || s.rebuilding j || !s.sweepDue m || s.subDeadline l ≤ s.subDeadline m

def State.sweepStart (s : State) (i : Nat) (look : KrtLook) : State :=
  let l := s.keys.subs.get [] i
  match s.freeSlot with
  | none => s
  | some slot =>
    if !s.firstReady i || s.glacierOut || s.krtOut then s
    else
      let s := s.lookup i look
      if s.rebuilding i then s
      else
        let e := s.entry i
        if s.krtFenced || s.sweepsOff then s.subsEnd l .unitFenced
        else if Krt.state e != stRESIDENT && Krt.state e != stEVICTING then s.subsEnd l (Krt.stateStatus e)
        else
          let subs := l.map fun x => ({ sub := x } : Subscriber)
          let w : Sweep := { idx := i, entry := e, subs, startedAt := s.timebase, staged := Krt.firn e == 2 }
          let s := { s with keys := { s.keys with
            sweeps := s.keys.sweeps.set slot (some w)
            subs := s.keys.subs.erase i
            epoch := s.keys.epoch.updD 0 i fun n => min (n + 1) 0xFFFF } }
          -- DESIGN CHOICE: a sweep counts once, at the die whose Glacier reads its first unit (log 11)
          let s := s.tallyDie 0x800 (s.glacierOf (unitDie (Krt.first e) 0)) 1
          match s.sweepCtx subs with
          | some cx => s.trace 2 2 {
              kind := 0x05, ctx := cx, data := mkHandle i (Krt.gen e) + 2 ^ 32 * slot.val, aux := (l.map (·.batch)).sum }
          | none => s

/-- The oldest subscription has waited its sweep_wait (R79). -/
def State.sweepWaitExpiry (s : State) (i : Nat) : State :=
  match s.keys.subs.get [] i with
  | [] => s
  | x :: r => s.advance (x.arrived + r.foldl (fun m y => min m (s.subWait y)) (s.subWait x))

/-- A fragment's tag (Table 3-11). -/
def fragTag (w : Sweep) (slot u : Nat) : BitVec 256 :=
  BitVec.ofNat 256 (packNat [(128, Krt.fp w.entry), (4, 0), (17, w.idx), (15, Krt.gen w.entry), (20, u), (3, Krt.kind w.entry), (3, slot)])

/-- A bridge between two dies is out of service (R369). -/
def State.bridgeOut (s : State) (a b : Nat) : Bool :=
  a != b && (s.unitOut 11 (bridgeNo a b))

/-- The next unit is issued once every subscriber has credit (R81) and its Glacier has a read left (R252); reads wait while the stacks are in
self-refresh (R264), and so do fragments that would cross a bridge under its test. -/
def State.fragmentIssue (s : State) (slot : Fin 8) : State :=
  match s.keys.sweeps[slot] with
  | none => s
  | some w =>
    let die := s.glacierOf (unitDie (Krt.first w.entry) w.unit)
    if s.shed < 5 && !s.glacierOut && w.unit < Krt.length w.entry && (w.staged || s.glacierReads die < 1024) &&
      w.subs.all fun x => x.credit > 0 && !s.bridgeOut die (dieOf x.sub.cl) then
      let w' := { w with unit := w.unit + 1, subs := w.subs.map fun x => { x with credit := x.credit - 1, flight := x.flight ++ [w.unit] } }
      let s := { s with keys := { s.keys with sweeps := s.keys.sweeps.set slot (some w') } }
      let s := s.tallyDie 0x801 die 1
      if w.staged then s.tallyDie 0x802 die 1
      else s.post (.fragment slot w.unit) .ks false (unitAddr (Krt.first w.entry) (Krt.base w.entry) w.unit) 4096
    else s

def execKeyLoad (d : DRef) (s : State) : Out := .next (s.work fun s => s.keyLoad d)
def execKeyLoadCopyDone (d : DRef) (fault : Option (BitVec 8 × BitVec 16)) (s : State) : Out := .next (s.work fun s => s.keyCopyDone d fault)
def execKeyFree (d : DRef) (s : State) : Out := .next (s.work fun s => s.keyFree d)
def execKeyPin (d : DRef) (s : State) : Out := .next (s.work fun s => s.keyPin d)
def execKeyUnpin (d : DRef) (s : State) : Out := .next (s.work fun s => s.keyUnpin d)
def execKeyQuery (d : DRef) (s : State) : Out := .next (s.work fun s => s.keyQuery d)
def execFirnEpoch (s : State) : Out := .next (s.work State.firnEpoch)
def execFirnStageDone (idx : Fin 131072) (s : State) : Out := .next (s.work fun s => s.firnStageDone idx)
def execKrtRebuildEnd (idx : Fin 131072) (checksPass : Bool) (s : State) : Out := .next (s.work fun s => s.krtRebuildEnd idx checksPass)
def execGsub (cl : Fin 64) (look : KrtLook) (s : State) : Out := .next (s.work fun s => s.gsub cl look)
def execGsubPresent (cl : Fin 64) (engine : Fin 3) (s : State) : Out := .next (s.work fun s => s.gsubPresent cl engine)
def execSweepStart (idx : Fin 131072) (look : KrtLook) (s : State) : Out := .next (s.work fun s => s.sweepStart idx look)
def execSweepWaitExpiry (idx : Fin 131072) (s : State) : Out := .next (s.work fun s => s.sweepWaitExpiry idx)
def execFragmentIssue (slot : Fin 8) (s : State) : Out := .next (s.work fun s => s.fragmentIssue slot)

end Sys2Proof.Machine
end

