-- ==== Sys2Proof/Machine/Faults.lean ====
section
/-! DEFINITION. Detections, fences and latent-fault tests (15). -/

namespace Sys2Proof.Machine

/-! ### Fences (R375 to R377) -/

/-- A unit's bit in the fence registers is set. -/
def State.isFenced (s : State) (u : Nat) : Bool :=
  let i := u % 2048
  match u / 2048 with
  | 1 | 2 | 4 | 6 | 7 => s.clFenced i
  | 3 => s.thawFenced (i / 2) (i % 2)
  | 5 => s.clFenced (i / 32)
  | 8 => s.glacierFenced i
  | 9 => s.firnFenced i
  | 10 => s.chFenced i
  | 11 => s.hub.fenceMisc.getLsbD (11 + i)
  | 12 => s.hub.fenceMisc.getLsbD (23 + i)
  | 13 => s.pkeFenced
  | 15 => s.portFenced i
  | 17 => s.hub.fenceMisc.getLsbD 26
  | _ => false

def setBit {n : Nat} (b : BitVec n) (i : Nat) : BitVec n := b ||| BitVec.ofNat n (2 ^ i)

def Hub.misc (h : Hub) (i : Nat) : Hub := { h with fenceMisc := setBit h.fenceMisc i }

/-- The dies of bridge i: a pair of compute dies, or a compute die and the hub. -/
def bridgeDies (i : Nat) : Nat × Option Nat := match i with
  | 0 => (0, some 1)
  | 1 => (0, some 2)
  | 2 => (0, some 3)
  | 3 => (1, some 2)
  | 4 => (1, some 3)
  | 5 => (2, some 3)
  | _ => (i - 6, none)

/-- Dies whose Inkwells or stacks a transfer of a cluster reaches (R20, R252). -/
def Xfer.dies (x : Xfer) : List Nat :=
  ((x.src.toList ++ x.dst).filterMap fun (p : Place) => if p.space = 0 then some (dieOf p.id) else none) ++
  x.mods.flatMap fun r => [r.1 / 4096 % 20 / 5, (r.1 + r.2 - 1) / 4096 % 20 / 5]

/-- A transfer of a cluster crosses a bridge: to or from another die's Inkwells or stacks, or to the host or a peer through the hub. -/
def Xfer.crosses (x : Xfer) (cl : Fin 64) (i : Nat) : Bool :=
  match bridgeDies i with
  | (a, some b) => x.dies.any fun d => (dieOf cl == a && d == b) || (dieOf cl == b && d == a)
  | (a, none) => dieOf cl == a && (x.src.toList ++ x.dst).any fun (p : Place) => p.space ≥ 2

/-- The subscribers that a fragment in flight reaches across a bridge. -/
def State.subsAcross (s : State) (i : Nat) : List Sub :=
  s.keys.sweeps.toList.flatMap fun (o : Option Sweep) => match o, bridgeDies i with
    | some w, (a, some b) => w.subs.filterMap fun x =>
        let die := dieOf x.sub.cl
        if x.flight.any (fun u =>
          let src := s.glacierOf (unitDie (Krt.first w.entry) u)
          (src == a && die == b) || (src == b && die == a)) then some x.sub else none
    | _, _ => []

/-- Data-mover commands that have issued, and SEND parts, some of whose transfers satisfy p, end with a cause: their outstanding transfers are
dropped. `sent` says which parts that have not issued end, and with what. -/
def State.endTransfers (s : State) (p : Fin 64 → Xfer → Bool) (cause : Status) (unsent : Status) (also : Fin 64 → Work → Bool) : State :=
  allClusters.foldl (fun (s : State) cl =>
    let e := s.clusters[cl].eng
    let works := e.queues[4].works.filter fun w => !w.done && (also cl w || (e.xfers.any fun x => x.owner == some w.b.no && p cl x) || (match w.kind with
      | .mover todo => todo.any (p cl)
      | _ => false))
    let s := works.foldl (fun (s : State) w => (s.addCause cl 4 w.b.no cause).dropXfers cl fun x => x.owner == some w.b.no) s
    let parts := (e.xfers.filter fun x => x.owner.isNone && p cl x).map fun x => (x.run, cause)
    let later := (e.sends.filter (p cl)).map fun x => (x.run, unsent)
    let s := (s.dropXfers cl fun x => x.owner.isNone && p cl x).updEng cl fun e => { e with sends := e.sends.filter fun x => !p cl x }
    (parts ++ later).foldl (fun (s : State) (d : DRef × Status) => s.failRun d.1 d.2 0) s) s

/-- A transfer of another cluster reads or writes a cluster's Inkwell. -/
def Xfer.reaches (x : Xfer) (t : Fin 64) : Bool := (x.src.toList ++ x.dst).any fun (p : Place) => p.space == 0 && p.id == t.val

/-- The commands of other clusters whose remote target is fenced while they run (Table 9-8). -/
def State.fenceRemote (s : State) (t : Fin 64) : State :=
  s.endTransfers (fun cl x => cl != t && x.reaches t) .faultDetected .unitFenced fun cl w =>
    cl != t && w.kind != .plain && w.dests.any fun d => d.space == 0 && d.cl == t.val

/-- A peer's write that addresses a fenced stack is never acknowledged (R265, R315). -/
def State.dropArrivals (s : State) : State :=
  let gone (x : Arrival) : Bool := s.memFenced x.addr x.data.length
  let nos := (s.sync.arrivals.filter gone).map (·.no)
  { s with sync := { s.sync with arrivals := s.sync.arrivals.filter (!gone ·) } }.unpost fun w => match w with
    | .peer n => nos.contains n
    | _ => false

/-- Transfers that address a stack with a fenced channel complete their commands with UNIT_FENCED (R265). DESIGN CHOICE: what they have moved by then
stays, where Table 0-4 has UNIT_FENCED write nothing (log 73). -/
def State.fenceStack (s : State) : State :=
  (s.endTransfers (fun _ x => x.mods.any fun r => s.memFenced r.1 r.2) .unitFenced .unitFenced fun _ _ => false).dropArrivals

/-- A fence bit is set, and every command that it degrades is marked (R358). -/
def State.fenceBit (s : State) (f : Hub → Hub) : State := ({ s with hub := f s.hub } : State).markDegraded

/-- The tag of the first body of a run that waits in an engine state. -/
def Eng.firstTag (e : Eng) (d : DRef) : BitVec 32 :=
  ((e.queues.toList.findSome? fun k => k.items.findSome? fun x => match x with
    | .body b => if b.run = d then some b.tag else none
    | .mark _ _ _ => none)).getD 0

/-- A cluster leaves service: its commands that have issued end with FAULT_DETECTED, and so does every QRUN with a task on it (R376); a QRUN of
which only bodies that have not issued are left there fails with UNIT_FENCED (R138). The commands of other clusters that move data to or from it
follow Table 9-8. -/
def State.fenceCluster (s : State) (cl : Fin 64) : State :=
  if s.clFenced cl then s
  else
    let s := s.fenceBit fun h => { h with fenceCl := setBit h.fenceCl cl }
    let works := allQueues.flatMap fun q => (s.queue cl q).works.filterMap fun w => if w.done then none else some (q, w.b.no)
    let busy (e : Eng) (d : DRef) : Bool := e.tasks.toList.any (fun t => (t.map (·.run)) == some d) ||
      e.queues.toList.any (fun k => k.works.any fun w => w.b.run == d && !w.done) || e.xfers.any (·.run == d)
    let runs := s.descs.filterMap fun (p : DRef × Adm) => match p.2.prog with
      | .qrun r =>
        let e := s.engOf p.1.ctx cl
        if r.started && r.set.contains cl && !e.quiet p.1 then some (p.1, if busy e p.1 then (Status.faultDetected, (0 : BitVec 32)) else (.unitFenced, e.firstTag p.1))
        else none
      | _ => none
    let s := works.foldl (fun (s : State) (x : Fin 7 × Nat) => match s.work? cl x.1 x.2 with
      | some w => if w.done then s else s.endCmd cl x.1 w [.faultDetected]
      | none => s) s
    let s := runs.foldl (fun (s : State) (x : DRef × Status × BitVec 32) =>
      (((s.failRun x.1 x.2.1 x.2.2).purge cl x.1).retireAll x.1.ctx cl).finishRuns) s
    s.fenceRemote cl

/-- Running Thaw commands of an engine, newest first; either engine's where both run it. -/
def State.thawOn (s : State) (cl : Fin 64) (e : Nat) : List (Fin 7 × Nat) :=
  (([1, 2] : List (Fin 7)).flatMap fun q => (s.queue cl q).works.filterMap fun w => match w.kind with
    | .thaw t => if !w.done && (t.engine = e || t.both) then some (q, w.b.no) else none
    | _ => none).reverse

def Work.ended (w : Work) : Bool := match w.kind with
  | .thaw t => t.ended
  | .ksw k => k.ended
  | _ => false

/-- The Thaw commands of an engine that no check has failed go back to run again (Table 4-11). -/
def State.rerunThaw (s : State) (cl : Fin 64) (e : Nat) : State :=
  (s.thawOn cl e).foldl (fun s (q, i) => match s.work? cl q i with
    | some w => if w.causes.isEmpty then s.rerun cl q w else s
    | none => s) s

/-- A Thaw engine leaves service: a command whose last step has ended meets the fence of a failed test and ends with FAULT_DETECTED (R379); one
whose check has failed ends with it; every other one runs again (Table 4-11). With both engines fenced the cluster is fenced. -/
def State.fenceThawEngine (s : State) (cl : Fin 64) (e : Nat) (byTest : Bool) : State :=
  let s := s.fenceBit fun h => { h with fenceThaw := setBit h.fenceThaw (2 * cl + e) }
  let s := if byTest then (s.thawOn cl e).foldl (fun s (q, i) => match s.work? cl q i with
      | some w => if w.ended then s.endCmd cl q w [.faultDetected] else s
      | none => s) s
    else s
  let s := s.rerunThaw cl e
  if s.thawFenced cl 0 && s.thawFenced cl 1 then s.fenceCluster cl else s

/-- No key stays staged; pins are kept (Table 15-5). -/
def State.dropAllFirn (s : State) : State :=
  let s := (s.keys.a.map (·.1)).foldl (fun s i => if Krt.firn (s.entry i) = 0 then s else s.setFirn i 0) s
  { s with keys := { s.keys with sweeps := s.keys.sweeps.map fun (o : Option Sweep) => o.map fun (w : Sweep) => { w with staged := false } } }

/-- A descriptor in progress ends with a status, as its operation leaves things when it fails: a QRUN fails, a KEY_LOAD gives its entry back, a
KEY_PIN its pins. -/
def State.endDesc (s : State) (d : DRef) (st : Status) : State :=
  match s.adm d with
  | none => s
  | some a => match a.prog with
    | .qrun _ => s.failRun d st 0
    | .keyLoad k => s.failLoad d a k st
    | .keyPin _ was => (s.unpin was).complete d st
    | _ => s.complete d st

/-- The descriptors whose progress p picks end with a status. -/
def State.endDescs (s : State) (p : Adm → Bool) (st : Status) : State :=
  (s.descs.filter fun x => p x.2).foldl (fun (s : State) x => s.endDesc x.1 st) s

def Adm.pinning (a : Adm) : Bool := match a.prog with
  | .keyPin _ _ => true
  | _ => false

/-- A key operation that has begun and has not completed. -/
def Adm.keyOp (a : Adm) : Bool := match a.prog with
  | .keyLoad _ | .keyFree _ | .keyPin _ _ => true
  | _ => false

def subsOfSweeps (l : List (Option Sweep)) : List Sub := l.flatMap fun o => match o with
  | some w => w.subs.map (·.sub)
  | none => []

/-- Subscriptions of the sweeps that p picks. -/
def State.subsIn (s : State) (p : Sweep → Bool) : List Sub := subsOfSweeps (s.keys.sweeps.toList.map fun o => o.filter p)

/-- Every sweep and every waiting subscription ends with UNIT_FENCED (R265, Table 15-5). -/
def State.endAllSweeps (s : State) : State :=
  s.subsEnd (s.keys.subs.flatMap (·.2) ++ s.subsIn fun _ => true) .unitFenced

/-- A Glacier, a Firn or a KRT copy has failed its test while it served commands: those whose sweeps it serves meet the fence first (R379). -/
def State.endServed (s : State) (p : Sweep → Bool) : State := s.subsEnd (s.subsIn p) .faultDetected

/-- A bridge between dies has failed its test: the commands whose issued transfers cross it, and those whose fragments do, meet the fence first (R379). -/
def State.endCrossing (s : State) (i : Nat) : State :=
  let s := allClusters.foldl (fun (s : State) cl =>
    let l := (s.clusters[cl].eng.xfers.filter fun x => x.crosses cl i)
    let s := (l.filterMap (·.owner)).eraseDups.foldl (fun (s : State) n => (s.addCause cl 4 n .faultDetected).dropXfers cl fun x => x.owner == some n) s
    let runs := ((l.filter fun x => x.owner.isNone).map fun x => x.run).eraseDups
    let s := s.dropXfers cl fun x => x.owner.isNone && x.crosses cl i
    runs.foldl (fun (s : State) d => s.failRun d .faultDetected 0) s) s
  s.subsEnd (s.subsAcross i) .faultDetected

/-- The engine commands that read a key of the KRT and have not ended their last step. -/
def State.keyWorks (s : State) : List (Fin 64 × Fin 7 × Nat) :=
  allClusters.flatMap fun cl => ([0, 1, 2] : List (Fin 7)).flatMap fun q => (s.queue cl q).works.filterMap fun w =>
    if w.gsub?.isSome && !w.done && !w.ended && w.causes.isEmpty then some (cl, q, w.b.no) else none

/-- A KRT copy leaves service: every command, subscription and key operation that names a key ends with UNIT_FENCED (Table 15-5). -/
def State.fenceKrt (s : State) (byTest : Bool) : State :=
  let s := if byTest then s.endServed fun _ => true else s
  let s := s.endAllSweeps
  let s := s.keyWorks.foldl (fun (s : State) x => s.addCause x.1 x.2.1 x.2.2 .unitFenced) s
  s.endDescs Adm.keyOp .unitFenced

/-- A PEER_CONFIG whose verification the engine cannot make ends with a status. -/
def State.endPeerConfigs (s : State) (st : Status) : State := s.endDescs (fun a => a.prog == .peerConfig) st

/-- Operations that wait for a fenced public-key engine (R339, Table 3-6): a KEY_LOAD ends with FAULT_DETECTED, the others with
UNIT_FENCED; a rebuild stays, and its check fails. -/
def State.drainPke (s : State) : State :=
  let l := s.sec.waiting
  let s := { s with sec := { s.sec with waiting := l.filter fun o => match o with
      | .rebuild _ => true
      | _ => false } }
  l.foldl (fun s o => match o with
    | .context d => s.complete d .unitFenced
    | .keyVerify d => (s.updLoad d fun k => { k with causes := k.causes ++ [.faultDetected] }).loadSettle d
    | .peerReport _ | .peer _ => s.endPeerConfigs .unitFenced
    | .rebuild _ => s) s

/-- A peer port leaves service (R313): a PEER_CONFIG that still waits for it ends with UNIT_FENCED. -/
def State.fencePort (s : State) (p : Fin 2) : State :=
  let waits := s.sync.ports[p].attesting
  let s := s.fenceBit (·.misc (21 + p))
  let s := { s with sync := { s.sync with ports := vupd s.sync.ports p fun q => { q with enabled := false, lanes := 0, attesting := false, records := none, report := none } } }
  if waits then s.endPeerConfigs .unitFenced else s

/-- A channel leaves service: nothing waits at it any more, sweeps end, and so do the transfers that address its stack (R265). -/
def State.fenceChannel (s : State) (i : Nat) : State :=
  let s := s.fenceBit fun h => { h with fenceCh := setBit h.fenceCh i }
  ((s.updChan (Fin.ofNat 160 i) fun h => { h with reqs := [] }).endAllSweeps).fenceStack

/-- The effects of Table 15-5, with the unit's bit set first. -/
def State.fenceEffect (s : State) (u : Nat) (byTest : Bool) : State :=
  let i := u % 2048
  match u / 2048 with
  | 1 | 2 | 4 | 6 | 7 => s.fenceCluster (Fin.ofNat 64 i)
  | 5 => s.fenceCluster (Fin.ofNat 64 (i / 32))
  | 3 => s.fenceThawEngine (Fin.ofNat 64 (i / 2)) (i % 2) byTest
  | 8 =>
    let s := (s.fenceBit (·.misc (3 + i))).dropAllFirn
    let s := if byTest then s.endServed fun _ => true else s
    if s.noGlacier then s.endAllSweeps else s
  | 9 =>
    let s := s.fenceBit (·.misc (7 + i))
    let s := if byTest then s.endServed (·.staged) else s
    (s.dropAllFirn.endDescs Adm.pinning .unitFenced)
  | 10 => s.fenceChannel i
  | 11 =>
    let s := s.fenceBit (·.misc (11 + i))
    let s := if byTest then s.endCrossing i else s
    if i ≥ 6 then (upTo 16).foldl (fun s j => s.fenceCluster (Fin.ofNat 64 (16 * (i - 6) + j))) s else s
  | 12 => (s.fenceBit (·.misc (23 + i))).fenceKrt byTest
  | 13 => (s.fenceBit (·.misc 25)).drainPke
  | 15 => s.fencePort (Fin.ofNat 2 i)
  | 17 => s.fenceBit (·.misc 26)
  | _ => s

/-- Units whose fence asks for service (Table 15-5). -/
def needsService (u : Nat) : Bool := match u / 2048 with
  | 10 | 12 | 13 | 17 => true
  | 11 => u % 2048 ≥ 6
  | _ => false

/-- A unit is fenced (R375): its effects, its fault record with action bit 2, its events (R374), and DEGRADED (R358). The records of
detections that led to it are written with it. -/
def State.fence (s : State) (u mech : Nat) (byTest : Bool) (recs : List FaultRec) : State :=
  if s.isFenced u then recs.foldl (fun s r => s.logFault r 1) s
  else
    let action := 4 + (if needsService u then 8 else 0)
    let own := s.faultRec u mech {}
    let s := s.updTest u fun t => { t with testing := false, due := false, faults := [] }
    let s := s.fenceEffect u byTest
    let s := if recs.isEmpty then s.logFault own action else recs.foldl (fun s r => s.logFault r (action + 1)) s
    let p1 := mech + (if byTest then 256 else 0)
    let s := if u / 2048 = 17 then s else s.raise 0 0x12 0 u p1
    let s := if needsService u then s.raise 0 0x11 0 u p1 else s
    s.markDegraded

/-! ### Detections (R368 to R371) -/

/-- Transients of a unit within the last 24 h (R370). -/
def State.recent (s : State) (u : Nat) : List Nat := (s.health.transients.get [] u).filter fun t => s.timebase < t + 86400000000000

/-- The units that the tests of Table 15-6 cover: a Firn's goes with its Glacier's, a KRT copy's with the other's. -/
def isUnit (u : Nat) : Bool :=
  let i := u % 2048
  match u / 2048 with
  | 1 | 2 | 4 | 6 | 7 => i < 64
  | 3 => i < 128
  | 5 => true
  | 8 | 9 => i < 4
  | 10 => i < 160
  | 11 => i < 10
  | 12 => i < 2
  | 13 | 14 => i = 0
  | _ => false

/-- A detection that fails a command takes its unit out of service for its test (R369); the third within 24 h, those that still wait for their
test among them, fences it at once (R370). A unit without a test gets its record at once. -/
def State.suspectRec (s : State) (u mech : Nat) (r : FaultRec) : State :=
  let waiting := (s.testOf u).faults
  if !isUnit u then s.logFault r 1
  else if (s.recent u).length + waiting.length ≥ 2 && u / 2048 != 14 then s.fence u mech false (waiting ++ [r])
  else s.updTest u fun t => { t with faults := t.faults ++ [r] }

def State.suspect (s : State) (u mech : Nat) (o : FaultOf) : State := s.suspectRec u mech (s.faultRec u mech o)

/-- The Inkwell bank that holds an address (R226). -/
def bankOf (addr : Nat) : Nat := Nat.xor (addr / 4096 % 32) (addr / 131072 % 32)

/-- The unit that holds the SRAM, or the bridge, of a SECDED failure (Table 15-4): the accumulator store is the Nib's, the chain table the
Brush's, hub SRAM the hub pair's. -/
def partUnit (cl : Fin 64) (addr : Nat) : CheckPart → Nat
  | .inkwell => unitNo 5 (32 * cl + bankOf addr)
  | .registerFile => unitNo 6 cl
  | .accumulators => unitNo 2 cl
  | .chainTable => unitNo 4 cl
  | .hubSram => unitNo 14 0
  | .bridge i => unitNo 11 i.val

/-- The unit behind a failed check of an engine command (Table 15-1). -/
def checkUnit (cl : Fin 64) (q : Fin 7) (engine mech addr : Nat) (part : CheckPart) : Nat := match mech with
  | 0x01 | 0x02 => unitNo 2 cl
  | 0x03 | 0x04 => unitNo 3 (2 * cl + engine)
  | 0x05 => unitNo 4 cl
  | 0x06 | 0x0B => unitNo 7 cl
  | 0x09 => partUnit cl addr part
  | 0x0A => unitNo 10 (8 * (addr / 4096 % 20) + addr % 4096 / 512)
  | _ => match q.val with
    | 0 => unitNo 2 cl
    | 1 | 2 => unitNo 3 (2 * cl + engine)
    | 3 => unitNo 4 cl
    | _ => unitNo 7 cl

/-- A failed check writes its record: data failures at once, the others once the unit that they make suspect has been tested (R366, R371). -/
def State.checkFault (s : State) (u mech : Nat) (o : FaultOf) : State :=
  if mech = 0x09 || mech = 0x0A then s.dataFault u mech o else s.suspect u mech o

/-- A failed check of an engine command. -/
def State.checkFail (s : State) (cl : Fin 64) (q : Fin 7) (engine : Nat) (w : Work) (f : CheckFail) : State :=
  s.checkFault (checkUnit cl q engine f.mech.toNat f.addr.toNat f.part) f.mech.toNat (w.fault cl q .faultDetected f.addr.toNat f.detail.toNat)

/-- Every one of the checks that fail writes its record (R368). -/
def State.checkFails (s : State) (cl : Fin 64) (q : Fin 7) (engine : Nat) (w : Work) (l : List CheckFail) : State :=
  l.foldl (fun (s : State) f => s.checkFail cl q engine w f) s

/-- KEY_MISMATCH writes its record at once (R82, R373). -/
def State.mismatch (s : State) (cl : Fin 64) (q u : Nat) (w : Work) (detail : Nat) : State :=
  (s.dataFault u 0x20 (w.fault cl q .keyMismatch 0 detail)).tallyCl 0x803 cl (some w.b.run.ctx.val)

/-! ### Tests (R378, R379) -/

/-- No command holds the unit (Table 15-6). -/
def State.unitIdle (s : State) (u : Nat) : Bool :=
  let i := u % 2048
  let free (cl : Fin 64) (q : Fin 7) : Bool := (s.queue cl q).works.all (·.done)
  match u / 2048 with
  | 1 => s.clusters[Fin.ofNat 64 i].eng.cur.isNone
  | 2 | 6 => free (Fin.ofNat 64 i) 0
  | 3 => (s.thawOn (Fin.ofNat 64 (i / 2)) (i % 2)).isEmpty
  | 4 => free (Fin.ofNat 64 i) 3
  | 5 => let cl := Fin.ofNat 64 (i / 32); free cl 0 && free cl 1 && free cl 2 && free cl 3 && free cl 4
  | 7 => free (Fin.ofNat 64 i) 4
  | 8 | 9 => s.keys.sweeps.toList.all (·.isNone)
  | 12 => s.keys.rebuilds.isEmpty
  | _ => true

/-- A due unit that has not been idle is tested at its next operation boundary from 190 ms after its last pass on. -/
def State.testForced (s : State) (u : Nat) : Bool := (s.testOf u).lastPass + 190000000 ≤ s.timebase

/-- A unit becomes due 150 ms after its last pass; a due one that is not idle is forced at 190 ms. -/
def State.latentTestDue (s : State) (u : Nat) : State :=
  let t := s.testOf u
  if !isUnit u || s.isFenced u || t.testing || !(s.env.serac.st == .setup || s.env.serac.st == .ready) then s
  else if t.due then s.advance (t.lastPass + 190000000)
  else (s.advance (t.lastPass + 150000000)).updTest u fun t => { t with due := true }

/-- The failed commands of a suspect unit have ended. -/
def State.suspectIdle (s : State) (u : Nat) : Bool :=
  let i := u % 2048
  let busy (cl : Fin 64) (q : Fin 7) : Bool := (s.queue cl q).works.any fun w => !w.done && !w.causes.isEmpty
  match u / 2048 with
  | 2 | 6 => !busy (Fin.ofNat 64 i) 0
  | 3 => !busy (Fin.ofNat 64 (i / 2)) 1 && !busy (Fin.ofNat 64 (i / 2)) 2
  | 4 => !busy (Fin.ofNat 64 i) 3
  | 5 => !([0, 1, 2, 3, 4] : List (Fin 7)).any (busy (Fin.ofNat 64 (i / 32)))
  | 7 => !busy (Fin.ofNat 64 i) 4
  | 8 | 9 => !allClusters.any fun cl => busy cl 0 || busy cl 1 || busy cl 2
  | _ => true

/-- A test of the public-key engine starts between operations (R339). -/
def State.testMayStart (s : State) (u : Nat) : Bool :=
  let t := s.testOf u
  !t.testing && ((t.due && (s.unitIdle u || s.testForced u)) || (!t.faults.isEmpty && s.suspectIdle u)) && match u / 2048 with
    | 10 => if h : u % 2048 < 160 then !s.memsys.chans[u % 2048].tgBusy else true
    | 13 => s.sec.running.isNone && s.sec.wiping.isNone && !s.sec.waiting.any fun o => match o with
        | .rebuild _ => true
        | _ => false
    | _ => true

/-- A due or suspect unit is taken out of service for its test. -/
def State.latentTestStart (s : State) (u : Nat) : State :=
  if isUnit u && !s.isFenced u && s.testMayStart u then
    let s := s.updTest u fun t => { t with testing := true }
    if u / 2048 = 13 then { s with sec := { s.sec with testing := true } } else s
  else s

/-- A test ends: the unit returns to service, and the detections that waited count as transients from their own instants; or it is fenced.
Their records are written now (R369, R370, R379). A channel's test is judged by what its two runs counted (R268), of which `one` and `two` are the
lines in error. -/
def State.latentTestEnd (s : State) (u : Nat) (pass : Bool) (one two : TgObs) : State :=
  let t := s.testOf u
  if !t.testing then s
  else
    let s := if u / 2048 = 13 then { s with sec := { s.sec with testing := false } } else s
    let (pass, s) := if u / 2048 = 10 then s.channelTest (Fin.ofNat 160 (u % 2048)) one two else (pass, s)
    if pass then
      let s := s.updTest u fun t => { t with testing := false, due := false, faults := [], lastPass := s.timebase }
      let s := t.faults.foldl (fun s r => s.logFault r 3) s
      if t.faults.isEmpty then s
      else { s with health := { s.health with transients := s.health.transients.set u (s.recent u ++ t.faults.map fun r => fld r.bits 511 448) } }
    else s.fence u (((t.faults.head?.map fun r => fld r.bits 169 162)).getD 0x12) true t.faults

def execLatentTestDue (u : BitVec 16) (s : State) : Out := .next (s.work fun s => s.latentTestDue u.toNat)
def execLatentTestStart (u : BitVec 16) (s : State) : Out := .next (s.work fun s => s.latentTestStart u.toNat)

/-! ### Hub stop, watchdog, host link (R367, R372, R405) -/

/-- The hub stops: admission and completion writing stop, SRC_STATE goes to 9, the HUB_STOP record and the link error message follow,
and the management bus alert is asserted (R405). -/
def State.hubHalt (s : State) (mech : Nat) : State :=
  let s := (s.record 0x09 mech 0).send .linkError
  { s with env := { s.env with serac := { s.env.serac with st := .stopped }, board := { s.env.board with smbAlert := true } } }

/-- The hub's pair runs: from the training of the stacks on, until it has stopped. -/
def Serac.hubRuns (c : Serac) : Bool := [SrcState.memory, .test, .setup, .ready].contains c.st

/-- A difference of the hub's pair, or its failed test (R372): the record of a failed test says that the pair is out of use. -/
def State.hubStop (s : State) (mech : Nat) : State :=
  if !s.env.serac.hubRuns then s
  else (s.logFault (s.faultRec (unitNo 0x0E 0) mech {}) (if mech = 0x12 then 4 else 1)).hubHalt mech

def execLatentTestEnd (u : BitVec 16) (r : TestResult) (s : State) : Out :=
  .next (if u.toNat = unitNo 0x0E 0 && !r.pass then (if (s.testOf u.toNat).testing then s.hubStop 0x12 else s)
    else s.work fun s => s.latentTestEnd u.toNat r.pass r.one r.two)

/-! ### The watchdog (R367) -/

/-- A started command's inputs are available, as far as the model tells: it waits for no key data, and for no page response. -/
def State.stallable (s : State) (cl : Fin 64) (q : Fin 7) (w : Work) : Bool :=
  !w.done && !s.bodyParked w.b.run.ctx cl q w.b.no && match w.kind with
    | .thaw t => t.ended || (t.step + 1) * t.f.stepBytes ≤ t.landed
    | .ksw k => k.ended || Ksw.offset k.f k.blk + Ksw.blockBytes k.f k.blk ≤ k.landed
    | .held _ _ _ | .gsub _ _ _ _ _ | .gate _ _ _ => false
    | .plain | .load | .mover _ => true

/-- Commands of a cluster's queues that p picks and that may stall. -/
def State.stalled (s : State) (cl : Fin 64) (qs : List (Fin 7)) (p : Work → Bool) : List WaitRef :=
  qs.flatMap fun q => (s.queue cl q).works.filterMap fun w => if p w && s.stallable cl q w then some (.body cl q w.b.no) else none

/-- Commands, or QRUNs of SEND parts, whose outstanding transfers p picks. -/
def State.movers (s : State) (p : Fin 64 → Xfer → Bool) : List WaitRef :=
  allClusters.flatMap fun cl => (s.clusters[cl].eng.xfers.filterMap fun x =>
    if p cl x then some (match x.owner with
      | some i => WaitRef.body cl 4 i
      | none => .desc x.run) else none).eraseDups

/-- A sweep that goes on: a unit may be issued to every subscriber, or a fragment is on its way. -/
def Sweep.busy (w : Sweep) : Bool :=
  (w.unit < Krt.length w.entry && w.subs.all fun x => x.credit > 0) || w.subs.any fun x => !x.flight.isEmpty

/-- The engine command of a subscriber. -/
def State.subWork (s : State) (x : Sub) : Option WaitRef :=
  ([0, 1, 2] : List (Fin 7)).findSome? fun q => ((s.queue x.cl q).works.find? fun y => y.gsub? == some x.gsub && !y.done).map fun y => .body x.cl q y.b.no

/-- The commands whose requests wait at a channel (Table 10-3). -/
def State.whose (s : State) : MemWho → List WaitRef
  | .xfer cl no => s.movers fun c x => c == cl && x.no == no
  | .stream cl p => ((s.clusters[cl].eng.tasks.toList[p]?.bind id).map fun t => WaitRef.desc t.run).toList
  | .fragment slot _ => match s.keys.sweeps[slot] with
    | some w => w.subs.filterMap fun x => s.subWork x.sub
    | none => []
  | .keyLoad d => [.desc d]
  | .plan d => [.desc d]
  | .rebuild _ | .stage _ _ | .switch _ | .peer _ | .slot _ | .scrub => []

/-- The commands to whom a fragment crosses a bridge. -/
def State.crossSubs (s : State) (i : Nat) : List WaitRef := (s.subsAcross i).filterMap s.subWork

def Adm.fresh (a : Adm) : Bool := a.prog == .fresh

/-- The commands that hold a unit with work started (R367): an engine's running ones; a bank's, those of the engines that use it; a Quill pair's,
the QRUN of its running task; a Glacier's or Firn's, those whose sweep it goes on with; a channel's, those whose requests wait there; a bridge's, a
port's and the host link's, those whose transfers cross it; a KRT copy's, key operations at their lookup; the public-key engine's, its operation;
the hub pair's, descriptors that it has admitted and not begun. -/
def State.holders (s : State) (u : Nat) : List WaitRef :=
  let i := u % 2048
  let descs (p : Adm → Bool) : List WaitRef := (s.descs.filter fun x => p x.2).map fun x => .desc x.1
  match u / 2048 with
  | 1 => let e := s.clusters[Fin.ofNat 64 i].eng
         ((e.cur.bind fun p => e.tasks[p]).map fun t => WaitRef.desc t.run).toList
  | 2 | 6 => s.stalled (Fin.ofNat 64 i) [0] fun _ => true
  | 3 => s.stalled (Fin.ofNat 64 (i / 2)) [1, 2] fun w => match w.kind with
      | .thaw t => t.engine = i % 2 || t.both
      | _ => false
  | 4 => s.stalled (Fin.ofNat 64 i) [3] fun _ => true
  | 5 => s.stalled (Fin.ofNat 64 (i / 32)) [0, 1, 2, 3, 4] fun _ => true
  | 7 => s.stalled (Fin.ofNat 64 i) [4] fun _ => true
  | 8 | 9 => s.keys.sweeps.toList.flatMap fun (o : Option Sweep) => match o with
      | some w => if w.busy && (u / 2048 = 8 || w.staged) then w.subs.filterMap fun x => s.subWork x.sub else []
      | none => []
  | 10 => (s.memsys.chans[Fin.ofNat 160 i].reqs.flatMap fun q => s.whose q.who).eraseDups
  | 11 => (s.movers (fun cl x => x.crosses cl i) ++ s.crossSubs i).eraseDups
  | 12 => descs fun a => a.fresh && 0x70 ≤ a.opcode && a.opcode ≤ 0x74
  | 13 => match s.sec.running with
    | some { op := .context d, ended := false, .. } | some { op := .keyVerify d, ended := false, .. } => [.desc d]
    | _ => []
  | 14 => descs Adm.fresh
  | 15 => s.movers (fun _ x => x.dst.any fun p => p.space == 3 && p.id == i) ++ (if s.sync.ports[Fin.ofNat 2 i].attesting then descs fun a => a.prog == .peerConfig else [])
  | 16 => s.movers fun _ x => (x.src.toList ++ x.dst).any fun (p : Place) => p.space == 2
  | _ => []

/-- What a fault record says of a command that holds a unit. -/
def State.holderFault (s : State) (detail : Nat) : WaitRef → FaultOf
  | .body cl q i => match s.work? cl q i with
    | some w => w.fault cl q .faultDetected 0 detail
    | none => {}
  | .desc d => { FaultOf.desc d .faultDetected 0 with detail }

/-- A unit holds work that no command has started: the requests of a rebuild, a staging copy or a switch at a channel, the hub's check of a rebuild or of
a peer in the public-key engine. Its stall is a detection as any other (R367). -/
def State.holdsOwn (s : State) (u : Nat) : Bool :=
  match u / 2048 with
  | 10 => !(s.memsys.chans[Fin.ofNat 160 (u % 2048)].reqs.filter fun q => q.left != 0).isEmpty
  | 12 => !s.keys.rebuilds.isEmpty
  | 13 => match s.sec.running with
    | some r => !r.ended
    | none => false
  | _ => false

/-- A rebuild, or a peer's check, that holds the stalled engine fails at once. -/
def State.endOwn (s : State) (u : Nat) : State :=
  if u / 2048 != 13 then s
  else match s.sec.running with
    | some { op := .rebuild i, ended := false, .. } => { s with
        keys := { s.keys with rebuilds := s.keys.rebuilds.upd i fun r => { r with failed := true } }
        sec := { s.sec with running := s.sec.running.map fun r => { r with status := .faultDetected, ends := min r.ends s.timebase } } }
    | some { op := .peer _, ended := false, .. } | some { op := .peerReport _, ended := false, .. } => { s with
        sec := { s.sec with running := s.sec.running.map fun r => { r with status := .faultDetected, ends := min r.ends s.timebase } } }
    | _ => s

/-- A command that holds a stalled unit ends with FAULT_DETECTED; the public-key engine reports its own at its end. -/
def State.endHolder (s : State) : WaitRef → State
  | .body cl q i => match s.work? cl q i with
    | some w => if w.done then s else s.endCmd cl q w []
    | none => s
  | .desc d => match s.sec.running with
    | some r => if r.op = .context d || r.op = .keyVerify d then { s with sec := { s.sec with running := some { r with status := .faultDetected, ends := min r.ends s.timebase } } }
        else s.endDesc d .faultDetected
    | none => s.endDesc d .faultDetected

/-- A stalled unit (R367): every command that holds it ends with FAULT_DETECTED, and the unit goes to its test. The record's detail, µs
since the last handshake, is a free value from 200 to 250. A unit under its test does not stall. -/
def State.watchdog (s : State) (u : Nat) : State :=
  let l := s.holders u
  if (l.isEmpty && !s.holdsOwn u) || s.isFenced u || (s.testOf u).testing then s
  else
    let detail := 200 + (Config.freeByte s.free 0).toNat % 51
    let o := (l.head?.map (s.holderFault detail)).getD { detail }
    let s := l.foldl (fun (s : State) y => match y with
      | .body cl q i => s.addCause cl q i .faultDetected
      | .desc _ => s) s.drawn
    l.foldl State.endHolder ((s.suspect u 0x11 o).endOwn u)

/-- The third transient of the hub's pair within 24 h, those that wait for its test among them, is its fence (R370): the stop of R372. The records of the
detections are written first. -/
def State.pairThird (s : State) : State :=
  let u := unitNo 0x0E 0
  let l := (s.testOf u).faults
  if !s.env.serac.hubRuns || l.isEmpty || (s.recent u).length + l.length < 3 then s
  else ((l.foldl (fun (s : State) r => s.logFault r 5) s).updTest u fun t => { t with testing := false, due := false, faults := [] }).hubHalt 0x11

def execWatchdogStall (u : BitVec 16) (s : State) : Out :=
  let t := s.work fun s => s.watchdog u.toNat
  .next (if u.toNat = unitNo 0x0E 0 then t.pairThird else t)

/-- The host link's retries are exhausted (Table 15-1): a detection that fails no command. -/
def execHostLinkRetryExhausted (s : State) : Out := .next (s.work fun s => s.logFault (s.faultRec (unitNo 0x10 0) 0x13 {}) 0)

end Sys2Proof.Machine
end

