-- ==== Sys2Proof/Machine/Nib.lean ====
section
/-! DEFINITION. The Nib's commands on the state (05): issue checks, loads and stores, chains and their drain, the key switch by
blocks, and the pairing of a Thaw or Nib command with its GSUB (R104, R134). A command reads its operands and forms its result at
its issue; its outputs are withheld if a check fails later (log 25). -/

namespace Sys2Proof.Machine

def State.setInk (s : State) (cl : Fin 64) (m : Memory) : State := s.updCl cl fun c => { c with ink := m }
def State.ink (s : State) (cl : Fin 64) : Memory := s.clusters[cl].ink
def State.nib (s : State) (cl : Fin 64) : NibState := s.clusters[cl].eng.nib
def State.setNib (s : State) (cl : Fin 64) (n : NibState) : State := s.updEng cl fun e => { e with nib := n }

/-- Rows of a destination in a cluster's Inkwell. -/
def inkRows (cl : Fin 64) (addr stride rows len : Nat) : List Dest :=
  (upTo rows).map fun i => { space := 0, cl := cl.val, addr := addr + stride * i, len }

/-- Both runs of a DUAL command are counted (R409). -/
def Adm.runs (a : Adm) : Nat := if a.modes.dual then 2 else 1

/-! ### Pairing with a GSUB (R104, R134) -/

/-- What a command finds when it looks for its GSUB. -/
inductive Pairing where
  /-- A GSUB placed before it is at its own checks: the command waits. -/
  | wait
  | none
  | gsub (w : Work)

def State.pairing (s : State) (cl : Fin 64) (engine ord : Nat) : Pairing :=
  if s.gsubAtChecks cl engine ord then .wait
  else match (s.unpaired cl engine).head? with
    | some w => .gsub w
    | none => .none

/-- The GSUB carries the handle, select and batch of the command. -/
def Work.pairs (w : Work) (h : BitVec 32) (sel batch : Nat) : Bool := match w.kind with
  | .gsub _ h' s' b' _ => h' == h && s' == sel && b' == batch
  | _ => false

/-- A command refused at issue takes its GSUB with it, which retires without being presented. -/
def State.refuseWith (s : State) (cl : Fin 64) (q : Fin 7) (b : Body) (a : Adm) (causes : List Status) : Pairing → State
  | .gsub w => (s.refuse cl q b a causes).dropGsub cl w.b.no
  | _ => s.refuse cl q b a causes

/-! ### Issue checks (R138) -/

/-- The causes that every Nib command shares. -/
def State.nibCauses (s : State) (c : NibCmd) (a : Adm) (d : DRef) : List Status :=
  let ct := [0x21, 0x22, 0x29, 0x2A].contains c.opcode
  let plan := !ct || match Family.ofId c.family with
    | some f => s.planFamily d f
    | none => false
  causesOf [(!c.wellFormed || !plan, .malformed), (!c.classOk a.cls, .paramUnsupported), (s.shed ≥ 5, .shed)]

/-- A load in progress writes one of the slots (R117). -/
def State.loadsInto (s : State) (cl : Fin 64) (l : List (Nat × Nat)) : Bool :=
  (s.queue cl 0).works.any fun w => w.kind == .load && NibCmd.slotsOverlap l (NibCmd.of w.b.bits).writes

/-- A Nib command at the head of its queue: refused with its causes, or given to its effect. It waits while a load is in progress on a
slot that it reads (R117; NIB_INV for the slots that it clears, log 36), and its tags and shapes are judged after that. -/
def State.nibHead (s : State) (cl : Fin 64) (op : Nat) (f : State → Body → Adm → NibCmd → State) : State :=
  match s.headOp cl 0 op with
  | none => s
  | some (b, a) =>
    let c := NibCmd.of b.bits
    let causes := s.nibCauses c a b.run
    if c.wellFormed && s.loadsInto cl (c.reads ++ if op = 0x25 then c.writes else []) then s
    else
      let shape := if c.wellFormed && !c.shapeOk (s.nib cl) then [Status.shapeMismatch] else []
      if (causes ++ shape).isEmpty then f s b a c else s.refuse cl 0 b a (causes ++ shape)

/-! ### Loads, stores, invalidation (R121) -/

/-- A bank of a cluster's Inkwell is under its test. -/
def State.banksTest (s : State) (cl : Nat) : Bool := (upTo 32).any fun k => s.underTest 5 (32 * cl + k)

def State.nibLoad (s : State) (cl : Fin 64) (op : Nat) : State :=
  s.nibHead cl op fun s b a c =>
    (s.setNib cl ((s.nib cl).setTags c.slotA (c.loadTags SlotTag.loading))).issue cl 0 a (s.workOf b a .load [])

/-- A load's last byte has landed: its slots hold the data and turn VALID; loads end in the order of their issue, and pause for a test of the
register file or of a bank (R378). -/
def State.nibLoadEnd (s : State) (cl : Fin 64) (i : Nat) : State :=
  match (s.queue cl 0).works.find? fun w => w.kind == .load with
  | some w =>
    if w.b.no != i || !s.inService cl || s.underTest 6 cl || s.banksTest cl then s
    else
      let c := NibCmd.of w.b.bits
      let n := s.nib cl
      let n := { n with trf := c.loadData (s.ink cl) n.trf }
      (s.setNib cl (n.setTags c.slotA (c.loadTags SlotTag.valid))).updWork cl 0 i fun w => { w with kind := .plain }
  | none => s

/-- The destinations of a store. -/
def NibCmd.storeDests (c : NibCmd) (cl : Fin 64) : List Dest :=
  if c.opcode = 0x23 then inkRows cl c.addr (8 * c.stride) c.m (rowBytes c.aFmt c.n) ++
    (if fmtScaled c.aFmt then inkRows cl c.inAddr 0 1 (divUp (c.m * c.n) 32) else [])
  else inkRows cl c.addr (8 * c.stride) c.k 512

def State.nibStore (s : State) (cl : Fin 64) (op : Nat) : State :=
  s.nibHead cl op fun s b a c =>
    (s.setInk cl (c.storeData (s.ink cl) (s.nib cl).trf)).issue cl 0 a { s.workOf b a .plain [] with dests := c.storeDests cl }

def State.nibInv (s : State) (cl : Fin 64) : State :=
  s.nibHead cl 0x25 fun s b a c =>
    (s.setNib cl ((s.nib cl).setTags c.slotA ((upTo c.k).map fun _ => (0 : SlotTag)))).issue cl 0 a (s.workOf b a .plain [])

/-! ### Chains (R125 to R131) -/

/-- The destinations of a finished chain that drains to the Inkwell. -/
def NibCmd.drainDests (c : NibCmd) (cl : Fin 64) : List Dest :=
  if c.opcode = 0x29 then
    inkRows cl (c.addr + 512 * c.n) (8 * c.stride) c.m 512 ++
    (if c.sel = 1 then inkRows cl (c.addr + 8 * ((Family.ofId c.family).getD .P1).ring) (8 * c.stride) c.m 8 else [])
  else inkRows cl c.addr (8 * c.stride) c.m (4 * c.n)

/-- A finishing NIB_MMA names a Brush entry. -/
def NibCmd.epilogue (c : NibCmd) : Bool := c.opcode == 0x28 && c.finish && c.handle != 0

/-- Halves of the accumulator store in use (R127): a running key switch holds both (R134). -/
def State.halvesUsed (s : State) (cl : Fin 64) : Nat :=
  (s.nib cl).halvesUsed + (if (s.queue cl 0).works.any fun w => !w.done && (match w.kind with
    | .ksw k => !k.ended
    | _ => false) then 2 else 0)

/-- A command's products go into its chain; a start waits for a free half, and a finish leaves the chain to be drained. -/
def State.nibChain (s : State) (cl : Fin 64) (op : Nat) (chain : NibCmd → NibState → Adm → NibChain) (event macs : NibCmd → Nat) : State :=
  s.nibHead cl op fun s b a c =>
    let n := s.nib cl
    if c.start && s.halvesUsed cl ≥ 2 then s
    else
      let h := chain c n a
      let n := if c.finish then { n with chain := none, drains := n.drains ++ [(b.no, b.bits, h)] } else { n with chain := some h }
      let dests := if c.finish && !c.epilogue then c.drainDests cl else []
      ((s.setNib cl n).issue cl 0 a { s.workOf b a .plain [] with dests }).tallyCl (event c) cl (some b.run.ctx.val) (a.runs * macs c)

/-- The oldest finished chain drains: to the Inkwell, or as a tile for its epilogue; a failed check withholds it (R136). -/
def State.nibDrain (s : State) (cl : Fin 64) (fail : List CheckFail) : State :=
  let n := s.nib cl
  match n.drains with
  | [] => s
  | (i, bits, h) :: rest =>
    match s.work? cl 0 i with
    | none => s
    | some w =>
      let s := s.setNib cl { n with drains := rest }
      let c := NibCmd.of bits
      if !fail.isEmpty then (s.addCause cl 0 i .faultDetected).checkFails cl 0 0 w fail
      else
        if h.lin then s.setInk cl (c.drainLin h (s.ink cl))
        else match s.adm w.b.run with
          | none => s
          | some a =>
            let (t, ovf, fl) := NibCmd.clearTile (s.num a) h
            let s := s.updWork cl 0 i fun w => { w with ev := { w.ev with flush := w.ev.flush || fl } }
            if c.epilogue then s.setNib cl { n with drains := rest, tiles := n.tiles ++ [(i, bits, t, ovf)] }
            else s.setInk cl (c.drainClear t (s.ink cl))

/-! ### Key switch (R132 to R135) -/

/-- The Inkwell regions of a NIB_KSW: work region, inputs, outputs. -/
def NibCmd.kswRegions (c : NibCmd) (f : Family) : List (Nat × Nat) :=
  [(4096 * c.work, 262144)] ++ ((upTo c.m).map fun i => (c.inAddr + 8 * c.stride * i, 8 * (f.ring + 1))) ++
  (upTo c.m).map fun i => (c.addr + 8 * c.stride2 * i, 8 * (f.lweDim + 1))

/-- All inside the Inkwell, and no two overlapping. -/
def regionsOk : List (Nat × Nat) → Bool
  | [] => true
  | (a, n) :: r => a + n ≤ inkBytes && (r.all fun (b, m) => a + n ≤ b || b + m ≤ a) && regionsOk r

/-- An entry of a key set that is RESIDENT, or held, with the handle's generation is of another family than a command names. -/
def State.familyDiffers (s : State) (h : BitVec 32) (n family : Nat) (held : List Nat := []) : Bool :=
  let e := s.entry (handleIdx h + n)
  (Krt.state e = stRESIDENT || (Krt.state e = stEVICTING && held.contains (handleIdx h + n))) && Krt.gen e = handleGen h && Krt.family e != family

/-- The entries that a command which runs again still holds (Table 4-11): those of the handles it names, which its QRUN counts in (R66). -/
def Body.held (b : Body) (l : List Nat) : List Nat := if b.again then l else []

/-- The causes of a NIB_KSW of its own; it needs both entries of its key set (R67). -/
def State.kswCauses (s : State) (c : NibCmd) (b : Body) (cx : Nat) (pr : Pairing) : List Status :=
  let h := BitVec.ofNat 32 c.handle
  let f := (Family.ofId c.family).getD .P1
  let held := b.held [handleIdx h, handleIdx h + 1]
  let kc := s.bskCauses cx h held ++ s.kskCauses cx h held
  let pair := match pr with
    | .gsub w => w.pairs h 2 c.m
    | _ => false
  causesOf [(!pair || c.stride2 < f.lweDim + 1 || (c.m ≤ 8 && !regionsOk (c.kswRegions f)), .malformed), (!s.planKset b.run h, .malformed),
    (s.familyDiffers h 0 c.family held || s.familyDiffers h 1 c.family held, .malformed), (s.sweepsOff, .unitFenced)] ++ kc

/-- NIB_KSW at the head: paired or judged; it waits for both halves (R134). -/
def State.nibKsw (s : State) (cl : Fin 64) : State :=
  match s.headOp cl 0 0x2A with
  | none => s
  | some (b, a) =>
    let c := NibCmd.of b.bits
    let pr := s.pairing cl 2 b.ord
    match pr with
    | .wait => s
    | _ =>
      let i := handleIdx (BitVec.ofNat 32 c.handle)
      if s.rebuilding i || s.rebuilding (i + 1) then s
      else
        let n := s.nib cl
        let causes := s.nibCauses c a b.run ++ (if c.wellFormed && !c.shapeOk n then [.shapeMismatch] else []) ++
          s.kswCauses c b b.run.ctx.val pr
        if !causes.isEmpty then s.refuseWith cl 0 b a causes pr
        else if s.halvesUsed cl > 0 then s
        else match pr, Family.ofId c.family with
          | .gsub w, some f =>
            let k : KswWork := { f, accs := List.replicate c.m (List.replicate (f.lweDim + 1) 0), gsub := w.b.no }
            s.issue cl 0 a { s.workOf b a (.ksw k) [] with
              region := inkRows cl (4096 * c.work) 0 1 262144
              dests := inkRows cl c.addr (8 * c.stride2) c.m (8 * (f.lweDim + 1)) }
          | _, _ => s

/-- Credits returned to the sweep's subscriber (R81). -/
def State.giveCredit (s : State) (cl : Fin 64) (g n : Nat) : State :=
  let one (x : Subscriber) : Subscriber := if Sweep.has cl g x.sub then { x with credit := min 64 (x.credit + n) } else x
  { s with keys := { s.keys with sweeps := s.keys.sweeps.map fun (o : Option Sweep) => o.map fun (w : Sweep) => { w with subs := w.subs.map one } } }

/-- The running key switch of a cluster. -/
def State.kswRunning (s : State) (cl : Fin 64) : Option (Work × KswWork) :=
  (s.queue cl 0).works.findSome? fun w => match w.kind with
    | .ksw k => if w.done || k.ended || !w.causes.isEmpty then none else some (w, k)
    | _ => none

/-- The array takes the next block once it has landed, and pauses between blocks for a test (R378); after the last one the outputs are written (R133, R135). A check of the block that fails is the command's cause (R136, R366). A fragment's credit goes
back when every block it carries has been consumed (R134). -/
def State.nibKswBlock (s : State) (cl : Fin 64) (fail : List CheckFail) : State :=
  match s.kswRunning cl with
  | none => s
  | some (w, k) =>
    let c := NibCmd.of w.b.bits
    let f := k.f
    let lo := Ksw.offset f k.blk
    let hi := lo + Ksw.blockBytes f k.blk
    if !s.inService cl || s.underTest 2 cl || s.underTest 6 cl || s.banksTest cl || k.landed < hi then s
    else if !fail.isEmpty then (s.addCause cl 0 w.b.no .faultDetected).checkFails cl 0 0 w fail
    else
      let g := k.blk / Ksw.blocksPerGroup f
      let accs := (k.accs.zipIdx).map fun (acc, i) => Ksw.blockAcc f k.key (Ksw.digits f (s.ink cl) (c.inAddr + 8 * c.stride * i) g) k.blk acc
      let last := k.blk + 1 = Ksw.blocks f
      let s := s.giveCredit cl k.gsub ((if last then divUp hi 4096 else hi / 4096) - lo / 4096)
      let s := s.tallyCl 0x202 cl (some w.b.run.ctx.val)
        ((((s.adm w.b.run).map fun (a : Adm) => a.runs).getD 1) * c.m * 64 * Ksw.width f k.blk)
      let s := if last then
          s.setInk cl ((accs.zipIdx).foldl (fun (m : Memory) (acc, i) =>
            let out := Ksw.output f ((s.ink cl).readNat (c.inAddr + 8 * c.stride * i + 8 * f.ring) 8 % f.modulus) acc
            (out.zipIdx).foldl (fun (m : Memory) (v, j) => m.writeNat (c.addr + 8 * c.stride2 * i + 8 * j) 8 v) m) (s.ink cl))
        else s
      s.updWork cl 0 w.b.no fun w => { w with kind := .ksw { k with blk := k.blk + 1, accs, ended := last } }

def execNibLdf (cl : Fin 64) (s : State) : Out := .next (s.work fun s => s.nibLoad cl 0x20)
def execNibLdv (cl : Fin 64) (s : State) : Out := .next (s.work fun s => s.nibLoad cl 0x21)
def execNibLdb (cl : Fin 64) (s : State) : Out := .next (s.work fun s => s.nibLoad cl 0x22)
def execNibStf (cl : Fin 64) (s : State) : Out := .next (s.work fun s => s.nibStore cl 0x23)
def execNibStv (cl : Fin 64) (s : State) : Out := .next (s.work fun s => s.nibStore cl 0x24)
def execNibInv (cl : Fin 64) (s : State) : Out := .next (s.work fun s => s.nibInv cl)
def execNibLoadEnd (cl : Fin 64) (i : Nat) (s : State) : Out := .next (s.work fun s => s.nibLoadEnd cl i)
def execNibMma (cl : Fin 64) (s : State) : Out :=
  .next (s.work fun s => s.nibChain cl 0x28 (fun c n a => c.mmaStep (s.num a) n) (fun _ => 0x201) (fun c => c.m * c.n * c.k))
def execNibLin (cl : Fin 64) (s : State) : Out :=
  .next (s.work fun s => s.nibChain cl 0x29 (fun c n _ => c.linStep n) (fun _ => 0x202) (fun c => c.m * 64 * c.k + c.m * c.k * c.sel))
def execNibDrain (cl : Fin 64) (fail : List CheckFail) (s : State) : Out := .next (s.work fun s => s.nibDrain cl fail)
def execNibKsw (cl : Fin 64) (s : State) : Out := .next (s.work fun s => s.nibKsw cl)
def execNibKswBlock (k : BlockCtl) (s : State) : Out := .next (s.work fun s => s.nibKswBlock k.cl k.fail)

end Sys2Proof.Machine
end

