-- ==== Sys2Proof/Machine/Thaw.lean ====
section
/-! DEFINITION. The Thaw's commands on the state (04), and the arrival of key fragments at their subscribers (R81, R82). -/

namespace Sys2Proof.Machine

/-- The fields of a Thaw command (Table 4-7). -/
structure ThawCmd where
  opcode : Nat
  kset : BitVec 32
  lut : BitVec 32
  work : Nat
  out : Nat
  inp : Nat
  inStride : Nat
  outStride : Nat
  lutFirst : Nat
  batch : Nat
  width : Nat
  msg : Nat
  ntab : Nat
  gate : Nat
  reserved : Nat
  family : Nat

def ThawCmd.of (b : BitVec 512) : ThawCmd where
  opcode := fld b 7 0
  kset := BitVec.ofNat 32 (fld b 223 192)
  lut := BitVec.ofNat 32 (fld b 191 160)
  work := fld b 159 136
  out := fld b 135 112
  inp := fld b 111 88
  inStride := fld b 87 72
  outStride := fld b 71 56
  lutFirst := fld b 55 44
  batch := fld b 43 36
  width := fld b 35 30
  msg := fld b 29 26
  ntab := fld b 25 24
  gate := fld b 23 20
  reserved := fld b 19 16
  family := fld b 15 8

namespace ThawCmd

def isGate (c : ThawCmd) : Bool := c.opcode == 0x41
def theta (c : ThawCmd) : Nat := 2 ^ c.ntab

/-- Bytes of the work region (R105, R110). -/
def workBytes (c : ThawCmd) (f : Family) (dual : Bool) : Nat := (if dual then 2 else 1) * (f.windowBytes + c.batch * f.accBytes)

/-- Work region, inputs, outputs. -/
def regions (c : ThawCmd) (f : Family) (dual : Bool) : List (Nat × Nat) :=
  [(c.work, c.workBytes f dual)] ++ ((upTo c.batch).map fun i => (c.inp + c.inStride * i, 2 * (f.lweDim + 1))) ++
  (upTo (c.batch * c.theta)).map fun i => (c.out + 8 * c.outStride * i, 8 * (f.ring + 1))

/-- The fields of R103 and the regions of R105. -/
def wellFormed (c : ThawCmd) (dual : Bool) : Bool :=
  let f := (Family.ofId c.family).getD .P1
  c.reserved == 0 && c.ntab != 3 && c.batch != 0 && c.work % 4096 = 0 && c.out % 64 = 0 && c.inp % 64 = 0 && c.inStride % 2 = 0 &&
  2 * (f.lweDim + 1) ≤ c.inStride && f.ring + 1 ≤ c.outStride &&
  (if c.isGate then c.gate < 12 && c.ntab == 0 && c.lut == 0xFFFFFFFF#32 && c.lutFirst == 0 && c.width == 2 && c.msg == 1
   else c.gate == 0 && f.m ≤ c.width && c.width ≤ 32 && 1 ≤ c.msg && c.msg ≤ min c.width 15 && (c.ntab == 0 || f.m ≤ 3)) &&
  regionsOk (c.regions f dual)

/-- The rotations that start (R89, R90, R97), from the tables of the LUTSET or the gate's. -/
def rots (c : ThawCmd) (f : Family) (ink : Memory) (tabs : List (List Int)) : List Refresh.Rot :=
  let tv := Refresh.testVector f (if c.isGate then 1 else f.m) c.width c.theta tabs
  (upTo c.batch).map fun i => Refresh.Rot.init f ink (c.inp + c.inStride * i) c.theta c.isGate tv

/-- The outputs of a batch (R91). -/
def write (c : ThawCmd) (f : Family) (rots : List Refresh.Rot) (ink : Memory) : Memory :=
  (rots.zipIdx).foldl (fun (m : Memory) (x, i) => (upTo c.theta).foldl (fun (m : Memory) r =>
    ((Refresh.extract f x.acc r).zipIdx).foldl (fun (m : Memory) (v, k) => m.writeNat (c.out + 8 * c.outStride * (i * c.theta + r) + 8 * k) 8 v) m) m) ink

end ThawCmd

/-- An output of a refresh fails the carry check with its table's tmax (R43, Table 4-8). -/
def State.carryExceeds (s : State) (c : ThawCmd) : Bool :=
  let m := 2 ^ c.msg - 1
  (upTo c.theta).any fun r =>
    let cb := divUp (lutTmax (s.lutRecord (handleIdx c.lut) (c.lutFirst + r))) m
    cb > 65535 || cb * m > 2 ^ c.width - 1

/-- Issue causes of a Thaw command (Table 4-8, R447). -/
def State.thawCauses (s : State) (c : ThawCmd) (b : Body) (a : Adm) (pr : Pairing) : List Status :=
  let cx := b.run.ctx.val
  let i := handleIdx c.kset
  let held := b.held ([i, i + 1] ++ if c.isGate then [] else [handleIdx c.lut])
  let kc := s.bskCauses cx c.kset held ++ s.kskCauses cx c.kset held
  let lc := if c.isGate then [] else s.lutCauses cx c.lut held
  -- the LUTSET can be judged by its header, whatever else is amiss (R11)
  let lut := s.entry (handleIdx c.lut)
  let known := !c.isGate && (Krt.state lut = stRESIDENT || held.contains (handleIdx c.lut)) && Krt.gen lut = handleGen c.lut && Krt.kind lut = kindLUT
  let count := ((s.keys.dir.find (handleIdx c.lut)).map fun (x : DirSlot) => fld x.header 863 832).getD 0
  let famOk := ((Family.ofId c.family).map fun (f : Family) => f.allowed a.cls).getD false
  let plan := s.planKset b.run c.kset && (c.isGate || s.planLut b.run c.lut) &&
    match Family.ofId c.family with
    | some f => s.planFamily b.run f
    | none => false
  let pair := match pr with
    | .gsub w => w.pairs c.kset 1 c.batch
    | _ => false
  causesOf [(!c.wellFormed a.modes.dual || !pair || !plan, .malformed), (!famOk || (c.isGate && a.cls != .gate), .paramUnsupported),
    (s.shed ≥ 5, .shed), (s.sweepsOff, .unitFenced), (s.familyDiffers c.kset 0 c.family held || s.familyDiffers c.kset 1 c.family held, .malformed),
    (known && (s.familyDiffers c.lut 0 c.family held || c.lutFirst + c.theta > count), .malformed), (known && s.carryExceeds c, .carryExceeded)] ++ kc ++ lc

/-- A running command of a cluster's Thaw queues. -/
def State.thawWorks (s : State) (cl : Fin 64) : List Work := ((s.queue cl 1).works ++ (s.queue cl 2).works).filter (!·.done)
def Work.dual (w : Work) : Bool := match w.kind with
  | .thaw t => t.dual
  | _ => false

/-- The head of a Thaw queue waits: for a GSUB at its checks (R104), or for DUAL's idle engines (R356). -/
def State.thawHeadWaits (s : State) (cl : Fin 64) (engine : Nat) (b : Body) (a : Adm) : Bool :=
  s.gsubAtChecks cl engine b.ord || (if a.modes.dual then !(s.thawWorks cl).isEmpty else (s.thawWorks cl).any (·.dual))

/-- One engine serves both queues: the other queue's head comes first where it was placed first and may issue (R217). -/
def State.thawAfter (s : State) (cl : Fin 64) (engine : Nat) (q : Fin 2) (b : Body) : Bool :=
  s.serves cl (1 - q.val) == some engine && match s.issueHead cl (if q = 0 then 2 else 1) with
    | some (b', a') => b'.ord < b.ord && !s.thawHeadWaits cl engine b' a'
    | none => false

/-- THAW_REFRESH and THAW_GATE at the head of a Thaw queue: paired, judged and begun. -/
def State.thawHead (s : State) (cl : Fin 64) (q : Fin 2) (op : Nat) : State :=
  let qi : Fin 7 := if q = 0 then 1 else 2
  match s.headOp cl qi op, s.serves cl q.val with
  | some (b, a), some engine =>
    let c := ThawCmd.of b.bits
    let i := handleIdx c.kset
    if s.thawHeadWaits cl engine b a || s.thawAfter cl engine q b || s.rebuilding i || s.rebuilding (i + 1) ||
      (!c.isGate && s.rebuilding (handleIdx c.lut)) then s
    else
      let pr := s.pairing cl engine b.ord
      let causes := s.thawCauses c b a pr
      match pr, Family.ofId c.family with
      | .gsub w, some f =>
        if !causes.isEmpty then s.refuseWith cl qi b a causes pr
        else
          let tabs : List (List Int) := if c.isGate then [Refresh.gateTable c.gate] else (upTo c.theta).map fun r =>
            let rec_ := s.lutRecord (handleIdx c.lut) (c.lutFirst + r)
            (upTo (2 ^ f.m)).map (lutEntry rec_)
          let both := a.modes.dual && !s.thawOut cl 0 && !s.thawOut cl 1 && s.shed < 4
          let t : ThawWork := {
            f, engine, dual := a.modes.dual, both, rots := c.rots f (s.ink cl) tabs, theta := c.theta, gsub := w.b.no
            sweepsLeft := if a.modes.dual && !both then 2 else 1 }
          s.issue cl qi a { s.workOf b a (.thaw t) [] with
            region := inkRows cl c.work 0 1 (c.workBytes f a.modes.dual)
            dests := inkRows cl c.out (8 * c.outStride) (c.batch * c.theta) (8 * (f.ring + 1)) }
      | _, _ => s.refuseWith cl qi b a causes pr
  | _, _ => s

/-- The Thaw command that an engine runs. -/
def State.thawRunning (s : State) (cl : Fin 64) (e : Nat) : Option (Fin 7 × Work × ThawWork) :=
  (s.currentOn cl (s.onEngine cl e)).bind fun (q, w) => match w.kind with
    | .thaw t => some (q, w, t)
    | _ => none

/-- Credits that a Thaw engine has withheld go back as its window has room for fragments (R105). -/
def State.freeCredit (s : State) (cl : Fin 64) (g room : Nat) : State :=
  let one (x : Subscriber) : Subscriber :=
    if Sweep.has cl g x.sub then { x with credit := x.credit + min (64 - x.credit - x.flight.length) room } else x
  { s with keys := { s.keys with sweeps := s.keys.sweeps.map fun (o : Option Sweep) => o.map fun (w : Sweep) => { w with subs := w.subs.map one } } }

/-- Fragments for which a key window of two steps still has room. DESIGN CHOICE: those that have landed count, and those credited or on their way do not,
so that up to 63 more may land before a step ends; the spec does not say which of them "room for the next" counts (log 74). -/
def ThawWork.room (t : ThawWork) : Nat := ((t.step + 2) * t.f.stepBytes - t.landed) / 4096

/-- A step ends for every ciphertext of the batch (R102), once its key has landed; the engine pauses between steps for a test (R378); after the last one the outputs are written, or the
command runs its second sweep (R356). -/
def State.thawStep (s : State) (cl : Fin 64) (e : Nat) (fail : List CheckFail) : State :=
  match s.thawRunning cl e with
  | none => s
  | some (q, w, t) =>
    if !s.inService cl || s.underTest 3 (2 * cl + e) || s.banksTest cl || t.landed < (t.step + 1) * t.f.stepBytes then s
    else if !fail.isEmpty then (s.addCause cl q w.b.no .faultDetected).checkFails cl q e w fail
    else
        let c := ThawCmd.of w.b.bits
        let key : Memory := Memory.write ([] : Memory) 0 (t.key.read (t.step * t.f.stepBytes) t.f.stepBytes)
        -- the first of two runs leaves the rotations to the second, which gives the same bits (R26)
        let rots := if t.sweepsLeft > 1 then t.rots else t.rots.map fun (x : Refresh.Rot) => { x with acc := Refresh.stepAcc t.f key t.step x.a x.acc }
        let last := t.step + 1 = t.f.steps
        let s := s.tallyCl 0x300 cl (some w.b.run.ctx.val) (if t.both then 2 else 1)
        if last && t.sweepsLeft > 1 then
          s.updWork cl q w.b.no fun w => { w with kind := .thaw { t with step := 0, key := [], landed := 0, sweepsLeft := t.sweepsLeft - 1 } }
        else
          let t := { t with step := t.step + 1, rots, ended := last }
          let s := if last then s.setInk cl (c.write t.f rots (s.ink cl)) else s.freeCredit cl t.gsub t.room
          s.updWork cl q w.b.no fun w => { w with kind := .thaw t }

/-! ### Fragments (R81, R82) -/

/-- The command paired with a subscriber's GSUB. -/
def State.pairedWork (s : State) (cl : Fin 64) (g : Nat) : Option (Fin 7 × Work) :=
  ([0, 1, 2] : List (Fin 7)).findSome? fun q => ((s.queue cl q).works.find? fun w => w.gsub? == some g && !w.done).map fun w => (q, w)

/-- Fields of a tag (Table 3-11). -/
def tagIdx (t : BitVec 256) : Nat := fld t 148 132
def tagGen (t : BitVec 256) : Nat := fld t 163 149
def tagUnit (t : BitVec 256) : Nat := fld t 183 164
def tagKind (t : BitVec 256) : Nat := fld t 186 184
def tagFp (t : BitVec 256) : Nat := fld t 127 0

/-- What the first fragment's tag must be (R82): index, generation, fingerprint read at the QRUN's admission, kind. -/
def State.firstOk (s : State) (w : Work) (engine : Nat) (t : BitVec 256) : Bool :=
  let h := BitVec.ofNat 32 (fld w.b.bits 223 192)
  let idx := handleIdx h + (if engine = 2 then 1 else 0)
  let fp := (s.run w.b.run).bind fun (r : Run) => r.fps.find idx
  let kind := tagKind t
  tagIdx t == idx && tagGen t == handleGen h && some (tagFp t) == fp.map (·.toNat) &&
  (if engine = 2 then kind == kindKSK else kind == kindBSK || kind == kindGBSK)

/-- The detail field of a tag failure (Table 15-3). -/
def tagDetail (t : BitVec 256) : Nat := packNat [(20, tagUnit t), (17, tagIdx t), (15, tagGen t)]

/-- A later fragment goes on from the first one's tag, and from the unit that the last one named. -/
def laterOk (first t : BitVec 256) (prev : Nat) : Bool :=
  tagIdx t == tagIdx first && tagGen t == tagGen first && tagFp t == tagFp first && tagKind t == tagKind first && tagUnit t == prev + 1

/-- A fragment's bytes land at the engine: a Thaw gives its credit back where its window has room for the next (R105). -/
def State.landKey (s : State) (cl : Fin 64) (q : Fin 7) (w : Work) (u : Nat) (bytes : List Byte) : State :=
  match w.kind with
  | .thaw t =>
    let t := { t with key := t.key.write (4096 * u) bytes, landed := t.landed + bytes.length }
    (s.freeCredit cl t.gsub (min 1 t.room)).updWork cl q w.b.no fun w => { w with kind := .thaw t }
  | .ksw k => s.updWork cl q w.b.no fun w => { w with kind := .ksw { k with key := k.key.write (4096 * u) bytes, landed := k.landed + bytes.length } }
  | _ => s

/-- The last fragment has come: the subscriber leaves (R83); a command with another sweep to run presents its GSUB again (R356). -/
def State.lastFragment (s : State) (cl : Fin 64) (w : Work) (g : Nat) : State :=
  match w.kind with
  | .thaw t => if t.sweepsLeft > 1 then (s.unsubscribe cl g).updWork cl 5 g fun x => match x.kind with
        | .gsub e h sel batch _ => { x with kind := .gsub e h sel batch false }
        | _ => x
      else s.dropGsub cl g
  | _ => s.dropGsub cl g

/-- A fragment of a sweep arrives at a subscriber; `tag` is the tag that arrives where it is not the fragment's own. -/
def State.fragmentArrive (s : State) (slot : Fin 8) (cl : Fin 64) (engine : Nat) (tag : Option (BitVec 256)) : State :=
  match s.keys.sweeps[slot] with
  | none => s
  | some sw =>
    match sw.subs.find? fun x => x.sub.cl == cl && x.sub.engine == engine with
    | none => s
    | some x =>
      match x.flight, s.pairedWork cl x.sub.gsub with
      | u :: rest, some (q, w) =>
        if s.memWaits (.fragment slot u) then s
        else
        let t := tag.getD (fragTag sw slot u)
        let upd (y : Subscriber) : Subscriber :=
          if Sweep.has cl x.sub.gsub y.sub then { y with flight := rest, next := u + 1, last := tagUnit t, first := some (y.first.getD t) } else y
        let s := { s with keys := { s.keys with sweeps := s.keys.sweeps.set slot (some { sw with subs := sw.subs.map upd }) } }
        let die := s.glacierOf (unitDie (Krt.first sw.entry) u)
        match x.first with
        | none =>
          if s.firstOk w engine t then
            let s := s.landKey cl q w u (s.unitBytes sw.entry u)
            if u + 1 = Krt.length sw.entry then s.lastFragment cl w x.sub.gsub else s
          else (((s.mismatch cl q (unitNo 8 die) w (tagDetail t)).addCause cl q w.b.no .keyMismatch).dropGsub cl x.sub.gsub)
        | some first =>
          if laterOk first t x.last then
            let s := s.landKey cl q w u (s.unitBytes sw.entry u)
            if u + 1 = Krt.length sw.entry then s.lastFragment cl w x.sub.gsub else s
          else
            let s := s.suspect (unitNo 8 die) 0x0C (w.fault cl q .faultDetected 0 (tagDetail t))
            (s.addCause cl q w.b.no .faultDetected).dropGsub cl x.sub.gsub
      | _, _ => s

def execThawRefresh (cl : Fin 64) (q : Fin 2) (s : State) : Out := .next (s.work fun s => s.thawHead cl q 0x40)
def execThawGate (cl : Fin 64) (q : Fin 2) (s : State) : Out := .next (s.work fun s => s.thawHead cl q 0x41)
def execThawStep (cl : Fin 64) (engine : Fin 2) (fail : List CheckFail) (s : State) : Out := .next (s.work fun s => s.thawStep cl engine fail)
def execFragmentArrive (slot : Fin 8) (cl : Fin 64) (engine : Fin 3) (tag : Option (BitVec 256)) (s : State) : Out :=
  .next (s.work fun s => s.fragmentArrive slot cl engine tag)

end Sys2Proof.Machine
end

