-- ==== Sys2Proof/Machine/BrushOps.lean ====
section
/-! DEFINITION. The Brush's commands on the state (07): issue checks, chain loads and invocations, epilogues, and the parts of a
SEND (R316 to R318). -/

namespace Sys2Proof.Machine

/-! ### Transfers -/

/-- Pieces of a run of len bytes, cut at every 4,096 B boundary of an address (R238): offset and length, by fuel. -/
def cuts : Nat → Nat → Nat → Nat → List (Nat × Nat)
  | 0, _, _, _ => []
  | fuel + 1, a, off, len =>
    if len = 0 then []
    else
      let n := min len (4096 - a % 4096)
      (off, n) :: cuts fuel (a + n) (off + n) (len - n)
def cutRun (a len : Nat) : List (Nat × Nat) := cuts (len / 4096 + 2) a 0 len

def inkPlace (cl : Fin 64) (a : Nat) : Place := { space := 0, id := cl.val, addr := a }
def modPlace (a : Nat) : Place := { space := 1, addr := a }
def hostPlace (sp : HostSpace) (a : Nat) : Place := { space := 2, id := spaceKey sp, addr := a }
def peerPlace (port : Nat) (a : Nat) : Place := { space := 3, id := port, addr := a }

/-- The binding of a context on a port (R314). -/
def State.binding (s : State) (cx : Fin 4096) (port : Nat) : Option Binding := s.sync.bindings.find? fun b => b.ctx == cx && b.port.val == port

/-! ### SEND (R316 to R318) -/

/-- A distribution record's header (Table 12-9). -/
structure Dist where
  addr : Nat
  fmt : Nat
  pitch : Nat
  bw : Nat
  bh : Nat
  w : Nat
  h : Nat
  ok : Bool

def Dist.of (m : Memory) (a : Nat) : Dist :=
  let b := BitVec.ofNat 512 (m.readNat a 64)
  { addr := a, fmt := fld b 164 160, pitch := fld b 159 128, bw := fld b 127 112, bh := fld b 111 96, w := fld b 95 64, h := fld b 63 32
    ok := fld b 31 0 == 0x54534944 && fld b 511 165 == 0 && a % 64 = 0 && fld b 159 128 % 8 = 0 && fld b 127 112 != 0 && fld b 111 96 != 0 }

def Dist.across (d : Dist) : Nat := divUp d.w d.bw
/-- The owner entry of a block (Table 12-10). -/
def Dist.entry (d : Dist) (m : Memory) (by_ bx : Nat) : BitVec 128 := BitVec.ofNat 128 (m.readNat (d.addr + 64 + 16 * (by_ * d.across + bx)) 16)
def ownPlace (e : BitVec 128) : Nat := fld e 66 64
def ownEntryOk (e : BitVec 128) : Bool := fld e 127 73 == 0 && ownPlace e ≤ 4 && fld e 63 0 % 8 = 0

/-- The pieces of an invocation's row: the block column, first column and number of columns of each. -/
def Dist.pieces (d : Dist) (v : Chain.Inv) (x0 : Nat) : List (Nat × Nat × Nat) :=
  (upTo (divUp v.cols d.bw + 1)).filterMap fun k =>
    let bx := x0 / d.bw + k
    let lo := max x0 (bx * d.bw)
    let hi := min (x0 + v.cols) ((bx + 1) * d.bw)
    if lo < hi then some (bx, lo, hi - lo) else none

/-- Where an entry's part goes, with every cause that holds against it (R11, R318). -/
def State.sendPlace (s : State) (c : Ctx) (cx : Fin 4096) (list : List (Fin 64)) (e : BitVec 128) (a len : Nat) : List Status × Option Place :=
  match ownPlace e with
  | 0 => (causesOf [(!c.inWindow a len, .permission), (s.memFenced a len, .unitFenced)], some (modPlace a))
  | 4 => ([], none)
  | 3 =>
    let t := list[fld e 72 67]?
    (causesOf [(inkBytes < a + len, .malformed), (t.isNone && s.perPart ≤ fld e 72 67, .permission),
      ((t.isNone && fld e 72 67 < s.perPart) || t.any s.clFenced, .unitFenced)], t.map fun t => inkPlace t a)
  | p =>
    let ok := (s.binding cx (p - 1)).any fun b => a + len ≤ b.window * 2 ^ 21
    (causesOf [(!ok, .permission), (s.portFenced (p - 1), .unitFenced)], some (peerPlace (p - 1) a))

/-- The parts of a SEND: place, offset from the invocation's first byte, length; or the causes of R318. -/
def State.sendParts (s : State) (cl : Fin 64) (run : DRef) (r : ChainRec) (v : Chain.Inv) : List Status × List (Place × Nat × Nat) :=
  let m := s.ink cl
  let imm := ((Chain.stepList r).find? (·.op == 0x18)).map (·.imm) |>.getD 0
  let d := Dist.of m (imm % 2 ^ 24)
  let e := fmtBits d.fmt
  let x0 := v.x0 r
  let y0 := v.y0 r
  if !d.ok || d.fmt != Chain.outFmt r || fmtScaled d.fmt || x0 + v.cols > d.w || y0 + v.rows > d.h || d.bw * e % 64 != 0 || x0 * e % 64 != 0 ||
    v.cols * e % 64 != 0 || d.addr + 64 + 16 * (divUp d.h d.bh * d.across) > inkBytes then ([.malformed], [])
  else
    let entries := (upTo (divUp d.h d.bh)).flatMap fun i => (upTo d.across).map fun j => d.entry m i j
    if entries.any fun x => !ownEntryOk x then ([.malformed], [])
    else match s.ctxs.find run.ctx, s.run run with
      | some c, some q =>
        let l := (upTo v.rows).flatMap fun i => (d.pieces v x0).map fun (bx, lo, n) =>
          let Y := y0 + i
          let x := d.entry m (Y / d.bh) bx
          let a := fld x 63 0 + Y % d.bh * d.pitch + lo % d.bw * e / 8
          (s.sendPlace c run.ctx q.list x a (n * e / 8), i * v.sigma + (lo - x0) * e / 8, n * e / 8)
        let unbound := entries.any fun x => (ownPlace x == 1 || ownPlace x == 2) && (s.binding run.ctx (ownPlace x - 1)).isNone
        (causesOf [(unbound, .permission)] ++ l.flatMap (·.1.1), l.filterMap fun ((_, p), off, n) => p.map fun pl => (pl, off, n))
      | _, _ => ([.malformed], [])

/-- The parts enter the mover's list, with the bytes as the final write left them. -/
def State.addSends (s : State) (cl : Fin 64) (run : DRef) (v : Chain.Inv) (parts : List (Place × Nat × Nat)) : State :=
  let m := s.ink cl
  let xs : List Xfer := parts.flatMap fun (p, off, n) => (cutRun p.addr n).map fun (o, k) => {
    owner := none, run, src := none, dst := [{ p with addr := p.addr + o }], len := k, data := m.read (v.d + off + o) k
    remote := if p.space = 0 then [Fin.ofNat 64 p.id] else [] }
  s.updEng cl fun e => { e with sends := e.sends ++ xs }

/-! ### Issue checks and effects (R199) -/

def State.brEnv (s : State) (a : Adm) : BrEnv := { num := s.num a, cls := a.cls, slots := s.env.serac.micro }

/-- Bytes that a tensor covers: its rows and its scale table. -/
def tensDests (cl : Fin 64) (t : Tens) : List Dest :=
  inkRows cl t.addr t.stride t.rows (rowBytes t.fmt t.cols) ++ (if fmtScaled t.fmt then inkRows cl t.scaleBase 0 1 t.scaleBytes else [])

/-- What an invocation writes: its output of elements of `bits`, scales, stored streams, the statistics that a soft-maximum step writes (ACC
only reads them), tile records. -/
def invDests (cl : Fin 64) (r : ChainRec) (v : Chain.Inv) (bits : Nat) : List Dest :=
  let stores := (Chain.stepList r).filterMap fun t => if t.op = 0x08 then some (Chain.stream r t.opnd) else none
  inkRows cl v.d v.sigma v.rows (v.rowLen bits) ++
  (if fmtScaled (Chain.outFmt r) then
    inkRows cl (Chain.scaleBase r + v.y0 r * divUp (v.rowW r) 32 + v.x0 r / 32) (divUp (v.rowW r) 32) v.rows (divUp v.cols 32) else []) ++
  (stores.flatMap fun t =>
    let lo := v.x0 r * fmtBits t.fmt / 8
    inkRows cl (t.base + v.y0 r * t.stride + lo) t.stride v.rows (divUp ((v.x0 r + v.cols) * fmtBits t.fmt) 8 - lo)) ++
  (if (Chain.stepList r).any (·.op == 0x09) then inkRows cl (Chain.statWord r v 0) 0 1 (16 * v.rows) else []) ++
  (if Chain.stat r = 2 then inkRows cl (Chain.trecWord r v 0) 0 1 (4 * v.rows) else [])

def BrCmd.inv (c : BrCmd) : Chain.Inv := ⟨c.dst, c.dstStride, c.rows, c.cols⟩

/-- What a Brush command writes. -/
def BrCmd.dests (c : BrCmd) (cl : Fin 64) (r : ChainRec) : List Dest := match c.opcode with
  | 0x50 | 0x51 | 0x53 => tensDests cl c.dstT
  | 0x52 => inkRows cl c.dst c.dstStride c.rows (divUp c.cols 8)
  | 0x54 => tensDests cl ⟨c.dst, rowBytes c.dstFmt c.rows, c.dstFmt, 1, c.rows⟩
  | 0x55 => tensDests cl c.dstT ++ inkRows cl c.srcB 0 1 (16 * c.rows) ++
      (if c.sub / 2 % 2 = 1 then [] else inkRows cl (c.imm % 2 ^ 24) 0 1 (4 * c.rows))
  | 0x56 => ((upTo c.maskOff).flatMap fun t => inkRows cl (c.dst + t * (c.imm % 2 ^ 24)) c.dstStride c.rows (rowBytes c.dstFmt c.cols) ++
      inkRows cl (c.srcB + t * c.bStride) 0 1 (4 * c.rows)) ++ inkRows cl c.srcA 0 1 (16 * c.rows)
  | 0x57 => tensDests cl ⟨c.srcA, c.aStride, 0x10, c.rows, c.cols⟩ ++
      (if c.dstFmt = 0 then [] else tensDests cl ⟨c.aux, c.dstStride, c.dstFmt, c.rows, c.cols⟩)
  | 0x58 => invDests cl r c.inv (Chain.outBits r c.runLayout)
  | 0x59 => []
  | 0x65 => inkRows cl c.dst c.dstStride c.rows (2 * c.cols)
  | _ => inkRows cl c.dst c.dstStride c.rows (((c.ctLayout.map Layout.elemBytes).getD 8) * c.cols)

/-- Results of special functions (event 0x401): those of BR_MAP and MAP steps by element, of a soft-maximum step one an element, one a
row, and one more a row where it normalises (log 35). -/
def smaxResults (rows cols : Nat) (norm : Bool) : Nat := rows * (cols + 1) + if norm then rows else 0
def chainResults (r : ChainRec) (v : Chain.Inv) : Nat :=
  ((Chain.stepList r).map fun t =>
    if t.op = 0x06 && SpecialFn.special t.func then v.rows * v.cols
    else if t.op = 0x09 then smaxResults v.rows v.cols (Chain.stat r == 1)
    else if t.op = 0x0A then v.rows else 0).sum
def BrCmd.results (c : BrCmd) (r : ChainRec) : Nat := match c.opcode with
  | 0x50 => if SpecialFn.special c.op6 then c.rows * c.cols else 0
  | 0x55 => smaxResults c.rows c.cols (c.sub / 2 % 2 = 1)
  | 0x56 => c.rows * (c.maskOff + 1)
  | 0x58 => chainResults r c.inv
  | _ => 0

/-- A ciphertext family that the class takes and the plan names (R30, R447). -/
def State.ctFamily (s : State) (run : DRef) (cls : QClass) (id : Nat) : List Status := match Family.ofId id with
  | some f => causesOf [(!s.planFamily run f, .malformed), (!f.allowed cls, .paramUnsupported)]
  | none => [.malformed, .paramUnsupported]

/-- Issue causes of a Brush command, the entry's record at hand. -/
def State.brCauses (s : State) (cl : Fin 64) (c : BrCmd) (b : Body) (a : Adm) (rec_ : Option ChainRec) : List Status :=
  let e := s.brEnv a
  let ok := c.wellFormed e rec_.isSome
  causesOf [(!ok, .malformed), (!c.classOk a.cls, .paramUnsupported), (!c.shapeOk, .shapeMismatch), (s.shed ≥ 5, .shed)] ++
  (if c.isCt then s.ctFamily b.run a.cls c.family else []) ++
  match c.opcode, rec_ with
  | 0x58, some r =>
    if !ok then []
    else causesOf [(!c.runOk r, .malformed), (c.runOk r && !c.runShapeOk r, .shapeMismatch)] ++
      (if Chain.isCt r then s.ctFamily b.run a.cls (Chain.family r) else []) ++
      (if Chain.sends r && c.runOk r then (s.sendParts cl b.run r c.inv).1 else [])
  | _, _ => []

/-- What the work did, counted. -/
def State.brTally (s : State) (cl : Fin 64) (a : Adm) (run : DRef) (results sat : Nat) : State :=
  let s := if results = 0 then s else s.tallyCl 0x401 cl (some run.ctx.val) (a.runs * results)
  if sat = 0 then s else s.tallyCl 0x403 cl (some run.ctx.val) (a.runs * sat)

/-- A Brush command at the head of its queue: refused, or run. -/
def State.brHead (s : State) (cl : Fin 64) (op : Nat) (f : BrCmd → BrEnv → ChainRec → Memory → BrOut) : State :=
  match s.headOp cl 3 op with
  | none => s
  | some (b, a) =>
    let c := BrCmd.of b.bits
    let rec_ := s.clusters[cl].eng.chains.find c.chain
    let causes := s.brCauses cl c b a rec_
    if !causes.isEmpty then s.refuse cl 3 b a causes
    else
      let r := rec_.getD 0
      let o := f c (s.brEnv a) r (s.ink cl)
      let parts := if op = 0x58 && Chain.sends r then (s.sendParts cl b.run r c.inv).2 else []
      let s := (s.setInk cl o.ink).brTally cl a b.run (c.results r) o.ev.sat
      let s := s.addSends cl b.run c.inv parts
      let layer := if op = 0x58 then Chain.layer r else c.layer
      s.drawn.issue cl 3 a { s.workOf b a .plain [] with ev := o.ev, mon := o.mon, layer, dests := c.dests cl r }

/-- A leveled ciphertext operation (R183). -/
def State.brCt (s : State) (cl : Fin 64) (op : Nat) : State :=
  s.brHead cl op fun c _ _ m => c.runCt ((Family.ofId c.family).getD .P1) (c.ctLayout.getD .big) m

/-- BR_CHAIN_LOAD (R185): a record that fails its checks leaves the entry empty. -/
def State.brChainLoad (s : State) (cl : Fin 64) : State :=
  match s.headOp cl 3 0x59 with
  | none => s
  | some (b, a) =>
    let c := BrCmd.of b.bits
    let causes := s.brCauses cl c b a none
    if !causes.isEmpty then s.refuse cl 3 b a causes
    else
      let r : ChainRec := BitVec.ofNat 2048 ((s.ink cl).readNat c.srcA 256)
      let bad := causesOf [(!Chain.familyOk r, .paramUnsupported), (!Chain.recOk r (s.brEnv a), .malformed)]
      if bad.isEmpty then
        (s.updEng cl fun e => { e with chains := e.chains.set c.chain r }).issue cl 3 a (s.workOf b a .plain [])
      else (s.updEng cl fun e => { e with chains := e.chains.erase c.chain }).refuse cl 3 b a bad

/-- The oldest drained tile that waits is taken by its Brush chain (R189): the half is free again, and an empty or ciphertext entry, or an
origin or record that fails, ends the command with its cause. -/
def State.epilogue (s : State) (cl : Fin 64) : State :=
  let n := s.nib cl
  match n.tiles with
  | [] => s
  | (i, bits, tile, ovf) :: rest =>
    match s.work? cl 0 i with
    | none => s.setNib cl { n with tiles := rest }
    | some w =>
      match s.adm w.b.run with
      | none => s
      | some a =>
        if !s.inService cl || s.unitOut 4 cl then s
        else
          let s := s.setNib cl { n with tiles := rest }
          let c := NibCmd.of bits
          let v : Chain.Inv := ⟨c.addr, 8 * c.stride, c.m, c.n⟩
          match s.clusters[cl].eng.chains.find c.handle with
          | none => s.addCause cl 0 i .malformed
          | some r =>
            let ok := !Chain.isCt r && v.originOk r && v.rangeOk r (fmtBits (Chain.outFmt r))
            let causes := causesOf [(!ok, .malformed), (ok && !v.shapeOk r, .shapeMismatch), (Chain.sends r && s.shed ≥ 5, .shed)] ++
              (if ok && Chain.sends r then (s.sendParts cl w.b.run r v).1 else [])
            if !causes.isEmpty then s.updWork cl 0 i fun w => { w with causes := w.causes ++ causes }
            else
              let e := s.brEnv a
              let (t, ev) := Chain.drainedTile e.num r tile
              let o := Chain.runClear e r v (s.ink cl) t ovf
              let o := { o with ev := ev.add o.ev }
              let parts := if Chain.sends r then (s.sendParts cl w.b.run r v).2 else []
              let s := ((s.setInk cl o.ink).brTally cl a w.b.run (chainResults r v) o.ev.sat).tallyCl 0x402 cl (some w.b.run.ctx.val) a.runs
              let s := s.addSends cl w.b.run v parts
              s.drawn.updWork cl 0 i fun w => { w with ev := w.ev.add o.ev, layer := Chain.layer r, dests := invDests cl r v (fmtBits (Chain.outFmt r)) }

def execBrMap (cl : Fin 64) (s : State) : Out := .next (s.work fun s => s.brHead cl 0x50 fun c e _ m => c.runMap e m)
def execBrBin (cl : Fin 64) (s : State) : Out := .next (s.work fun s => s.brHead cl 0x51 fun c e _ m => c.runBin e m)
def execBrCmp (cl : Fin 64) (s : State) : Out := .next (s.work fun s => s.brHead cl 0x52 fun c e _ m => c.runCmp e m)
def execBrSel (cl : Fin 64) (s : State) : Out := .next (s.work fun s => s.brHead cl 0x53 fun c e _ m => c.runSel e m)
def execBrRed (cl : Fin 64) (s : State) : Out := .next (s.work fun s => s.brHead cl 0x54 fun c e _ m => c.runRed e m)
def execBrSmax (cl : Fin 64) (s : State) : Out := .next (s.work fun s => s.brHead cl 0x55 fun c e _ m => c.runSmax e m)
def execBrSmaxTail (cl : Fin 64) (s : State) : Out := .next (s.work fun s => s.brHead cl 0x56 fun c e _ m => c.runTail e m)
def execBrPairupd (cl : Fin 64) (s : State) : Out := .next (s.work fun s => s.brHead cl 0x57 fun c e _ m => c.runPairupd e m)
def execBrRun (cl : Fin 64) (s : State) : Out := .next (s.work fun s => s.brHead cl 0x58 fun c e r m => c.runChain e r m)
def execBrChainLoad (cl : Fin 64) (s : State) : Out := .next (s.work fun s => s.brChainLoad cl)
def execEpilogueInvoke (cl : Fin 64) (s : State) : Out := .next (s.work fun s => s.epilogue cl)
def execBrCadd (cl : Fin 64) (s : State) : Out := .next (s.work fun s => s.brCt cl 0x60)
def execBrCsub (cl : Fin 64) (s : State) : Out := .next (s.work fun s => s.brCt cl 0x61)
def execBrCneg (cl : Fin 64) (s : State) : Out := .next (s.work fun s => s.brCt cl 0x62)
def execBrPadd (cl : Fin 64) (s : State) : Out := .next (s.work fun s => s.brCt cl 0x63)
def execBrSmul (cl : Fin 64) (s : State) : Out := .next (s.work fun s => s.brCt cl 0x64)
def execBrMsw (cl : Fin 64) (s : State) : Out := .next (s.work fun s => s.brCt cl 0x65)

end Sys2Proof.Machine
end

