-- ==== Sys2Proof/Machine/Mover.lean ====
section
/-! DEFINITION. The data mover (R235 to R250, R315): issue checks, the cutting of runs into transfers, their issue and end, remote
service (R244). An Inkwell or host source is read when the transfer issues, a remote one when its cluster serves it, and module memory, read or written, as the
channels serve the transfer's requests (R261). -/

namespace Sys2Proof.Machine

/-- The fields of a data-mover body (Tables 9-3, 12-8). -/
structure DmCmd where
  opcode : Nat
  src : Nat
  dst : Nat
  aux : Nat
  ss1 : Nat
  ss2 : Nat
  ds1 : Nat
  ds2 : Nat
  len : Nat
  cnt1 : Nat
  cnt2 : Nat
  srcSp : Nat
  dstSp : Nat
  rcl : Nat
  fmt : Nat
  cls : Nat
  layer : Nat
  low : Nat
  port : Nat
  flagValid : Bool
  rflag : Nat

def DmCmd.of (b : BitVec 512) : DmCmd where
  opcode := fld b 7 0
  src := fld b 479 416
  dst := fld b 415 352
  aux := fld b 351 288
  ss1 := fld b 287 256
  ss2 := fld b 255 224
  ds1 := fld b 223 192
  ds2 := fld b 191 160
  len := fld b 159 140
  cnt1 := fld b 139 124
  cnt2 := fld b 123 108
  srcSp := fld b 107 105
  dstSp := fld b 104 102
  rcl := fld b 101 96
  fmt := fld b 95 91
  cls := fld b 90 90
  layer := fld b 89 82
  low := fld b 81 8
  port := fld b 81 81
  flagValid := fld b 80 80 == 1
  rflag := fld b 79 68

namespace DmCmd

/-- Source and destination spaces of Table 9-5, and R315's. -/
def spacesOk (c : DmCmd) : Bool := match c.opcode with
  | 0x80 => c.srcSp ≤ 3 && c.dstSp ≤ 4
  | 0x81 => c.srcSp ≤ 3 && c.dstSp ≤ 1
  | 0x82 => c.srcSp ≤ 3 && (c.dstSp == 0 || c.dstSp == 4)
  | 0x83 => c.srcSp ≤ 1 && c.dstSp == 0
  | 0x84 => c.srcSp == 0 && c.dstSp == 0
  | 0x85 => c.srcSp == 0 && c.dstSp == 0
  | 0x88 => c.srcSp ≤ 1 && c.dstSp == 1
  | _ => false

def isRemote (c : DmCmd) : Bool := c.srcSp == 3 || c.dstSp == 3

/-- Element formats of DM_XPOSE (R239). -/
def xposeFmt (f : Nat) : Bool := [6, 7, 8, 9, 0x0A, 0x0B, 0x0C, 0x0D, 0x0E, 0x0F, 0x10, 0x11].contains f
/-- Formats of DM_SCATTER_ADD (R241). -/
def scatterFmt (f : Nat) : Bool := f == 0x0B || f == 0x10 || f == 0x0F || f == 0x0C

/-- Rows and columns of DM_XPOSE. -/
def xh (c : DmCmd) : Nat := c.cnt1
def xc (c : DmCmd) : Nat := 8 * c.len / fmtBits c.fmt

/-- Last byte and one of a set of runs. -/
def reach (base s1 n1 s2 n2 len : Nat) : Nat := base + (n1 - 1) * s1 + (n2 - 1) * s2 + len

def indices (c : DmCmd) (ink : Memory) : List Nat := (upTo c.cnt1).map fun i => ink.readNat (c.aux + 4 * i) 4

/-- First byte and one past the last byte that the command touches at its source and at its destination. -/
def srcRange (c : DmCmd) (idx : List Nat) : Nat × Nat := match c.opcode with
  | 0x82 => (c.src + c.ss1 * idx.foldl min (idx.headD 0), c.src + c.ss1 * idx.foldl max 0 + c.len)
  | 0x83 => (c.src, reach c.src c.ss1 c.cnt1 0 1 c.len)
  | _ => (c.src, reach c.src c.ss1 c.cnt1 c.ss2 c.cnt2 c.len)
def dstRange (c : DmCmd) (idx : List Nat) : Nat × Nat := match c.opcode with
  | 0x81 => (c.dst, reach c.dst c.ds1 c.xc c.ds2 c.cnt2 (divUp (c.xh * fmtBits c.fmt) 8))
  | 0x82 => (c.dst, reach c.dst c.ds1 c.cnt1 0 1 c.len)
  | 0x83 => (c.dst + c.ds1 * idx.foldl min (idx.headD 0), c.dst + c.ds1 * idx.foldl max 0 + c.len)
  | _ => (c.dst, reach c.dst c.ds1 c.cnt1 c.ds2 c.cnt2 c.len)

/-- Fields: ranges, alignment, and 0 where the opcode does not use them (R8). -/
def fieldsOk (c : DmCmd) : Bool :=
  let zero (l : List Nat) : Bool := l.all (· == 0)
  c.spacesOk && (c.opcode = 0x88 || c.low == 0) && (c.isRemote || c.rcl == 0) && c.src % 8 = 0 && c.dst % 8 = 0 && c.len % 8 = 0 && 8 ≤ c.len &&
  1 ≤ c.cnt1 && 1 ≤ c.cnt2 && match c.opcode with
  | 0x80 | 0x85 => zero [c.aux, c.fmt, c.layer] && (c.opcode = 0x80 || c.cls == 0)
  | 0x81 => zero [c.aux, c.layer] && xposeFmt c.fmt
  | 0x82 => zero [c.ds2, c.fmt, c.layer] && c.cnt2 == 1 && c.aux % 4 = 0
  | 0x83 => zero [c.ss2] && c.cnt2 == 1 && c.aux % 4 = 0 && scatterFmt c.fmt
  | 0x84 => zero [c.src, c.ss1, c.ss2, c.fmt, c.layer, c.cls]
  | 0x88 => zero [c.aux, c.fmt, c.layer] && c.low / 2 ^ 58 % 4 = 0 && c.low % 2 ^ 58 = 0 && (c.flagValid || c.rflag == 0)
  | _ => false

end DmCmd

def disjoint (a b : Nat × Nat) : Bool := a.2 ≤ b.1 || b.2 ≤ a.1

/-- The clusters that a destination names: the remote one, or the QRUN's set. -/
def Run.targets (r : Run) (c : DmCmd) : List (Fin 64) :=
  (if c.isRemote then (match r.list[c.rcl]? with
    | some t => [t]
    | none => []) else []) ++ (if c.dstSp = 4 then r.set else [])

/-- The runs of a command: number, source address, destination address. -/
def DmCmd.runs (c : DmCmd) (ink : Memory) : List (Nat × Nat × Nat) := match c.opcode with
  | 0x82 => ((c.indices ink).zipIdx).map fun (x, i) => (i, c.src + x * c.ss1, c.dst + i * c.ds1)
  | 0x83 => ((c.indices ink).zipIdx).map fun (x, i) => (i, c.src + i * c.ss1, c.dst + x * c.ds1)
  | _ => (upTo c.cnt2).flatMap fun i2 => (upTo c.cnt1).map fun i1 =>
      (c.cnt1 * i2 + i1, c.src + i1 * c.ss1 + i2 * c.ss2, c.dst + i1 * c.ds1 + i2 * c.ds2)

/-- The ranges of module memory that the runs of a command read and write. -/
def DmCmd.modRuns (c : DmCmd) (ink : Memory) : List (Nat × Nat) :=
  (if c.opcode != 0x84 && c.srcSp = 1 then (c.runs ink).map fun x => (x.2.1, c.len) else []) ++
  if c.opcode = 0x88 || c.dstSp != 1 then []
  else if c.opcode = 0x81 then
    (upTo c.cnt2).flatMap fun i2 => (upTo c.xc).map fun x => (c.dst + i2 * c.ds2 + x * c.ds1, divUp (c.xh * fmtBits c.fmt) 8)
  else (c.runs ink).map fun x => (x.2.2, c.len)

/-- Issue causes of a data-mover command (Table 9-9, Table 12-11). -/
def State.dmCauses (s : State) (cl : Fin 64) (c : DmCmd) (b : Body) (a : Adm) (r : Run) (x : Ctx) : List Status :=
  let idx := if c.opcode = 0x82 ∨ c.opcode = 0x83 then c.indices (s.ink cl) else []
  let table := idx.isEmpty || c.aux + 4 * c.cnt1 ≤ inkBytes
  let src := c.srcRange idx
  let dst := c.dstRange idx
  -- a space that is the issuing cluster's Inkwell, under either name
  let own (sp : Nat) : Bool := sp == 0 || (sp == 3 && r.list[c.rcl]? == some cl)
  let inkS := c.opcode != 0x84 && (c.srcSp == 0 || c.srcSp == 3)
  let inkD := c.opcode != 0x88 && (c.dstSp == 0 || c.dstSp == 3 || c.dstSp == 4)
  let bad := !c.fieldsOk || !table || (inkS && src.2 > inkBytes) || (inkD && dst.2 > inkBytes) ||
    (c.opcode != 0x84 && own c.srcSp && (own c.dstSp || c.dstSp == 4) && c.opcode != 0x88 && !disjoint src dst) ||
    (c.opcode = 0x82 && idx.any fun i => i ≥ c.ss2) || (c.opcode = 0x83 && idx.any fun i => i ≥ c.ds2)
  let mods := (if c.opcode != 0x84 && c.srcSp == 1 then [src] else []) ++ (if c.opcode != 0x88 && c.dstSp == 1 then [dst] else [])
  -- its runs in module memory: one that touches no line of a fenced stack goes on (R265)
  let touched := if s.hub.fenceCh = 0 then [] else c.modRuns (s.ink cl)
  causesOf [(bad, .malformed), (!(match c.opcode, a.cls with
      | 0x83, .clear => c.fmt != 0x0C
      | 0x83, k => c.fmt == 0x0C && (k == .encNative || k == .encJasil || k == .gate)
      | _, k => k == .clear || k == .encNative || k == .encJasil || k == .gate), .paramUnsupported),
    (c.opcode = 0x81 && (c.xh % 64 != 0 || c.xc % 64 != 0), .shapeMismatch),
    (c.opcode = 0x83 && 8 * c.len % fmtBits c.fmt != 0, .shapeMismatch),
    (mods.any fun p => !x.inWindow p.1 (p.2 - p.1), .permission), (touched.any fun p => s.memFenced p.1 p.2, .unitFenced),
    (c.isRemote && c.rcl ≥ s.perPart, .permission),
    (c.isRemote && c.rcl < s.perPart && c.rcl ≥ r.list.length, .unitFenced), ((r.targets c).any fun t => s.clFenced t, .unitFenced),
    (s.shed ≥ 5, .shed)] ++
  if c.opcode = 0x88 then
    causesOf [(s.portFenced c.port, .unitFenced), (match s.binding b.run.ctx c.port with
      | none => true
      | some k => dst.2 > k.window * 2 ^ 21, .permission)]
  else []

/-- Source and destination lie in module memory, or in host memory, and their ranges overlap: the destination is undefined (R245). -/
def DmCmd.overlaps (c : DmCmd) (ink : Memory) : Bool :=
  let idx := if c.opcode = 0x82 ∨ c.opcode = 0x83 then c.indices ink else []
  c.srcSp = c.dstSp && (c.srcSp = 1 || c.srcSp = 2) && c.opcode != 0x84 && c.opcode != 0x88 && !disjoint (c.srcRange idx) (c.dstRange idx)

/-! ### Runs and transfers -/

/-- Where a command's address of a space lies. -/
def srcPlace (cl : Fin 64) (sp : HostSpace) (r : Run) (c : DmCmd) (a : Nat) : Place := match c.srcSp with
  | 0 => inkPlace cl a
  | 1 => modPlace a
  | 2 => hostPlace sp a
  | _ => inkPlace (r.list.getD c.rcl 0) a

/-- Where a run goes: every place of its destination, and the ends among them in other clusters (R244). -/
def dstPlaces (cl : Fin 64) (sp : HostSpace) (r : Run) (c : DmCmd) (a : Nat) : List Place × List (Fin 64) :=
  if c.opcode = 0x88 then ([peerPlace c.port a], [])
  else match c.dstSp with
  | 0 => ([inkPlace cl a], [])
  | 1 => ([modPlace a], [])
  | 2 => ([hostPlace sp a], [])
  | 3 => ([inkPlace (r.list.getD c.rcl 0) a], [r.list.getD c.rcl 0].filter (· != cl))
  | _ => (r.set.map fun k => inkPlace k a, r.set.filter (· != cl))

/-- The address at whose 4,096 B boundaries a run is cut (R238). -/
def DmCmd.cutAddr (c : DmCmd) (src dst : Nat) : Nat :=
  if c.opcode = 0x84 then dst
  else if c.srcSp = 1 || c.srcSp = 2 then src
  else if c.opcode = 0x88 || c.dstSp = 1 || c.dstSp = 2 then (if c.opcode = 0x81 then src else dst)
  else src

/-- The transfers of a command from a row on. A transposition names no destination: its elements are placed when the transfer ends. -/
def DmCmd.xfers (c : DmCmd) (cl : Fin 64) (sp : HostSpace) (r : Run) (b : Body) (ink : Memory) : List Xfer :=
  let from_ := if c.opcode = 0x83 then b.row else 0
  ((c.runs ink).filter fun x => x.1 ≥ from_).flatMap fun (n, sa, da) => (cutRun (c.cutAddr sa da) c.len).map fun (off, k) =>
    let (dst, rem) := if c.opcode = 0x81 then (([] : List Place), ([] : List (Fin 64))) else dstPlaces cl sp r c (da + off)
    { owner := some b.no, run := b.run, row := n, off
      src := if c.opcode = 0x84 then none else some (srcPlace cl sp r c (sa + off))
      dst, len := k
      turned := if c.opcode = 0x81 then some {
          mod := c.dstSp = 1, base := c.dst + n / c.cnt1 * c.ds2, step := c.ds1, bit := n % c.cnt1 * fmtBits c.fmt, width := fmtBits c.fmt, count := c.xc } else none
      data := if c.opcode = 0x84 then (upTo k).map fun i => BitVec.ofNat 8 (c.aux / 2 ^ (8 * ((off + i) % 8)) % 256) else []
      remote := (if c.srcSp = 3 && c.opcode != 0x84 then [r.list.getD c.rcl 0].filter (· != cl) else []) ++ rem }

/-- What a command writes, for Table 0-4. -/
def DmCmd.dests (c : DmCmd) (cl : Fin 64) (sp : HostSpace) (r : Run) (ink : Memory) : List Dest :=
  let one (p : Place) (n : Nat) : List Dest :=
    if p.space = 3 then [] else [{ space := if p.space = 2 then 2 + p.id else p.space, cl := p.id, addr := p.addr, len := n }]
  if c.opcode = 0x81 then
    (upTo c.cnt2).flatMap fun i2 => (upTo c.xc).flatMap fun x =>
      ((dstPlaces cl sp r c (c.dst + i2 * c.ds2 + x * c.ds1)).1).flatMap fun p => one p (divUp (c.xh * fmtBits c.fmt) 8)
  else (c.runs ink).flatMap fun (_, _, da) => ((dstPlaces cl sp r c da).1).flatMap fun p => one p c.len

/-- A data-mover command at the head of its queue: refused, or its transfers listed. A DM_SCATTER_ADD that runs again keeps what it has
added (Table 9-8). -/
def State.dmHead (s : State) (cl : Fin 64) (op : Nat) : State :=
  match s.headOp cl 4 op with
  | none => s
  | some (b, a) =>
    match s.run b.run, s.ctxs.find b.run.ctx with
    | some r, some x =>
      let c := DmCmd.of b.bits
      let causes := s.dmCauses cl c b a r x
      if !causes.isEmpty then s.refuse cl 4 b a causes
      else
        let sp := s.spaceOf b.run.ctx
        let dests := c.dests cl sp r (s.ink cl)
        s.issue cl 4 a { s.workOf b a (.mover (c.xfers cl sp r b (s.ink cl))) [] with
          dests, region := if c.overlaps (s.ink cl) then dests else [], layer := c.layer, ev := b.ev }
    | _, _ => s

/-! ### Transfers -/

/-- The elements of a transfer of DM_XPOSE, placed. -/
def Xfer.turn (x : Xfer) (t : Turned) (m : Memory) : Memory :=
  let src : Memory := Memory.write ([] : Memory) 0 x.data
  (x.pieces t).foldl (fun (m : Memory) (p : Nat × Nat × Nat × Nat) => setBits m p.1 p.2.1 p.2.2.1 (getBits src 0 p.2.2.2 p.2.2.1)) m

def State.readPlace (s : State) (p : Place) (n : Nat) : List Byte := match p.space with
  | 0 => (s.ink (Fin.ofNat 64 p.id)).read p.addr n
  | 1 => s.mem.read p.addr n
  | _ => (s.host.get [] p.id).read p.addr n

def State.writePlace (s : State) (p : Place) (bs : List Byte) : State := match p.space with
  | 0 => s.updCl (Fin.ofNat 64 p.id) fun c => { c with ink := c.ink.write p.addr bs }
  | 1 => s.memWrite p.addr bs
  | 2 => { s with host := s.host.updD [] p.id fun m => m.write p.addr bs }
  | _ => s

/-- The host end of a transfer has its translation. -/
def State.placeReady (s : State) (sp : HostSpace) (p : Place) (n : Nat) (write : Bool) : Bool := p.space != 2 || s.xlOk sp p.addr n write

/-- The first of a list of works with a transfer to issue (R245). -/
def nextTodo : List Work → Option (Work × Xfer × List Xfer)
  | [] => none
  | w :: r => if w.done || !w.causes.isEmpty then nextTodo r
    else match w.kind with
      | .mover (x :: rest) => some (w, x, rest)
      | _ => nextTodo r

/-- The class of a command's requests; a SEND part's is BULK (R259, R317). -/
def xferClass (c : Option DmCmd) : MemClass := requestClass ((c.map (·.cls)).getD 0) (.mover 0 0)

/-- The command of a transfer. -/
def State.xferCmd (s : State) (cl : Fin 64) (x : Xfer) : Option DmCmd := (x.owner.bind fun i => s.work? cl 4 i).map fun w => DmCmd.of w.b.bits

def State.updXfer (s : State) (cl : Fin 64) (no : Nat) (f : Xfer → Xfer) : State :=
  s.updEng cl fun e => { e with xfers := e.xfers.map fun x => if x.no = no then f x else x }

/-- A transfer's bytes have all been read: its writes to module memory go to the channels. -/
def State.launch (s : State) (cl : Fin 64) (x : Xfer) : State :=
  x.modPuts.foldl (fun (s : State) r => s.post (.xfer cl x.no) (xferClass (s.xferCmd cl x)) true r.1 r.2) (s.updXfer cl x.no fun x => { x with loaded := true })

/-- The source of a transfer lies in another cluster's Inkwell. -/
def Xfer.farSource (x : Xfer) (cl : Fin 64) : Bool := match x.src with
  | some p => p.space == 0 && p.id != cl.val
  | none => false

/-- A transfer begins: an Inkwell or host source is read at once, a module source as the channels serve it (R261), a remote one as its cluster
serves it. -/
def State.beginXfer (s : State) (cl : Fin 64) (x : Xfer) : State :=
  let no := s.clusters[cl].eng.nextXfer
  let mod := (x.src.map (·.space == 1)).getD false
  let x := { x with no, data := match x.src with
    | some p => if mod then List.replicate x.len 0 else if x.farSource cl then [] else s.readPlace p x.len
    | none => x.data }
  let s := s.updEng cl fun e => { e with nextXfer := no + 1, xfers := e.xfers ++ [x] }
  let s := (s.tallyCl 0x500 cl (some x.run.ctx.val)).tallyCl 0x501 cl (some x.run.ctx.val) x.len
  match x.src with
  | some p => if mod then s.post (.xfer cl no) (xferClass (s.xferCmd cl x)) false p.addr x.len else if x.farSource cl then s else s.launch cl x
  | none => s.launch cl x

/-- What a read of a transfer brings from a channel: the bytes that stand there as it is served. -/
def Xfer.take (x : Xfer) (ch : Fin 160) (m : Memory) : Xfer := match x.src with
  | some p => { x with data := (x.data.zipIdx).map fun (b, k) => if inChan ch (p.addr + k) then m.get (p.addr + k) else b }
  | none => x

/-- A word of a write that failed SECDED at a channel's encoder (R257): the record names the channel. -/
def State.wordFault (s : State) (ch : Fin 160) (w : Nat) (o : FaultOf) : State := s.dataFault (unitNo 10 ch) 0x09 { o with addr := 8 * w }

/-- A channel has served a request of a transfer: a read's bytes are taken, and with the last of them the transfer's writes begin; a write's part stands, but
for the words that failed SECDED, which fail its command, or its QRUN for a SEND part (R257). -/
def State.xferServed (s : State) (ch : Fin 160) (q : MemReq) (cl : Fin 64) (no : Nat) (bad : List Nat) : State :=
  match s.clusters[cl].eng.xfers.find? (·.no == no) with
  | none => s
  | some x =>
    if !q.write then
      let x := x.take ch s.mem
      let s := s.updXfer cl no fun _ => x
      if s.memWaits (.xfer cl no) then s else s.launch cl x
    else
      let new := match x.turned with
        | some t => x.turn t s.mem
        | none => s.mem.write q.addr x.data
      let s := s.putPart ch q.addr q.len bad new
      let own := (x.owner.bind fun i => s.work? cl 4 i)
      let o : FaultOf := match own with
        | some w => w.fault cl 4 .faultDetected 0 0
        | none => { run := some x.run, ctx := x.run.ctx, status := .faultDetected }
      let s := bad.foldl (fun (s : State) k => s.wordFault ch k o) s
      if bad.isEmpty then s
      else match own with
        | some w => s.addCause cl 4 w.b.no .faultDetected
        | none => s.failRun x.run .faultDetected 0

/-- A SEND part that addresses a fenced stack fails its QRUN with UNIT_FENCED as it would issue (R265). -/
def State.sendIssue (s : State) (cl : Fin 64) (x : Xfer) (rest : List Xfer) : State :=
  let s := s.updEng cl fun e => { e with sends := rest }
  if x.dst.any fun p => p.space == 1 && s.memFenced p.addr x.len then s.failRun x.run .unitFenced 0 else s.beginXfer cl x

/-- A bridge that a transfer crosses, or a channel's stack that it reaches, is out of service for a test (R369, R378). -/
def State.pathOut (s : State) (cl : Fin 64) (x : Xfer) : Bool :=
  ((upTo 10).any fun i => s.unitOut 11 i && x.crosses cl i) || (x.src.toList ++ x.dst).any fun p => p.space == 0 && s.bankOut p.id

/-- The next transfer issues, SEND parts first (R317), at most 256 outstanding (R238); a host end waits for its translation, and the mover
issues nothing while its context is parked on the cluster (Table 9-8). -/
def State.dmTransferIssue (s : State) (cl : Fin 64) : State :=
  let e := s.clusters[cl].eng
  if !s.inService cl || s.unitOut 7 cl || s.bankOut cl || s.shed ≥ 5 || e.xfers.length ≥ 256 || (match s.clusters[cl].ctx with
    | some cx => s.clParked cx cl
    | none => false) then s
  else match e.sends with
    | x :: rest => if s.pathOut cl x then s else s.sendIssue cl x rest
    | [] => match nextTodo e.queues[4].works with
      | none => s
      | some (w, x, rest) =>
        let sp := s.spaceOf w.b.run.ctx
        let who : XlWho := .work w.b.run.ctx (.body cl 4 w.b.no)
        let src := match x.src with
          | some p => s.placeReady sp p x.len false
          | none => true
        if s.pathOut cl x then s
        else if !src then (match x.src with
          | some p => s.ask who sp p.addr x.len false
          | none => s)
        else match (x.dst.find? fun p => !s.placeReady sp p x.len true) with
          | some p => s.ask who sp p.addr x.len true
          | none => (s.updWork cl 4 w.b.no fun w => { w with kind := .mover rest }).beginXfer cl x

/-- One added element of DM_SCATTER_ADD (R241): the new code and what it counts. -/
def scatterElem (n : NumEnv) (cls : QClass) (fmt : Nat) (m : Memory) (a : Nat) (sc : Nat) : Nat × Events :=
  let d := m.readNat a (fmtBits fmt / 8)
  match fmt with
  | 0x0B =>
    let (x, e1) := readVal n 0x0B d
    let (y, e2) := readVal n 0x0B sc
    let r := convFloat n .rne fpFP32 true (x.add y)
    (r.code, (e1.add e2).add r.ev)
  | 0x10 =>
    let (x, e1) := pairOf n 0x10 d
    let (y, e2) := pairOf n 0x10 sc
    let (p, e3) := Pair.addN n x y
    let r := Pair.code n p
    (r.code, ((e1.add e2).add e3).add r.ev)
  | 0x0F =>
    let r := convInt .rne 32 (-(2 ^ 31 : Nat)) ((2 ^ 31 : Nat) - 1) (.ofInt (signedOf 32 d + signedOf 32 sc))
    (r.code, r.ev)
  | _ => (if cls == .encJasil then (d + sc) % 2 ^ 64 else (d % q64 + sc % q64) % q64, {})

/-- Elements added to their destination row from an address on. -/
def scatterAdd (n : NumEnv) (cls : QClass) (fmt : Nat) (a : Nat) (data : List Byte) (m : Memory) : Memory × Events :=
  let w := fmtBits fmt / 8
  (upTo (data.length / w)).foldl (fun (p : Memory × Events) k =>
    let (v, e) := scatterElem n cls fmt p.1 (a + w * k) (leNat ((data.drop (w * k)).take w))
    (p.1.writeNat (a + w * k) w v, p.2.add e)) (m, {})

/-- The bytes of a transfer stand at its ends in this cluster's Inkwell and in host memory, and leave for a peer; `cmd` is its command. -/
def State.xferEnds (s : State) (cl : Fin 64) (x : Xfer) (cmd : Option (Work × DmCmd)) : State :=
  x.dst.foldl (fun (s : State) (p : Place) => match p.space with
    | 0 => if p.id = cl.val then s.writePlace p x.data else s
    | 1 => s
    | 2 => s.writePlace p x.data
    | _ => match s.binding x.run.ctx p.id with
      | some k =>
        let flag := cmd.bind fun ((w : Work), (c : DmCmd)) =>
          let last := (match w.kind with
            | .mover l => l.isEmpty
            | _ => true) && !s.clusters[cl].eng.xfers.any (·.owner == some w.b.no)
          if c.flagValid && last then some (BitVec.ofNat 12 c.rflag) else none
        s.send (.peerWrite (Fin.ofNat 2 p.id) k.remote p.addr x.data flag)
      | none => s) s

/-- A transfer has ended: its bytes stand at its destinations, those in module memory and in other clusters as they were served; a peer's leave as a frame, and
the last frame of a command names its flag (R315). Of a row of DM_SCATTER_ADD, an element that a cut splits waits for its second part. -/
def State.endXfer (s : State) (cl : Fin 64) (x : Xfer) : State :=
  let s := (s.updEng cl fun e => { e with xfers := e.xfers.filter (·.no != x.no) }).ackInvals
  let own := x.owner.bind fun i => s.work? cl 4 i
  match x.turned, own, (own.bind fun w => s.adm w.b.run) with
  | some t, _, _ => if t.mod then s else s.setInk cl (x.turn t (s.ink cl))
  | none, some w, some a =>
    let c := DmCmd.of w.b.bits
    if c.opcode = 0x83 then
      let data := w.carry ++ x.data
      let whole := data.length / (fmtBits c.fmt / 8) * (fmtBits c.fmt / 8)
      let da := (x.dst.head?.map (·.addr)).getD 0 - w.carry.length
      let (m, ev) := scatterAdd (s.num a) a.cls c.fmt da data (s.ink cl)
      let row := if x.off + x.len = c.len then x.row + 1 else x.row
      (s.setInk cl m).updWork cl 4 w.b.no fun w => { w with b := { w.b with row }, ev := w.ev.add ev, carry := data.drop whole }
    else s.xferEnds cl x (some (w, c))
  | none, _, _ => s.xferEnds cl x none

/-- An outstanding transfer that goes first: one of DM_SCATTER_ADD, or one to a peer port, ends in the order of its command or QRUN. -/
def Xfer.before (x y : Xfer) : Bool := x.owner == y.owner && x.run == y.run

/-- A check that a transfer can fail: the CRC-32 of a remote or SET transfer, the residue of an addition of DM_SCATTER_ADD, SECDED on its words (R248). -/
def Xfer.mayFail (x : Xfer) (cl : Fin 64) (c : Option DmCmd) (f : CheckFail) : Bool := match f.mech.toNat with
  | 0x0B => x.farSource cl || x.dst.any (fun p => p.space == 0 && p.id != cl.val) || (c.map (·.dstSp == 4)).getD false
  | 0x06 => (c.map (·.opcode == 0x83)).getD false
  | 0x09 => true
  | _ => false

/-- A transfer is no longer outstanding once the channels have served its requests and its remote ends have been served; those of
DM_SCATTER_ADD, and those to a peer, end in order. A check of it that fails ends its command, or its QRUN for a SEND part, with FAULT_DETECTED and
withholds it (R248, R368). -/
def State.dmTransferDone (s : State) (cl : Fin 64) (i : Nat) (fail : List CheckFail) : State :=
  let e := s.clusters[cl].eng
  match e.xfers.find? (·.no == i) with
  | none => s
  | some x =>
    let own := x.owner.bind fun j => s.work? cl 4 j
    if !fail.all (x.mayFail cl (s.xferCmd cl x)) then s
    else if !fail.isEmpty then
      let s := s.dropXfers cl (·.no == i)
      match own with
      | some w => (s.addCause cl 4 w.b.no .faultDetected).checkFails cl 4 0 w fail
      | none =>
        let s := fail.foldl (fun (s : State) f => s.checkFault (checkUnit cl 4 0 f.mech.toNat f.addr.toNat f.part) f.mech.toNat
          { run := some x.run, ctx := x.run.ctx, status := .faultDetected, addr := f.addr.toNat, detail := f.detail.toNat, place := some (cl.val, 4) }) s
        s.failRun x.run .faultDetected 0
    else
      let ordered := (own.map fun w => fld w.b.bits 7 0 == 0x83).getD false || x.dst.any (·.space == 3)
      let first := !ordered || (e.xfers.find? fun y => x.before y && (y.dst.any (·.space == 3) || own.isSome)).map (·.no) == some i
      if x.loaded && x.remote.isEmpty && first && !s.memWaits (.xfer cl i) then (s.endXfer cl x).finishRun x.run else s

/-- A remote end of a transfer is served at its target, while the target runs the issuing context (R244): a source gives its bytes, a
destination takes them. -/
def State.remoteServe (s : State) (target cl : Fin 64) (i : Nat) : State :=
  match s.clusters[cl].eng.xfers.find? (·.no == i) with
  | none => s
  | some x =>
    if !x.remote.contains target || s.clusters[target].ctx != some x.run.ctx || s.clFenced target || s.unitOut 7 target || s.bankOut target then s
    else
      let upd (f : Xfer → Xfer) (s : State) : State := s.updXfer cl i fun y => { f y with remote := y.remote.erase target }
      match x.src with
      | some p => if !x.loaded && x.farSource cl && p.id = target.val then
            let x := { x with data := s.readPlace p x.len }
            (upd (fun y => { y with data := x.data }) s).launch cl x
          else if !x.loaded then s
          else upd id (x.dst.foldl (fun s p => if p.space = 0 && p.id = target.val then s.writePlace p x.data else s) s)
      | none => upd id (x.dst.foldl (fun s p => if p.space = 0 && p.id = target.val then s.writePlace p x.data else s) s)

/-! ### Commands that stop and run again (Table 9-8) -/

/-- A data-mover command stops and returns to the head of its queue: DM_SCATTER_ADD completes the row in progress and goes on with the next
one, with what it has counted; the others begin again. -/
def State.moverRerun (s : State) (cl : Fin 64) (w : Work) : State :=
  let mine := s.clusters[cl].eng.xfers.filter (·.owner == some w.b.no)
  if fld w.b.bits 7 0 = 0x83 then
    let todo : List Xfer := match w.kind with
      | .mover l => l
      | _ => []
    let rest : List Xfer := match todo with
      | x :: _ => if x.off > 0 then todo.takeWhile (fun (y : Xfer) => y.row == x.row) else []
      | [] => []
    let force (s : State) (x : Xfer) : State :=
      let x := if x.loaded then x else { x with data := (x.src.map fun p => s.readPlace p x.len).getD x.data }
      (s.unpost fun o => o == MemWho.xfer cl x.no).endXfer cl x
    let s := mine.foldl force s
    let s := rest.foldl (fun (s : State) x =>
      let s := s.beginXfer cl x
      match s.clusters[cl].eng.xfers.getLast? with
      | some y => force s y
      | none => s) s
    match s.work? cl 4 w.b.no with
    | some w => s.rerun cl 4 { w with dests := [], b := { w.b with ev := w.ev, left := w.dests } }
    | none => s
  else (s.dropXfers cl fun x => x.owner == some w.b.no).rerun cl 4 w

/-- Every running command of a data mover stops, newest first; one whose transfers have all ended, or that a cause has ended, is left to end. -/
def State.stopMover (s : State) (cl : Fin 64) : State :=
  ((s.queue cl 4).works.reverse).foldl (fun (s : State) (w : Work) =>
    let busy : Bool := (match w.kind with
      | .mover todo => !todo.isEmpty
      | _ => false) || s.clusters[cl].eng.xfers.any (fun x => x.owner == some w.b.no)
    if w.done || !w.causes.isEmpty || !busy then s else s.moverRerun cl w) s

/-- A Nib's running loads are discarded, newest first: their slots turn invalid, and they run again (R123); with them, at a context switch, the
key switch at its block boundary (R124). -/
def State.stopNib (s : State) (cl : Fin 64) (ksw : Bool) : State :=
  ((s.queue cl 0).works.reverse).foldl (fun (s : State) (w : Work) =>
    if w.done || !w.causes.isEmpty then s
    else match w.kind with
      | .load =>
        let c := NibCmd.of w.b.bits
        let s := s.setNib cl ((s.nib cl).setTags c.slotA ((c.loadTags SlotTag.valid).map fun _ => (0 : SlotTag)))
        (s.rerun cl 0 w).tallyCl 0x204 cl (some w.b.run.ctx.val)
      | .ksw k => if ksw && !k.ended then s.rerun cl 0 w else s
      | _ => s) s

def execDmCopy (cl : Fin 64) (s : State) : Out := .next (s.work fun s => s.dmHead cl 0x80)
def execDmXpose (cl : Fin 64) (s : State) : Out := .next (s.work fun s => s.dmHead cl 0x81)
def execDmGather (cl : Fin 64) (s : State) : Out := .next (s.work fun s => s.dmHead cl 0x82)
def execDmScatterAdd (cl : Fin 64) (s : State) : Out := .next (s.work fun s => s.dmHead cl 0x83)
def execDmFill (cl : Fin 64) (s : State) : Out := .next (s.work fun s => s.dmHead cl 0x84)
def execDmIcopy (cl : Fin 64) (s : State) : Out := .next (s.work fun s => s.dmHead cl 0x85)
def execDmPwrite (cl : Fin 64) (s : State) : Out := .next (s.work fun s => s.dmHead cl 0x88)
def execDmTransferIssue (cl : Fin 64) (s : State) : Out := .next (s.work fun s => s.dmTransferIssue cl)
def execDmTransferDone (cl : Fin 64) (x : XferEnd) (s : State) : Out := .next (s.work fun s => s.dmTransferDone cl x.no x.fail)
def execRemoteAccessServe (target cl : Fin 64) (i : Nat) (s : State) : Out := .next (s.work fun s => s.remoteServe target cl i)

end Sys2Proof.Machine
end

