-- ==== Sys2Proof/Machine/CmdEnd.lean ====
section
/-! DEFINITION. The end of an engine command (R213): when it may be reported, the check that fails it, and a body whose opcode its queue
does not take. -/

namespace Sys2Proof.Machine

/-- Opcodes that a queue takes (Table 8-8). -/
def queueTakes (q : Fin 7) (op : Nat) : Bool := match q.val with
  | 0 => (0x20 ≤ op && op ≤ 0x25) || (0x28 ≤ op && op ≤ 0x2A)
  | 1 | 2 => op == 0x40 || op == 0x41
  | 3 => (0x50 ≤ op && op ≤ 0x59) || (0x60 ≤ op && op ≤ 0x65)
  | 4 => (0x80 ≤ op && op ≤ 0x85) || op == 0x88
  | 5 => op == 0x30
  | _ => 0x10 ≤ op && op ≤ 0x14

/-- Everything a command does has been done, or a cause has ended it. -/
def State.endReady (s : State) (cl : Fin 64) (q : Fin 7) (w : Work) : Bool :=
  let e := s.clusters[cl].eng
  match w.kind with
  | .plain => !(q.val = 0 && (e.nib.drains.any (·.1 == w.b.no) || e.nib.tiles.any (·.1 == w.b.no)))
  | .thaw t => t.ended || !w.causes.isEmpty
  | .ksw k => k.ended || !w.causes.isEmpty
  | .mover todo => (todo.isEmpty || !w.causes.isEmpty) && e.xfers.all fun x => x.owner != some w.b.no
  | .load | .held _ _ _ | .gsub _ _ _ _ _ | .gate _ _ _ => !w.causes.isEmpty

/-- The Thaw engine that a command runs on. -/
def Work.engine (w : Work) : Nat := match w.kind with
  | .thaw t => t.engine
  | _ => 0

/-- The command ends with its causes; a refresh that does not fail is counted. -/
def State.cmdFinish (s : State) (cl : Fin 64) (q : Fin 7) (w : Work) (causes : List Status) : State :=
  let ok := (w.causes ++ causes).isEmpty
  let s := match w.kind with
    | .thaw t => if ok then s.tallyCl 0x301 cl (some w.b.run.ctx.val) (t.rots.length * (((s.adm w.b.run).map Adm.runs).getD 1)) else s
    | _ => s
  s.endCmd cl q w causes

/-- What a command that fails before its end still had under way goes: its transfers, its finished chain, the slots of its load. -/
def State.abandon (s : State) (cl : Fin 64) (q : Fin 7) (w : Work) : State :=
  let c := NibCmd.of w.b.bits
  if q.val = 4 then s.dropXfers cl fun x => x.owner == some w.b.no
  else if q.val != 0 then s
  else
    let s := if w.causes.isEmpty && 0x20 ≤ c.opcode && c.opcode ≤ 0x22 then s.loadInvalid cl w else s
    s.updEng cl fun e => { e with nib := { e.nib with drains := e.nib.drains.filter (·.1 != w.b.no), tiles := e.nib.tiles.filter (·.1 != w.b.no) } }

/-- Checks of a command report differences: the command has its cause before what they bring about, so that no fence runs it again (Table 4-11),
and it ends here unless a fence has ended it. -/
def State.cmdFail (s : State) (cl : Fin 64) (q : Fin 7) (w : Work) (fail : List CheckFail) : State :=
  let s := ((s.abandon cl q w).addCause cl q w.b.no .faultDetected).checkFails cl q w.engine w fail
  match s.work? cl q w.b.no with
  | some w => if w.done then s else s.cmdFinish cl q w []
  | none => s

/-- A command pauses for the test of its unit, or of a bank of its Inkwell (R378). -/
def State.pauses (s : State) (cl : Fin 64) (q : Fin 7) (w : Work) : Bool :=
  (q.val < 5 && w.kind == .plain && s.banksTest cl) || match q.val with
    | 0 => s.underTest 2 cl || s.underTest 6 cl
    | 3 => s.underTest 4 cl
    | 4 => s.underTest 7 cl
    | _ => false

/-- ENGINE_COMMAND_END of number i of a queue; `fail` lists the checks of the command that report differences, at once and whatever it still had to
do: every detection has its record, also of a command that has met a cause before or has ended and not retired (R366, R368). -/
def State.cmdEnd (s : State) (cl : Fin 64) (q : Fin 7) (i : Nat) (fail : List CheckFail) : State :=
  match s.work? cl q i with
  | some w =>
    if w.done then s.checkFails cl q w.engine w fail
    else if s.pauses cl q w then s
    else if !fail.isEmpty then s.cmdFail cl q w fail
    else if s.endReady cl q w then s.cmdFinish cl q w [] else s
  | none => match s.issueHead cl q with
    | some (b, a) =>
      if b.no != i || queueTakes q b.opcode then s
      else
        let s := s.refuse cl q b a [.malformed]
        match s.work? cl q i with
        | some w => s.endCmd cl q w []
        | none => s
    | none => s

/-- The hub's pair compares what it retires; its difference stops the hub (R372). -/
def execEngineCommandEnd (cl : Fin 64) (q : Fin 7) (i : Nat) (fail : List CheckFail) (hubDiffer : Bool) (s : State) : Out :=
  .next (if hubDiffer then (if (s.work? cl q i).isSome then s.hubStop 0x08 else s) else s.work fun s => s.cmdEnd cl q i fail)

end Sys2Proof.Machine
end

