-- ==== Sys2Proof/Machine/Plan.lean ====
section
/-! DEFINITION. Ciphertext plans (R444 to R446): their form, the tensors that their descriptors name, the bounds of their steps
(R42, R43, R96, R97), and the choice of inserted refreshes (R47). -/

namespace Sys2Proof.Machine

namespace Plan

/-- Bits [hi:lo] of a number. -/
def bits (n hi lo : Nat) : Nat := n / 2 ^ lo % 2 ^ (hi + 1 - lo)

structure In where
  desc : Nat
  host : Bool
  insAddr : Nat
  ok : Bool

structure OutE where
  step : Nat
  desc : Nat
  host : Bool
  ok : Bool

structure Step where
  op : Nat
  a : Nat
  b : Nat
  fmt : Nat
  param : Nat
  lutFirst : Nat
  ntab : Nat
  outWidth : Nat
  outMsg : Nat
  gate : Nat
  count : Nat
  reserved : Bool

structure T where
  insInk : Nat
  insSize : Nat
  ins : List In
  outs : List OutE
  steps : List Step
  ok : Bool

def In.of (n : Nat) : In where
  desc := bits n 63 5 * 32
  host := bits n 0 0 == 1
  insAddr := bits n 127 64
  ok := bits n 4 1 == 0 && bits n 255 193 == 0 && bits n 192 192 == 0 && bits n 191 128 == 0 && bits n 127 64 % 64 == 0

def OutE.of (n : Nat) : OutE where
  step := bits n 71 64
  desc := bits n 63 5 * 32
  host := bits n 0 0 == 1
  ok := bits n 4 1 == 0 && bits n 127 72 == 0

def Step.of (n : Nat) : Step where
  op := bits n 7 0
  a := bits n 15 8
  b := bits n 23 16
  fmt := bits n 28 24
  param := bits n 63 32
  lutFirst := bits n 75 64
  ntab := bits n 77 76
  outWidth := bits n 83 78
  outMsg := bits n 87 84
  gate := bits n 91 88
  count := bits n 127 96
  reserved := bits n 31 29 != 0 || bits n 95 92 != 0

/-- An operand reference of step j (Table 8-3d). -/
def refOk (nin j v : Nat) : Bool := v < nin || (0x80 ≤ v && v < 0x80 + j)

/-- The form of step j: its op code, operands and ranges; fields that the op does not take are 0. -/
def Step.ok (t : Step) (nin j : Nat) : Bool :=
  let two := t.op == 1 || t.op == 2
  !t.reserved && 1 ≤ t.op && t.op ≤ 11 && refOk nin j t.a && (if two then refOk nin j t.b else t.b == 0) &&
  (match t.op with
    | 4 | 6 => t.param < 65536
    | 7 => 1 ≤ t.param && t.param ≤ 65528
    | 10 => true
    | _ => t.param == 0) &&
  (match t.op with
    | 5 => t.fmt == 0x0D || t.fmt == 0x0E || t.fmt == 0x0F
    | 7 => t.fmt == 6 || t.fmt == 7 || t.fmt == 8
    | _ => t.fmt == 0) &&
  (if t.op = 7 then t.count ≥ 1 else t.count == 0) &&
  (if t.op = 10 then t.ntab ≤ 2 && t.outWidth ≤ 32 && 1 ≤ t.outMsg && t.outMsg ≤ min t.outWidth 15
    else t.ntab == 0 && t.outWidth == 0 && t.outMsg == 0 && t.lutFirst == 0) &&
  (if t.op = 11 then t.gate ≤ 11 else t.gate == 0)

/-- A plan from its bytes, and whether its form is that of R446 step 1. -/
def T.of (bytes : List Byte) : T :=
  let n := leNat bytes
  let nin := bits n 39 32
  let nout := bits n 47 40
  let nstep := bits n 55 48
  let off := 256 + 256 * nin
  let ins := (upTo nin).map fun i => In.of (bits n (256 * i + 511) (256 * i + 256))
  let outs := (upTo nout).map fun i => OutE.of (bits n (off + 128 * i + 127) (off + 128 * i))
  let off := off + 128 * nout
  let steps := (upTo nstep).map fun i => Step.of (bits n (off + 128 * i + 127) (off + 128 * i))
  let insInk := bits n 87 64
  let insSize := bits n 99 88
  { insInk, insSize, ins, outs, steps
    ok := bits n 31 0 == 0x4E414C50 && bits n 63 56 == 0 && bits n 255 100 == 0 && nin ≤ 32 && nout ≤ 32 && nstep ≤ 64 &&
      32 + 32 * nin + 16 * nout + 16 * nstep ≤ bytes.length && insInk % 4096 == 0 && insInk + 4096 * insSize ≤ 2 ^ 24 &&
      ins.all (·.ok) && outs.all (fun o => o.ok && o.step < nstep) && (steps.zipIdx).all fun (t, j) => t.ok nin j }

def Step.tables (t : Step) : Nat := 2 ^ t.ntab
/-- The immediate of PADD_IMM and SMUL. -/
def Step.imm (t : Step) : Nat := (signedOf 16 t.param).natAbs

/-! ### Tensors and bounds -/

/-- An input descriptor's tensor and the causes of R35, R51 and R285; no tensor where its family or layout is none. -/
def inTensor (b : BitVec 256) (cls : QClass) (inWin : Nat → Nat → Bool) : Option Tensor × List Status :=
  let w := fld b 25 20
  let p := fld b 19 16
  let stride := fld b 223 192
  let count := fld b 127 96
  let addr := fld b 191 128
  let fam := Family.ofId (fld b 7 0)
  let lay := Layout.ofCode (fld b 15 8)
  let famOk := (fam.map (·.allowed cls)).getD false
  let need := match fam, lay with
    | some f, some l => l.bytes f
    | _, _ => 0
  let bad := fld b 255 224 != 0 || fld b 79 76 != 0 || fld b 31 27 != 0 || lay.isNone || count = 0 || stride % 8 != 0 || stride < need ||
    addr % 64 != 0 || fld b 48 32 % 2 == 1 || (fam.map fun f => decide (w < f.m)).getD false || w > 32 || p = 0 || p > min w 15
  let out := fld b 26 26 == 0 && !inWin addr ((count - 1) * stride + need)
  (match fam, lay with
    | some f, some layout => some {
        f, kset := BitVec.ofNat 32 (fld b 63 32), layout, count, width := w, msg := p, noise := fld b 75 64, carry := fld b 95 80, addr, stride }
    | _, _ => none,
   causesOf [(!famOk, .paramUnsupported), (bad, .malformed), (out, .permission)])

/-- The causes of an output descriptor (R36) against its step's result. -/
def outCauses (b : BitVec 256) (res : Option Tensor) (inWin : Nat → Nat → Bool) : List Status :=
  let stride := fld b 223 192
  let count := fld b 127 96
  let addr := fld b 191 128
  let need := (res.map fun t => t.layout.bytes t.f).getD 0
  let bad := fld b 255 224 != 0 || fld b 79 76 != 0 || fld b 31 27 != 0 || count = 0 || stride % 8 != 0 || stride < need || addr % 64 != 0
  causesOf [(bad, .malformed), ((res.map fun t => t.count != count).getD false, .shapeMismatch),
    (fld b 26 26 == 0 && !inWin addr ((count - 1) * stride + need), .permission)]

/-- The layout that an operation takes, where it takes one (Table 2-9). -/
def layoutOk (op : Nat) (l : Layout) : Bool := match op with
  | 4 | 5 | 6 => l != .ms
  | 7 | 8 => l == .big
  | 9 => l == .small
  | 10 | 11 => l == .ms
  | _ => true

def layoutOut (op : Nat) (l : Layout) : Layout := match op with
  | 7 | 10 | 11 => .big
  | 8 => .small
  | 9 => .ms
  | _ => l

/-- Largest magnitudes (Table 2-8). -/
def wmax (fmt : Nat) : Nat := match fmt with
  | 6 => 8 | 7 => 2 | _ => 1
def bmax (fmt : Nat) : Nat := match fmt with
  | 0x0D => 2 ^ 7 | 0x0E => 2 ^ 15 | _ => 2 ^ 31

/-- A step's result (R445, Table 2-9); tmax is the largest of its tables' (R94). -/
def Step.result (t : Step) (x y : Tensor) (tmax : Nat) : Tensor :=
  let M := 2 ^ x.msg - 1
  let r := { x with layout := layoutOut t.op x.layout }
  match t.op with
  | 1 | 2 => { r with noise := lse x.noise y.noise, carry := x.carry + y.carry }
  | 4 => { r with carry := x.carry + divUp t.imm M }
  | 5 => { r with carry := x.carry + divUp (bmax t.fmt) M }
  | 6 => if t.imm = 0 then { r with noise := 0, carry := 0 } else { r with noise := x.noise + vBound (t.imm * t.imm), carry := x.carry * t.imm }
  | 7 => { r with count := t.count, noise := x.noise + vBound (t.param * (wmax t.fmt * wmax t.fmt)), carry := t.param * wmax t.fmt * x.carry }
  | 8 => { r with noise := lse x.noise x.f.nKs }
  | 9 => { r with noise := lse x.noise x.f.nMs }
  | 10 => { r with
      count := t.tables * x.count, width := t.outWidth, msg := t.outMsg, noise := x.f.nRef, carry := divUp tmax (2 ^ t.outMsg - 1) }
  | 11 => { r with width := 2, msg := 1, noise := x.f.nRef, carry := 1 }
  | _ => r

/-- The checks of a step that need no key (R37, R446 step 3). -/
def Step.causes (t : Step) (cls : QClass) (x y : Tensor) : List Status :=
  causesOf [(!layoutOk t.op x.layout, .malformed),
    ((t.op = 1 || t.op = 2) && (x.f != y.f || x.kset != y.kset || x.layout != y.layout || x.width != y.width || x.msg != y.msg), .malformed),
    ((t.op = 1 || t.op = 2) && x.count != y.count, .shapeMismatch), (t.op = 11 && cls != .gate, .paramUnsupported),
    (t.op = 10 && ((t.tables > 1 && x.f.m > 3) || t.outWidth < x.f.m), .malformed)]

/-- The noise and carry checks of a step (R43, R96, R97): whether each fails. -/
def Step.exceeds (t : Step) (x r : Tensor) : Bool × Bool :=
  let input := match t.op with
    | 10 => if t.tables = 1 then x.noise > x.f.limit else lse x.noise (x.f.nMs + 32 * t.ntab) > x.f.limit
    | 11 => x.noise > x.f.limit - 32
    | _ => false
  (input || r.noise > r.f.limit || r.noise > 4095, r.carry > 65535 || r.carry * (2 ^ r.msg - 1) > 2 ^ r.width - 1)

/-- The tensor that a reference names, among the inputs and the results so far. -/
def ref (ins res : List (Option Tensor)) (v : Nat) : Option Tensor := if v < 0x80 then (ins.getD v none) else (res.getD (v - 0x80) none)

/-- Results of the steps in order; none where an operand is none. `tmax` gives each step's. -/
def results (steps : List Step) (tmax : Nat → Nat) (ins : List (Option Tensor)) : List (Option Tensor) :=
  (steps.zipIdx).foldl (fun (res : List (Option Tensor)) (t, j) =>
    let y := if t.op = 1 ∨ t.op = 2 then ref ins res t.b else ref ins res t.a
    res ++ [match ref ins res t.a, y with
      | some x, some y => some (t.result x y (tmax j))
      | _, _ => none]) []

/-- Whether some step fails its noise check, and whether some fails its carry check. -/
def exceeds (steps : List Step) (tmax : Nat → Nat) (ins : List (Option Tensor)) : Bool × Bool :=
  let res := results steps tmax ins
  (steps.zipIdx).foldl (fun (acc : Bool × Bool) (t, j) =>
    match ref ins res t.a, res.getD j none with
    | some x, some r => let o := t.exceeds x r; (acc.1 || o.1, acc.2 || o.2)
    | _, _ => acc) (false, false)

/-- The noise bound with which an operand enters an inserted refresh, and the bound it leaves with (R47). -/
def enterNoise (t : Tensor) : Nat := match t.layout with
  | .ms => t.noise
  | .small => lse t.noise t.f.nMs
  | .big => lse (lse t.noise t.f.nKs) t.f.nMs
def freshNoise (t : Tensor) : Nat := match t.layout with
  | .big => t.f.nRef
  | .small => lse t.f.nRef t.f.nKs
  | .ms => lse (lse t.f.nRef t.f.nKs) t.f.nMs

/-- Bytes that the insertion area must hold (R448). -/
def areaNeed (f : Family) (dual : Bool) : Nat := (if dual then 2 else 1) * (f.windowBytes + f.accBytes) + 2 ^ 20

def insertNoise (f : Nat → Nat) (x : Nat) : List Nat → List Nat
  | [] => [x]
  | y :: r => if f y < f x then x :: y :: r else y :: insertNoise f x r

/-- Candidates of R47 in descending noise bound, ties by ascending position. -/
def candidates (p : T) (dual : Bool) (ins : List (Option Tensor)) : List Nat :=
  let ok (k : Nat) : Bool := match ins.getD k none, p.ins[k]? with
    | some t, some e => t.width == t.f.m && e.insAddr != 0 && areaNeed t.f dual ≤ 4096 * p.insSize && enterNoise t ≤ t.f.limit
    | _, _ => false
  let noise (k : Nat) : Nat := ((ins.getD k none).map (·.noise)).getD 0
  ((upTo ins.length).filter ok).foldl (fun l k => insertNoise noise k l) []

/-- Inputs with the chosen ones' bounds set to their fresh values. -/
def freshen (chosen : List Nat) (ins : List (Option Tensor)) : List (Option Tensor) :=
  (ins.zipIdx).map fun (o, k) => if chosen.contains k then o.map fun t => { t with noise := freshNoise t } else o

/-- The shortest run of candidates that cures the plan. -/
def choose (p : T) (tmax : Nat → Nat) (ins : List (Option Tensor)) (cand : List Nat) : Option (List Nat) :=
  ((upTo cand.length).map fun n => cand.take (n + 1)).find? fun c => exceeds p.steps tmax (freshen c ins) == (false, false)

end Plan

/-! ### Reading what a plan names -/

/-- A range of host memory whose translation the check could not have. -/
def Run.badRange (r : Run) (va len : Nat) : Bool := (pagesOf va len).any r.badPages.contains

/-- A descriptor that a plan names: its bytes, or the causes; `none` while a translation is awaited (R446 step 2). -/
def State.planDesc (s : State) (c : Ctx) (r : Run) (sp : HostSpace) (host : Bool) (a : Nat) : Option (Except Status (BitVec 256)) :=
  if host then
    if r.badRange a 32 then some (.error .translationError)
    else if s.xlOk sp a 32 false then some (.ok (BitVec.ofNat 256 (s.hostNat sp a 32)))
    else none
  else if !c.inWindow a 32 then some (.error .permission)
  else if s.memFenced a 32 then some (.error .unitFenced)
  else some (.ok (BitVec.ofNat 256 (s.mem.readNat a 32)))

/-- The descriptors of a plan that lie in module memory and can be read there. -/
def State.planReads (s : State) (c : Ctx) (p : Plan.T) : List Nat :=
  ((p.ins.map fun e => (e.host, e.desc)) ++ (p.outs.map fun e => (e.host, e.desc))).filterMap fun (h, a) =>
    if !h && c.inWindow a 32 && !s.memFenced a 32 then some a else none

/-- What a plan check comes to. -/
inductive PlanOutcome where
  /-- A translation of a range is awaited. -/
  | need (va len : Nat)
  /-- The entry of a key is being rebuilt. -/
  | parked
  /-- A check failed; the families on which the plan's steps operate, and the entries that it names. -/
  | bad (st : Status) (fams : List Family) (idxs : List Nat)
  /-- Every check passed: the run, and eff_addr and refreshed of each input. -/
  | good (r : Run) (effs : List (Nat × Bool))

/-- The check of a plan (R446): every cause of steps 2 to 4, then the bounds. -/
def State.planCheck (s : State) (d : DRef) (a : Adm) (c : Ctx) (r : Run) (p : Plan.T) : PlanOutcome :=
  let sp := s.spaceOf d.ctx
  let cx := d.ctx.val
  match (p.ins.map fun e => (e.host, e.desc)) ++ (p.outs.map fun e => (e.host, e.desc)) |>.find? fun (h, x) => (s.planDesc c r sp h x).isNone with
  | some (_, x) => .need x 32
  | none =>
    let read (h : Bool) (x : Nat) : Except Status (BitVec 256) := (s.planDesc c r sp h x).getD (.error .translationError)
    let insR : List (Option Tensor × List Status) := p.ins.map fun (e : Plan.In) => match read e.host e.desc with
      | .ok b =>
        let (t, cs) := Plan.inTensor b a.cls c.inWindow
        (t, cs ++ causesOf [(e.insAddr != 0 && (t.map fun (t : Tensor) => !c.inWindow e.insAddr (t.count * t.stride)).getD false, .permission)])
      | .error st => (none, [st])
    let ins := insR.map (·.1)
    let res0 := Plan.results p.steps (fun _ => 0) ins
    let opnd (v : Nat) : Option Tensor := Plan.ref ins res0 v
    let stepC := p.steps.flatMap fun t => match opnd t.a, (if t.op = 1 ∨ t.op = 2 then opnd t.b else opnd t.a) with
      | some x, some y => t.causes a.cls x y
      | _, _ => []
    let outC := p.outs.flatMap fun o => match read o.host o.desc with
      | .ok b => Plan.outCauses b (res0.getD o.step none) c.inWindow
      | .error st => [st]
    -- key sets and LUTSETs
    let ksets := ((p.steps.filter fun t => t.op = 8 || t.op = 10 || t.op = 11).filterMap fun t => (opnd t.a).map (·.kset)).eraseDups
    let luts := ((p.steps.filter fun t => t.op = 10).map fun t => BitVec.ofNat 32 t.param).eraseDups
    let idxs := (ksets.flatMap fun h => [handleIdx h, handleIdx h + 1]) ++ luts.map handleIdx
    if idxs.any s.rebuilding then .parked
    else
      let keyC := (ksets.flatMap fun h => s.ksetCauses cx h) ++ luts.flatMap fun h => s.lutCauses cx h
      let lutC := p.steps.flatMap fun t =>
        if t.op = 10 && (s.lutCauses cx (BitVec.ofNat 32 t.param)).isEmpty then
          let i := handleIdx (BitVec.ofNat 32 t.param)
          let count := ((s.keys.dir.find i).map fun x => fld x.header 863 832).getD 0
          causesOf [(((opnd t.a).map fun x => x.f.id != Krt.family (s.entry i)).getD false || t.lutFirst + t.tables > count, .malformed)]
        else []
      let fams := (p.steps.filterMap fun (t : Plan.Step) => (opnd t.a).map fun (x : Tensor) => x.f).eraseDups
      let r := { r with families := fams, ksets := (p.steps.filterMap fun (t : Plan.Step) => (opnd t.a).map fun (x : Tensor) => x.kset).eraseDups, luts }
      let causes := (insR.flatMap (·.2)) ++ outC ++ stepC ++ keyC ++ lutC
      if !causes.isEmpty then .bad (Status.pick causes) fams idxs
      else
        let tmax (j : Nat) : Nat := match p.steps[j]? with
          | some t => if t.op = 10 then
              (upTo t.tables).foldl (fun m i => max m (lutTmax (s.lutRecord (handleIdx (BitVec.ofNat 32 t.param)) (t.lutFirst + i)))) 0 else 0
          | none => 0
        let (noise, carry) := Plan.exceeds p.steps tmax ins
        let chosen : Option (List Nat) :=
          if !noise then some [] else if a.modes.insert then Plan.choose p tmax ins (Plan.candidates p a.modes.dual ins) else none
        if carry then .bad .carryExceeded fams idxs
        else match chosen with
          | none => .bad .noiseExhausted fams idxs
          | some ch =>
            let insKs := (ch.filterMap fun k => (ins.getD k none).map (·.kset)).eraseDups
            let more := insKs.flatMap fun h => s.ksetCauses cx h
            if insKs.any fun h => s.rebuilding (handleIdx h) || s.rebuilding (handleIdx h + 1) then .parked
            else if !more.isEmpty then .bad (Status.pick more) fams idxs
            else
              let res := Plan.results p.steps tmax (Plan.freshen ch ins)
              let idxs := (idxs ++ insKs.flatMap fun h => [handleIdx h, handleIdx h + 1]).eraseDups
              let effs : List (Nat × Bool) := (ins.zipIdx).map fun (t, k) =>
                if ch.contains k then (((p.ins[k]?).map fun (e : Plan.In) => e.insAddr).getD 0, true) else ((t.map fun (x : Tensor) => x.addr).getD 0, false)
              let run : Run := { r with
                checked := true
                fps := (idxs ++ r.ksets.flatMap fun h => [handleIdx h, handleIdx h + 1]).foldl (fun t i => t.set i (BitVec.ofNat 128 (Krt.fp (s.entry i)))) []
                names := idxs
                outs := p.outs.filterMap fun (o : Plan.OutE) => (res.getD o.step none).map fun (t : Tensor) => { host := o.host, addr := o.desc, res := t }
                inserts := ch.filterMap fun (k : Nat) => match ins.getD k none, p.ins[k]? with
                  | some t, some e => match read e.host e.desc with
                    | .ok b => some { t, host := fld b 26 26 == 1, addr := t.addr, into := e.insAddr }
                    | .error _ => none
                  | _, _ => none
                insInk := p.insInk
                insSize := 4096 * p.insSize }
              .good run effs

/-- The plan of the tasks' copy (R448): refreshed and eff_addr of each input. -/
def planCopy (args : List Byte) (off : Nat) (effs : List (Nat × Bool)) : List Byte :=
  let m : Memory := Memory.write ([] : Memory) 0 args
  let m := (effs.zipIdx).foldl (fun (m : Memory) (e, k) =>
    let at_ := off + 32 + 32 * k
    (m.writeNat (at_ + 16) 8 e.1).writeNat (at_ + 24) 1 (boolNat e.2)) m
  m.read 0 args.length

end Sys2Proof.Machine
end

