-- ==== Sys2Proof/Machine/Registers.lean ====
section
/-! DEFINITION. Writes of the set-up window (10, 14, 16, 17, 18) and the commands that are writes of one register. Each write
takes effect only in the states of Table 18-2. -/

namespace Sys2Proof.Machine

def Serac.is (c : Serac) (l : List SrcState) : Bool := l.contains c.st
/-- Set-up registers take writes: SETUP, before a go that R423 accepts. -/
def State.setupOpen (s : State) : Bool := s.env.serac.st == .setup && !s.env.serac.locked
def State.setupOrReady (s : State) : Bool := s.env.serac.is [.setup, .ready]
/-- W1C fields take writes in every state from stage 3 on: the host link is up. -/
def State.fromStage3 (s : State) : Bool := s.hub.fclUp

/-- A W1C bit after a write (R9). -/
def w1c (old : Bool) (v bit : Nat) : Bool := old && v / 2 ^ bit % 2 == 0

/-- Measurement: M_i = SHA-512(M_i ‖ D) (R322). -/
def Env.measure (e : Env) (i : Fin 8) (d : BitVec 512) : Env :=
  { e with meas := e.meas.set i (Crypto.digest (Crypto.digestBytes e.meas[i] ++ Crypto.digestBytes d)) }

/-! ### Pools and go (R345, R273, R423) -/

/-- The unit of 2 MiB that holds the test region (R254). -/
def testUnit : Nat := 491519
/-- The test region in units of 64 KiB. -/
def testRegion64 : Nat := 15728620
def memUnits64 : Nat := 15728640

def overlaps (a n b m : Nat) : Bool := n != 0 && m != 0 && a < b + m && b < a + n

def keyBase (p : BitVec 64) : Nat := fld p 19 0
def keySize (p : BitVec 64) : Nat := fld p 51 32
def stateBase (p : BitVec 64) : Nat := fld p 23 0
def stateSize (p : BitVec 64) : Nat := fld p 47 24

def keyRangeBad (p : BitVec 64) : Bool := keySize p < 128 || keyBase p + keySize p > memUnits
def keyTestBad (p : BitVec 64) : Bool := overlaps (keyBase p) (keySize p) testUnit 1
def statePoolBad (sp kp : BitVec 64) : Bool :=
  stateSize sp != 0 && (stateBase sp + stateSize sp > memUnits64 ||
    overlaps (stateBase sp) (stateSize sp) testRegion64 (memUnits64 - testRegion64) ||
    overlaps (stateBase sp) (stateSize sp) (32 * keyBase kp) (32 * keySize kp))

def State.setErr (s : State) (bits : Nat) : State :=
  s.updSetup fun u => { u with setupErr := u.setupErr ||| BitVec.ofNat 5 bits }

/-- A write of part_code (Table 14-2): ignored after the lock, and for the codes 6 and 7. -/
def State.partCfgWrite (s : State) (v : Nat) : State :=
  if s.setupOpen && v % 8 < 6 then s.updSetup fun u => { u with partCode := BitVec.ofNat 3 v } else s

def State.keyPoolWrite (s : State) (v : Nat) : State :=
  if s.setupOpen then s.updSetup fun u => { u with keyPool := BitVec.ofNat 64 (packNat [(20, v), (12, 0), (20, v / 2 ^ 32)]) } else s

/-- A write of HUB_STATE_POOL (R273, R423). -/
def State.statePoolWrite (s : State) (v : Nat) : State :=
  let p := BitVec.ofNat 64 (v % 2 ^ 48)
  if s.setupOpen then s.updSetup fun u => { u with statePool := p }
  else if s.ready then
    if s.ctxs.any (·.1 != 0) then s.setErr 16
    else if statePoolBad p s.env.setup.keyPool then s.setErr 4
    else s.updSetup fun u => { u with statePool := p }
  else s

/-- The set-up record (Table 13-1a). -/
def Setup.record (u : Setup) : List Byte :=
  leBytes 64 (packNat [(32, 0x50555453), (16, 1), (16, 0), (8, u.partCode.toNat), (56, 0), (64, u.keyPool.toNat), (64, u.statePool.toNat),
    (64, u.keyDir.toNat)])

/-- The key header directory placed in the last 64 units of the key pool; HUB_KEYDIR shows it from READY on (Table 18-4). -/
def Setup.placed (u : Setup) : Setup := { u with keyDir := BitVec.ofNat 64 ((keyBase u.keyPool + keySize u.keyPool - 64) * 2 ^ 21) }

/-- A go that every check of R423 passes: set-up locked, the set-up record, with the directory's place, measured into M5. -/
def State.goAccept (s : State) : State :=
  let s := s.updSerac fun c => { c with locked := true }
  { s with env := s.env.measure 5 (Crypto.digest s.env.setup.placed.record) }

/-- A write of 1 to SRC_GO (R423). -/
def State.goWrite (s : State) : State :=
  if !s.setupOpen then s
  else
    let u := s.env.setup
    let bad := packNat [(1, boolNat (keyRangeBad u.keyPool)), (1, boolNat (keyTestBad u.keyPool)), (1, boolNat (statePoolBad u.statePool u.keyPool))]
    if bad = 0 then s.goAccept else s.setErr (bad + 8)

/-! ### Memory registers (R266, R267) -/

def shareOk (lc ks bulk : Nat) : Bool := 4 ≤ lc && 4 ≤ ks && 2 ≤ bulk && lc + ks + bulk ≤ 64

/-- A write of MEM_CLASS_SHARE: refused with share_err unless every guarantee is in range (R266). -/
def State.shareWrite (s : State) (v : Nat) : State :=
  let s := if s.fromStage3 then { s with env := { s.env with shareErr := w1c s.env.shareErr v 24 } } else s
  if !s.setupOrReady then s
  else if shareOk (v % 256) (v / 2 ^ 8 % 256) (v / 2 ^ 16 % 256) then { s with env := { s.env with share := BitVec.ofNat 24 v } }
  else { s with env := { s.env with shareErr := true } }

def State.tgWritable (s : State) : Bool := s.env.serac.is [.memory, .setup, .ready]

/-- The conditions that refuse a start (R267); a latent-fault test keeps the channel's generator busy (R268). -/
def State.tgRefuses (s : State) (c : Fin 160) (ctrl : Nat) : Bool :=
  let h := s.memsys.chans[c]
  let first := fld h.tgRange 23 0
  let last := fld h.tgRange 47 24
  h.tgBusy || (s.testOf (unitNo 10 c)).testing || first > last || last > 12582911 || (s.ready && first < 12582896) ||
  ctrl / 2 ^ 24 % 16 > 4 || ctrl / 2 ^ 22 % 4 == 3 || ctrl / 2 ^ 20 % 4 == 3

/-- A write of MEM_TG_CTRL: its fields, then start and stop; a start latches the run. -/
def State.tgCtrlWrite (s : State) (c : Fin 160) (v : Nat) : State :=
  if !s.tgWritable then s
  else
    let h := s.memsys.chans[c]
    let ctrl := BitVec.ofNat 32 (packNat [(16, v), (4, 0), (2, v / 2 ^ 20), (2, v / 2 ^ 22), (4, v / 2 ^ 24)])
    let start := v / 2 ^ 31 % 2 == 1
    let stop := v / 2 ^ 30 % 2 == 1
    s.updChan c fun h' =>
      if start then
        if s.tgRefuses c v then { h' with tgCtrl := ctrl, tgRefused := true, tgStopping := h'.tgStopping || (stop && h'.tgBusy) }
        else { h' with
          tgCtrl := ctrl, tgBusy := true, tgStopping := stop
          tgRun := { ctrl, seed := h.tgSeed, first := fld h.tgRange 23 0, last := fld h.tgRange 47 24 } }
      else { h' with tgCtrl := ctrl, tgStopping := h'.tgStopping || (stop && h'.tgBusy) }

/-- A generator run ends (R268), once it has been served whole or has been stopped: the checker's counts are final, and the blocks that it wrote
hold its pattern. -/
def State.tgRunEnd (s : State) (c : Fin 160) (o : TgObs) : State :=
  let h := s.memsys.chans[c]
  if !h.tgBusy || !(h.tgStopping || h.tgRun.bursts ≤ h.tgRun.served) then s
  else
    (s.tgEnds c (s.tgResult c h.tgRun o)).updChan c fun h => { h with tgBusy := false, tgStopping := false, tgDone := true, tgRun := {} }

/-! ### Power cap and firmware (R393, R402) -/

/-- A write of SRC_POWER_CAP: out of range it is ignored and cap_err set. -/
def State.powerCapWrite (s : State) (v : Nat) : State :=
  let s := if s.fromStage3 then s.updPower fun p => { p with capErr := w1c p.capErr v 16 } else s
  if !s.setupOrReady then s
  else if 700 ≤ v % 65536 && v % 65536 ≤ 2000 then s.updPower fun p => { p with cap := BitVec.ofNat 16 v }
  else s.updPower fun p => { p with capErr := true }

/-- The end of a firmware command: its result, and a FIRMWARE record (Table 16-9). -/
def State.fwEnd (s : State) (cmd slot : Nat) (version : Nat) (result : Nat) : State :=
  (s.updSerac fun c => { c with fwDone := true, fwResult := BitVec.ofNat 8 result }).record 0x05 version
    (packNat [(2, cmd), (6, 0), (8, slot), (8, result)])

/-- STAGE (R402): refused with result 5 while another command is busy. -/
def State.fwStage (s : State) (slot : BitVec 8) (micro : Bool) : State :=
  if !s.setupOrReady then s
  else
    let s := s.updSerac fun c => { c with fwSlot := slot }
    if s.env.serac.fwBusy.isSome || (micro && slot.toNat > 31) then s.fwEnd 1 slot.toNat 0 5
    else s.updSerac fun c => { c with fwBusy := some ⟨slot, micro⟩ }

/-- The bank that does not run. -/
def Serac.otherBank (c : Serac) : Bank := if c.bank then c.flash.bankA else c.flash.bankB
/-- A bank written anew: a mark of what it held before is gone, as ACTIVATE marks what is staged (R402). -/
def Flash.setBank (f : Flash) (b : Bool) (x : Bank) : Flash :=
  let f := if f.mark = some b then { f with mark := none, tries := 0 } else f
  if b then { f with bankB := x } else { f with bankA := x }

/-- A chain entry held, on a cluster or in a context's saved state, applies the function of a code. -/
def Eng.chainNames (e : Eng) (func : Nat) : Bool :=
  e.chains.any fun p => !Chain.isPair p.2 && (Chain.stepList p.2).any fun t => t.op == 0x06 && t.func == func

/-- A micro-program slot is named by an issued command or a chain, and does not change (R179): an unfinished BR_MAP or an entry of a chain
table. A BR_RUN and the epilogue of a finished chain name it through their entry. -/
def State.slotNamed (s : State) (slot : Nat) : Bool :=
  let names (w : Work) : Bool := !w.done && (BrCmd.of w.b.bits).opcode == 0x50 && (BrCmd.of w.b.bits).op6 == 0x20 + slot
  (allClusters.any fun c => (s.queue c 3).works.any names || s.clusters[c].eng.chainNames (0x20 + slot)) ||
  s.ctxs.any fun p => p.2.saved.any fun e => e.2.chainNames (0x20 + slot)

/-- STAGE ends (R402): the bank not running, or a micro-program slot with M4 measured. -/
def State.fwStageDone (s : State) (result : Fin 6) (img : ImageInfo) : State :=
  match s.env.serac.fwBusy with
  | none => s
  | some f =>
    if s.shed ≥ 5 || (f.micro && s.slotNamed f.slot.toNat) then s
    else
      let res := if result.val = 0 && img.rollback.toNat < s.env.serac.rollback.toNat then 2 else result.val
      let s := s.updSerac fun c => { c with fwBusy := none }
      let s := if res != 0 then s
        else if f.micro then
          let s := s.updSerac fun c => { c with micro := c.micro.set (0x20 + f.slot.toNat) img.digest }
          { s with env := s.env.measure 4 img.digest }
        else s.updSerac fun c => { c with flash := c.flash.setBank (!c.bank) ⟨img.version, img.rollback, img.digest, true⟩ }
      s.fwEnd 1 f.slot.toNat img.version.toNat res

/-- ACTIVATE: the staged bank is marked for trial at the next reset. -/
def State.fwActivate (s : State) : State :=
  let c := s.env.serac
  if !s.setupOrReady then s
  else if c.fwBusy.isSome || !c.otherBank.staged || s.shed ≥ 5 then s.fwEnd 2 0 c.otherBank.version.toNat 5
  else (s.updSerac fun c => { c with flash := { c.flash with mark := some (!c.bank), tries := 0 } }).fwEnd 2 0 c.otherBank.version.toNat 0

/-- COMMIT, while a bank runs on trial: it becomes the committed bank, and the rollback counter rises to its value. -/
def State.fwCommit (s : State) : State :=
  let c := s.env.serac
  let run := if c.bank then c.flash.bankB else c.flash.bankA
  if !s.setupOrReady then s
  else if !c.trial then s.fwEnd 3 0 run.version.toNat 5
  else (s.updSerac fun c => { c with
      trial := false
      rollback := if c.rollback.toNat < run.rollback.toNat then run.rollback else c.rollback
      flash := { c.flash with committed := c.bank, mark := none, tries := 0 } }).fwEnd 3 0 run.version.toNat 0

def State.fwCtrlWrite (s : State) (v : Nat) : State :=
  if !s.setupOrReady then s
  else
    let slot := BitVec.ofNat 8 (v / 256)
    match v % 4 with
    | 1 => s.fwStage slot false
    | 2 => (s.updSerac fun c => { c with fwSlot := slot }).fwActivate
    | 3 => (s.updSerac fun c => { c with fwSlot := slot }).fwCommit
    | _ => s.updSerac fun c => { c with fwSlot := slot }

/-! ### Observation registers (17) -/

/-- The instant that a freeze, an unfreeze or a snapshot at t fixes (R410). -/
def instantOf (t : Nat) : Nat := 1000 * divUp t 1000 + 1000

/-- The events of Table 17-3, and whether each is attributable. -/
def eventAttr (e : Nat) : Option Bool :=
  if [0x100, 0x102, 0x110, 0x111, 0x112, 0x113, 0x114, 0x115, 0x116, 0x200, 0x201, 0x202, 0x203, 0x204, 0x300, 0x301, 0x302, 0x400,
      0x401, 0x402, 0x403, 0x500, 0x501, 0x502, 0x803, 0xC00, 0xC01, 0xC03, 0xC04, 0xE00].contains e then some true
  else if [0x101, 0x600, 0x601, 0x602, 0x800, 0x801, 0x802, 0x900, 0x901, 0x902, 0x903, 0x904, 0xA00, 0xC02, 0xD00, 0xD01, 0xE01,
      0xF00].contains e then some false
  else none

/-- The event is counted at the place of counter n (Table 17-1). -/
def eventAt (n e : Nat) : Bool :=
  if n < 64 then true else if n < 192 then 1 ≤ e / 256 && e / 256 ≤ 0xA else 1 ≤ e / 256 && e / 256 ≤ 6

/-- A write of OBS_CTR_SEL[n] (R408): the value goes to 0 at the same grant. -/
def Obs.ctrSel (o : Obs) (now n v : Nat) : Obs :=
  let o := o.capture now
  let e := v % 4096
  let filter := v / 2 ^ 30 % 2
  let ok := match eventAttr e with
    | some a => eventAt n e && (filter = 0 || a)
    | none => false
  { o with ctrs := o.ctrs.set n ⟨BitVec.ofNat 32 (packNat [(12, e), (6, 0), (12, v / 2 ^ 18), (1, filter), (1, boolNat (ok && v / 2 ^ 31 % 2 == 1))]), 0, 0⟩ }

def State.ctrSelWrite (s : State) (n v : Nat) : State :=
  if s.setupOrReady then { s with obs := s.obs.ctrSel s.timebase n v } else s

/-- A freeze: F, and what an earlier freeze whose U has not come still takes out of the count. -/
def Obs.freezeSet (o : Obs) (now : Nat) : Obs :=
  if o.freeze then o
  else { o with
    freeze := true, holdAt := instantOf now, freezeTime := BitVec.ofNat 64 (instantOf now)
    holds := ((o.holdAt, o.resumeAt) :: o.holds).filter fun h => now < h.2 }
def Obs.freezeClear (o : Obs) (now : Nat) : Obs := if o.freeze then { o with freeze := false, resumeAt := instantOf now } else o
/-- A snapshot: its instant F, or that of the freeze; ignored with snap_err while one is in progress (R411). -/
def Obs.snap (o : Obs) (now : Nat) : Obs :=
  if o.snapBusy.isSome then { o with snapErr := true }
  else
    let f := if o.freeze then o.holdAt else instantOf now
    { o with snapBusy := some [], snapAt := f, snapFrozen := o.freeze, freezeTime := BitVec.ofNat 64 f }

def State.obsGlobalWrite (s : State) (v : Nat) : State :=
  let s := if s.fromStage3 then { s with obs := { s.obs with snapErr := w1c s.obs.snapErr v 3 } } else s
  if !s.setupOrReady then s
  else
    let o := if v % 2 = 1 then s.obs.freezeSet s.timebase else s.obs.freezeClear s.timebase
    { s with obs := if v / 2 % 2 = 1 then o.snap s.timebase else o }

/-- A write of OBS_TRACE_CTRL (R415): size is ignored while enable reads 1. -/
def Obs.traceCtrl (o : Obs) (v : Nat) : Obs :=
  { o with traceOn := v / 2 ^ 31 % 2 == 1, traceSize := if o.traceOn then o.traceSize else BitVec.ofNat 4 v }

/-- Enabling reads the head line; disabling drops a record that waits and counts it in lost (R418). -/
def State.traceCtrlWrite (s : State) (v : Nat) : State :=
  if !s.setupOrReady then s
  else
    let on := v / 2 ^ 31 % 2 == 1
    let s := s.traceDue
    let s := if !on && s.obs.due.isSome then { s with obs := { s.obs with due := none } }.traceDrop else s
    let t := { s with obs := s.obs.traceCtrl v }
    if on && !s.obs.traceOn then t.traceHold else t

/-! ### Any register -/

/-- A write of a register (Table 18-2); RO and RC fields ignore it. -/
def State.regWrite (s : State) (r : Reg) (v : Nat) : State :=
  match r with
  | .partCfg => s.partCfgWrite v
  | .statePool => s.statePoolWrite v
  | .keyPool => s.keyPoolWrite v
  | .setupErr => if s.fromStage3 then s.updSetup fun u => { u with setupErr := u.setupErr &&& ~~~(BitVec.ofNat 5 v) } else s
  | .ctx0Desc => if s.ready then s.updSetup fun u => { u with ctx0Desc := BitVec.ofNat 64 (v / 256 * 256) } else s
  | .ctx0Ctrl => if s.fromStage3 then s.updSetup fun u => { u with ctx0Err := w1c u.ctx0Err v 3 } else s
  | .powerCap => s.powerCapWrite v
  | .go => if v % 2 = 1 then s.goWrite else s
  | .fwAddr => if s.setupOrReady then s.updSerac fun c => { c with fwAddr := BitVec.ofNat 64 v } else s
  | .fwCtrl => s.fwCtrlWrite v
  | .fwStatus => if s.fromStage3 then s.updSerac fun c => { c with fwDone := w1c c.fwDone v 30 } else s
  | .classShare => s.shareWrite v
  | .tgCtrl c => s.tgCtrlWrite c v
  | .tgSeed c => if s.tgWritable then s.updChan c fun h => { h with tgSeed := BitVec.ofNat 32 v } else s
  | .tgRange c => if s.tgWritable then s.updChan c fun h => { h with tgRange := BitVec.ofNat 64 (v % 2 ^ 48) } else s
  | .tgStatus c => if s.fromStage3 then s.updChan c fun h => { h with tgDone := w1c h.tgDone v 30, tgRefused := w1c h.tgRefused v 29 } else s
  | .obsGlobal => s.obsGlobalWrite v
  | .snapAddr => if s.setupOrReady then { s with obs := { s.obs with snapAddr := BitVec.ofNat 64 (v / 4096 * 4096) } } else s
  | .traceBase => if s.setupOrReady && !s.obs.traceOn then { s with obs := { s.obs with traceBase := BitVec.ofNat 64 (v / 4096 * 4096) } } else s
  | .traceCb => if s.setupOrReady && !s.obs.traceOn then { s with obs := { s.obs with traceCb := BitVec.ofNat 64 (v / 64 * 64) } }.traceHold else s
  | .traceCtrl => s.traceCtrlWrite v
  | .ctrSel n => s.ctrSelWrite n v
  | _ => s

/-- A write of the window (R420): of the wrong width, or of an offset without a register, it writes nothing. -/
def State.windowWrite (s : State) (off : Nat) (wide : Bool) (v : Nat) (allow : Reg → Bool) : State :=
  match regAt off with
  | some (r, w) => if w = wide && allow r then s.regWrite r (if w then v else v % 2 ^ 32) else s
  | none => s

/-! ### The commands -/

/-- A read of the host of a register with RC fields (R9). -/
def execRcFieldRead (off : BitVec 32) (wide : Bool) (s : State) : Out :=
  .next (if s.hub.fclUp then s.windowRead off.toNat wide else s)

/-- The module's address on the management bus. -/
def State.smbAddr (s : State) : BitVec 7 := 0x58 + s.env.board.mgmtAddr.setWidth 7

/-- The module takes a management-bus access: from stage 1 on, at its address, with a right packet error code (R438). -/
def State.smbTakes (s : State) (o : SmbOff) : Bool := s.env.serac.st != .off && o.pecOk && o.target == s.smbAddr

/-- The management bus reads the whole window (R421). A read at the alert response address is answered while the alert is asserted; PRESUMED: that
address is SMBus 3.1's 0x0C (log 80). -/
def execSmbWindowRead (off : SmbOff) (wide : Bool) (s : State) : Out :=
  .next (if s.smbTakes off then s.windowRead off.off.toNat wide
    else if s.env.serac.st != .off && off.target == 0x0C && s.env.board.smbAlert then s.send (.alertAnswer s.smbAddr)
    else s)

/-- It writes only SRC_POWER_CAP, SRC_FW_ADDR and SRC_FW_CTRL. -/
def execSmbWindowWrite (off : SmbOff) (wide : Bool) (v : BitVec 64) (s : State) : Out :=
  .next (if s.smbTakes off then s.windowWrite off.off.toNat wide v.toNat fun r => r == .powerCap || r == .fwAddr || r == .fwCtrl else s)

def execGo (s : State) : Out := .next s.goWrite
def execHubStatePoolWrite (v : BitVec 64) (s : State) : Out := .next (s.statePoolWrite v.toNat)
def execHubPartCfgWrite (v : BitVec 32) (s : State) : Out := .next (s.partCfgWrite v.toNat)
def execMemClassShareWrite (v : BitVec 32) (s : State) : Out := .next (s.shareWrite v.toNat)
/-- A write of MEM_TG_CTRL with the start bit set. -/
def execMemTgStart (ch : Fin 160) (v : BitVec 32) (s : State) : Out := .next (s.tgCtrlWrite ch (v ||| 0x80000000#32).toNat)
/-- A write of the stop bit: the run ends at the next burst. -/
def execMemTgStop (ch : Fin 160) (s : State) : Out :=
  .next (if s.tgWritable then s.updChan ch fun h => { h with tgStopping := h.tgStopping || h.tgBusy } else s)
def execMemTgRunEnd (ch : Fin 160) (obs : TgObs) (s : State) : Out := .next (s.tgRunEnd ch obs)
def execPowerCapWrite (v : BitVec 32) (s : State) : Out := .next (s.powerCapWrite v.toNat)
def execFwStage (slot : BitVec 8) (micro : Bool) (s : State) : Out := .next (s.fwStage slot micro)
def execFwStageDone (result : Fin 6) (img : ImageInfo) (s : State) : Out := .next (s.fwStageDone result img)
def execFwActivate (s : State) : Out := .next s.fwActivate
def execFwCommit (s : State) : Out := .next s.fwCommit
def execCtrSelWrite (n : Fin 1216) (v : BitVec 32) (s : State) : Out := .next (s.ctrSelWrite n v.toNat)
def execFreezeSet (s : State) : Out := .next (if s.setupOrReady then { s with obs := s.obs.freezeSet s.timebase } else s)
def execFreezeClear (s : State) : Out := .next (if s.setupOrReady then { s with obs := s.obs.freezeClear s.timebase } else s)
def execSnap (s : State) : Out := .next (if s.setupOrReady then { s with obs := s.obs.snap s.timebase } else s)

/-- The snapshot's buffer (R411), once its instant has come. -/
def snapBytes (o : Obs) (vals : List (BitVec 64)) : List Byte :=
  leBytes 64 (packNat [(64, o.snapAt), (32, o.snapSeq.toNat + 1), (8, boolNat o.snapFrozen)]) ++ vals.flatMap fun v => leBytes 8 v.toNat

def State.snapDone (s : State) : State :=
  match s.obs.snapBusy with
  | none => s
  | some _ =>
    let s := s.advance s.obs.snapAt
    let o := s.obs.capture s.timebase
    let s := s.hostWrite .phys o.snapAddr.toNat (snapBytes o (o.snapBusy.getD []))
    { s with obs := { o with snapBusy := none, snapSeq := o.snapSeq + 1 } }

def execSnapshotWriteDone (s : State) : Out := .next (s.work State.snapDone)
def execTraceCtrlWrite (v : BitVec 32) (s : State) : Out := .next (s.traceCtrlWrite v.toNat)

/-- The host has written the trace buffer's head: the module re-reads the line it holds (R415). -/
def execTraceHeadUpdate (v : BitVec 32) (s : State) : Out :=
  .next (s.work fun s => ({ s with obs := { s.obs with head := v } }.hostPut .phys s.obs.traceCb.toNat 4 v.toNat).traceDue)

end Sys2Proof.Machine
end

