-- ==== Sys2Proof/Machine/Quill.lean ====
section
/-! DEFINITION. The Quill (08): its instructions, placement into the engine queues, loop nests and long words. An instruction's
command acts when the running task of its cluster stands before that instruction; its happening elsewhere changes nothing (log 2). -/

namespace Sys2Proof.Machine

/-! ### Bodies and their placement (R212, R215, R218) -/

/-- Bytes of a queue's bodies (Table 8-8). -/
def bodyBytes (q : Nat) : Nat := match q with
  | 0 | 1 | 2 => 32
  | 3 | 4 => 64
  | _ => 16

/-- The tag of R218, written over the body's own. -/
def fillTag (q : Nat) (bits : BitVec 512) (tag : BitVec 32) : BitVec 512 :=
  putFld bits (8 * bodyBytes q - 1) (8 * bodyBytes q - 32) tag.toNat

/-- Target and source of a QGATE that may hold a queue (R215). -/
def gateOk (bits : BitVec 512) : Bool :=
  let t := fld bits 11 8
  let c := fld bits 15 12
  t < 6 && c < 6 && t != c

/-- A body enters a queue; a QGATE places its mark at the tail of its target in the same instant. -/
def State.place (s : State) (cl : Fin 64) (q : Fin 7) (bits : BitVec 512) (tag : BitVec 32) (run : DRef) (iter ix : Nat) : State :=
  let e := s.clusters[cl].eng
  let no := e.queues[q].placed
  let b : Body := { bits := fillTag q bits tag, tag, no, ord := e.nextOrd, run, iter, ix, placedAt := s.timebase }
  let s := s.updEng cl fun e => { e with nextOrd := e.nextOrd + 1 }
  let s := s.updQueue cl q fun k => { k with items := k.items ++ [.body b], placed := k.placed + 1 }
  let s := if q.val = 6 && fld bits 7 0 = 0x10 && gateOk bits then
      s.updEng cl fun e => { e with queues := vupdNat e.queues (fld bits 11 8) fun k => {
        k with items := k.items ++ [.mark no (fld bits 15 12) (BitVec.ofNat 32 (fld bits 95 64))] } }
    else s
  (s.updEng cl Eng.openGates).tallyCl (0x110 + q) cl (some run.ctx.val)

/-- The tag of a task's next placement. -/
def State.tagOf (s : State) (cl : Fin 64) (t : Task) (seq : Nat) : BitVec 32 :=
  let sub := ((s.adm t.run).map fun a => fld a.body 319 304).getD 0
  BitVec.ofNat 32 (packNat [(10, seq), (6, cl.val), (16, sub)])

/-! ### The running task (R206, R207, R210, R211) -/

/-- The instruction about to run: its place, task and word. -/
structure QNow where
  cl : Fin 64
  p : Fin 8
  t : Task
  w : BitVec 32
  deriving DecidableEq, Repr

def QNow.d (n : QNow) : Nat := fld n.w 25 21
def QNow.a (n : QNow) : Nat := fld n.w 20 16
def QNow.b (n : QNow) : Nat := fld n.w 15 11
def QNow.imm (n : QNow) : Nat := fld n.w 15 0
def QNow.simm (n : QNow) : Int := signedOf 16 n.imm

/-- A register; q0 reads 0. -/
def Task.reg (t : Task) (i : Nat) : BitVec 64 := if i = 0 then 0 else t.regs[Fin.ofNat 32 i]
/-- A register written; a write to q0 is discarded. -/
def Task.setReg (t : Task) (i : Nat) (v : BitVec 64) : Task := if i = 0 then t else { t with regs := vupd t.regs (Fin.ofNat 32 i) fun _ => v }

def QNow.ra (n : QNow) : BitVec 64 := n.t.reg n.a
def QNow.rb (n : QNow) : BitVec 64 := n.t.reg n.b
def QNow.rd (n : QNow) : BitVec 64 := n.t.reg n.d
/-- ra + imm. -/
def QNow.addr (n : QNow) : Nat := (n.ra + BitVec.ofInt 64 n.simm).toNat

/-- A task has run 256 instructions and another is READY: it yields before the next (R207). -/
def Eng.sliceDue (e : Eng) (t : Task) : Bool := t.since ≥ 256 && e.tasks.toList.any fun o => (o.map fun (t : Task) => t.st) == some .ready

/-- The Quill's next instruction: its cluster is in service, and so is the pair. -/
def State.quillNow (s : State) (cl : Fin 64) : Option QNow :=
  let e := s.clusters[cl].eng
  if !s.inService cl || s.unitOut 1 cl then none
  else match e.cur with
    | none => none
    | some p => match e.tasks[p] with
      | none => none
      | some t => if t.st = .running && !e.sliceDue t then some ⟨cl, p, t, BitVec.ofNat 32 (e.store.readNat (4096 * t.slot + 4 * t.pc) 4)⟩ else none

def State.updTask (s : State) (n : QNow) (f : Task → Task) : State :=
  s.updEng n.cl fun e => { e with tasks := vupd e.tasks n.p fun o => o.map f }

/-- A run-time error ends the task and fails its QRUN with MALFORMED (R211). -/
def State.taskError (s : State) (n : QNow) (st : Status := .malformed) : State := s.failRun n.t.run st 0

def State.progLength (s : State) (n : QNow) : Nat := ((s.clusters[n.cl].eng.progs.find n.t.slot).map (·.length)).getD 0

/-- An instruction has executed: the task goes on at an index, which is in its program or a run-time error. -/
def State.quillGo (s : State) (n : QNow) (t : Task) (pc : Int) : State :=
  let s := s.tallyCl 0x100 n.cl (some n.t.run.ctx.val)
  if 0 ≤ pc && pc < s.progLength n then s.updTask n fun _ => { t with pc := pc.toNat, since := n.t.since + 1 } else s.taskError n

def QNow.next (n : QNow) : Int := n.t.pc + 1
/-- An instruction that writes rd. -/
def State.quillSet (s : State) (n : QNow) (v : BitVec 64) : State := s.quillGo n (n.t.setReg n.d v) n.next

/-- The task waits, and another may start (R207). -/
def State.quillWait (s : State) (n : QNow) (w : WaitWhy) : State :=
  ((s.updTask n fun t => { t with st := .waiting w }).updEng n.cl fun e => { e with cur := none }).resume n.cl

/-- The mechanism that a fault of a pair is recorded with (Table 15-1). -/
def quillMech : QFault → Nat
  | .memory => 0x09
  | _ => 0x07

/-- R201: the Quill stops; the QRUNs with a task here fail, their issued commands' outputs are withheld, and the pair goes to its test. -/
def State.quillFail (s : State) (n : QNow) (f : QFault) : State :=
  let runs := (s.clusters[n.cl].eng.tasks.toList.filterMap (fun (o : Option Task) => o.map (·.run)) ++ [n.t.run]).eraseDups
  let held (w : Work) : Work := if runs.contains w.b.run && !w.done then { w with causes := w.causes ++ [.faultDetected] } else w
  let o : FaultOf := .desc n.t.run .faultDetected 0
  let rec_ := s.faultRec (unitNo 1 n.cl) (quillMech f) o
  let s := allQueues.foldl (fun s q => s.updQueue n.cl q fun k => { k with works := k.works.map held }) s
  let s := runs.foldl (fun s d => s.failRun d .faultDetected 0) s
  s.suspectRec (unitNo 1 n.cl) (quillMech f) rec_

/-- A fault of the pair during an instruction or a placement stops it before its effect, and the placement before its body enters a queue (R200). -/
def State.quillDo (s : State) (n : QNow) (f : QFault) (g : State → QNow → State) : State := if f = .none then g s n else s.quillFail n f

/-- An instruction of an opcode: the effect f, or R201 where the comparator or the memories' ECC finds a difference. -/
def quill (op : Nat) (f : State → QNow → State) (q : QCtl) (s : State) : Out :=
  .next (s.work fun s => match s.quillNow q.cl with
    | some n => if fld n.w 31 26 != op then s else s.quillDo n q.differ f
    | none => s)

/-- rd = f ra rb. -/
def alu (op : Nat) (f : BitVec 64 → BitVec 64 → BitVec 64) : QCtl → State → Out := quill op fun s n => s.quillSet n (f n.ra n.rb)
/-- rd = f ra imm, with the immediate as its 16 bits. -/
def alui (op : Nat) (f : BitVec 64 → Nat → BitVec 64) : QCtl → State → Out := quill op fun s n => s.quillSet n (f n.ra n.imm)

def execAdd (q : QCtl) (s : State) : Out := alu 0x01 (fun x y => x + y) q s
def execSub (q : QCtl) (s : State) : Out := alu 0x02 (fun x y => x - y) q s
def execAnd (q : QCtl) (s : State) : Out := alu 0x03 (fun x y => x &&& y) q s
def execOr (q : QCtl) (s : State) : Out := alu 0x04 (fun x y => x ||| y) q s
def execXor (q : QCtl) (s : State) : Out := alu 0x05 (fun x y => x ^^^ y) q s
def execShl (q : QCtl) (s : State) : Out := alu 0x06 (fun x y => x <<< (y.toNat % 64)) q s
def execShr (q : QCtl) (s : State) : Out := alu 0x07 (fun x y => x >>> (y.toNat % 64)) q s
def execSra (q : QCtl) (s : State) : Out := alu 0x08 (fun x y => x.sshiftRight (y.toNat % 64)) q s
def execMul (q : QCtl) (s : State) : Out := alu 0x09 (fun x y => x * y) q s
def execMinu (q : QCtl) (s : State) : Out := alu 0x0A (fun x y => if x.toNat ≤ y.toNat then x else y) q s
def execMaxu (q : QCtl) (s : State) : Out := alu 0x0B (fun x y => if x.toNat ≤ y.toNat then y else x) q s
def execSltu (q : QCtl) (s : State) : Out := alu 0x0C (fun x y => if x.toNat < y.toNat then 1 else 0) q s
def execAddi (q : QCtl) (s : State) : Out := alui 0x10 (fun x i => x + BitVec.ofInt 64 (signedOf 16 i)) q s
def execAndi (q : QCtl) (s : State) : Out := alui 0x11 (fun x i => x &&& BitVec.ofNat 64 i) q s
def execOri (q : QCtl) (s : State) : Out := alui 0x12 (fun x i => x ||| BitVec.ofNat 64 i) q s
def execShli (q : QCtl) (s : State) : Out := alui 0x13 (fun x i => x <<< (i % 64)) q s
def execShri (q : QCtl) (s : State) : Out := alui 0x14 (fun x i => x >>> (i % 64)) q s
def execShori (q : QCtl) (s : State) : Out := alui 0x15 (fun x i => (x <<< 16) ||| BitVec.ofNat 64 i) q s

/-! ### Data memory -/

/-- The task's window holds the bytes, aligned. -/
def windowOk (a size align : Nat) : Bool := a + size ≤ 8192 && a % align == 0
/-- The bytes touch a part of the argument block that has not landed. -/
def Task.unlanded (t : Task) (a size : Nat) : Bool := !t.landed && a < 0x20 + t.argBytes && 0x20 < a + size

def State.taskNat (s : State) (n : QNow) (a size : Nat) : Nat := s.clusters[n.cl].eng.dmem.readNat (8192 * n.p.val + a) size

/-- A load of size bytes, zero-extended. -/
def State.quillLoad (s : State) (n : QNow) (size : Nat) : State :=
  let a := n.addr
  if !windowOk a size size then s.taskError n
  else if n.t.unlanded a size then s.quillWait n .args
  else s.quillSet n (BitVec.ofNat 64 (s.taskNat n a size))

/-- A store of the low size bytes of rd. -/
def State.quillStore (s : State) (n : QNow) (size : Nat) : State :=
  let a := n.addr
  if !windowOk a size size then s.taskError n
  else (s.updEng n.cl fun e => { e with dmem := e.dmem.writeNat (8192 * n.p.val + a) size n.rd.toNat }).quillGo n n.t n.next

def execLd (q : QCtl) (s : State) : Out := quill 0x18 (fun s n => s.quillLoad n 8) q s
def execLw (q : QCtl) (s : State) : Out := quill 0x19 (fun s n => s.quillLoad n 4) q s
def execSd (q : QCtl) (s : State) : Out := quill 0x1A (fun s n => s.quillStore n 8) q s
def execSw (q : QCtl) (s : State) : Out := quill 0x1B (fun s n => s.quillStore n 4) q s

/-! ### Counters and control flow -/

/-- Counters of Table 8-7. -/
def State.quillCsr (s : State) (n : QNow) (k : Nat) : BitVec 64 :=
  let e := s.clusters[n.cl].eng
  if k ≤ 6 then ((vget? e.queues k).map fun q => BitVec.ofNat 64 (q.placed % 2 ^ 32)).getD 0
  else if 8 ≤ k && k ≤ 14 then ((vget? e.queues (k - 8)).map fun q => BitVec.ofNat 64 q.retired.toNat).getD 0
  else if k = 0x10 then BitVec.ofNat 64 s.timebase
  else if k = 0x11 then BitVec.ofNat 64 n.cl
  else if k = 0x12 then BitVec.ofNat 64 n.p
  else 0

def execCsrr (q : QCtl) (s : State) : Out := quill 0x1C (fun s n => s.quillSet n (s.quillCsr n (n.imm % 256))) q s

/-- A branch of format J: [25:21] ra, [20:16] rb, relative to itself. -/
def branch (op : Nat) (c : BitVec 64 → BitVec 64 → Bool) : QCtl → State → Out :=
  quill op fun s n => s.quillGo n n.t (if c n.rd n.ra then n.t.pc + n.simm else n.next)

def execBeq (q : QCtl) (s : State) : Out := branch 0x20 (fun x y => x == y) q s
def execBne (q : QCtl) (s : State) : Out := branch 0x21 (fun x y => x != y) q s
def execBltu (q : QCtl) (s : State) : Out := branch 0x22 (fun x y => decide (x.toNat < y.toNat)) q s
def execBgeu (q : QCtl) (s : State) : Out := branch 0x23 (fun x y => decide (y.toNat ≤ x.toNat)) q s
def execBlt (q : QCtl) (s : State) : Out := branch 0x24 (fun x y => decide (x.toInt < y.toInt)) q s
def execBge (q : QCtl) (s : State) : Out := branch 0x25 (fun x y => decide (y.toInt ≤ x.toInt)) q s
/-- rd = the next index; jump relative to the JAL. -/
def execJal (q : QCtl) (s : State) : Out :=
  quill 0x26 (fun s n => s.quillGo n (n.t.setReg n.d (BitVec.ofNat 64 (n.t.pc + 1))) (n.t.pc + n.simm)) q s
def execJr (q : QCtl) (s : State) : Out := quill 0x27 (fun s n => s.quillGo n n.t n.ra.toNat) q s

/-! ### Placement -/

/-- PUSH (R216): the body at ra + 8·imm[15:3] enters queue imm[2:0]. -/
def State.quillPush (s : State) (n : QNow) : State :=
  let k := n.imm % 8
  let a := (n.ra + BitVec.ofNat 64 (8 * (n.imm / 8))).toNat
  let size := bodyBytes k
  let e := s.clusters[n.cl].eng
  if h : k < 7 then
    if !windowOk a size size then s.taskError n
    else if n.t.unlanded a size then s.quillWait n .args
    else if !(e.room k && e.mayPlace k) then s.quillWait n (.push k)
    else
      let tag := s.tagOf n.cl n.t n.t.seq
      let s := s.place n.cl ⟨k, h⟩ (BitVec.ofNat 512 (s.taskNat n a size)) tag n.t.run 0 0
      let v := BitVec.ofNat 64 (s.clusters[n.cl].eng.queues[k].placed % 2 ^ 32)
      s.quillGo n ({ n.t with seq := n.t.seq + 1 }.setReg n.d v) n.next
  else s.taskError n
def execPush (q : QCtl) (s : State) : Out := quill 0x28 State.quillPush q s

/-- The first n entries of a list of 8-byte words from an address. -/
def words8 (m : Memory) (a : Nat) : Nat → List (BitVec 64)
  | 0 => []
  | n + 1 => BitVec.ofNat 64 (m.readNat a 8) :: words8 m (a + 8) n

/-- A patch or edge patch keeps R220: its level, body and field are the nest's, and its reserved bits 0. -/
def patchOk (edge : Bool) (levels nbody size : Nat) (p : BitVec 64) : Bool :=
  let lsb := fld p 20 12
  let width := fld p 11 6
  fld p 31 26 == 0 && fld p 3 0 == 0 && (edge || fld p 5 4 == 0) && fld p 23 21 < levels && fld p 25 24 ≤ nbody &&
  1 ≤ width && width ≤ 32 && 8 ≤ lsb && lsb + width ≤ 8 * size - 32

/-- A nest header (Table 8-11). -/
structure NestHead where
  counts : List Nat
  template : Nat
  nbody : Nat
  npatch : Nat
  nedge : Nat
  levels : Nat
  queue : Nat
  reserved : Bool

def NestHead.of (h : BitVec 256) : NestHead where
  counts := (upTo 6).map fun l => fld h (16 * l + 175) (16 * l + 160)
  template := fld h 63 48
  nbody := fld h 45 44
  npatch := fld h 43 39
  nedge := fld h 38 35
  levels := fld h 7 4
  queue := fld h 2 0
  reserved := fld h 159 64 != 0 || fld h 47 46 != 0 || fld h 34 8 != 0 || fld h 3 3 != 0

def NestHead.ok (h : NestHead) : Bool :=
  !h.reserved && h.npatch ≤ 16 && h.nedge ≤ 8 && 1 ≤ h.levels && h.levels ≤ 6 && h.queue < 7 &&
  windowOk h.template ((h.nbody + 1) * bodyBytes h.queue) (bodyBytes h.queue)

/-- Bodies that a nest places. -/
def nestTotal (counts : List Nat) (nbody : Nat) : Nat := counts.foldl (fun a c => a * (c + 1)) (nbody + 1)

/-- PUSHN (R219, R222): the record is checked, and a free issuer copies it with its templates. -/
def State.quillPushn (s : State) (n : QNow) : State :=
  let a := n.addr
  let e := s.clusters[n.cl].eng
  if !windowOk a 32 8 then s.taskError n
  else if n.t.unlanded a 32 then s.quillWait n .args
  else
    let h := NestHead.of (BitVec.ofNat 256 (s.taskNat n a 32))
    let size := bodyBytes h.queue
    let len := 32 + 8 * (h.npatch + h.nedge)
    if !h.ok || !windowOk a len 8 then s.taskError n
    else if n.t.unlanded a len || n.t.unlanded h.template ((h.nbody + 1) * size) then s.quillWait n .args
    else
      let base := 8192 * n.p.val
      let patches := words8 e.dmem (base + a + 32) h.npatch
      let edges := words8 e.dmem (base + a + 32 + 8 * h.npatch) h.nedge
      if !(patches.all (patchOk false h.levels h.nbody size) && edges.all (patchOk true h.levels h.nbody size)) then s.taskError n
      else match (List.finRange 2).find? fun i => e.nests[i].isNone with
        | some i =>
          if !e.mayPlace h.queue then s.quillWait n (.pushn h.queue)
          else
            let counts := h.counts.take h.levels
            let nest : Nest := {
              queue := h.queue, counts, nbody := h.nbody, patches, edges
              templates := (upTo (h.nbody + 1)).map fun k => BitVec.ofNat 512 (s.taskNat n (h.template + k * size) size)
              tag := s.tagOf n.cl n.t n.t.seq, run := n.t.run }
            let last := ((vget? e.queues h.queue).map (·.placed)).getD 0 + nestTotal counts h.nbody
            let s := s.updEng n.cl fun e => { e with nests := vupd e.nests i fun _ => some nest }
            s.quillGo n ({ n.t with seq := n.t.seq + 1 }.setReg n.d (BitVec.ofNat 64 (last % 2 ^ 32))) n.next
        | none => s.quillWait n (.pushn h.queue)
def execPushn (q : QCtl) (s : State) : Out := quill 0x29 State.quillPushn q s

/-- The queues that a long word's mask names, with the offset of each body. -/
def longSlots (mask : Nat) : List (Fin 7 × Nat) × Nat :=
  allQueues.foldl (fun ((l : List (Fin 7 × Nat)), (off : Nat)) (q : Fin 7) => if mask / 2 ^ q.val % 2 = 1 then (l ++ [(q, off)], off + bodyBytes q) else (l, off)) ([], 16)

/-- The queues that the words of a stream name from an address on, as a mask (R216); a word that breaks the stream is its last. DEDUCED from R216: a
stream places into the queues that its words still name (log 70). -/
def streamQueues (m : Memory) : Nat → Nat → Nat → Nat
  | 0, _, mask => mask
  | n + 1, addr, mask =>
    let w := m.readNat addr 16
    if w = 0 || 128 ≤ w || mask = 127 then mask else streamQueues m n (alignUp (addr + (longSlots w).2) 16) (mask ||| w)

/-- Reads of a stream's words with class LC, 4,096 B ahead of its placement (R224), inside the context's window. -/
def State.postStream (s : State) (cl : Fin 64) (p : Fin 8) (cx : Fin 4096) (a len : Nat) : State :=
  match s.ctxs.find cx with
  | some c => s.post (.stream cl p.val) .lc false a (min len (2 ^ 21 * (c.f 339 320 + c.f 371 352) - a))
  | none => s

/-- CLW (R224): a stream of rb long words from ra; the task waits for its end, and CLW then writes 0. It waits while another placement goes
into a queue that its words name (R216). -/
def State.quillClw (s : State) (n : QNow) : State :=
  let e := s.clusters[n.cl].eng
  let start := n.ra.toNat
  if n.t.streamDone then s.quillGo n ({ n.t with streamDone := false }.setReg n.d 0) n.next
  else if n.rb = 0 then s.quillSet n 0
  else if start % 64 != 0 || !((s.ctxs.find n.t.run.ctx).map (·.inWindow start 16)).getD false then s.taskError n
  else
    let queues := streamQueues s.mem n.rb.toNat start 0
    if !e.mayStream queues then s.quillWait n (.clw queues)
    else
      let s := s.updEng n.cl fun e => { e with streams := e.streams ++ [(n.p.val, { addr := start, left := n.rb.toNat, queues, run := n.t.run })] }
      (s.postStream n.cl n.p n.t.run.ctx start 4096).quillWait n .stream
def execClw (q : QCtl) (s : State) : Out := quill 0x2A State.quillClw q s

/-- WAIT (R213): until retired[imm[2:0]] has reached ra. -/
def State.quillWaitFor (s : State) (n : QNow) : State :=
  let w := WaitWhy.retired (n.imm % 8) (BitVec.ofNat 32 n.ra.toNat)
  if s.clusters[n.cl].eng.wakes n.t w then s.quillGo n n.t n.next else s.quillWait n w
def execWait (q : QCtl) (s : State) : Out := quill 0x2C State.quillWaitFor q s

/-- The running task gives way to the next READY task (R207). -/
def State.quillYield (s : State) (n : QNow) : State :=
  ((s.updTask n fun t => { t with st := .ready }).updEng n.cl fun e => { e with cur := none }).resume n.cl

/-- YIELD: the task goes on after it, later. -/
def execYield (q : QCtl) (s : State) : Out := quill 0x2D (fun s n =>
  let s := s.quillGo n n.t n.next
  if (s.run n.t.run).any (·.failed) then s else s.quillYield n) q s

/-- END: the task ends and its place is free; the QRUN completes when nothing is left of it (R208). -/
def State.quillEnd (s : State) (n : QNow) : State :=
  let s := (s.tallyCl 0x100 n.cl (some n.t.run.ctx.val)).traceTask 0x04 n.cl n.p n.t.run
  let s := (s.updEng n.cl fun e => { e with tasks := vupd e.tasks n.p fun _ => none, cur := none }).resume n.cl
  s.finishRun n.t.run
def execEndTask (q : QCtl) (s : State) : Out := quill 0x2E State.quillEnd q s

/-- A task that has run 256 instructions yields when another is READY (R207). -/
def State.timeslice (s : State) (cl : Fin 64) : State :=
  let e := s.clusters[cl].eng
  if !s.inService cl || s.unitOut 1 cl then s
  else match e.cur with
    | some p => match e.tasks[p] with
      | some t => if t.st = .running && e.sliceDue t then s.quillYield ⟨cl, p, t, 0⟩ else s
      | none => s
    | none => s
def execTaskTimeslice (cl : Fin 64) (s : State) : Out := .next (s.work fun s => s.timeslice cl)

/-! ### Loop nests (R220 to R222) -/

/-- The index of each level at an iteration, innermost first. -/
def nestIndex : List Nat → Nat → List Nat
  | [], _ => []
  | c :: r, k => k % (c + 1) :: nestIndex r (k / (c + 1))

/-- A field of a body replaced by v modulo 2^width. -/
def putPatch (b : BitVec 512) (p : BitVec 64) (v : Int) : BitVec 512 :=
  let lsb := fld p 20 12
  let width := fld p 11 6
  putFld b (lsb + width - 1) lsb (v % (2 ^ width : Nat)).toNat

def applyPatch (ix : List Nat) (b : BitVec 512) (p : BitVec 64) : BitVec 512 :=
  let lsb := fld p 20 12
  let width := fld p 11 6
  putPatch b p (fld b (lsb + width - 1) lsb + (ix.getD (fld p 23 21) 0 : Nat) * signedOf 32 (fld p 63 32))

def applyEdge (ix counts : List Nat) (b : BitVec 512) (p : BitVec 64) : BitVec 512 :=
  let i := ix.getD (fld p 23 21) 0
  let last := counts.getD (fld p 23 21) 0
  let holds := match fld p 5 4 with
    | 0 => i == 0
    | 1 => i == last
    | 2 => i != 0
    | _ => i != last
  if holds then putPatch b p (fld p 63 32) else b

/-- The body that a nest places next, its tag apart. -/
def Nest.bits (n : Nest) : BitVec 512 :=
  let ix := nestIndex n.counts n.iter
  let mine (p : BitVec 64) : Bool := fld p 25 24 == n.body
  let b := (n.patches.filter mine).foldl (applyPatch ix) (n.templates.getD n.body 0)
  (n.edges.filter mine).foldl (applyEdge ix n.counts) b

/-- The nest after that body; none after the last. -/
def Nest.after (n : Nest) : Option Nest :=
  if n.body < n.nbody then some { n with body := n.body + 1 }
  else if n.iter + 1 < nestTotal n.counts 0 then some { n with body := 0, iter := n.iter + 1 }
  else none

/-- The task that a nest's placements belong to, as far as it still runs on the cluster, in the form of an instruction. -/
def State.nestNow (s : State) (cl : Fin 64) (d : DRef) : QNow :=
  let e := s.clusters[cl].eng
  match (List.finRange 8).findSome? fun p => (e.tasks[p]).bind fun t => if t.run = d then some (p, t) else none with
  | some (p, t) => ⟨cl, p, t, 0⟩
  | none => ⟨cl, 0, { run := d, slot := 0, pc := 0, regs := Vector.replicate 32 0, landed := true, argBytes := 0 }, 0⟩

def State.nestPlace (s : State) (cl : Fin 64) (i : Fin 2) (n : Nest) (q : Fin 7) : State :=
  ((s.place cl q n.bits n.tag n.run n.iter n.body).updEng cl fun e => { e with nests := vupd e.nests i fun _ => n.after }).resume cl

/-- A nest places its next body, which the pair's comparator checks first (R200). -/
def State.nestIssue (s : State) (cl : Fin 64) (i : Fin 2) (f : QFault) : State :=
  let e := s.clusters[cl].eng
  match e.nests[i] with
  | none => s
  | some n =>
    if h : n.queue < 7 then
      if !s.inService cl || s.unitOut 1 cl || !e.room n.queue then s
      else s.quillDo (s.nestNow cl n.run) f fun s _ => s.nestPlace cl i n ⟨n.queue, h⟩
    else s
def execNestIssueBody (q : QCtl) (i : Fin 2) (s : State) : Out := .next (s.work fun s => s.nestIssue q.cl i q.differ)

/-! ### Long words (R223, R224) -/

/-- The bodies of a long word enter their queues in the same instant, and the stream goes on behind it or ends. -/
def State.wordPlace (s : State) (n : QNow) (st : Stream) (slots : List (Fin 7 × Nat)) (size : Nat) : State :=
  let (s, seq) := slots.foldl (fun ((s : State), (seq : Nat)) x =>
    (s.place n.cl x.1 (BitVec.ofNat 512 (s.mem.readNat (st.addr + x.2) (bodyBytes x.1))) (s.tagOf n.cl n.t seq) n.t.run 0 0, seq + 1)) (s, n.t.seq)
  let last := st.left ≤ 1
  let s := s.updTask n fun t => { t with seq := seq, streamDone := last }
  let addr := alignUp (st.addr + size) 16
  let next : Stream := { st with addr, left := st.left - 1, queues := streamQueues s.mem (st.left - 1) addr 0 }
  let s := if last then s else s.postStream n.cl n.p n.t.run.ctx (st.addr + 4096) (addr - st.addr)
  let streams (l : List (Nat × Stream)) : List (Nat × Stream) :=
    if last then l.filter (·.1 != n.p.val) else l.map fun x => if x.1 = n.p.val then (n.p.val, next) else x
  ((s.updEng n.cl fun e => { e with streams := streams e.streams }).pruneStreams n.cl).resume n.cl

/-- A word of the stream of place p may put a body into the queue: no nest and no other stream places there, also where memory was rewritten
behind its CLW (R216). -/
def Eng.mayWord (e : Eng) (p q : Nat) : Bool := !e.streaming q && e.streams.all fun x => x.1 == p || x.2.queues / 2 ^ q % 2 == 0

/-- A stream places one long word: all its bodies in the same instant, once every named queue takes one, has room and its reads have been
served. -/
def State.longWord (s : State) (cl : Fin 64) (p : Fin 8) (f : QFault) : State :=
  let e := s.clusters[cl].eng
  match e.streams.find? (·.1 == p.val), e.tasks[p] with
  | some (_, st), some t =>
    if !s.inService cl || s.unitOut 1 cl then s
    else
      let n : QNow := ⟨cl, p, t, 0⟩
      let head := BitVec.ofNat 128 (s.mem.readNat st.addr 16)
      let (slots, size) := longSlots (fld head 6 0)
      if s.memFenced st.addr 16 || s.memFenced st.addr size then s.taskError n .unitFenced
      else if s.memWaits (.stream cl p.val) then s
      else if slots.isEmpty || fld head 127 7 != 0 || !((s.ctxs.find t.run.ctx).map (·.inWindow st.addr size)).getD false then s.taskError n
      else if !slots.all fun x => e.room x.1.val && e.mayWord p x.1 then s
      else s.quillDo n f fun s n => s.wordPlace n st slots size
  | _, _ => s
def execLongWordPlace (q : QCtl) (place : Fin 8) (s : State) : Out := .next (s.work fun s => s.longWord q.cl place q.differ)

end Sys2Proof.Machine
end

