-- ==== Sys2Proof/Machine/Qrun.lean ====
section
/-! DEFINITION. Program loads, QRUNs and their start (R203 to R206, R444 to R448). -/

namespace Sys2Proof.Machine

/-- The context runs on its partition, and no switch is in progress (R290). -/
def State.runsNow (s : State) (cx : Fin 4096) : Bool := match s.ctxs.find cx with
  | some c => (s.switching.find c.part).isNone && (s.clustersOf c.part).all fun (k : Fin 64) => s.clusters[k].ctx == some cx
  | none => false

/-- Descriptors admitted before d in its context, oldest first. -/
def State.earlier (s : State) (d : DRef) : List (DRef × Adm) :=
  (s.descs.takeWhile fun (p : DRef × Adm) => p.1 != d).filter fun (p : DRef × Adm) => p.1.ctx == d.ctx

/-! ### QPROG_LOAD (R203, R204) -/

/-- Opcodes of Table 8-6. -/
def quillOpcode (op : Nat) : Bool :=
  (1 ≤ op && op ≤ 0x0C) || (0x10 ≤ op && op ≤ 0x15) || (0x18 ≤ op && op ≤ 0x1C) || (0x20 ≤ op && op ≤ 0x2A) || (0x2C ≤ op && op ≤ 0x2E)

def progSlots (length : Nat) : Nat := divUp length 1024
def QClass.runs : QClass → Bool
  | .clear | .encNative | .encJasil | .gate => true
  | _ => false

/-- The header of a program image (Table 8-1): length and entry, where its form is that of R203 and it fits from a slot on. -/
def progHeader (h : Nat) (slot : Nat) : Option Prog :=
  let b := BitVec.ofNat 512 h
  let length := fld b 63 48
  let entry := fld b 79 64
  if fld b 31 0 = 0x4C4C5551 && fld b 47 32 = 1 && fld b 95 80 = 0 && fld b 511 128 = 0 && 1 ≤ length && length ≤ 16384 && entry < length &&
    slot + progSlots length ≤ 16 then some { length, entry } else none

/-- Slots of the program that begins at a slot of a cluster's store; one where none does. -/
def State.progSpan (s : State) (cl : Fin 64) (slot : Nat) : Nat := ((s.clusters[cl].eng.progs.find slot).map fun (p : Prog) => progSlots p.length).getD 1

/-- The first slot that an admitted load overwrites and how many: none where its header is refused, up to the last slot while its header cannot be
read yet. -/
def State.loadSpan (s : State) (d : DRef) (a : Adm) : Option (Nat × Nat) :=
  let addr := fld a.body 63 0
  let slot := fld a.body 67 64
  let sp := s.spaceOf d.ctx
  if s.xlOk sp addr 64 false then (progHeader (s.hostNat sp addr 64) slot).map fun p => (slot, progSlots p.length) else some (slot, 16 - slot)

/-- A load waits while a task of the context runs in a slot it overwrites, and while an earlier QRUN whose program has such a slot has not started
or an earlier load of such a slot has not ended (R204, Table 8-13; DEDUCED: two loads of one slot are written in the order of admission, log
77). -/
def State.loadWaits (s : State) (d : DRef) (part slot n : Nat) : Bool :=
  let meets (a k : Nat) : Bool := a < slot + n && slot < a + k
  ((s.clustersOf part).any fun (cl : Fin 64) => s.clusters[cl].eng.tasks.toList.any fun (o : Option Task) => match o with
    | some t => t.run.ctx == d.ctx && meets t.slot (s.progSpan cl t.slot)
    | none => false) ||
  (s.earlier d).any fun (p : DRef × Adm) => match p.2.prog with
    | .qrun r => !r.started && meets (fld p.2.body 277 274) (s.progSpan (r.list.headD 0) (fld p.2.body 277 274))
    | _ => p.2.opcode == 0x78 && (s.loadSpan p.1 p.2).any fun x => meets x.1 x.2

/-- The program written into the slots of every cluster of the partition; programs that it overlaps are gone. -/
def Eng.putProg (e : Eng) (slot : Nat) (p : Prog) (words : List Byte) : Eng :=
  let keep (x : Nat × Prog) : Bool := !(x.1 < slot + progSlots p.length && slot < x.1 + progSlots x.2.length)
  { e with progs := Table.set (e.progs.filter keep) slot p, store := e.store.write (4096 * slot) words }

def State.qprogLoad (s : State) (d : DRef) : State :=
  match s.fresh d 0x78, s.ctxs.find d.ctx with
  | some a, some c =>
    let b := a.body
    let addr := fld b 63 0
    let slot := fld b 67 64
    let causes := causesOf [(fld b 383 68 != 0 || addr % 64 != 0, .malformed), (!a.cls.runs, .paramUnsupported), (s.deadPart d.ctx, .unitFenced)]
    let sp := s.spaceOf d.ctx
    if !causes.isEmpty then s.complete d (Status.pick causes)
    else if !s.xlOk sp addr 64 false then s.ask (.work d.ctx (.desc d)) sp addr 64 false
    else match progHeader (s.hostNat sp addr 64) slot with
      | none => s.complete d .malformed
      | some p =>
        if !s.runsNow d.ctx || s.loadWaits d c.part slot (progSlots p.length) then s
        else if !s.xlOk sp (addr + 64) (4 * p.length) false then s.ask (.work d.ctx (.desc d)) sp (addr + 64) (4 * p.length) false
        else
          let words := s.hostRead sp (addr + 64) (4 * p.length)
          let m : Memory := Memory.write ([] : Memory) 0 words
          let ops := (upTo p.length).all fun i => quillOpcode (m.readNat (4 * i) 4 / 2 ^ 26)
          if !ops || Crypto.crc32 words != fld (BitVec.ofNat 512 (s.hostNat sp addr 64)) 127 96 then s.complete d .malformed
          else ((s.clustersOf c.part).foldl (fun (s : State) (cl : Fin 64) => s.updEng cl fun e => e.putProg slot p words) s).complete d .ok
  | _, _ => s

/-! ### QRUN (R205, R446) -/

structure QrunBody where
  argAddr : Nat
  argBytes : Nat
  ncl : Nat
  first : Nat
  slot : Nat
  planLen : Nat
  reserved : Bool

def QrunBody.of (b : BitVec 384) : QrunBody where
  argAddr := fld b 383 320
  argBytes := fld b 303 291
  ncl := fld b 290 284
  first := fld b 283 278
  slot := fld b 277 274
  planLen := fld b 273 262
  reserved := fld b 261 256 != 0

def Adm.qrunBody (a : Adm) : QrunBody := QrunBody.of a.body

/-- The causes of the body (R205, Table 8-4), and UNIT_FENCED where the logical list is shorter (R376). -/
def State.qrunCauses (s : State) (a : Adm) (r : Run) : List Status :=
  let b := a.qrunBody
  causesOf [(b.reserved || b.ncl = 0 || b.ncl > 64 || b.first + b.ncl > s.perPart || b.argBytes > 4064 || b.argBytes % 8 != 0 ||
      b.argAddr % 64 != 0 || (b.argBytes = 0 && b.argAddr != 0) || (b.planLen != 0 && a.cls == .clear) || 8 * b.planLen > b.argBytes, .malformed),
    (!a.cls.runs, .paramUnsupported), (b.first + b.ncl > r.list.length, .unitFenced)]

/-- QRUN: its body, its cluster set, and its plan are checked; a QRUN without a plan needs no more before its tasks start. A body that is not
MALFORMED shows where its plan stands, and the plan's causes join the body's (R11). The entries that the plan names are looked up as its check
ends (R70); one that a lookup sends to a rebuild parks the QRUN (R71). -/
def State.qrun (s : State) (d : DRef) (looks : List (Fin 131072 × KrtLook)) : State :=
  match s.adm d, s.run d, s.ctxs.find d.ctx with
  | some a, some r, some c =>
    let b := a.qrunBody
    let sp := s.spaceOf d.ctx
    if r.checked then s
    else
      let causes := s.qrunCauses a r
      let ends (st : Status) (s : State) : State := s.complete d (Status.pick (causes ++ [st]))
      let r := { r with set := (r.list.drop b.first).take b.ncl }
      if causes.contains .malformed then s.complete d .malformed
      else if b.planLen = 0 then (if causes.isEmpty then s.updRun d fun _ => { r with checked := true } else s.complete d (Status.pick causes))
      else if r.badRange b.argAddr b.argBytes then ends .translationError s
      else if !s.xlOk sp b.argAddr b.argBytes false then s.ask (.work d.ctx (.desc d)) sp b.argAddr b.argBytes false
      else
        let args := s.hostRead sp b.argAddr b.argBytes
        let off := b.argBytes - 8 * b.planLen
        let p := Plan.T.of (args.drop off)
        let reads := s.planReads c p
        if !p.ok then ends .malformed s
        else if !reads.isEmpty && !r.descsAsked then
          -- the plan's descriptors in the stacks are hub traffic at the channels (R259)
          reads.foldl (fun (s : State) x => s.post (.plan d) .lc false x 32) (s.updRun d fun r => { r with descsAsked := true })
        else if s.memWaits (.plan d) || s.krtOut then s
        else match s.planCheck d a c r p with
          | .need va len => s.ask (.work d.ctx (.desc d)) sp va len false
          | .parked => s
          | .bad st fams idxs =>
            let s := s.lookups idxs looks
            if idxs.any s.rebuilding then s else ends st (s.updRun d fun r => { r with families := fams })
          | .good r effs =>
            let idxs := r.names
            let s := s.lookups idxs looks
            if idxs.any s.rebuilding then s
            else if !causes.isEmpty then s.complete d (Status.pick causes)
            else
              ((s.useInc idxs).updRun d fun _ => { r with args := planCopy args off effs, argsRead := true }).updAdm d fun a => { a with uses := idxs }
  | _, _, _ => s

/-! ### The insertion pass (R448) -/

/-- Bytes of an entry's key from an offset on, as a memory that starts at 0. -/
def State.keySlice (s : State) (i off len : Nat) : Memory :=
  let e := s.entry i
  let bytes := (upTo (divUp (off % 4096 + len) 4096)).flatMap fun u => s.unitBytes e (off / 4096 + u)
  Memory.write ([] : Memory) 0 ((bytes.drop (off % 4096)).take len)

/-- The key switch of one CT_BIG ciphertext that stands at 0 (R133). -/
def State.passKsw (s : State) (f : Family) (ksk : Nat) (m : Memory) : Memory :=
  let key := s.keySlice ksk 0 f.kskBytes
  let acc := (upTo (Ksw.blocks f)).foldl (fun (acc : List Nat) b =>
    Ksw.blockAcc f key (Ksw.digits f m 0 (b / Ksw.blocksPerGroup f)) b acc) (List.replicate (f.lweDim + 1) 0)
  let out := Ksw.output f (m.readNat (8 * f.ring) 8 % f.modulus) acc
  (out.zipIdx).foldl (fun (m : Memory) (v, k) => m.writeNat (8 * k) 8 v) []

/-- The modulus switch of one CT_SMALL ciphertext (R184). -/
def passMsw (f : Family) (m : Memory) : Memory :=
  (upTo (f.lweDim + 1)).foldl (fun (o : Memory) k => o.writeNat (2 * k) 2 (mswCoeff f (m.readNat (8 * k) 8 % f.modulus))) []

/-- The identity refresh of one CT_MS ciphertext (R89 to R91). -/
def State.passRefresh (s : State) (f : Family) (bsk : Nat) (m : Memory) : Memory :=
  let tv := Refresh.testVector f f.m f.m 1 [(upTo (2 ^ f.m)).map Int.ofNat]
  let r := Refresh.Rot.init f m 0 1 false tv
  let acc := (upTo f.steps).foldl (fun (acc : Refresh.Acc) k => Refresh.stepAcc f (s.keySlice bsk (k * f.stepBytes) f.stepBytes) k r.a acc) r.acc
  ((Refresh.extract f acc 0).zipIdx).foldl (fun (m : Memory) (v, k) => m.writeNat (8 * k) 8 v) []

/-- The pipeline that leads a ciphertext back to its layout (R448). -/
def State.passOne (s : State) (t : Tensor) (m : Memory) : Memory :=
  let i := handleIdx t.kset
  match t.layout with
  | .big => s.passRefresh t.f i (passMsw t.f (s.passKsw t.f (i + 1) m))
  | .small => s.passKsw t.f (i + 1) (s.passRefresh t.f i (passMsw t.f m))
  | .ms => passMsw t.f (s.passKsw t.f (i + 1) (s.passRefresh t.f i m))

/-- Ciphertext k of an inserted input, as a memory that starts at 0. -/
def State.passRead (s : State) (sp : HostSpace) (i : Insertion) (k : Nat) : Memory :=
  let a := i.addr + k * i.t.stride
  let n := i.t.layout.bytes i.t.f
  Memory.write ([] : Memory) 0 (if i.host then s.hostRead sp a n else s.mem.read a n)

/-- Products of the key switch of one ciphertext. -/
def kswMacs (f : Family) : Nat := ((upTo (Ksw.blocks f)).map fun b => 64 * Ksw.width f b).sum

/-- The input refreshed into its insertion region, its ciphertexts in ascending order over the clusters of the set; `runs` is 2 under DUAL. -/
def State.passInput (s : State) (sp : HostSpace) (cx : Nat) (set : List (Fin 64)) (runs : Nat) (i : Insertion) : State :=
  (upTo i.t.count).foldl (fun (s : State) k =>
    let cl := set.getD (k * set.length / i.t.count) 0
    let s := s.memWrite (i.into + k * i.t.stride) ((s.passOne i.t (s.passRead sp i k)).read 0 (i.t.layout.bytes i.t.f))
    ((s.tallyCl 0x202 cl (some cx) (runs * kswMacs i.t.f)).tallyCl 0x300 cl (some cx) (runs * i.t.f.steps)).tallyCl 0x301 cl (some cx) runs) s

/-- What the pass leaves undefined: the insertion areas of its clusters. -/
def Run.insAreas (r : Run) : List Dest := r.set.map fun (c : Fin 64) => { space := 0, cl := c.val, addr := r.insInk, len := r.insSize }
def Run.insRegions (r : Run) : List Dest := r.inserts.map fun (i : Insertion) => { space := 1, cl := 0, addr := i.into, len := i.t.count * i.t.stride }

/-! #### The pass's sweeps -/

/-- Thaw engines that serve a cluster (R217); under DUAL both run one command. -/
def State.engines (s : State) (cl : Fin 64) (dual : Bool) : Nat := if !dual && s.serves cl 0 != s.serves cl 1 then 2 else 1

/-- Ciphertexts of a Thaw batch: the largest that the insertion area holds beside its 1 MiB, up to 255. -/
def passBatch (f : Family) (dual : Bool) (size : Nat) : Nat :=
  let k := if dual then 2 else 1
  max 1 (min 255 ((size - 2 ^ 20 - k * f.windowBytes) / (k * f.accBytes)))

/-- Sweeps of each entry of an input's key set, bootstrapping key and KSK. DESIGN CHOICE: the batches that its clusters and their engines take in
step share one sweep, where the spec leaves to the arrival of subscriptions which of them meet (log 67). -/
def State.passSweeps (s : State) (r : Run) (dual : Bool) (i : Insertion) : Nat × Nat :=
  let share := divUp i.t.count r.set.length
  let thaw := divUp share (r.set.foldl (fun m c => min m (s.engines c dual)) 2)
  let runs := if dual && r.set.any fun c => s.serves c 0 == s.serves c 1 then 2 else 1
  (runs * divUp thaw (passBatch i.t.f dual r.insSize), divUp share 8)

/-- What one sweep of the pass counts: its start, its units by the die that reads them, and its place in the epoch. -/
def State.countSweep (s : State) (i : Nat) : State :=
  let e := s.entry i
  let s := { s with keys := { s.keys with epoch := s.keys.epoch.updD 0 i fun n => min (n + 1) 0xFFFF } }
  let s := (upTo 4).foldl (fun (s : State) die =>
    let n := Krt.share e die
    let s := s.tallyDie 0x801 (s.glacierOf die) n
    if Krt.firn e = 2 then s.tallyDie 0x802 (s.glacierOf die) n else s) s
  s.tallyDie 0x800 (s.glacierOf (unitDie (Krt.first e) 0)) 1

/-- How the first fragment of a sweep of the pass is judged (R82): index, generation and fingerprint of the QRUN's admission; an entry that no sweep
may read gives its own status. -/
def State.passKey (s : State) (r : Run) (h : BitVec 32) (n : Nat) : Status :=
  let e := s.entry (handleIdx h + n)
  if Krt.state e != stRESIDENT && Krt.state e != stEVICTING then Krt.stateStatus e
  else if Krt.gen e = handleGen h && (r.fps.find (handleIdx h + n)) == some (BitVec.ofNat 128 (Krt.fp e)) then .ok else .keyMismatch

/-- The Thaw pass of the chosen inputs, before any task starts: its sweeps of the key set, then its work; `fail` is a failed check of it. It waits for
a sweep slot, and for a rebuild of a key that it names. -/
def State.insertionPass (s : State) (d : DRef) (fail : List CheckFail) : State :=
  match s.adm d, s.run d with
  | some a, some r =>
    let sp := s.spaceOf d.ctx
    let named := r.inserts.flatMap fun i => [handleIdx i.t.kset, handleIdx i.t.kset + 1]
    if !r.checked || r.started || r.inserted || r.inserts.isEmpty || !s.runsNow d.ctx || named.any s.rebuilding then s
    else match Status.pick (causesOf [(r.set.any fun (c : Fin 64) => s.clFenced c, .unitFenced), (s.shed ≥ 5, .shed), (s.sweepsOff || s.krtFenced, .unitFenced)]) with
      | .ok =>
        if s.freeSlot.isNone || s.glacierOut || r.set.any (fun c => (s.serves c 0).isNone) then s
        else match r.inserts.find? fun (i : Insertion) => i.host && !s.xlOk sp i.addr (i.t.count * i.t.stride) false with
          | some i => s.ask (.work d.ctx (.desc d)) sp i.addr (i.t.count * i.t.stride) false
          | none =>
            let keys := Status.pick (r.inserts.flatMap fun i => [s.passKey r i.t.kset 0, s.passKey r i.t.kset 1])
            -- the entry whose first fragment does not match: unit 0, its index and generation (Table 15-3), at the Glacier that reads it
            let wrong := (r.inserts.flatMap fun i => [(i.t.kset, 0), (i.t.kset, 1)]).find? fun (h, n) => s.passKey r h n == .keyMismatch
            let e := (wrong.map fun (h, n) => s.entry (handleIdx h + n)).getD 0
            let o : FaultOf := { FaultOf.desc d keys 0 with detail := (wrong.map fun (h, n) => packNat [(20, 0), (17, handleIdx h + n), (15, Krt.gen e)]).getD 0 }
            let s := r.inserts.foldl (fun (s : State) i =>
              let (x, y) := s.passSweeps r a.modes.dual i
              let s := (upTo x).foldl (fun (s : State) _ => s.countSweep (handleIdx i.t.kset)) s
              (upTo y).foldl (fun (s : State) _ => s.countSweep (handleIdx i.t.kset + 1)) s) s
            if keys != .ok then
              let s := if keys = .keyMismatch then (s.dataFault (unitNo 8 (s.glacierOf (unitDie (Krt.first e) 0))) 0x20 o).tallyCl 0x803 (r.set.headD 0) (some d.ctx.val) else s
              (s.undefine r.insAreas).complete d keys
            else if !fail.isEmpty then
                let s := fail.foldl (fun (s : State) f => s.checkFault (checkUnit (r.set.headD 0) 1 0 f.mech.toNat f.addr.toNat f.part) f.mech.toNat
                  { FaultOf.desc d .faultDetected f.addr.toNat with detail := f.detail.toNat }) s
                (s.undefine (r.insAreas ++ r.insRegions)).complete d .faultDetected
            else
                let s := r.inserts.foldl (fun (s : State) i => s.passInput sp d.ctx.val r.set (if a.modes.dual then 2 else 1) i) s
                let s := s.undefine r.insAreas
                (s.updRun d fun r => { r with inserted := true }).updAdm d fun a => { a with refreshIns := true }
      | st => s.complete d st
  | _, _ => s

/-! ### Task start (R206) -/

/-- The lowest free place of a cluster (log 14). -/
def Eng.freePlace (e : Eng) : Option (Fin 8) := (List.finRange 8).find? fun p => e.tasks[p].isNone

/-- The registers of a task at its start. -/
def startRegs (idx ncl cl place : Nat) : Vector (BitVec 64) 32 :=
  (((Vector.replicate 32 (0 : BitVec 64)).set 1 (BitVec.ofNat 64 idx)).set 2 (BitVec.ofNat 64 ncl) |>.set 3 (BitVec.ofNat 64 cl)).set 4 (BitVec.ofNat 64 place)

/-- A QRUN's task on cluster number k of its set. -/
def State.startTask (s : State) (d : DRef) (a : Adm) (p : Prog) (k : Nat) (cl : Fin 64) : State :=
  let b := a.qrunBody
  match s.clusters[cl].eng.freePlace with
  | none => s
  | some pl =>
    let t : Task := {
      run := d, slot := b.slot, pc := p.entry, regs := startRegs k b.ncl cl.val pl.val, landed := b.argBytes == 0, argBytes := b.argBytes }
    let s := s.updEng cl fun e => { e with
      tasks := vupd e.tasks pl fun _ => some t
      dmem := e.dmem.write (8192 * pl.val) (leBytes 32 (fld a.body 255 0)) }
    (s.traceTask 0x03 cl pl d).resume cl

/-- An earlier QRUN of the context still waits for its tasks, or an earlier load that overwrites a slot of its program, `n` slots long, has not
ended (Table 8-13). -/
def State.startWaits (s : State) (d : DRef) (slot n : Nat) : Bool :=
  (s.earlier d).any fun (p : DRef × Adm) => match p.2.prog with
    | .qrun r => !r.started
    | _ => p.2.opcode == 0x78 && (s.loadSpan p.1 p.2).any fun x => x.1 < slot + n && slot < x.1 + x.2

/-- Tasks start on every cluster of the set once each has a free place; a QRUN of a context starts none before an earlier one. A slot without a
program and a fenced cluster are both causes (R11). -/
def State.qrunTaskStart (s : State) (d : DRef) : State :=
  match s.adm d, s.run d with
  | some a, some r =>
    let slot := a.qrunBody.slot
    let head := r.set.headD 0
    let prog := s.clusters[head].eng.progs.find slot
    if !r.checked || r.started || (!r.inserts.isEmpty && !r.inserted) || !s.runsNow d.ctx || s.startWaits d slot (s.progSpan head slot) then s
    else match Status.pick (causesOf [(r.set.any fun (c : Fin 64) => s.clFenced c, .unitFenced), (prog.isNone, .malformed)]), prog with
      | .ok, some p =>
        if r.set.all fun (c : Fin 64) => s.clusters[c].eng.freePlace.isSome && !s.unitOut 1 c then
          let s := s.updRun d fun r => { r with started := true }
          (r.set.zipIdx).foldl (fun (s : State) (x : Fin 64 × Nat) => s.startTask d a p x.2 x.1) s
        else s
      | st, _ => s.complete d st
  | _, _ => s

/-- The argument block lands at 0x0020 of every task of the QRUN. -/
def State.argsLanded (s : State) (d : DRef) : State :=
  match s.adm d, s.run d with
  | some a, some r =>
    let b := a.qrunBody
    let sp := s.spaceOf d.ctx
    if !r.started || r.failed || b.argBytes = 0 then s
    else if !r.argsRead && !s.xlOk sp b.argAddr b.argBytes false then s.ask (.work d.ctx (.desc d)) sp b.argAddr b.argBytes false
    else
      let args := if r.argsRead then r.args else s.hostRead sp b.argAddr b.argBytes
      r.set.foldl (fun (s : State) (cl : Fin 64) =>
        let s := (List.finRange 8).foldl (fun (s : State) (pl : Fin 8) => match s.clusters[cl].eng.tasks[pl] with
          | some t => if t.run = d && !t.landed then s.updEng cl fun e => { e with
                tasks := vupd e.tasks pl fun o => o.map fun (t : Task) => { t with landed := true }
                dmem := e.dmem.write (8192 * pl.val + 0x20) args } else s
          | none => s) s
        s.resume cl) s
  | _, _ => s

def execQprogLoad (d : DRef) (s : State) : Out := .next (s.work fun s => s.qprogLoad d)
def execQrun (d : LookCtl) (s : State) : Out := .next (s.work fun s => s.qrun d.d d.looks)
def execInsertionPass (d : DRef) (fail : List CheckFail) (s : State) : Out := .next (s.work fun s => s.insertionPass d fail)
def execQrunTaskStart (d : DRef) (s : State) : Out := .next (s.work fun s => s.qrunTaskStart d)
def execArgumentBlockLanded (d : DRef) (s : State) : Out := .next (s.work fun s => s.argsLanded d)

end Sys2Proof.Machine
end

