-- ==== Sys2Proof/Machine/Sync.lean ====
section
/-! DEFINITION. Flags, barriers and peers (12): the SYNC queue's bodies, the flag page, ring operations, and messages of peer ports. One
arbiter grants each request of a flag or barrier; where several consuming waits meet a set, the first in cluster order is served
(log 19). -/

namespace Sys2Proof.Machine

/-! ### Flags (R298 to R300, R306) -/

/-- The device flag that a local flag of a context names. -/
def State.devFlag (s : State) (cx : Fin 4096) (f : Nat) : Option Nat :=
  ((s.ctxs.find cx).bind fun c => c.blocks.find (f / 64)).map fun b => 64 * b + f % 64

/-- Word w of a context's flags. -/
def State.flagWord (s : State) (cx : Fin 4096) (w : Nat) : Nat :=
  match (s.ctxs.find cx).bind fun c => c.blocks.find w with
  | some b => fld s.sync.flags (64 * b + 63) (64 * b)
  | none => 0

/-- A mirror word written after a change (R306); while its page has no translation the module asks for one (log 37). -/
def State.mirror (s : State) (cx : Fin 4096) (w : Nat) : State :=
  match s.ctxs.find cx with
  | none => s
  | some c =>
    let sp := s.spaceOf cx
    let a := c.flagPage + 0x800 + 8 * w
    if s.xlOk sp a 8 true then s.hostPut sp a 8 (s.flagWord cx w)
    else s.ask (.area cx 6) sp a 8 true

/-- Every mirror word of a context, once its page has a translation again. -/
def State.mirrors (s : State) (cx : Fin 4096) : State :=
  match s.ctxs.find cx with
  | none => s
  | some c => (c.blocks.map (·.1)).foldl (fun (s : State) w => s.mirror cx w) s

def State.putFlag (s : State) (cx : Fin 4096) (f : Nat) (v : Bool) : State :=
  match s.devFlag cx f with
  | none => s
  | some g => ({ s with sync := { s.sync with flags := putFld s.sync.flags g g (boolNat v) } }).mirror cx (f / 64)

def State.flagSet? (s : State) (cx : Fin 4096) (f : Nat) : Bool := match s.devFlag cx f with
  | some g => s.sync.flags.getLsbD g
  | none => false

/-! ### SYNC bodies (Table 12-3) -/

structure SyncBody where
  op : Nat
  consume : Bool
  wait : Bool
  reserved : Bool
  index : Nat
  host : Bool
  src : Nat
  timeout : Nat
  count : BitVec 32

def SyncBody.of (b : BitVec 512) : SyncBody where
  op := fld b 7 0
  consume := fld b 8 8 == 1
  wait := fld b 9 9 == 1
  reserved := fld b 31 10 != 0
  index := fld b 43 32
  host := fld b 44 44 == 1
  src := fld b 47 45
  timeout := fld b 63 48
  count := BitVec.ofNat 32 (fld b 95 64)

def SyncBody.isBar (c : SyncBody) : Bool := c.op == 0x14

/-- The form of a body. -/
def SyncBody.bad (c : SyncBody) : Bool :=
  c.reserved || c.src = 6 || (c.op = 0x13 && c.src != 7) || ((c.isBar || c.host) && c.index > 255)

/-- A barrier of the context. -/
def State.bar (s : State) (cx : Fin 4096) (i : Nat) : Option Barrier := (s.sync.bars.find i).bind fun b => if b.owner = cx then some b else none

/-- A barrier's arrivals reach their root: this module's own, or the one at a bound port (R312). -/
def State.barCauses (s : State) (cx : Fin 4096) (i : Nat) : List Status :=
  match s.bar cx i with
  | none => [.permission]
  | some b => causesOf [(!b.configured, .malformed)] ++
      if b.configured && b.root != 0 then
        causesOf [(s.portFenced (b.root - 1), .unitFenced), ((s.binding cx (b.root - 1)).isNone, .permission)]
      else []

def State.flagCauses (s : State) (cx : Fin 4096) (host : Bool) (f : Nat) : List Status :=
  causesOf [(!host && (s.devFlag cx f).isNone, .permission)]

def State.syncCauses (s : State) (cx : Fin 4096) (c : SyncBody) : List Status :=
  if c.bad then [.malformed] else if c.isBar then s.barCauses cx c.index else s.flagCauses cx c.host c.index

/-- The condition of a body holds (R302). -/
def State.syncDue (s : State) (cl : Fin 64) (c : SyncBody) : Bool := c.src = 7 || s.clusters[cl].eng.gateOpen c.src c.count

/-! ### Waiters -/

/-- A waiter, its context, and the deadline of its wait. -/
def State.endWait (s : State) (w : WaitRef) (st : Status) (result : Nat := 0) : State :=
  match w with
  | .body cl q i => match s.work? cl q i with
    | some x => if x.done then s else s.endCmd cl q x (causesOf [(st != .ok, st)])
    | none => s
  | .desc d => s.complete d st (if st = .ok then result else 0)

/-- Held SYNC bodies of a context that runs, in cluster order. -/
def State.heldBodies (s : State) (cx : Fin 4096) : List (WaitRef × SyncBody × BitVec 16 × Bool) :=
  allClusters.flatMap fun cl => if s.clusters[cl].ctx = some cx then
      (s.queue cl 6).works.filterMap fun w => match w.kind with
        | .held _ phase counted => if w.done then none else some (WaitRef.body cl 6 w.b.no, SyncBody.of w.b.bits, phase, counted)
        | _ => none
    else []

/-- Who waits on a flag of a context, and whether each consumes it. -/
def State.flagWaiters (s : State) (cx : Fin 4096) (host : Bool) (f : Nat) : List (WaitRef × Bool) :=
  ((s.heldBodies cx).filterMap fun (w, c, _, _) => if c.op = 0x13 && c.host == host && c.index = f then some (w, c.consume) else none) ++
  s.descs.filterMap fun (p : DRef × Adm) => match p.2.prog with
    | .flagWait h i consume _ => if p.1.ctx = cx && h == host && i = f then some (WaitRef.desc p.1, consume) else none
    | _ => none

/-- Since when a wait has been before the hub. -/
def State.waitSince (s : State) (cx : Fin 4096) : WaitRef → Nat
  | .body cl q i => (((s.engOf cx cl).queues[q].works.find? (·.b.no == i)).map (·.issuedAt)).getD 0
  | .desc d => ((s.adm d).map (·.admitted)).getD 0

/-- The wait that came first: no later one is granted before it (R300, R380). -/
def State.firstWait (s : State) (cx : Fin 4096) : List WaitRef → Option WaitRef
  | [] => none
  | x :: r => match s.firstWait cx r with
    | none => some x
    | some y => if s.waitSince cx y < s.waitSince cx x then some y else some x

/-- A set flag satisfies every non-consuming wait and one consuming wait, which clears it in the same grant (R299, Table 12-1). -/
def State.wakeFlag (s : State) (cx : Fin 4096) (f : Nat) : State :=
  if !s.flagSet? cx f then s
  else
    let l := s.flagWaiters cx false f
    let s := (l.filter (!·.2)).foldl (fun (s : State) x => s.endWait x.1 .ok) s
    match s.firstWait cx ((l.filter (·.2)).map (·.1)) with
    | some x => (s.putFlag cx f false).endWait x .ok
    | none => s

def State.setFlag (s : State) (cx : Fin 4096) (f : Nat) : State := (s.putFlag cx f true).wakeFlag cx f

/-- The flag page that a descriptor uses: the one in force at its admission (R295). -/
def State.runPage (s : State) (d : DRef) : Nat := match s.adm d with
  | some a => fld a.desc 1215 1152
  | none => ((s.ctxs.find d.ctx).map (·.flagPage)).getD 0
/-- The flag page that a waiter uses. -/
def State.waitPage (s : State) : WaitRef → Nat
  | .body cl q i => ((s.work? cl q i).map fun w => s.runPage w.b.run).getD 0
  | .desc d => s.runPage d

/-- A host flag lies in a flag page. -/
def hostFlagAt (page i : Nat) : Nat := page + 4 * i
def State.hostFlagReady (s : State) (cx : Fin 4096) (page i : Nat) : Bool := s.xlOk (s.spaceOf cx) (hostFlagAt page i) 4 true
def State.askFlag (s : State) (w : WaitRef) (cx : Fin 4096) (page i : Nat) : State :=
  s.ask (.work cx w) (s.spaceOf cx) (hostFlagAt page i) 4 true
def State.putHostFlag (s : State) (cx : Fin 4096) (page i v : Nat) : State := s.hostPut (s.spaceOf cx) (hostFlagAt page i) 4 v
def State.hostFlagSet? (s : State) (cx : Fin 4096) (page i : Nat) : Bool := s.hostNat (s.spaceOf cx) (hostFlagAt page i) 4 != 0

/-- Waits on a host flag, evaluated as a re-read of its word finds it (R307). -/
def State.wakeHostFlag (s : State) (cx : Fin 4096) (page i : Nat) : State :=
  let l := (s.flagWaiters cx true i).filter fun x => s.waitPage x.1 = page
  if l.isEmpty then s
  else if !s.hostFlagReady cx page i then l.foldl (fun (s : State) x => s.askFlag x.1 cx page i) s
  else if !s.hostFlagSet? cx page i then s
  else
    let s := (l.filter (!·.2)).foldl (fun (s : State) x => s.endWait x.1 .ok) s
    match s.firstWait cx ((l.filter (·.2)).map (·.1)) with
    | some x => (s.putHostFlag cx page i 0).endWait x .ok
    | none => s

/-! ### Barriers (R309 to R312) -/

def State.updBar (s : State) (i : Nat) (f : Barrier → Barrier) : State := { s with sync := { s.sync with bars := s.sync.bars.upd i f } }

/-- Waiters of a barrier's phase. -/
def State.barWaiters (s : State) (cx : Fin 4096) (i : Nat) (phase : BitVec 16) : List WaitRef :=
  ((s.heldBodies cx).filterMap fun (w, c, ph, counted) => if c.isBar && c.index = i && counted && ph = phase then some w else none) ++
  s.descs.filterMap fun (p : DRef × Adm) => match p.2.prog with
    | .barWait b ph _ => if p.1.ctx = cx && b = i && ph = phase then some (WaitRef.desc p.1) else none
    | _ => none

/-- The phase of a barrier ends (R310): the next one begins, rel_flag is set, and every waiter of the ended phase is released. -/
def State.release (s : State) (i : Nat) : State :=
  match s.sync.bars.find i with
  | none => s
  | some b =>
    let s := s.updBar i fun b => { b with count := 0, phase := b.phase + 1, ports := [] }
    let s := b.ports.eraseDups.foldl (fun (s : State) p => s.send (.peerRelease p i (b.ports.filter (· == p)).length)) s
    let s := if b.relValid then s.setFlag b.owner b.relFlag else s
    (s.barWaiters b.owner i b.phase).foldl (fun (s : State) w => s.endWait w .ok b.phase.toNat) s

/-- One arrival counted at a root, from a port or from this module. -/
def State.countArrival (s : State) (i : Nat) (port : Option (Fin 2)) : State :=
  let s := s.updBar i fun b => { b with
    count := b.count + 1
    ports := b.ports ++ port.toList }
  match s.sync.bars.find i with
  | some b => if b.count.toNat = b.expected then s.release i else s
  | none => s

/-- An arrival of a context at its barrier, and who waits for the release: counted here, or forwarded to the root (R312). -/
def State.arrive (s : State) (cx : Fin 4096) (i : Nat) (who : Option WaitRef) : State :=
  match s.bar cx i with
  | none => s
  | some b =>
    if b.root = 0 then s.countArrival i none
    else match s.binding cx (b.root - 1) with
      | some k =>
        ({ s with sync := { s.sync with forwarded := s.sync.forwarded ++ [{ port := k.port, root := b.rootBar, bar := i, who }] } } : State).send
          (.peerArrive k.port k.remote b.rootBar)
      | none => s

def State.phaseNow (s : State) (cx : Fin 4096) (i : Nat) : BitVec 16 := ((s.bar cx i).map (·.phase)).getD 0

/-! ### The SYNC queue -/

/-- A body that cannot wait ends where it stands. -/
def State.syncEnd (s : State) (cl : Fin 64) (i : Nat) (causes : List Status) : State :=
  match s.work? cl 6 i with
  | some w => if w.done then s else s.endCmd cl 6 w causes
  | none => s

/-- A FLAG_SET, FLAG_CLEAR, FLAG_WAIT or BAR_ARRIVE that has issued does what it can now, and is held otherwise (R302). Hub flag state that it finds
uncorrectable ends it with FAULT_DETECTED (Table 12-11). -/
def State.syncTry (s : State) (cl : Fin 64) (w : Work) (ecc : Option HubEcc) : State :=
  let cx := w.b.run.ctx
  let c := SyncBody.of w.b.bits
  let who : WaitRef := .body cl 6 w.b.no
  let page := s.runPage w.b.run
  let causes := w.causes ++ s.syncCauses cx c
  if !causes.isEmpty then s.syncEnd cl w.b.no causes
  else if !s.syncDue cl c then s
  else if let some f := ecc then s.cmdFail cl 6 w [{ mech := 0x09, part := .hubSram, addr := f.addr, detail := f.detail }]
  else if c.op = 0x13 then (if c.host then s.wakeHostFlag cx page c.index else s.wakeFlag cx c.index)
  else if c.isBar then
    match w.kind with
    | .held dl _ false =>
      if c.wait then
        let ph := s.phaseNow cx c.index
        (s.updWork cl 6 w.b.no fun w => { w with kind := .held dl ph true }).arrive cx c.index (some who)
      else (s.arrive cx c.index none).syncEnd cl w.b.no []
    | _ => s
  else if c.host then
    if s.hostFlagReady cx page c.index then
      let s := (s.putHostFlag cx page c.index (if c.op = 0x11 then 1 else 0)).syncEnd cl w.b.no []
      if c.op = 0x11 then s.wakeHostFlag cx page c.index else s
    else s.askFlag who cx page c.index
  else
    let s := s.putFlag cx c.index (c.op == 0x11)
    let s := s.syncEnd cl w.b.no []
    if c.op = 0x11 then s.wakeFlag cx c.index else s

/-- A SYNC body at the head of its queue issues, or held body number i goes on. -/
def State.syncRow (s : State) (cl : Fin 64) (op : Nat) (held : Option Nat) (ecc : Option HubEcc) : State :=
  match held with
  | none => match s.headOp cl 6 op with
    | none => s
    | some (b, a) =>
      let c := SyncBody.of b.bits
      let dl := if (op = 0x13 || (op = 0x14 && c.wait)) && c.timeout != 0 then some (s.timebase + 1000 * c.timeout) else none
      let s := s.issue cl 6 a (s.workOf b a (.held dl 0 false) [])
      match s.work? cl 6 b.no with
      | some w => s.syncTry cl w ecc
      | none => s
  | some i => match s.work? cl 6 i with
    | some w => if !s.inService cl || w.done || fld w.b.bits 7 0 != op then s else s.syncTry cl w ecc
    | none => s

/-- QGATE (R215): a gate that cannot hold a queue, or has a reserved bit, is refused and opens at once. -/
def State.qgate (s : State) (cl : Fin 64) : State :=
  match s.headOp cl 6 0x10 with
  | none => s
  | some (b, a) =>
    if !gateOk b.bits || fld b.bits 63 16 != 0 then
      let s := s.updEng cl fun e => { e with queues := e.queues.map fun k => k.unmark [b.no] }
      (s.refuse cl 6 b a [.malformed]).syncEnd cl b.no [.malformed]
    else
      let s := s.issue cl 6 a (s.workOf b a (.gate (fld b.bits 11 8) (fld b.bits 15 12) (BitVec.ofNat 32 (fld b.bits 95 64))) [])
      (s.retire cl 6).finishRuns

/-- The deadline of a wait. -/
def State.deadlineOf (s : State) (w : WaitRef) : Option Nat := match w with
  | .body cl q i => match s.work? cl q i with
    | some x => match x.kind with
      | .held dl _ _ => if x.done then none else dl
      | _ => none
    | none => none
  | .desc d => (s.adm d).bind fun (a : Adm) => match a.prog with
    | .flagWait _ _ _ dl => dl
    | .barWait _ _ dl => dl
    | _ => none

/-- A wait's timeout expires (R303, R311): the wait ends with TIMEOUT, the flag is not consumed, an arrival stays counted. -/
def State.syncTimeout (s : State) (w : WaitRef) : State :=
  match s.deadlineOf w with
  | some t => (s.advance t).endWait w .timeout
  | none => s

/-- Held bodies of a cluster evaluated again as its context resumes (R311): satisfied first, then ended by a passed deadline. -/
def State.syncResume (s : State) (cl : Fin 64) : State :=
  let l := (s.queue cl 6).works.filterMap fun w => match w.kind with
    | .held _ _ _ => if w.done then none else some w.b.no
    | _ => none
  l.foldl (fun (s : State) i => match s.work? cl 6 i with
    | some w =>
      if w.done then s
      else if !w.causes.isEmpty then s.syncEnd cl i []
      else
        let c := SyncBody.of w.b.bits
        let s := match w.kind with
          | .held _ ph true => if s.phaseNow w.b.run.ctx c.index != ph && (s.bar w.b.run.ctx c.index).isSome then s.syncEnd cl i [] else s
          | _ => s.syncTry cl w none
        match s.work? cl 6 i with
        | some w => match w.done, w.kind with
          | false, .held (some t) _ _ => if t ≤ s.timebase then s.syncEnd cl i [.timeout] else s
          | _, _ => s
        | none => s
    | none => s) s

/-! ### The flag page (R305, R307) -/

/-- The bits of a request word applied to the flags of a block. -/
def State.applyFlags (s : State) (cx : Fin 4096) (w : Nat) (bits : BitVec 64) (v : Bool) : State :=
  (upTo 64).foldl (fun (s : State) b => if bits.getLsbD b then (if v then s.setFlag cx (64 * w + b) else s.putFlag cx (64 * w + b) false) else s) s

/-- The request words of an index taken, each non-zero one with an exchange of 0, set_req before clr_req (R305); while the page has no translation the
module asks for one, and takes them once it has come. -/
def State.takeFlags (s : State) (cx : Fin 4096) (w : Nat) : State :=
  match s.ctxs.find cx with
  | none => s
  | some c =>
    let sp := s.spaceOf cx
    let setAt := c.flagPage + 0x400 + 8 * w
    let clrAt := c.flagPage + 0x600 + 8 * w
    if !s.xlOk sp setAt 8 true then s.ask (.area cx 6) sp setAt 8 true
    else
      let setReq := BitVec.ofNat 64 (s.hostNat sp setAt 8)
      let clrReq := BitVec.ofNat 64 (s.hostNat sp clrAt 8)
      let s := if setReq = 0 then s else s.hostPut sp setAt 8 0
      let s := if clrReq = 0 then s else s.hostPut sp clrAt 8 0
      (s.applyFlags cx w setReq true).applyFlags cx w clrReq false

/-- A snoop of a request line: the bits that the host has set with its atomic ORs stand in its memory, and are taken. -/
def State.flagRequest (s : State) (cx : Fin 4096) (w : Fin 64) (setReq clrReq : BitVec 64) : State :=
  match s.ctxs.find cx with
  | none => s
  | some c =>
    let sp := s.spaceOf cx
    let put (a : Nat) (v : BitVec 64) (s : State) : State :=
      if v = 0 then s else s.hostPut sp a 8 (BitVec.ofNat 64 (s.hostNat sp a 8) ||| v).toNat
    if !s.ready then s
    else ((put (c.flagPage + 0x600 + 8 * w.val) clrReq (put (c.flagPage + 0x400 + 8 * w.val) setReq s)).takeFlags cx w)

/-- A context's flag page once it has a translation again: its mirror words and the requests that wait. -/
def State.flagPageBack (s : State) (cx : Fin 4096) : State := (upTo 64).foldl (fun (s : State) w => s.takeFlags cx w) (s.mirrors cx)

/-- A snoop of a held host-flag line: the word read again. A line is held only while a wait on it is held (R304); its page is the context's present one,
or, where nobody waits there, that of the oldest wait (R295). -/
def State.hostFlagSnoop (s : State) (cx : Fin 4096) (hf : Fin 256) (v : BitVec 32) : State :=
  let line := hf.val / 16
  let pages := ((upTo 16).flatMap fun k => s.flagWaiters cx true (16 * line + k)).map fun x => s.waitPage x.1
  match pages with
  | [] => s
  | p :: _ =>
    let now := ((s.ctxs.find cx).map (·.flagPage)).getD p
    let page := if pages.contains now then now else p
    (s.putHostFlag cx page hf v.toNat).wakeHostFlag cx page hf

/-! ### Ring operations (R308) -/

/-- The body of a sync or peer operation (Table 12-6). -/
structure SyncOp where
  index : Nat
  bar : Bool
  host : Bool
  op : Nat
  portEn : Nat
  moduleId : BitVec 16
  ctx : Fin 4096
  remote : Fin 4096
  relFlag : Nat
  relValid : Bool
  port : Fin 2
  root : Nat
  rootBar : Nat
  expected : Nat
  timeout : Nat
  reserved : Bool

def SyncOp.of (b : BitVec 384) : SyncOp where
  index := fld b 11 0
  bar := fld b 72 72 == 1
  host := fld b 73 73 == 1
  op := fld b 75 74
  portEn := fld b 79 78
  moduleId := BitVec.ofNat 16 (fld b 95 80)
  ctx := Fin.ofNat 4096 (fld b 107 96)
  remote := Fin.ofNat 4096 (fld b 119 108)
  relFlag := fld b 131 120
  relValid := fld b 132 132 == 1
  port := Fin.ofNat 2 (fld b 133 133)
  root := fld b 135 134
  rootBar := fld b 143 136
  expected := fld b 159 144
  timeout := fld b 175 160
  reserved := fld b 383 176 != 0 || fld b 77 76 != 0 || fld b 71 12 != 0

/-- A flag or barrier operation on which hub flag state is found uncorrectable ends with FAULT_DETECTED (Table 12-11). -/
def State.hubEcc (s : State) (d : DRef) (f : HubEcc) : State :=
  (s.dataFault (unitNo 14 0) 0x09 { FaultOf.desc d .faultDetected f.addr.toNat with detail := f.detail.toNat }).complete d .faultDetected

/-- An operation that has begun and is held at the hub. -/
def Adm.syncHeld (a : Adm) : Bool := match a.prog with
  | .flagWait _ _ _ _ | .barWait _ _ _ | .barConfirm => true
  | _ => false

/-- A sync or peer operation that waits for its row: `perm` gives the causes beside those of its form and class, and f its effect where there are
none (R11, Table 12-11). -/
def State.syncOp (s : State) (d : DRef) (op : Nat) (ecc : Option HubEcc) (bad : SyncOp → Bool) (perm : State → SyncOp → List Status)
    (f : State → SyncOp → State) : State :=
  match s.adm d, s.fresh d op, ecc with
  | some a, none, some e => if a.opcode = op && a.syncHeld then s.hubEcc d e else s
  | _, some _, some e => s.hubEcc d e
  | _, some a, none =>
    let c := SyncOp.of a.body
    let adminOp := op == 0x98 || op == 0x99
    let causes := causesOf [(c.reserved || bad c, .malformed), ((a.cls == .admin) != adminOp, .paramUnsupported), (s.deadPart d.ctx, .unitFenced)] ++ perm s c
    if causes.isEmpty then f s c else s.complete d (Status.pick causes)
  | _, none, _ => s

def State.updSync (s : State) (f : Sync → Sync) : State := { s with sync := f s.sync }

/-- The lowest free local slot of a context and the lowest free block; the lowest free barrier (R298; log 14). -/
def State.freeBlock (s : State) (cx : Fin 4096) : Option (Nat × Nat) :=
  let own : Table Nat := ((s.ctxs.find cx).map (·.blocks)).getD []
  match (upTo 64).find? (fun i => (Table.find own i).isNone), (upTo 512).find? (fun i => (s.sync.blocks.find i).isNone) with
  | some i, some b => some (i, b)
  | _, _ => none
def State.freeBar (s : State) : Option Nat := (upTo 256).find? fun i => (s.sync.bars.find i).isNone

/-- SYNC_ALLOC (R298). -/
def State.syncAlloc (s : State) (d : DRef) (ecc : Option HubEcc) : State :=
  s.syncOp d 0x90 ecc (fun _ => false)
    (fun s c => causesOf [(if c.bar then s.freeBar.isNone else (s.freeBlock d.ctx).isNone, .permission)]) fun s c =>
    if c.bar then
      match s.freeBar with
      | some i => (s.updSync fun y => { y with bars := y.bars.set i { owner := d.ctx } }).complete d .ok i
      | none => s
    else match s.freeBlock d.ctx with
      | some (i, b) =>
        let s := s.updSync fun y => { y with blocks := y.blocks.set b (d.ctx, i), flags := putFld y.flags (64 * b + 63) (64 * b) 0 }
        ((s.updCtx d.ctx fun c => { c with blocks := c.blocks.set i b }).mirror d.ctx i).complete d .ok i
      | none => s

/-- The device block of a local slot. -/
def State.blockOf (s : State) (cx : Fin 4096) (i : Nat) : Option Nat := (s.ctxs.find cx).bind fun x => x.blocks.find i

/-- SYNC_FREE of a block or a barrier of the context. -/
def State.syncFree (s : State) (d : DRef) (ecc : Option HubEcc) : State :=
  s.syncOp d 0x91 ecc (fun c => if c.bar then c.index > 255 else c.index > 63)
    (fun s c => causesOf [(if c.bar then (s.bar d.ctx c.index).isNone else (s.blockOf d.ctx c.index).isNone, .permission)]) fun s c =>
    if c.bar then (s.updSync fun y => { y with bars := y.bars.erase c.index }).complete d .ok
    else match s.blockOf d.ctx c.index with
      | some b => ((s.updSync fun y => { y with blocks := y.blocks.erase b }).updCtx d.ctx fun x => { x with blocks := x.blocks.erase c.index }).complete d .ok
      | none => s

/-- The deadline of a ring wait. -/
def State.opDeadline (s : State) (c : SyncOp) : Option Nat := if c.timeout = 0 then none else some (s.timebase + 1000 * c.timeout)

/-- FLAG_OP: set, clear, wait, or wait and consume; a wait is held at the hub. -/
def State.flagOp (s : State) (d : DRef) (ecc : Option HubEcc) : State :=
  s.syncOp d 0x92 ecc (fun c => c.host && c.index > 255) (fun s c => s.flagCauses d.ctx c.host c.index) fun s c =>
    let cx := d.ctx
    let page := s.runPage d
    if c.host && !s.hostFlagReady cx page c.index then s.askFlag (.desc d) cx page c.index
    else if c.op < 2 then
      if c.host then
        let s := (s.putHostFlag cx page c.index (1 - c.op)).complete d .ok
        if c.op = 0 then s.wakeHostFlag cx page c.index else s
      else
        let s := (s.putFlag cx c.index (c.op == 0)).complete d .ok
        if c.op = 0 then s.wakeFlag cx c.index else s
    else
      let s := s.setProg d (.flagWait c.host c.index (c.op == 3) (s.opDeadline c))
      if c.host then s.wakeHostFlag cx page c.index else s.wakeFlag cx c.index

/-- Held waiters of a barrier in what a switch saved of its context meet ABORTED, with which they end as the context resumes (R309, R311). -/
def State.abortSaved (s : State) (cx : Fin 4096) (i : Nat) (phase : BitVec 16) : State :=
  let hit (w : Work) : Work := match w.kind with
    | .held _ ph true =>
      let c := SyncBody.of w.b.bits
      if !w.done && c.isBar && c.index = i && ph = phase then { w with causes := w.causes ++ [.aborted] } else w
    | _ => w
  s.updCtx cx fun x => { x with saved := x.saved.map fun p => (p.1, { p.2 with queues := p.2.queues.map fun k => { k with works := k.works.map hit } }) }

/-- A barrier takes its configuration and count 0, and its held waiters end with ABORTED (R309). -/
def State.configBar (s : State) (d : DRef) (c : SyncOp) : State :=
  match s.bar d.ctx c.index with
  | none => s.complete d .permission
  | some b =>
    let s := s.updBar c.index fun b => { b with
      expected := c.expected, root := c.root, rootBar := c.rootBar, relValid := c.relValid, relFlag := c.relFlag, configured := true
      count := 0, ports := [] }
    let s := (s.barWaiters d.ctx c.index b.phase).foldl (fun (s : State) w => s.endWait w .aborted) s
    (s.abortSaved d.ctx c.index b.phase).complete d .ok

/-- BAR_CONFIG: a peer root is asked first (R312). -/
def State.barConfig (s : State) (d : DRef) (ecc : Option HubEcc) : State :=
  s.syncOp d 0x93 ecc (fun c => c.index > 255 || c.root = 3 || (c.root == 0) != (c.expected != 0))
    (fun s c => causesOf [((s.bar d.ctx c.index).isNone || (c.relValid && (s.devFlag d.ctx c.relFlag).isNone), .permission),
      (c.root != 0 && s.portFenced (c.root - 1), .unitFenced), (c.root != 0 && (s.binding d.ctx (c.root - 1)).isNone, .permission)]) fun s c =>
    if c.root = 0 then s.configBar d c
    else match s.binding d.ctx (c.root - 1) with
      | some k => (s.send (.peerConfirm k.port k.remote c.rootBar)).setProg d .barConfirm
      | none => s

/-- The root's answer to a BAR_CONFIG. -/
def State.barConfirm (s : State) (port : Fin 2) (d : DRef) (ok : Bool) : State :=
  match s.adm d with
  | some a =>
    let c := SyncOp.of a.body
    if a.prog != .barConfirm || c.root != port.val + 1 then s
    else if ok then s.configBar d c else s.complete d .permission
  | none => s

/-- Ring BAR_ARRIVE: its result word is the phase at the arrival. -/
def State.barArriveRing (s : State) (d : DRef) (ecc : Option HubEcc) : State :=
  s.syncOp d 0x94 ecc (fun c => c.op % 2 = 1 || c.index > 255) (fun s c => s.barCauses d.ctx c.index) fun s c =>
    let cx := d.ctx
    let ph := s.phaseNow cx c.index
    if c.op = 0 then (s.complete d .ok ph.toNat).arrive cx c.index none
    else (s.setProg d (.barWait c.index ph (s.opDeadline c))).arrive cx c.index (some (.desc d))

/-! ### Peers (R313 to R315, R330) -/

/-- Every port that PEER_CONFIG waits for is on: its result word holds the partners' IDs. -/
def State.peerConfigDone (s : State) : State :=
  if s.sync.ports.toList.any (·.attesting) then s
  else s.descs.foldl (fun (s : State) (p : DRef × Adm) =>
    if p.2.prog == .peerConfig then s.complete p.1 .ok (packNat [(16, s.sync.ports[0].partner.toNat), (16, s.sync.ports[1].partner.toNat)]) else s) s

/-- A port starts its exchange: the device record, the alias record and a nonce go out (R330). -/
def State.attestPort (s : State) (p : Fin 2) : State :=
  let nonce := Config.entropy s.free
  let out := leBytes 512 Crypto.deviceRecord.toNat ++ leBytes 512 s.sec.aliasRecord.toNat ++ leBytes 64 nonce.toNat
  ((s.updSync fun y => { y with ports := vupd y.ports p fun q => { q with attesting := true, nonce, records := none, report := none } }).send
    (.peerAttest p out)).drawn

/-- PEER_CONFIG: the module takes its ID; ports that it does not enable are off. -/
def State.peerConfig (s : State) (d : DRef) : State :=
  let on (c : SyncOp) (p : Fin 2) : Bool := c.portEn / 2 ^ p.val % 2 == 1
  s.syncOp d 0x98 none (fun c => c.moduleId = 0)
    (fun s c => causesOf [(([0, 1] : List (Fin 2)).any fun p => on c p && s.portFenced p, .unitFenced)]) fun s c =>
    let s := (s.setProg d .peerConfig).updSync fun y => { y with moduleId := c.moduleId }
    (([0, 1] : List (Fin 2)).foldl (fun (s : State) p =>
      if on c p then s.attestPort p else s.updSync fun y => { y with ports := vupd y.ports p fun _ => {} }) s).peerConfigDone

/-- The exchange of a port ends without enabling it, and PEER_CONFIG with it. -/
def State.peerRefused (s : State) (p : Fin 2) (st : Status) : State :=
  (s.updSync fun y => { y with ports := vupd y.ports p fun _ => {} }).endPeerConfigs st

/-- A partner's message (R330). Its records and nonce have the public-key engine make a report over the nonce, and its chain is checked once its
report is here too (R333); a fenced engine ends the exchange (R339). DESIGN CHOICE: an enabled port whose partner opens an exchange opens its own
(log 79). -/
def State.peerMessage (s : State) (m : PeerMsg) : State :=
  let q := s.sync.ports[m.port]
  let put (s : State) (f : Port → Port) : State := s.updSync fun y => { y with ports := vupd y.ports m.port f }
  let ask (s : State) (l : List PkeOp) : State := { s with sec := { s.sec with waiting := s.sec.waiting ++ l } }
  if !q.attesting && !q.enabled then s
  else if s.pkeFenced then s.peerRefused m.port .unitFenced
  else match m.part with
    | .records r =>
      let s := if q.attesting then s else s.attestPort m.port
      ask (put s fun q => { q with records := some r }) ([.peerReport m.port] ++ if q.attesting && q.report.isSome then [.peer m.port] else [])
    | .report r =>
      if !q.attesting || q.report.isSome then s
      else ask (put s fun q => { q with report := some r }) (if q.records.isSome then [.peer m.port] else [])

/-- What the engine finds of a partner: its chain verifies under the manufacturing root fingerprint, the report carries the nonce sent, and M0 to
M3 are this module's own (R330). -/
def State.peerVerdict (s : State) (p : Fin 2) : Status :=
  let q := s.sync.ports[p]
  match q.records, q.report with
  | some m, some r =>
    let own : List (BitVec 512) := [s.env.meas[0], s.env.meas[1], s.env.meas[2], s.env.meas[3]]
    if Crypto.chainOk m.device m.alias_ r q.nonce && Crypto.reportMeas r == own then .ok else .permission
  | _, _ => .permission

/-- The engine has checked a partner: the port is enabled, or PEER_CONFIG ends and the port stays off. -/
def State.peerChecked (s : State) (p : Fin 2) (st : Status) : State :=
  match s.sync.ports[p].records with
  | none => s
  | some m =>
    if st = .ok && !s.portFenced p then
      (s.updSync fun y => { y with ports := vupd y.ports p fun _ => { enabled := true, lanes := if s.shed ≥ 2 then 2 else 4, partner := m.partner } }).peerConfigDone
    else s.peerRefused p (if st = .ok then .unitFenced else st)

/-- The causes of a PEER_BIND: at most one binding per port of a context (R314). -/
def State.bindCauses (s : State) (c : SyncOp) : List Status :=
  causesOf [(s.portFenced c.port, .unitFenced), ((s.ctxs.find c.ctx).isNone || (s.binding c.ctx c.port).isSome, .permission)]

def State.peerBind (s : State) (d : DRef) : State :=
  s.syncOp d 0x99 none (fun c => c.timeout = 0) State.bindCauses fun s c =>
    (s.send (.peerBind c.port c.ctx c.remote)).setProg d (.peerBind (s.timebase + 1000 * c.timeout))

/-- The peer's matching PEER_BIND: the context must still be ACTIVE, and without a binding on the port. -/
def State.peerBindMatch (s : State) (d : DRef) (window : BitVec 20) : State :=
  match s.adm d with
  | some a => match a.prog with
    | .peerBind _ =>
      let c := SyncOp.of a.body
      let active := ((s.ctxs.find c.ctx).map fun (x : Ctx) => x.st == CtxState.active).getD false
      let causes := s.bindCauses c ++ causesOf [(!active, .permission)]
      if !causes.isEmpty then s.complete d (Status.pick causes)
      else (s.updSync fun y => { y with bindings := y.bindings ++ [⟨c.port, c.ctx, c.remote, window.toNat⟩] }).complete d .ok window.toNat
    | _ => s
  | none => s

def State.peerBindTimeout (s : State) (d : DRef) : State :=
  match s.adm d with
  | some a => match a.prog with
    | .peerBind t => (s.advance t).complete d .timeout
    | _ => s
  | none => s

/-- A forwarded arrival is counted at its barrier, or dropped where nothing takes it (R312, R319). -/
def State.peerArrival (s : State) (port : Fin 2) (cx : Fin 4096) (i : Fin 256) : State :=
  match s.bar cx i, s.binding cx port with
  | some b, some _ => if b.configured && b.root = 0 && !s.portFenced port then s.countArrival i (some port) else s
  | _, _ => s

/-- A waiter whose arrival the root counts in a later phase goes on to wait for it. -/
def State.nextPhase (s : State) (cx : Fin 4096) (b : Barrier) : WaitRef → State
  | .body cl q i => s.updEngOf cx cl fun e => { e with queues := vupd e.queues q fun k => { k with works := k.works.map fun w => match w.kind with
      | .held dl ph true => if w.b.no = i && ph = b.phase then { w with kind := .held dl (ph + 1) true } else w
      | _ => w } }
  | .desc d => s.updAdm d fun a => match a.prog with
      | .barWait i ph dl => if ph = b.phase then { a with prog := .barWait i (ph + 1) dl } else a
      | _ => a

/-- A root's release: the barriers that name it as their root end their phase. `arrivals` is how many of the arrivals forwarded to it the ended
phase counted, oldest first: the others wait for the next (R312; DESIGN CHOICE: the spec gives the message no form that names a phase; log 68). -/
def State.peerRelease (s : State) (port : Fin 2) (root : Fin 256) (arrivals : Nat) : State :=
  let mine (x : Forwarded) : Bool := x.port == port && x.root = root.val
  let later := (s.sync.forwarded.filter mine).drop arrivals
  let s := s.updSync fun y => { y with forwarded := y.forwarded.filter (fun x => !mine x) ++ later }
  let s := later.foldl (fun (s : State) x => match x.who, s.sync.bars.find x.bar with
    | some w, some b => s.nextPhase b.owner b w
    | _, _ => s) s
  (s.sync.bars.filterMap fun (i, b) => if b.configured && b.root = port.val + 1 && b.rootBar = root.val then some i else none).foldl
    (fun (s : State) i => s.release i) s

/-- A peer's write into the window of the context bound to it: a write of class BULK at the channels; the flag follows once every byte of it has been
served (R315). One that addresses a fenced stack is never acknowledged (R265). -/
def State.peerWrite (s : State) (port : Fin 2) (cx : Fin 4096) (off : Nat) (data : List Byte) (rflag : Option (BitVec 12)) : State :=
  match s.ctxs.find cx, s.binding cx port with
  | some c, some _ =>
    if s.portFenced port || off + data.length > 2 ^ 21 * c.f 371 352 then s
    else
      let a := 2 ^ 21 * c.f 339 320 + off
      let no := s.sync.nextArrival
      if s.memFenced a data.length then s
      else if data.isEmpty then (match rflag with
        | some f => s.setFlag cx f.toNat
        | none => s)
      else (s.updSync fun y => { y with nextArrival := no + 1, arrivals := y.arrivals ++ [{ no, ctx := cx, addr := a, data, flag := rflag }] }).post (.peer no) .bulk true a data.length
  | _, _ => s

/-- A channel has served its part of a peer's write; the last part sets the flag, unless a word has failed SECDED (R257, R315). -/
def State.peerServed (s : State) (ch : Fin 160) (no : Nat) (bad : List Nat) : State :=
  match s.sync.arrivals.find? (·.no == no) with
  | none => s
  | some x =>
    let s := s.putPart ch x.addr x.data.length bad (s.mem.write x.addr x.data)
    let s := bad.foldl (fun (s : State) k => s.wordFault ch k { ctx := x.ctx }) s
    let failed := x.failed || !bad.isEmpty
    if s.memWaits (.peer no) then s.updSync fun y => { y with arrivals := y.arrivals.map fun z => if z.no = no then { z with failed } else z }
    else
      let s := s.updSync fun y => { y with arrivals := y.arrivals.filter (·.no != no) }
      match x.flag, failed with
      | some f, false => s.setFlag x.ctx f.toNat
      | _, _ => s

def Xfer.toPort (x : Xfer) (p : Fin 2) : Bool := x.dst.any fun (y : Place) => y.space == 3 && y.id == p.val

/-- A port's retries have failed, or its partner has left (R313): commands and SEND parts under way to it fail, and the port is fenced. -/
def State.portFail (s : State) (p : Fin 2) : State :=
  if s.portFenced p then s
  else
    let u := unitNo 0x0F p
    let works := allClusters.flatMap fun cl => (s.queue cl 4).works.filterMap fun w =>
      if !w.done && fld w.b.bits 7 0 = 0x88 && fld w.b.bits 81 81 = p.val then some (cl, w) else none
    let runs := allClusters.flatMap fun cl => (s.clusters[cl].eng.sends ++ s.clusters[cl].eng.xfers).filterMap fun x =>
      if x.toPort p && x.owner.isNone then some x.run else none
    let s := allClusters.foldl (fun (s : State) cl =>
      (s.dropXfers cl (·.toPort p)).updEng cl fun e => { e with sends := e.sends.filter (!·.toPort p) }) s
    let recs := (works.map fun (x : Fin 64 × Work) => s.faultRec u 0x13 (x.2.fault x.1 4 .faultDetected 0 0)) ++
      runs.eraseDups.map fun d => s.faultRec u 0x13 (.desc d .faultDetected 0)
    let s := works.foldl (fun (s : State) (x : Fin 64 × Work) => s.addCause x.1 4 x.2.b.no .faultDetected) s
    let s := runs.eraseDups.foldl (fun (s : State) d => s.failRun d .faultDetected 0) s
    let s := s.fence u 0x13 false recs
    s.descs.foldl (fun (s : State) (x : DRef × Adm) =>
      if x.2.prog == .barConfirm && (SyncOp.of x.2.body).root = p.val + 1 then s.complete x.1 .permission else s) s

/-! ### The commands -/

def execQgate (cl : Fin 64) (s : State) : Out := .next (s.work fun s => s.qgate cl)
def execFlagSet (cl : Fin 64) (h : HeldCtl) (s : State) : Out := .next (s.work fun s => s.syncRow cl 0x11 h.held h.ecc)
def execFlagClear (cl : Fin 64) (h : HeldCtl) (s : State) : Out := .next (s.work fun s => s.syncRow cl 0x12 h.held h.ecc)
def execFlagWait (cl : Fin 64) (h : HeldCtl) (s : State) : Out := .next (s.work fun s => s.syncRow cl 0x13 h.held h.ecc)
def execBarArrive (cl : Fin 64) (h : HeldCtl) (s : State) : Out := .next (s.work fun s => s.syncRow cl 0x14 h.held h.ecc)
def execSyncTimeout (w : WaitRef) (s : State) : Out := .next (s.work fun s => s.syncTimeout w)
def execFlagRequestSnoop (ctx : Fin 4096) (w : Fin 64) (setReq clrReq : BitVec 64) (s : State) : Out :=
  .next (s.work fun s => s.flagRequest ctx w setReq clrReq)
def execHostFlagSnoop (ctx : Fin 4096) (hf : Fin 256) (v : BitVec 32) (s : State) : Out := .next (s.work fun s => s.hostFlagSnoop ctx hf v)
def execSyncAlloc (d : SyncCtl) (s : State) : Out := .next (s.work fun s => s.syncAlloc d.d d.ecc)
def execSyncFree (d : SyncCtl) (s : State) : Out := .next (s.work fun s => s.syncFree d.d d.ecc)
def execFlagOp (d : SyncCtl) (s : State) : Out := .next (s.work fun s => s.flagOp d.d d.ecc)
def execBarConfig (d : SyncCtl) (s : State) : Out := .next (s.work fun s => s.barConfig d.d d.ecc)
def execBarArriveRing (d : SyncCtl) (s : State) : Out := .next (s.work fun s => s.barArriveRing d.d d.ecc)
def execPeerConfig (d : DRef) (s : State) : Out := .next (s.work fun s => s.peerConfig d)
def execPeerAttestMessage (m : PeerMsg) (s : State) : Out := .next (s.work fun s => s.peerMessage m)
def execPeerBind (d : DRef) (s : State) : Out := .next (s.work fun s => s.peerBind d)
def execPeerBindMatch (d : DRef) (window : BitVec 20) (s : State) : Out := .next (s.work fun s => s.peerBindMatch d window)
def execPeerBindTimeout (d : DRef) (s : State) : Out := .next (s.work fun s => s.peerBindTimeout d)
def execPeerBarrierArrival (port : Fin 2) (ctx : Fin 4096) (bar : Fin 256) (s : State) : Out := .next (s.work fun s => s.peerArrival port ctx bar)
def execPeerBarrierRelease (port : Fin 2) (bar : PeerRelease) (s : State) : Out :=
  .next (s.work fun s => s.peerRelease port bar.bar bar.arrivals)
def execPeerBarrierConfirm (port : Fin 2) (d : DRef) (ok : Bool) (s : State) : Out := .next (s.work fun s => s.barConfirm port d ok)
def execPeerWriteReceive (port : Fin 2) (ctx : Fin 4096) (off : BitVec 64) (data : List Byte) (rflag : Option (BitVec 12)) (s : State) : Out :=
  .next (s.work fun s => s.peerWrite port ctx off.toNat data rflag)
def execPeerPortFail (port : Fin 2) (s : State) : Out := .next (s.work fun s => s.portFail port)

end Sys2Proof.Machine
end

