-- ==== Sys2Proof/Machine/Rings.lean ====
section
/-! DEFINITION. Host rings and contexts (11): doorbells, admission, translations and page faults, aborts, and the context operations. -/

namespace Sys2Proof.Machine

/-! ### Doorbells (R275, R276, R278) -/

/-- Descriptors of a ring read up to its tail, by fuel over their number; a page without a translation is asked for. -/
def State.fetch (cx : Fin 4096) (r : Fin 4) : Nat → State → State
  | 0, s => s
  | n + 1, s =>
    match s.ctxs.find cx with
    | none => s
    | some c =>
      let sp := s.spaceOf cx
      let a := c.sqBase r + 64 * (c.sqHead[r].toNat % c.sqSize r)
      if s.xlOk sp a 64 false then
        let w : Waiting := { ring := r, idx := c.sqHead[r], bits := BitVec.ofNat 512 (s.hostNat sp a 64) }
        State.fetch cx r n (s.updCtx cx fun c => { c with waiting := c.waiting ++ [w], sqHead := vupd c.sqHead r (· + 1) })
      else s.ask (.area cx 1) sp a 64 false

/-- Every descriptor that a ring of an ACTIVE context has and the hub has not read. -/
def State.fetchRing (s : State) (cx : Fin 4096) (r : Fin 4) : State :=
  match s.ctxs.find cx with
  | some c => if c.st = .active then (State.fetch cx r (c.sqTail[r] - c.sqHead[r]).toNat s).writeDb cx else s
  | none => s

/-- A sq_tail that the module reads: one that moves backwards, or more than the ring ahead of sq_head, is ignored and raises BAD_DOORBELL, in
every state of the context (R276). -/
def State.takeTail (s : State) (cx : Fin 4096) (r : Fin 4) (v : BitVec 32) : State :=
  match s.ctxs.find cx with
  | none => s
  | some c =>
    if (c.ringClass r).isNone then s
    else if (v - c.sqTail[r]).toInt < 0 || (v - c.sqHead[r]).toNat > c.sqSize r then s.raise 0 0x06 cx v.toNat r
    else if c.st != .active then s
    else (s.updCtx cx fun c => { c with sqTail := vupd c.sqTail r fun _ => v }).fetchRing cx r

/-- A snoop of a doorbell line: the line read again. -/
def State.doorbell (s : State) (cx : Fin 4096) (line : DbLine) (v : BitVec 32) : State :=
  match s.ctxs.find cx with
  | none => s
  | some c =>
    if !s.ready then s
    else match line with
      | .sqTail r => (s.hostPut (s.spaceOf cx) (c.dbPage + 0x40 * r.val) 4 v.toNat).takeTail cx r v
      | .evtHead => (s.hostPut (s.spaceOf cx) (c.dbPage + 0x140) 4 v.toNat).updCtx cx fun c => { c with evtHead := v }

/-- cq_head frees completion credit: held records go out. -/
def State.cqHeadUpdate (s : State) (cx : Fin 4096) (v : BitVec 32) : State :=
  match s.ctxs.find cx with
  | none => s
  | some c => if !s.ready then s else
    let s := ((s.hostPut (s.spaceOf cx) (c.dbPage + 0x100) 4 v.toNat).updCtx cx fun c => { c with cqHead := v }).flushCtx cx
    if c.held.isEmpty then s else s.settleAll

/-! ### Admission (R274, R278, R360) -/

/-- Opcodes of Table 11-5 that some chapter gives a meaning; every other one completes with MALFORMED. -/
def ringOpcode (op : Nat) : Bool :=
  (0x70 ≤ op && op ≤ 0x74) || op == 0x78 || op == 0x79 || op == 0x7E || (0x90 ≤ op && op ≤ 0x94) || op == 0x98 || op == 0x99 ||
  (0xA0 ≤ op && op ≤ 0xA2) || (0xB0 ≤ op && op ≤ 0xB5) || (0xB8 ≤ op && op ≤ 0xBC)
def isPke (op : Nat) : Bool := 0xB0 ≤ op && op ≤ 0xBF

/-- A descriptor is admitted: it takes the copies of R360, R361 and R295, and a QRUN the list of its partition (R376). A ring of class ADMIN
ignores the trace level (Table 14-2). -/
def State.takeIn (s : State) (cx : Fin 4096) (c : Ctx) (w : Waiting) : State :=
  let d : DRef := ⟨cx, w.ring, w.idx⟩
  let op := fld w.bits 7 0
  let cls := (c.ringClass w.ring).getD .admin
  let modes := s.modesOf c
  let a : Adm := {
    bits := w.bits, admitted := s.timebase, cls, steer := c.steer, desc := c.desc
    modes := if cls = .admin then { modes with trace := 0 } else modes
    prog := if op = 0x79 then .qrun { set := [], list := s.unfenced c.part } else .fresh
    degraded := s.degradedNow cx }
  let s := { s with descs := s.descs ++ [(d, a)] }
  let s := s.updCtx cx fun c => { c with
    waiting := c.waiting.filter fun x => !(x.ring == w.ring && x.idx == w.idx)
    admissions := c.admissions + 1
    gov := { c.gov with admitted := true } }
  (s.tally 0xC00 (some cx.val)).trace a.modes.trace 1
    { kind := 0x01, ctx := cx, data := fld w.bits 127 64, aux := w.idx.toNat % 65536 + 65536 * w.ring.val }

/-- The KRT entries that a key operation names, which its admission looks up (R70); those that a plan names are looked up as its check ends. -/
def State.namedEntries (s : State) (bits : BitVec 512) : List Nat :=
  let b := KeyBody.of (BitVec.ofNat 384 (fld bits 511 128))
  let i := handleIdx b.handle
  if b.handle = 0xFFFFFFFF#32 then []
  else match fld bits 7 0 with
    | 0x70 => [i, i + 1]
    | 0x71 => s.handleMembers i
    | 0x72 | 0x73 => b.pinned (s.lutHandle b.handle)
    | 0x74 => [i]
    | _ => []

/-- The conditions of R278 on the next descriptor of a ring. -/
def State.mayAdmit (s : State) (cx : Fin 4096) (c : Ctx) (w : Waiting) : Bool :=
  let mine := s.descs.filter fun (p : DRef × Adm) => p.1.ctx == cx && p.1.ring == w.ring
  s.ready && c.st == .active && !s.unitOut 14 0 && ((s.namedEntries w.bits).isEmpty || !s.krtOut) && (c.admissions - c.cqHead).toNat < c.cqSize &&
  (fld w.bits 8 8 == 0 || mine.isEmpty) && mine.all (fun (p : DRef × Adm) => p.2.opcode != 0x70) &&
  (!isPke (fld w.bits 7 0) || s.sec.waiting.length + (s.descs.filter fun (p : DRef × Adm) => isPke p.2.opcode && p.2.prog == .fresh).length < 256)

/-! ### Aborts (R294, R296) -/

/-- An issued command of an aborted QRUN meets ABORTED, and ends under its chapter. -/
def Work.abort (w : Work) : Work := if w.done then w else { w with causes := w.causes ++ [.aborted] }

def Eng.abortRun (e : Eng) (d : DRef) : Eng :=
  { e with
    queues := e.queues.map fun k => { k with works := k.works.map fun w => if w.b.run = d then w.abort else w }
    sends := e.sends.filter (·.run != d) }

/-- A QRUN ends with ABORTED (Table 8-13): what has not issued leaves; held SYNC bodies end, other commands end as their own reports come. -/
def State.abortRun (s : State) (d : DRef) : State :=
  let set := ((s.run d).map (·.set)).getD []
  let s := s.failRun d .aborted 0
  let s := set.foldl (fun (s : State) cl => s.updEngOf d.ctx cl fun e => e.abortRun d) s
  let s := set.foldl (fun (s : State) cl =>
    if s.clusters[cl].ctx != some d.ctx then s
    else (s.queue cl 6).works.foldl (fun (s : State) w => match w.kind with
      | .held _ _ _ => if w.b.run = d then s.syncEnd cl w.b.no [] else s
      | _ => s) s) s
  s.finishRuns

/-- An admitted descriptor is ended with ABORTED, at once or when what it has begun ends. -/
def State.abortDesc (s : State) (d : DRef) : State :=
  match s.adm d with
  | none => s
  | some a => match a.prog with
    | .qrun _ => s.abortRun d
    | .keyLoad k =>
      let s := { s with sec := { s.sec with waiting := s.sec.waiting.filter (· != PkeOp.keyVerify d) } }
      s.failLoad d a k .aborted
    | .keyPin _ was => (s.unpin was).complete d .aborted
    | .pke => match s.sec.running with
      | some r =>
        if r.op == .context d then if r.ended then s else
          { s with sec := { s.sec with running := some { r with status := .aborted, out := [], word := 0, session := none, register := none } } }
        else ({ s with sec := { s.sec with waiting := s.sec.waiting.filter (· != PkeOp.context d) } }).complete d .aborted
      | none => ({ s with sec := { s.sec with waiting := s.sec.waiting.filter (· != PkeOp.context d) } }).complete d .aborted
    | _ => (if a.opcode = 0x71 then s.abortFree d a else s).complete d .aborted

/-- An admitted context operation, which an ABORT leaves to its end. -/
def Adm.ctxOp (a : Adm) : Bool := 0xA0 ≤ a.opcode && a.opcode ≤ 0xA2

/-- The body of a context operation (Table 11-6). -/
structure CtxOp where
  addr : Nat
  ctx : Fin 4096
  rings : Nat
  reserved : Bool

def CtxOp.of (b : BitVec 384) : CtxOp where
  addr := fld b 63 0
  ctx := Fin.ofNat 4096 (fld b 75 64)
  rings := fld b 79 76
  reserved := fld b 383 80 != 0

/-- The descriptor's public-key operation has ended and keeps its status; the wipe that follows is not over (R297, R333). -/
def State.pkeOver (s : State) (d : DRef) : Bool := match s.sec.running with
  | some r => r.op == .context d && r.ended
  | none => false

/-- The effect of an admitted ABORT. -/
def State.abortRings (s : State) (d : DRef) (c : CtxOp) : State :=
  let target := if c.ctx = 0 then d.ctx else c.ctx
  let named (r : Fin 4) : Bool := c.rings / 2 ^ r.val % 2 == 1
  match s.ctxs.find target with
  | none => s.complete d .permission
  | some t =>
    let doomed := (s.descs.filter fun (p : DRef × Adm) =>
      p.1.ctx == target && named p.1.ring && p.1 != d && !p.2.ctxOp && !s.pkeOver p.1).map (·.1)
    let own := target == d.ctx
    let wait := t.waiting.filter fun w => named w.ring && !(own && w.ring == d.ring && (w.idx - d.idx).toInt > 0)
    let s := wait.foldl (fun (s : State) w => match s.ctxs.find target with
      | some t => s.takeIn target t w
      | none => s) s
    let doomed := doomed ++ wait.map fun w => (⟨target, w.ring, w.idx⟩ : DRef)
    let s := s.setProg d (.aborting doomed doomed.length)
    let s := doomed.foldl (fun (s : State) e => s.abortDesc e) s
    s.settleAll

/-- ABORT (R294): the hub sees it while earlier descriptors of its ring still wait, admits it, and ends what it names. -/
def State.abort (s : State) (d : DRef) : State :=
  let s := match s.ctxs.find d.ctx with
    | some c => match c.waiting.find? fun (w : Waiting) => w.ring == d.ring && w.idx == d.idx && fld w.bits 7 0 = 0x7E with
      | some w => if s.ready && c.st == CtxState.active && !s.unitOut 14 0 then s.takeIn d.ctx c w else s
      | none => s
    | none => s
  match s.fresh d 0x7E with
  | none => s
  | some a => if s.env.serac.st = .stopped then s else
    let c := CtxOp.of a.body
    let target := if c.ctx = 0 then d.ctx else c.ctx
    let causes := causesOf [(c.reserved || c.addr != 0 || fld a.bits 63 11 != 0, .malformed),
      ((c.ctx != 0 && d.ctx != 0) || (s.ctxs.find target).isNone, .permission), (s.deadPart d.ctx, .unitFenced)]
    if causes.isEmpty then s.abortRings d c else s.complete d (Status.pick causes)

/-- The hub admits the next descriptor of a ring; an ABORT that waits there goes first. -/
def State.descriptorAdmit (s : State) (cx : Fin 4096) (r : Fin 4) (looks : List (Fin 131072 × KrtLook)) : State :=
  match s.ctxs.find cx with
  | none => s
  | some c =>
    match c.waiting.find? fun w => w.ring == r && fld w.bits 7 0 = 0x7E with
    | some w => s.abort ⟨cx, r, w.idx⟩
    | none => match c.waiting.find? fun w => w.ring == r with
      | none => s
      | some w =>
        if !s.mayAdmit cx c w then s
        else
          let d : DRef := ⟨cx, r, w.idx⟩
          let s := s.takeIn cx c w
          if !ringOpcode (fld w.bits 7 0) || fld w.bits 63 11 != 0 then s.complete d .malformed
          else s.lookups (s.namedEntries w.bits) looks

/-- RECORD_LOST again, 1 ms after the last one, while drops continue (R289). -/
def State.recordLost (s : State) (cx : Fin 4096) : State :=
  match s.ctxs.find cx with
  | some c => match c.lostAt with
    | some t =>
      if c.dropped = 0 then s
      else
        let s := s.advance (t + 1000000)
        (s.updCtx cx fun c => { c with lostAt := some s.timebase, dropped := 0 }).raise 0 0x07 cx c.dropped 0
    | none => s
  | none => s

def ctxClass (b : BitVec 2048) (r : Nat) : Nat := fld b (4 * r + 147) (4 * r + 144)

/-- The host ranges that a context's rings and doorbell page take. -/
def ringAreas (b : BitVec 2048) : List (Nat × Nat × Bool) :=
  ((upTo 4).filterMap fun r => if ctxClass b r = 0 then none else some (fld b (64 * r + 575) (64 * r + 512), 64 * 2 ^ (6 + fld b (4 * r + 163) (4 * r + 160)), false)) ++
  [(fld b 831 768, 32 * 2 ^ (6 + fld b 179 176), true), (fld b 959 896, 32 * 2 ^ (6 + fld b 183 180), true), (fld b 895 832, 4096, true)]

/-! ### Translations and page faults (R286 to R289) -/

/-- The trace record of a command that parks, or runs again (Table 17-9). DESIGN CHOICE: Table 17-8 does not say which common fields the kind
uses; an engine body's record carries its tag, iteration, body, cluster and queue, a descriptor's record none of them (log 28). -/
def State.tracePark (s : State) (kind : Nat) (q : XlReq) : State :=
  let rec_ (run : DRef) (r : TraceRec) : State := match s.adm run with
    | some a => s.trace a.modes.trace 3 { r with kind, ctx := run.ctx, data := q.va }
    | none => s
  match q.who with
  | .work _ (.desc d) => rec_ d { kind, ctx := 0 }
  | .work cx (.body cl k i) => match ((s.engOf cx cl).queues[k].works.map (·.b) ++ (s.engOf cx cl).queues[k].items.filterMap fun (x : QItem) =>
        match x with
        | .body b => some b
        | .mark _ _ _ => none).find? (·.no == i) with
    | some b => rec_ b.run { kind, ctx := 0, tag := b.tag.toNat, iter := b.iter, body := b.ix, cluster := cl, queue := k }
    | none => s
  | .area _ _ => s

/-- A contract block that passes R388. -/
def contractOk (b : BitVec 512) : Bool :=
  fld b 31 0 == 0x54434E43 && fld b 47 32 == 1 && fld b 159 48 == 0 && fld b 167 160 ≤ 3 && 1 ≤ fld b 175 168 && fld b 175 168 ≤ 64 &&
  10 ≤ fld b 191 176 && fld b 191 176 ≤ 10000 && (fld b 223 192 != 0 || fld b 255 224 != 0) && fld b 511 448 % 64 == 0

/-- The contract block of a descriptor under its pasid, once it can be read and its histogram be written (R388), or the range whose translation is
awaited first. -/
def State.readContract (s : State) (sp : HostSpace) (a : Adm) (b : BitVec 2048) : Except (Nat × Nat × Bool) (BitVec 512 × Bool) :=
  let at_ := fld b 1279 1216
  if at_ = 0 || a.prog == .noContract then .ok (0, false)
  else if !s.xlOk sp at_ 64 false then .error (at_, 64, false)
  else
    let block := BitVec.ofNat 512 (s.hostNat sp at_ 64)
    let h := fld block 511 448
    if contractOk block && h != 0 && !s.xlOk sp h 1536 true then .error (h, 1536, true) else .ok (block, true)

/-- A wait for a translation ends without one (R287, R289). -/
def State.xlFail (s : State) (q : XlReq) : State :=
  let s := s.endReqs q.who.ctx (· == q)
  match q.who with
  | .area cx c =>
    if 1 ≤ c && c ≤ 4 then ((s.faultCtx cx c q.va).flushCtx cx).settleAll
    else if c = 7 then s.updCtx cx fun c => { c with gov := { c.gov with noWrite := true } }
    else s
  | .work cx (.body cl k i) =>
    let add (e : Eng) : Eng := { e with queues := vupd e.queues k fun z => { z with
      works := z.works.map fun w => if w.b.no = i && !w.causes.contains .translationError then { w with causes := w.causes ++ [.translationError] } else w } }
    -- a body that went back to the head of its queue ends there
    match (s.engOf cx cl).queues[k].items.findSome? fun (x : QItem) => match x with
      | .body b => if b.no = i && b.again then some b else none
      | .mark _ _ _ => none with
    | some b => match s.adm b.run with
      | some a =>
        let w : Work := { b, issuedAt := s.timebase, cls := a.cls, kind := .plain, causes := [.translationError] }
        s.updEngOf cx cl fun e => { e with queues := vupd e.queues k fun z => { z with
          items := z.items.filter fun (x : QItem) => match x with
            | .body y => y.no != i
            | .mark _ _ _ => true
          works := insertWork w z.works } }
      | none => s
    | none => s.updEngOf cx cl add
  | .work _ (.desc d) => match s.adm d with
    | none => s
    | some a =>
      if a.ctxOp then
        -- a ring area untranslatable at creation; an untranslatable contract block alone refuses nothing (R388)
        let b := BitVec.ofNat 2048 (s.hostNat .phys (CtxOp.of a.body).addr 256)
        let ring := a.opcode == 0xA0 && (ringAreas b).any fun (x, n, _) => (pagesOf x n).contains q.va
        let sp : HostSpace := .pasid q.pasid
        let hist := match s.readContract sp a b with
          | .error (x, n, _) => (pagesOf x n).contains q.va
          | .ok _ => false
        if (fld b 1279 1216 / 4096 = q.va / 4096 || hist) && !ring then s.setProg d .noContract else s.complete d .translationError
      else match a.prog with
        | .qrun r =>
          if r.started then s.failRun d .translationError 0
          else if !r.checked then s.updRun d fun r => { r with badPages := r.badPages ++ [q.va] }
          else s.complete d .translationError
        | .keyLoad k => (({ s with sec := { s.sec with waiting := s.sec.waiting.filter (· != PkeOp.keyVerify d) } }) : State).failLoad d a k .translationError
        | .pke => (({ s with sec := { s.sec with waiting := s.sec.waiting.filter (· != PkeOp.context d) } }) : State).complete d .translationError
        | _ => s.complete d .translationError

/-- A missing translation with fault_timeout not 0 parks the work: a page request goes out (R287, Table 11-15). DESIGN CHOICE: the page fault of
a data-mover command parks its context on the command's cluster, whose data mover and loads stop (R123, Table 9-8; log 63). -/
def State.park (s : State) (q : XlReq) (timeout : Nat) : State :=
  let s := { s with reqs := s.reqs.map fun (r : XlReq) => if r = q then { r with paged := true, deadline := some (s.timebase + 1000 * timeout) } else r }
  let s := s.send (.pageRequest q.pasid q.va)
  match q.who with
  | .area _ _ => s
  | .work cx w =>
    let s := (s.tally 0xC03 (some cx.val)).tracePark 0x08 q
    let s := match w with
      | .body cl k _ => if k.val = 4 && s.clusters[cl].ctx = some cx then (s.stopNib cl false).stopMover cl else s
      | .desc _ => s
    (s.updCtx cx fun c => { c with parkedAt := some (c.parkedAt.getD s.timebase) }).writeDb cx

/-- The fault timeout that a wait has: of a descriptor's admission, or the context's now (R295). -/
def State.timeoutOf (s : State) (c : Ctx) (who : XlWho) : Nat := match who with
  | .area _ _ => c.faultTimeout
  | .work cx w =>
    let run : Option DRef := match w with
      | .desc d => some d
      | .body cl k i => ((s.engOf cx cl).queues[k].works.find? (·.b.no == i)).map (·.b.run)
    match run.bind s.adm with
    | some a => (a.view c).faultTimeout
    | none => c.faultTimeout

/-- A request for which the host reports no translation, or one without the access. A submission, completion or event ring, the doorbell
page and the flag page of a mirrored write have a page request, as what a descriptor waits for has (R287, R289). -/
def State.xlMissing (s : State) (q : XlReq) : State :=
  if !s.reqs.contains q then s
  else match s.ctxs.find q.who.ctx with
    | none => s.xlFail q
    | some c =>
      let pages := match q.who with
        | .area _ cause => cause ≤ 4 || cause = 6
        | .work _ _ => true
      let timeout := s.timeoutOf c q.who
      if pages && timeout != 0 then s.park q timeout else s.xlFail q

/-- What a context's areas waited for, done again once translations have come. -/
def State.retryAreas (s : State) (cx : Fin 4096) (causes : List Nat) : State :=
  let s := if causes.contains 1 then ([0, 1, 2, 3] : List (Fin 4)).foldl (fun (s : State) r => s.fetchRing cx r) s else s
  let s := if causes.any fun c => c = 2 || c = 3 || c = 4 then (s.flushCtx cx).settleAll else s
  let s := if causes.contains 5 then s.interrupt cx else s
  if causes.contains 6 then s.flagPageBack cx else s

/-- Requests answered: those that the grant serves end, the others miss. -/
def State.xlAnswer (s : State) (l : List XlReq) (p : BitVec 20) (va : Nat) (r : XlRes) : State :=
  match r with
  | .missing => l.foldl (fun (s : State) q => if q.paged then s.xlFail q else s.xlMissing q) s
  | .granted g write =>
    let s := s.grantXl p va g write
    let ok := l.filter fun q => write || !q.write
    let s := ok.foldl (fun (s : State) q => (if q.paged then s.tracePark 0x09 q else s).endReqs q.who.ctx (· == q)) s
    let s := (l.filter fun q => !write && q.write).foldl (fun (s : State) q => if q.paged then s.xlFail q else s.xlMissing q) s
    let areas := ok.filterMap fun q => match q.who with
      | .area cx c => some (cx, c)
      | .work _ _ => none
    (areas.map (·.1)).eraseDups.foldl (fun (s : State) cx => s.retryAreas cx ((areas.filter (·.1 == cx)).map (·.2))) s

def State.translation (s : State) (p : BitVec 20) (va : Nat) (r : XlRes) : State :=
  let l := s.reqs.filter fun (q : XlReq) => q.pasid == p && q.va == va / 4096 * 4096 && !q.paged
  if l.isEmpty then s else s.xlAnswer l p va r

/-- A page response; one whose requests have ended is discarded. -/
def State.pageResponse (s : State) (p : BitVec 20) (va : Nat) (r : XlRes) : State :=
  let l := s.reqs.filter fun (q : XlReq) => q.pasid == p && q.va == va / 4096 * 4096 && q.paged
  if l.isEmpty then s else s.xlAnswer l p va r

/-- fault_timeout passes first: TRANSLATION_ERROR, or FAULTED for a ring area. -/
def State.pageTimeout (s : State) (who : XlWho) : State :=
  let l := s.reqs.filter fun (q : XlReq) => q.who == who && q.paged
  match l with
  | [] => s
  | q :: _ =>
    l.foldl (fun (s : State) q => s.xlFail q) (s.advance (q.deadline.getD 0))

/-- A host translation invalidation (R288): matching entries go at once, and it waits for the transfers outstanding now that used one. -/
def State.invalidate (s : State) (p : BitVec 20) (va len : Nat) : State :=
  let i : Inval := { pasid := p, va, len, users := s.usersOf p va len }
  ({ s with xls := s.xls.filter fun (x : Xl) => !(x.pasid == p && x.va < va + len && va < x.va + x.size), invals := s.invals ++ [i] } : State).ackInvals

/-! ### Context descriptors (R271) -/

/-- Reserved fields of Table 11-2. -/
def ctxReserved (b : BitVec 2048) : Bool :=
  [(2047, 1280), (1087, 1056), (447, 408), (383, 372), (351, 340), (319, 297), (191, 184), (143, 142), (103, 102), (95, 91), (87, 84),
    (63, 48)].any fun (h, l) => fld b h l != 0

def ctxMisaligned (b : BitVec 2048) : Bool :=
  fld b 1279 1216 % 64 != 0 || fld b 1023 960 % 4 != 0 ||
  [(1215, 1152), (1151, 1088), (959, 896), (895, 832), (831, 768), (575, 512), (639, 576), (703, 640), (767, 704)].any fun (h, l) => fld b h l % 4096 != 0


/-- Fields out of range, or at odds with each other. -/
def ctxRange (b : BitVec 2048) (cx : Nat) : Bool :=
  (upTo 4).any (fun r => fld b (4 * r + 163) (4 * r + 160) > 10 || ctxClass b r > 6 ||
    (ctxClass b r != 0 && fld b (64 * r + 575) (64 * r + 512) = 0) ||
    (if cx = 0 then ctxClass b r != 0 && ctxClass b r != 6 else ctxClass b r = 6)) ||
  fld b 179 176 > 10 || fld b 183 180 > 10 || fld b 296 288 > 256 || fld b 127 112 < 10 || fld b 111 104 = 0 || fld b 231 224 = 0 ||
  fld b 239 232 = 0 || fld b 136 135 = 3 || fld b 134 133 = 3 || fld b 231 224 > fld b 239 232 || fld b 271 256 > fld b 287 272 ||
  ctxClass b 0 = 0

/-- A context's state area in units of 64 KiB (R291). -/
def State.areaOf (s : State) (b : BitVec 2048) : Nat × Nat := (fld b 407 384, s.perPart * (20 + fld b 296 288))

/-- The checks of R271. Context 0 has no partition, so no state area. -/
def State.ctxCauses (s : State) (b : BitVec 2048) (cx : Nat) : List Status :=
  let u := s.env.setup
  let mb := fld b 339 320
  let ms := fld b 371 352
  let (ab, an) := s.areaOf b
  let others := s.ctxs.filter fun (p : Nat × Ctx) => p.1 != cx
  let bad := fld b 31 0 != 0x4354584B || fld b 47 32 != 1 || ctxReserved b || ctxMisaligned b || ctxRange b cx ||
    fld b 90 88 != u.partCode.toNat || fld b 101 96 ≥ s.parts
  let window := ms != 0 && (overlaps mb ms (keyBase u.keyPool) (keySize u.keyPool) || overlaps (32 * mb) (32 * ms) (stateBase u.statePool) (stateSize u.statePool) ||
    overlaps mb ms testUnit 1 || others.any fun (p : Nat × Ctx) => p.2.f 371 352 != 0 && overlaps mb ms (p.2.f 339 320) (p.2.f 371 352))
  let area := cx != 0 && (ab < stateBase u.statePool || ab + an > stateBase u.statePool + stateSize u.statePool ||
    others.any fun (p : Nat × Ctx) => p.1 != 0 && (let (x, n) := s.areaOf p.2.desc; overlaps ab an x n))
  causesOf [(bad, .malformed), (window || area, .permission)]

/-- What the governor takes from a descriptor and its contract block. -/
def Steer.of (b : BitVec 2048) (block : BitVec 512) (readable : Bool) : Steer where
  perf := fld b 136 135
  contract := fld b 1279 1216
  valid := readable && contractOk block
  block := block
  weight := fld b 111 104
  quantum := fld b 127 112
  sbMin := fld b 231 224
  sbMax := fld b 239 232
  swMin := fld b 271 256
  swMax := fld b 287 272

/-- A context becomes ACTIVE: the module takes its doorbell lines and reads them, and takes the request and mirror lines of its flag page (R304). -/
def State.create (s : State) (cx : Fin 4096) (b : BitVec 2048) (st : Steer) : State :=
  let c : Ctx := {
    desc := b, steer := st
    gov := { last := st, weight := st.weight, batch := st.sbMax, wait := st.swMax, windowAt := s.timebase, unwritten := st.contract != 0 } }
  let s := { s with ctxs := s.ctxs.set cx c }
  let sp := s.spaceOf cx
  let line (off : Nat) : BitVec 32 := BitVec.ofNat 32 (s.hostNat sp (c.dbPage + off) 4)
  let s := s.updCtx cx fun c => { c with cqHead := line 0x100, evtHead := line 0x140 }
  let s := ([0, 1, 2, 3] : List (Fin 4)).foldl (fun (s : State) r => s.takeTail cx r (line (0x40 * r.val))) s
  let page := fld b 1215 1152 + 0x400
  (if s.xlOk sp page 0x400 true then s else s.ask (.area cx 6) sp page 0x400 true).writeDb cx

/-- A context operation that waits for its row: its effect is given the causes that its class and its own fields have. -/
def State.ctxOp (s : State) (d : DRef) (op : Nat) (f : State → Adm → CtxOp → List Status → State) : State :=
  match s.adm d with
  | none => s
  | some a =>
    if a.opcode != op || !(a.prog == .fresh || a.prog == .noContract) then s
    else
      let c := CtxOp.of a.body
      let addrBad := if op = 0xA2 then c.addr != 0 else c.addr % 256 != 0
      let causes := causesOf [(c.reserved || c.rings != 0 || addrBad, .malformed), (a.cls != .admin, .paramUnsupported)]
      f s a c causes

/-- The lowest FREE context number. -/
def State.freeCtx (s : State) : Option (Fin 4096) := (List.finRange 4096).find? fun i => i != 0 && (s.ctxs.find i).isNone

/-- The causes of a context operation's descriptor, which the host gives or does not (Table 11-7). -/
def State.descCauses (s : State) (b : BitVec 2048) (cx : Nat) (readable : Bool) : List Status :=
  if readable then s.ctxCauses b cx else [.translationError]

/-- CTX_CREATE (R271, R388). -/
def State.ctxCreate (s : State) (d : DRef) (readable : Bool) : State :=
  s.ctxOp d 0xA0 fun s a c own =>
    let b := BitVec.ofNat 2048 (s.hostNat .phys c.addr 256)
    match if c.ctx = 0 then s.freeCtx else (if (s.ctxs.find c.ctx).isNone then some c.ctx else none) with
    | none => s.complete d (Status.pick (own ++ .permission :: s.descCauses b (if c.ctx = 0 then 1 else c.ctx) readable))
    | some cx =>
      let causes := own ++ s.descCauses b cx readable
      if !causes.isEmpty then s.complete d (Status.pick causes)
      else
        let sp : HostSpace := .pasid (BitVec.ofNat 20 (fld b 83 64))
        let missing := (ringAreas b).filter fun (x, n, w) => !s.xlOk sp x n w
        if !missing.isEmpty then missing.foldl (fun (s : State) (x : Nat × Nat × Bool) => s.ask (.work d.ctx (.desc d)) sp x.1 x.2.1 x.2.2) s
        else match s.readContract sp a b with
          | .error (x, n, w) => s.ask (.work d.ctx (.desc d)) sp x n w
          | .ok (block, readable) => (s.create cx b (Steer.of b block readable)).complete d .ok cx

/-- The fields that a CTX_UPDATE may change (R295). -/
def changeable : List (Nat × Nat) :=
  [(1279, 1216), (1215, 1152), (1151, 1088), (1055, 1024), (1023, 960), (511, 448), (287, 272), (271, 256), (255, 240), (239, 232), (231, 224),
    (223, 192), (141, 141), (140, 140), (139, 137), (136, 135), (134, 133), (132, 132), (131, 131), (130, 130), (129, 129), (128, 128), (127, 112),
    (111, 104)]
def fixedPart (b : BitVec 2048) : BitVec 2048 := changeable.foldl (fun b (h, l) => putFld b h l 0) b

/-- The contract fields: perf, the block's address, and what of the block the host writes (Table 16-3). -/
def Steer.contractPart (t : Steer) : Nat × Nat × Bool × Nat × Nat := (t.perf, t.contract, t.valid, fld t.block 511 448, fld t.block 255 0)

/-- CTX_UPDATE (R295): the block is read again, and a change of the contract fields ends the window in progress (R388, R390). ctx_status stands in the doorbell page before the
operation completes (R349), so a missing translation of that page is awaited first. -/
def State.ctxUpdate (s : State) (d : DRef) (readable : Bool) : State :=
  s.ctxOp d 0xA1 fun s a c own =>
    let b := BitVec.ofNat 2048 (s.hostNat .phys c.addr 256)
    match s.ctxs.find c.ctx with
    | none => s.complete d (Status.pick (own ++ .permission :: s.descCauses b c.ctx readable))
    | some x =>
      let causes := own ++ causesOf [(x.st != .active, .permission),
        (readable && (fixedPart b != fixedPart x.desc || fld b 223 192 < x.keyUse), .malformed)] ++ s.descCauses b c.ctx readable
      if !causes.isEmpty then s.complete d (Status.pick causes)
      else
        let sp := s.spaceOf c.ctx
        match s.readContract sp a b with
        | .error (x, n, w) => s.ask (.work d.ctx (.desc d)) sp x n w
        | .ok (block, readable) =>
          if !s.xlOk sp (x.dbPage + 0x180) 0x20 true then s.ask (.area c.ctx 4) sp (x.dbPage + 0x180) 0x20 true
          else
          let st := Steer.of b block readable
          let s := s.updCtx c.ctx fun x =>
            let g := { x.gov with windows := 0, noWrite := false, unwritten := st.contract != 0 }
            let g := if st.contractPart = x.steer.contractPart then g else { g with windowAt := s.timebase, hist := [], errors := 0, admitted := s.hasWork c.ctx }
            { x with desc := b, steer := st, gov := g }
          (s.writeDb c.ctx).complete d .ok c.ctx

/-! ### Teardown (R296) -/

/-- A context's flags, barriers and bindings go (R319). -/
def Sync.forget (y : Sync) (cx : Fin 4096) : Sync :=
  { y with
    blocks := y.blocks.filter fun p => p.2.1 != cx
    bars := y.bars.filter fun p => p.2.owner != cx
    bindings := y.bindings.filter fun b => b.ctx != cx
    arrivals := y.arrivals.filter fun x => x.ctx != cx
    forwarded := y.forwarded.map fun x => if ((y.bars.find x.bar).map (·.owner)) = some cx then { x with who := none } else x }

/-- Steps 1 to 4 of R296. -/
def State.tearDown (s : State) (d : DRef) (cx : Fin 4096) : State :=
  let s := s.setProg d .teardown
  let s := s.updCtx cx fun x => { x with st := .teardown, waiting := [], tearing := [d], session := none, ids := Vector.replicate 8 none }
  let s := s.writeDb cx
  let mine := (s.descs.filter fun (p : DRef × Adm) => p.1.ctx == cx).map (·.1)
  let s := mine.foldl (fun (s : State) e => s.abortDesc e) s
  -- the context's public-key operation in progress writes nothing (R341)
  let s := { s with sec := { s.sec with running := s.sec.running.map fun r => match r.op with
      | .context e => if e.ctx = cx && !r.ended then { r with mute := true } else r
      | _ => r } }
  -- a switched-out context's commands end with the state that it will not get back
  let s := mine.foldl (fun (s : State) e =>
    (((s.run e).map (·.set)).getD []).foldl (fun (s : State) cl => if s.clusters[cl].ctx = some cx then s else s.purge cl e) s) s
  let s := s.finishRuns
  let s := (s.listed fun e => Krt.owner e == cx.val && Krt.state e != stFREE && !Krt.loading e).foldl (fun (s : State) i => s.evict i) s
  let s := { s with sync := s.sync.forget cx, reqs := s.reqs.filter fun (q : XlReq) => match q.who with
      | .area c cause => c != cx || cause = 2 || cause = 4
      | .work _ _ => true }
  let s := s.updCtx cx fun x => { x with blocks := [] }
  s.settleAll

/-- CTX_TEARDOWN: a context in TEARDOWN already completes with the first one. -/
def State.ctxTeardown (s : State) (d : DRef) : State :=
  s.ctxOp d 0xA2 fun s _ c own =>
    match s.ctxs.find c.ctx with
    | none => s.complete d (Status.pick (own ++ [.permission]))
    | some x =>
      if c.ctx = 0 then s.complete d (Status.pick (own ++ [.permission]))
      else if !own.isEmpty then s.complete d (Status.pick own)
      else if x.st = .teardown then (s.setProg d .teardown).updCtx c.ctx fun x => { x with tearing := x.tearing ++ [d] }
      else s.tearDown d c.ctx

/-- Steps 5 and 6 of R296: the context's last command has ended. -/
def State.teardownComplete (s : State) (cx : Fin 4096) : State :=
  match s.ctxs.find cx with
  | none => s
  | some c =>
    let busy := s.descs.any fun (p : DRef × Adm) => p.1.ctx == cx
    let pke := match s.sec.running with
      | some r => match r.op with
        | .context d => d.ctx == cx
        | _ => false
      | none => false
    if c.st != .teardown || busy || pke || (s.switching.find c.part).isSome then s
    else
      let s := (s.clustersOf c.part).foldl (fun (s : State) (cl : Fin 64) =>
        if s.clusters[cl].ctx = some cx then s.updCl cl fun _ => {} else s) s
      let n := c.dropped + c.held.length
      let s := if n = 0 then s else s.raise 0 0x07 cx n 0
      let s := c.held.foldl (fun (s : State) h => s.recordOut h.of) s
      let s := { s with ctxs := s.ctxs.erase cx, reqs := s.reqs.filter fun (q : XlReq) => q.who.ctx != cx }
      c.tearing.foldl (fun (s : State) d => s.complete d .ok cx) s

/-! ### Context 0 (R273) -/

/-- A create write: the descriptor read from its physical address and checked; context 0 becomes ACTIVE, or err is set. -/
def State.ctx0Create (s : State) (readable : Bool) : State :=
  if !s.ready || (s.ctxs.find 0).isSome then s
  else
    let b := BitVec.ofNat 2048 (s.hostNat .phys s.env.setup.ctx0Desc.toNat 256)
    if readable && (s.ctxCauses b 0).isEmpty then
      let at_ := fld b 1279 1216
      s.work fun s => s.create 0 b (Steer.of b (BitVec.ofNat 512 (s.hostNat .phys at_ 64)) (at_ != 0))
    else s.updSetup fun u => { u with ctx0Err := true }

/-! ### The commands -/

/-- A write of the host through the link, which serves the window from the end of stage 3 (R421). A create bit in HUB_CTX0_CTRL acts beside what the
write does to the register (R9, R273); that the descriptor cannot be read is the row CTX0_CREATE's to say (log 59). -/
def execRegisterWrite (off : BitVec 32) (wide : Bool) (v : BitVec 64) (s : State) : Out :=
  .next (if s.hub.fclUp then
      let t := s.windowWrite off.toNat wide v.toNat fun _ => true
      if regAt off.toNat = some (.ctx0Ctrl, wide) && v.getLsbD 0 then t.ctx0Create true else t
    else s)
def execCtx0Create (readable : Bool) (s : State) : Out := .next (s.ctx0Create readable)
def execDoorbellSnoop (ctx : Fin 4096) (line : DbLine) (v : BitVec 32) (s : State) : Out := .next (s.work fun s => s.doorbell ctx line v)
def execCqHeadUpdate (ctx : Fin 4096) (v : BitVec 32) (s : State) : Out := .next (s.work fun s => s.cqHeadUpdate ctx v)
/-- The hub's pair compares each admission; its difference stops the hub (R372). -/
def execDescriptorAdmit (ctx : Fin 4096) (ring : Fin 4) (looks : List (Fin 131072 × KrtLook)) (hubDiffer : Bool) (s : State) : Out :=
  .next (if hubDiffer then
      (if s.ready && (((s.ctxs.find ctx).map fun (c : Ctx) => c.waiting.any (·.ring == ring)).getD false) then s.hubStop 0x08 else s)
    else s.work fun s => s.descriptorAdmit ctx ring looks)
def execRecordLostReport (ctx : Fin 4096) (s : State) : Out := .next (s.work fun s => s.recordLost ctx)
def execTranslationComplete (pasid : BitVec 20) (va : BitVec 64) (r : XlRes) (s : State) : Out := .next (s.work fun s => s.translation pasid va.toNat r)
def execPageResponse (pasid : BitVec 20) (va : BitVec 64) (r : XlRes) (s : State) : Out := .next (s.work fun s => s.pageResponse pasid va.toNat r)
def execPageFaultTimeout (w : XlWho) (s : State) : Out := .next (s.work fun s => s.pageTimeout w)
def execTranslationInvalidate (pasid : BitVec 20) (va len : BitVec 64) (s : State) : Out := .next (s.work fun s => s.invalidate pasid va.toNat len.toNat)
def execAbort (d : DRef) (s : State) : Out := .next (s.work fun s => s.abort d)
/-- `readable`: the host gives the descriptor that the body names. -/
def execCtxCreate (d : DRef) (readable : Bool) (s : State) : Out := .next (s.work fun s => s.ctxCreate d readable)
def execCtxUpdate (d : DRef) (readable : Bool) (s : State) : Out := .next (s.work fun s => s.ctxUpdate d readable)
def execCtxTeardown (d : DRef) (s : State) : Out := .next (s.work fun s => s.ctxTeardown d)
def execTeardownComplete (ctx : Fin 4096) (s : State) : Out := .next (s.work fun s => s.teardownComplete ctx)
/-- What a host read brings back stands in the module's view of host memory (log 6). -/
def execLinkReadCompletion (sp : HostSpace) (addr : BitVec 64) (data : List Byte) (s : State) : Out :=
  .next (s.work fun s => s.hostWrite sp addr.toNat data)

end Sys2Proof.Machine
end

