-- ==== Sys2Proof/Machine/Switch.lean ====
section
/-! DEFINITION. Scheduling and context switches (R290 to R293, R123, R124, R109, Table 9-8). -/

namespace Sys2Proof.Machine

/-! ### The choice (R290) -/

/-- Contexts of a partition that may run: with admitted work, and not in TEARDOWN. -/
def State.candidates (s : State) (part : Nat) : List Nat :=
  s.ctxs.filterMap fun (p : Nat × Ctx) => if p.1 != 0 && p.2.part = part && p.2.st != CtxState.teardown && s.hasWork p.1 then some p.1 else none

/-- Run time up to now. -/
def State.runTimeOf (s : State) (cx : Nat) : Nat := match s.ctxs.find cx with
  | some c => c.runTime + (match c.inSince with
    | some t => s.timebase - t
    | none => 0)
  | none => 0

/-- The first has less run time divided by weight. -/
def State.lessRun (s : State) (x y : Nat) : Bool := s.runTimeOf x * max 1 (s.weightOf y) < s.runTimeOf y * max 1 (s.weightOf x)

/-- The context with the least weighted run time; of equals the lowest number (log 19). -/
def State.leastRun (s : State) : List Nat → Option Nat
  | [] => none
  | x :: r => match s.leastRun r with
    | none => some x
    | some y => if s.lessRun y x then some y else some x

/-- The context that runs in a partition. -/
def State.runningIn (s : State) (part : Nat) : Option (Fin 4096) :=
  (s.clustersOf part).findSome? fun (cl : Fin 64) => s.clusters[cl].ctx

/-- The context that the hub switches a partition to now. -/
def State.switchTo (s : State) (part : Nat) : Option (Fin 4096) :=
  if part ≥ s.parts || (s.switching.find part).isSome || s.shed ≥ 5 then none
  else
    let cand := s.candidates part
    let pick : Option Nat := match s.runningIn part with
      | none => s.leastRun cand
      | some cx =>
        match s.leastRun (cand.filter (· != cx.val)) with
        | none => none
        | some o =>
          let c : Ctx := (s.ctxs.find cx).getD {}
          let quantum := 1000 * (s.steerOf cx).quantum
          let passed := match c.inSince with
            | some t => t + quantum ≤ s.timebase
            | none => true
          let parked := match c.parkedAt with
            | some t => t + 10000 ≤ s.timebase
            | none => false
          if !s.hasWork cx || (passed && s.lessRun o cx) || parked then some o else none
    pick.map fun x => Fin.ofNat 4096 x

/-! ### Running work ends -/

/-- What a switch stops and puts back, newest first: Thaw commands and key switches at a step or block boundary, loads, data-mover
commands. A command that a cause has ended already is left to end. -/
def State.stopCluster (s : State) (cl : Fin 64) : State :=
  let stops (w : Work) : Bool := !w.done && w.causes.isEmpty && match w.kind with
    | .thaw t => !t.ended
    | _ => false
  let l := ([1, 2] : List (Fin 7)).flatMap fun q => ((s.queue cl q).works.filter stops).reverse.map fun w => (q, w)
  ((l.foldl (fun (s : State) (x : Fin 7 × Work) => s.rerun cl x.1 x.2) s).stopNib cl true).stopMover cl

/-- The state records of a context's partition, which lie one after another, move with class LC (R259, R293). -/
def State.postRecords (s : State) (part cx : Nat) (write : Bool) : State :=
  match s.ctxs.find cx with
  | some c => s.post (.switch part) .lc write (65536 * c.f 407 384) (65536 * s.perPart * (20 + c.f 296 288))
  | none => s

/-- A switch is decided: every queue of the partition stops issuing, what runs is brought to its end, and the state records move. -/
def State.switchDecide (s : State) (part : Nat) : State :=
  match s.switchTo part with
  | none => s
  | some cx =>
    let s := match s.runningIn part with
      | some o => s.postRecords part o true
      | none => s
    let s := if ((s.ctxs.find cx).map (·.ran.isEmpty)).getD true then s else s.postRecords part cx false
    let s := { s with switching := s.switching.set part (some cx, s.timebase) }
    (s.clustersOf part).foldl (fun (s : State) cl => s.stopCluster cl) s

/-- Nothing runs on a cluster any more that has to end before its state is saved: a finished chain's drain is one of them (R124). -/
def State.settled (s : State) (cl : Fin 64) : Bool :=
  s.clusters[cl].eng.xfers.isEmpty && s.clusters[cl].eng.nib.drains.isEmpty && ([0, 1, 2, 3, 4] : List (Fin 7)).all fun q =>
    (s.queue cl q).works.all fun w => w.done || !s.endReady cl q w

/-! ### Saving and restoring (R291, R292) -/

/-- Module address of the record of cluster j of a context's partition. -/
def Ctx.record (c : Ctx) (j : Nat) : Nat := 65536 * (c.f 407 384 + j * (20 + c.f 296 288))
def Ctx.inkSave (c : Ctx) : Nat := 65536 * c.f 296 288
/-- Bytes of engine state in a record. -/
def engineBytes : Nat := 1310720

/-- The outgoing context's state of a cluster goes to its record: engine state in a form of its own (free values), and the Inkwell bytes it
keeps. -/
def State.saveCluster (s : State) (cx : Fin 4096) (cl : Fin 64) : State :=
  match s.ctxs.find cx with
  | none => s
  | some c =>
    let j := s.placeOf cl
    let a := c.record j
    let m := s.mem.fillFree s.free a engineBytes
    let s := s.putMem a (engineBytes + c.inkSave) (m.copyFrom (s.ink cl) 0 (a + engineBytes) c.inkSave)
    let s := s.unpost fun w => match w with
      | .stream k _ => k == cl
      | _ => false
    s.updCtx cx fun c => { c with saved := c.saved.set j s.clusters[cl].eng, ran := if c.ran.contains j then c.ran else c.ran ++ [j] }

/-- The incoming context finds what it saved; one that has never run there finds everything as at reset. Its long-word streams read on. -/
def State.restoreCluster (s : State) (cx : Fin 4096) (cl : Fin 64) : State :=
  match s.ctxs.find cx with
  | none => s.updCl cl fun _ => {}
  | some c =>
    let j := s.placeOf cl
    let ink : Memory := if c.ran.contains j then Memory.copyFrom ([] : Memory) s.mem (c.record j + engineBytes) 0 c.inkSave else []
    let eng := c.saved.get {} j
    eng.streams.foldl (fun (s : State) (x : Nat × Stream) => s.postStream cl (Fin.ofNat 8 x.1) cx x.2.addr 4096)
      (s.updCl cl fun _ => { ink, eng, ctx := some cx })

/-- A switch completes: state saved, Inkwell zeroed, state restored, and issue resumes; held SYNC bodies are evaluated again (R311). -/
def State.switchComplete (s : State) (part : Nat) : State :=
  match s.switching.find part with
  | some (some cx, since) =>
    let l := s.clustersOf part
    if s.shed ≥ 5 || !l.all s.settled || s.memWaits (.switch part) then s
    else
      let out := s.runningIn part
      let s := match out with
        | some o =>
          let s := l.foldl (fun (s : State) cl => s.saveCluster o cl) s.drawn
          s.updCtx o fun c => { c with runTime := s.runTimeOf o, inSince := none }
        | none => s
      let s := l.foldl (fun (s : State) cl => s.restoreCluster cx cl) s
      let s := { s with switching := s.switching.erase part }
      let s := s.updCtx cx fun c => { c with inSince := some s.timebase, saved := [] }
      let s := s.tally 0xC02
      let s := s.trace (s.traceLevel cx) 3
        { kind := 0x07, ctx := cx, data := (out.map (·.val)).getD 0, aux := min (s.timebase - since) 0xFFFFFFFF }
      l.foldl (fun (s : State) cl => ((s.syncResume cl).retireAll cx cl).finishRuns) s
  | _ => s

/-! ### The commands -/

/-- The quantum of the running context passes (R290). -/
def State.quantumExpiry (s : State) (part : Nat) : State :=
  match s.runningIn part with
  | some cx => match (s.ctxs.find cx).bind fun (c : Ctx) => c.inSince with
    | some t => (s.advance (t + 1000 * (s.steerOf cx).quantum)).switchDecide part
    | none => s
  | none => s

/-- The running context's work has been parked for 10 µs. -/
def State.parkTimeout (s : State) (part : Nat) : State :=
  match s.runningIn part with
  | some cx => match (s.ctxs.find cx).bind fun (c : Ctx) => c.parkedAt with
    | some t => (s.advance (t + 10000)).switchDecide part
    | none => s
  | none => s

def execQuantumExpiry (part : Fin 64) (s : State) : Out := .next (s.work fun s => s.quantumExpiry part)
def execParkSwitchTimeout (part : Fin 64) (s : State) : Out := .next (s.work fun s => s.parkTimeout part)
def execContextSwitchDecide (part : Fin 64) (s : State) : Out := .next (s.work fun s => s.switchDecide part)
def execContextSwitchComplete (part : Fin 64) (s : State) : Out := .next (s.work fun s => s.switchComplete part)

end Sys2Proof.Machine
end

