-- ==== Sys2Proof/Machine/MemOps.lean ====
section
/-! DEFINITION. What the memory channels do of themselves (10): rounds, the outcomes of reads, the scrub. -/

namespace Sys2Proof.Machine

/-- Where a channel block lies in its channel (Table 10-1). -/
def rankOf (l : Nat) : Nat := l / 64 % 12
def rowOf (l : Nat) : Nat := l / 768
def bankOfBlock (l : Nat) : Nat := Nat.xor (l / 4 % 16) (rowOf l % 16)

/-- The channels run: from their training on, while the hub and the stacks have power. -/
def State.channelsRun (s : State) : Bool := s.env.serac.is [.memory, .test, .setup, .ready, .stopped]

/-! ### Rounds (R260) -/

/-- Slots that refresh takes (Table 10-4): a stack at 95 °C and above. -/
def Stack.refreshSlots (k : Stack) : Nat := if k.level ≥ 2 then 4 else 0

/-- Slots of a generator's run: one a round once the module is ready for rings, every slot before (R267). -/
def State.testSlots (s : State) (ch : Fin 160) : Nat :=
  if s.memsys.chans[ch].tgBusy || (s.testOf (unitNo 10 ch)).testing then (if s.ready then 1 else 64) else 0

/-- The corrected write-back of a block (R258): every stored code word of it with one symbol in error is the encoder's own again. -/
def writtenBack (m : Memory) (flips : Table (BitVec 152)) (ch : Fin 160) (l : Nat) : Table (BitVec 152) :=
  let a := blockAddr ch l
  flips.filter fun p => !(a ≤ 16 * p.1 && 16 * p.1 < a + 512 && match (Rs.decode (codeWord m flips ch l (16 * p.1 % 512 / 16)) l (16 * p.1 % 512 / 16)).1 with
    | .uncorrectable => false
    | .zero | .corrected _ => true)

/-- The guarantees of a round, cut to fit its slots: bulk first, then ks (R260). -/
def Grants.cut (share : BitVec 24) (slots : Nat) : Grants :=
  let lc := fld share 7 0
  let ks := fld share 15 8
  let bulk := fld share 23 16
  let bulk' := bulk - ((lc + ks + bulk) - slots)
  { lc, ks := ks - ((lc + ks + bulk') - slots), bulk := bulk' }

/-- What a served request brings about, by whose it is; `bad` lists its words that failed SECDED at the encoder (R257): what is read of an Inkwell transfer, what
a transfer, a peer, a plan's end or a directory slot writes. A KEY_LOAD with a failed word ends. DESIGN CHOICE: for a failed word of a context's state record,
or of a directory slot, no command is named, and only its record is written (log 75). -/
def State.reqServed (s : State) (ch : Fin 160) (q : MemReq) (bad : List Nat) : State :=
  let records (s : State) (o : FaultOf) : State := bad.foldl (fun (s : State) k => s.wordFault ch k o) s
  match q.who with
  | .xfer cl no => s.xferServed ch q cl no bad
  | .peer no => s.peerServed ch no bad
  | .keyLoad d => if bad.isEmpty then s
      else ((records s (.desc d .faultDetected 0)).updLoad d fun k => { k with causes := k.causes ++ [.faultDetected] }).loadSettle d
  | .plan d => if !q.write then s
      else match (s.run d).bind fun r => r.modOuts.find? (·.addr == q.addr) with
        | some o =>
          let s := records (s.putPart ch q.addr q.len bad (o.into s.mem)) (.desc d .faultDetected 0)
          if bad.isEmpty then s else s.updRun d fun r => { r with causes := r.causes ++ [(.faultDetected, 0)] }
        | none => s
  | .slot i => match s.keys.dir.find i with
    | some x => records (s.putPart ch (s.slotAddr i) 1024 bad (s.mem.write (s.slotAddr i) x.bytes)) { ctx := x.owner }
    | none => s
  | .switch _ => if q.write then records s {} else s
  | .stream _ _ | .fragment _ _ | .rebuild _ | .stage _ _ | .scrub => s

/-- The channel's part of a request holds an address. -/
def MemReq.holds (q : MemReq) (c : Fin 160) (a : Nat) : Bool := q.addr ≤ a && a < q.addr + q.len && inChan c a

/-- The patrol's next burst arrives, with class BULK, once it is due (R258). -/
def Chan.patrols (h : Chan) (c : Fin 160) (now : Nat) : Chan :=
  if now < h.patrolAt || h.reqs.any (·.who == .scrub) then h
  else { h.post c .scrub .bulk false (blockAddr c (h.patrol / 2) + 256 * (h.patrol % 2)) 256 with patrolAt := now + 3400000 }

/-- A round starts: its slots and guarantees, the requests that it serves and what they bring about, the generator's bursts, and the oldest queued
write-back. Nothing is served in self-refresh, by a fenced channel, or by one out of service for a test (R264, R265, R369). -/
def State.memRound (s : State) (ch : Fin 160) (bad : List (MemWho × Nat)) : State :=
  if !s.channelsRun then s
  else
    let off := s.shed ≥ 5 || s.chFenced ch
    let out := off || !(s.testOf (unitNo 10 ch)).faults.isEmpty
    let s := if out then s else s.updChan ch fun h => h.patrols ch s.timebase
    let stk := s.memsys.stackRegs[Fin.ofNat 20 (ch.val / 8)]
    let test := if off then 0 else s.testSlots ch
    let slots := if off then 0 else 64 - stk.refreshSlots - test
    let g := Grants.cut s.env.share slots
    let x := roundServe g (if out then 0 else slots) s.memsys.chans[ch].reqs
    let s := s.updChan ch fun h => { h with
      slots, lc := g.lc, ks := g.ks, bulk := g.bulk, reqs := x.reqs
      tgRun := if h.tgBusy then { h.tgRun with served := h.tgRun.served + test } else h.tgRun }
    let s := (((s.tallyDie 0x900 (ch / 40) x.served.lc).tallyDie 0x901 (ch / 40) x.served.ks).tallyDie 0x902 (ch / 40) x.served.bulk).tallyDie 0x903 (ch / 40) test
    let s := x.done.foldl (fun (s : State) q => s.reqServed ch q ((bad.filter fun b => q.write && b.1 == q.who && q.holds ch (8 * b.2)).map (·.2))) s
    let s := if x.done.isEmpty then s else s.stageMore.finishRuns
    match s.memsys.chans[ch].writeBack, off with
    | l :: r, false => ({ s with memsys := { s.memsys with flips := writtenBack s.mem s.memsys.flips ch l.toNat } } : State).updChan ch fun h => { h with writeBack := r }
    | _, _ => s

/-! ### Reads (R256 to R258) -/

/-- MEM_ECC_LAST (Table 10-9). -/
def eccLast (l beat : Nat) (symbol : Option Nat) : BitVec 64 :=
  BitVec.ofNat 64 (packNat [(14, 0), (19, match symbol with
    | some i => 2 ^ i
    | none => 0), (5, beat), (2, l % 4), (14, rowOf l), (4, bankOfBlock l), (4, rankOf l), (1, boolNat symbol.isNone), (1, 1)])

def satInc (x : BitVec 32) : BitVec 32 := if x = 0xFFFFFFFF#32 then x else x + 1

/-- A row of a channel: rank, bank and row are one number for the 4 blocks that share them. -/
def rowKey (l : Nat) : Nat := l / 4

/-- A corrected read: counted, located, and the row's sixteenth within an hour raises ROW_CORRECTED. -/
def State.readCorrected (s : State) (ch : Fin 160) (l beat symbol : Nat) (queue : Bool) : State :=
  let recent := s.memsys.chans[ch].corrected.filter fun (p : Nat × Nat) => s.timebase < p.2 + 3600000000000
  let k := rowKey l
  let full := (recent.filter fun (p : Nat × Nat) => p.1 == k).length ≥ 15
  let s := (s.updChan ch fun h => { h with
    ce := satInc h.ce, last := eccLast l beat (some symbol)
    writeBack := if queue then h.writeBack ++ [BitVec.ofNat 24 l] else h.writeBack
    corrected := if full then recent.filter (fun (p : Nat × Nat) => p.1 != k) else recent ++ [(k, s.timebase)] }).tallyDie 0x904 (ch.val / 40) 1
  if full then s.raise 0 0x10 0 (packNat [(8, ch.val), (4, rankOf l), (4, bankOfBlock l), (14, rowOf l)]) 0 else s

/-- What a fault record says of an uncorrectable read: its address, and in its detail a syndrome of which the spec fixes no value, the
channel and the beat. -/
def State.eccFault (s : State) (ch : Fin 160) (l beat : Nat) (o : FaultOf) : FaultOf :=
  { o with addr := blockAddr ch l + 16 * beat, detail := packNat [(8, (Config.freeByte s.free 0).toNat), (8, ch.val), (8, beat)] }

/-- An uncorrectable read: counted, located, recorded with the requesting command. -/
def State.readFailed (s : State) (ch : Fin 160) (l beat : Nat) (o : FaultOf) : State :=
  let s := s.updChan ch fun h => { h with ue := satInc h.ue, last := eccLast l beat none }
  s.drawn.dataFault (unitNo 10 ch) 0x0A (s.eccFault ch l beat o)

/-- What a fault record says of the sweep in a slot: the engine command of its first subscriber (R373). -/
def State.sweepFault (s : State) (w : Sweep) : FaultOf := match w.subs.head? with
  | some x => match s.subWork x.sub with
    | some y => s.holderFault 0 y
    | none => FaultOf.desc x.sub.run .faultDetected 0
  | none => {}

/-- Key data that cannot be read (R73): the sweep ends, a RESIDENT entry is quarantined. -/
def State.sweepFailed (s : State) (slot : Fin 8) : State :=
  match s.keys.sweeps[slot] with
  | none => s
  | some w => (s.subsEnd (w.subs.map (·.sub)) .faultDetected).keyDataFailed w.idx

/-- What the Firn's SECDED makes of the bits in error of a beat: it corrects one a word, and detects two. -/
def firnSyndrome (o : ReadObs) : Syndrome :=
  let ones (hi lo : Nat) : Nat := ((upTo 64).filter fun i => (fld o.err hi lo).testBit i).length
  let x := ones 63 0
  let y := ones 127 64
  if o.recompute || o.wrong.isSome || 1 < x || 1 < y then .uncorrectable else if x + y = 0 then .zero else .corrected 0

/-- A read of a staged key's unit comes from the Firn (R74): its error ends the sweep and drops the copy; the key stays RESIDENT. -/
def State.firnRead (s : State) (slot : Fin 8) (w : Sweep) (die : Nat) (syn : Syndrome) : State :=
  match syn with
  | .zero => s
  | .corrected _ => s.corrected (unitNo 9 die) 0x09
  | .uncorrectable =>
    let s := s.drawn.dataFault (unitNo 9 die) 0x09 { s.sweepFault w with detail := (Config.freeByte s.free 0).toNat }
    let s := s.subsEnd (w.subs.map (·.sub)) .faultDetected
    let s := if (s.keys.sweeps[slot]).isSome then s.endSweep slot w.subs else s
    (s.dropFirn w.idx).settleAll

/-- An entry holds a block of a channel: its units cover the block's line (R64). -/
def Krt.holds (e : Krt.Entry) (ch : Fin 160) (l : Nat) : Bool :=
  let u := 20 * (l - Krt.base e) + (ch.val / 8 + 20 - Krt.first e % 20) % 20
  Krt.state e != stFREE && Krt.base e ≤ l && u < Krt.length e

/-- The keys whose data stands at a block. -/
def State.keysAt (s : State) (ch : Fin 160) (l : Nat) : List Nat := s.listed fun e => Krt.holds e ch l

/-- A read of the stacks by its syndrome (Table 10-2). -/
def State.stackRead (s : State) (ch : Fin 160) (l beat : Nat) (o : ReadObs) (f : FaultOf) (after : State → State) : State :=
  match s.readBeat ch l beat o with
  | .zero => s
  | .corrected i => s.readCorrected ch l beat i true
  | .uncorrectable => after (s.readFailed ch l beat f)

/-- A read that some command or engine asked for, and what its failure ends: the data-mover command, the QRUN of the task whose long words it read,
the sweep, the rebuild, the staging, the Thaw command, or the QRUN of the insertion pass; key data quarantines its key (R73, R256). A generator's
reads count in MEM_TG_CODEC alone (R268). In self-refresh, and on a fenced channel, no read completes (R264, R265). -/
def State.memRead (s : State) (ch : Fin 160) (l beat : Nat) (o : ReadObs) (r : Requester) : State :=
  if !s.channelsRun || s.chFenced ch || s.shed ≥ 5 || l > 12582911 then s
  else match r with
    | .generator => s
    | .hub => s.stackRead ch l beat o {} id
    | .mover cl i => match s.work? cl 4 i with
      | some w => if w.done then s else s.stackRead ch l beat o (w.fault cl 4 .faultDetected 0 0) fun s => s.addCause cl 4 i .faultDetected
      | none => s
    | .stream cl p => match s.clusters[cl].eng.tasks[p], s.clusters[cl].eng.streams.find? (·.1 == p.val) with
      | some t, some _ => s.stackRead ch l beat o (.desc t.run .faultDetected 0) fun s => s.failRun t.run .faultDetected 0
      | _, _ => s
    | .sweep slot => match s.keys.sweeps[slot] with
      | some w => if w.staged then s.firnRead slot w (ch.val / 40) (firnSyndrome o)
          else s.stackRead ch l beat o (s.sweepFault w) fun s => s.sweepFailed slot
      | none => s
    | .rebuild i => if !s.rebuilding i then s
        else s.stackRead ch l beat o { ctx := Krt.owner (s.entry i) } fun s => { s with keys := { s.keys with rebuilds := s.keys.rebuilds.upd i fun r => { r with failed := true } } }
    | .stage i => if Krt.firn (s.entry i) != 1 then s
        else s.stackRead ch l beat o { ctx := Krt.owner (s.entry i) } fun s => (s.setFirn i 0).keyDataFailed i
    | .lut cl q i => match s.work? cl (Fin.ofNat 7 (1 + q.val)) i with
      | some w => if w.done || w.b.opcode != 0x40 then s else s.stackRead ch l beat o (w.fault cl (1 + q) .faultDetected 0 0) fun s =>
          (s.addCause cl (Fin.ofNat 7 (1 + q.val)) i .faultDetected).keyDataFailed (handleIdx (ThawCmd.of w.b.bits).lut)
      | none => s
    | .plan d => match s.run d with
      | some r => if r.checked || !r.descsAsked then s
          else s.stackRead ch l beat o (.desc d .faultDetected 0) fun s => s.complete d .faultDetected
      | none => s
    | .pass d => match s.run d with
      | some r => if !r.checked || r.inserts.isEmpty || r.inserted then s
          else s.stackRead ch l beat o (.desc d .faultDetected 0) fun s => (s.keysAt ch l).foldl State.keyDataFailed (s.complete d .faultDetected)
      | none => s

/-- One beat of a scrub burst: its corrected write-back is part of it. -/
def State.scrubBeat (s : State) (ch : Fin 160) (l beat : Nat) (o : ReadObs) : State :=
  match s.readBeat ch l beat o with
  | .zero => s
  | .corrected i =>
    let s := s.readCorrected ch l beat i false
    { s with memsys := { s.memsys with flips := s.memsys.flips.erase ((blockAddr ch l + 16 * beat) / 16) } }
  | .uncorrectable => s.readFailed ch l beat {}

/-- The patrol's burst of 16 beats, once it has been served (R258): what each beat brings back, and its place is free for the requests that waited. -/
def State.scrub (s : State) (ch : Fin 160) (l half : Nat) (o : List ReadObs) : State :=
  let h := s.memsys.chans[ch]
  if !s.channelsRun || s.chFenced ch || s.shed ≥ 5 || h.patrol != 2 * l + half || !h.reqs.any (fun q => q.who == .scrub && q.left == 0) then s
  else
    let s := (upTo 16).foldl (fun (s : State) i => s.scrubBeat ch l (16 * half + i) (o.getD i {})) s
    s.updChan ch fun h => { h with patrol := (h.patrol + 1) % 25165824, reqs := h.reqs.filter (·.who != .scrub) }

def execMemRoundStart (r : RoundCtl) (s : State) : Out := .next (s.work fun s => s.memRound r.ch r.bad)
def execMemReadComplete (ch : Fin 160) (block : BitVec 24) (beat : Fin 32) (o : ReadObs) (r : Requester) (s : State) : Out :=
  .next (s.work fun s => s.memRead ch block.toNat beat o r)
def execScrubBurst (ch : Fin 160) (block : BitVec 24) (half : Fin 2) (o : List ReadObs) (s : State) : Out :=
  .next (s.work fun s => s.scrub ch block.toNat half o)

end Sys2Proof.Machine
end

