-- ==== Sys2Proof/Machine/Shedding.lean ====
section
/-! DEFINITION. Shedding: the supply levels of Table 16-5, the level in force and the effects of its changes (14, 16). -/

namespace Sys2Proof.Machine

def State.updShed (s : State) (f : Shed → Shed) : State := s.updPower fun p => { p with shed := f p.shed }

/-- The power cap and the thermal rule ask for levels (R396). -/
def Shed.asks (h : Shed) (power thermal now : Nat) : Shed :=
  { h with
    power, thermal
    unasked := Vector.ofFn fun (i : Fin 5) => if max power thermal ≤ i.val then some (h.unasked[i].getD now) else none }

/-! ### Supply levels (Table 16-5) -/

/-- One row of Table 16-5, in mV and ns. -/
structure SagRow where
  inputLow : Nat
  railLow : Nat
  dwell : Nat
  inputOk : Nat
  railOk : Nat
  leave : Nat

def sagRow : Fin 5 → SagRow
  | 0 => ⟨43000, 25, 200000, 44000, 15, 10000000⟩
  | 1 => ⟨41000, 35, 100000, 42000, 20, 10000000⟩
  | 2 => ⟨39500, 45, 50000, 40500, 30, 10000000⟩
  | 3 => ⟨38000, 55, 20000, 39000, 40, 10000000⟩
  | 4 => ⟨36000, 70, 5000, 40000, 15, 100000000⟩

/-- The sag of a core rail: its setpoint less its sample. -/
def Power.sag (p : Power) (k : Fin 4) : Nat := p.dies[k].set.toNat - fld p.volt[k.val + 1] 15 0
def Power.railSeen (p : Power) (k : Fin 4) : Bool := p.seen.getLsbD (k.val + 1)

/-- Since when a condition has held. -/
def sinceOf (held : Option Nat) (now : Nat) (c : Bool) : Option Nat := if c then some (held.getD now) else none

/-- When the enter condition of a supply level that has held longest ends its dwell. -/
def Shed.due (h : Shed) (i : Fin 5) : Option Nat :=
  let w := h.watch[i]
  let since := [w.inputLow, w.railSag, if i.val = 4 then h.pgLow else none].filterMap id
  match since with
  | [] => none
  | t :: r => some (r.foldl min t + (sagRow i).dwell)

/-- The highest supply level whose dwell has ended by an instant. -/
def Shed.supplyAt (h : Shed) (t : Nat) : Nat :=
  (List.finRange 5).foldl (fun m i => match h.due i with
    | some d => if d ≤ t then max m (i.val + 1) else m
    | none => m) 0

/-- The supply asks for every level whose dwell has ended by an instant (R395). -/
def Shed.dwelt (h : Shed) (t : Nat) : Shed := { h with supply := max h.supply (h.supplyAt t) }

/-- The conditions of every level, evaluated on the samples in force; a sensor not yet sampled shows nothing. Core rails count from
the end of start-up stage 3 on. -/
def Env.watch (e : Env) (now : Nat) : Env :=
  let p := e.power
  let inSeen := p.seen.getLsbD 0
  let input := fld p.volt[0] 15 0
  let rails := e.serac.is [.memory, .test, .setup, .ready, .stopped]
  let any (x : Nat) : Bool := rails && (List.finRange 4).any fun k => p.railSeen k && p.sag k ≥ x
  let within (x : Nat) : Bool := !rails || (List.finRange 4).all fun k => !p.railSeen k || p.sag k ≤ x
  let watch := Vector.ofFn fun (i : Fin 5) =>
    let r := sagRow i
    let w := p.shed.watch[i]
    let ok := (!inSeen || input ≥ r.inputOk) && within r.railOk && (i.val < 4 || e.board.pg48v)
    ({ inputLow := sinceOf w.inputLow now (inSeen && input < r.inputLow), railSag := sinceOf w.railSag now (any r.railLow),
       leave := sinceOf w.leave now ok } : SupplyWatch)
  { e with power := { p with shed := { p.shed.dwelt now with watch } } }

def State.watchSupply (s : State) : State := { s with env := s.env.watch s.timebase }

/-! ### The level in force -/

/-- SRC_SHED.cause: what asks for a level now; the supply's last causes while its ask still holds. -/
def Shed.causes (h : Shed) : BitVec 8 :=
  let input := h.watch.toList.any fun (w : SupplyWatch) => w.inputLow.isSome
  let rail := h.watch.toList.any fun (w : SupplyWatch) => w.railSag.isSome
  let now := boolNat input + 2 * boolNat rail + 4 * boolNat h.pgLow.isSome
  let supply := if h.supply = 0 then 0 else if now = 0 then fld h.cause 2 0 else now
  BitVec.ofNat 8 (packNat [(3, supply), (1, boolNat (h.power > 0)), (1, boolNat (h.thermal > 0))])

/-- Peer ports run 2 lanes at level 2 and above (Table 14-5). -/
def State.setLanes (s : State) : State :=
  { s with sync := { s.sync with ports := s.sync.ports.map fun (q : Port) => { q with lanes := if q.lanes = 0 then 0 else if s.shed ≥ 2 then 2 else 4 } } }

/-- A DUAL Thaw command that stands between its two runs on engine 1 makes the second one on engine 0 (Table 14-7): its GSUB is presented again there. -/
def State.moveSecond (s : State) (cl : Fin 64) : State :=
  (s.thawOn cl 1).foldl (fun (s : State) (x : Fin 7 × Nat) => match s.work? cl x.1 x.2 with
    | some w => match w.kind with
      | .thaw t =>
        if t.dual && !t.both && t.sweepsLeft = 1 && t.step = 0 && t.landed = 0 && !t.ended && w.causes.isEmpty then
          ((s.unsubscribe cl t.gsub).updWork cl 5 t.gsub fun y => match y.kind with
            | .gsub e h sel batch _ => { y with kind := .gsub e h sel batch false }
            | _ => y).updWork cl x.1 x.2 fun w => { w with kind := .thaw { t with engine := 0 } }
        else s
      | _ => s
    | none => s) s

/-- From level 4 on engine 1's commands run again on engine 0; at level 5 every Thaw and data-mover command runs again when the level
falls (Tables 4-11, 9-8). -/
def State.parkEngines (s : State) (old : Nat) : State :=
  let s := if old < 4 && s.shed ≥ 4 then allClusters.foldl (fun (s : State) (cl : Fin 64) =>
    if s.serves cl 1 = some 0 then (s.moveSecond cl).rerunThaw cl 1 else s) s else s
  if old < 5 && s.shed ≥ 5 then allClusters.foldl (fun (s : State) (cl : Fin 64) =>
      ((s.rerunThaw cl 0).rerunThaw cl 1).stopMover cl) s
  else s

/-- Context operations that wait for the public-key engine complete with SHED at level 5; the module's own wait (Table 13-7). -/
def State.shedPke (s : State) : State :=
  let l := s.sec.waiting.filterMap fun o => match o with
    | .context d => some d
    | _ => none
  let s := { s with sec := { s.sec with waiting := s.sec.waiting.filter fun o => match o with
    | .context _ => false
    | _ => true } }
  l.foldl (fun (s : State) d => s.complete d .shed) s

/-- What a change from level `old` does beside the Serac: trace stops or starts again, lanes, engines, DEGRADED, the event. -/
def State.shedEffects (s : State) (old : Nat) : State :=
  let s := if old = 0 then { s with obs := { s.obs with stoppedAt := some s.timebase } } else s
  let s := if s.shed = 0 then
      let s := s.traceAny { kind := 0x21, ctx := 0, data := s.obs.stoppedAt.getD 0 }
      { s with obs := { s.obs with stoppedAt := none } }
    else s
  let s := s.setLanes.markDegraded.parkEngines old
  let s := if old < 5 && s.shed ≥ 5 then s.shedPke else s
  s.raise 0 0x13 0 s.shed 0

/-- The level changes: SRC_SHED, the SHED record, and what follows. -/
def State.setLevel (s : State) (lvl : Nat) : State :=
  let old := s.shed
  if lvl = old then s
  else
    let s := s.updShed fun h => { h with level := lvl, peak := max h.peak lvl, changedAt := s.timebase, cause := h.causes }
    let s := s.record 0x03 (lvl + 256 * s.env.power.shed.cause.toNat) 0
    s.work fun s => s.shedEffects old

/-- The highest level that the supply, the power cap or the thermal rule asks for. -/
def Shed.asked (h : Shed) : Nat := max h.supply (max h.power h.thermal)

/-- The instant at which a level may be entered: the end of its dwell, or now where that is over or the power cap or the thermal rule asks. -/
def Shed.riseDue (h : Shed) (lvl now : Nat) : Option Nat :=
  if lvl ≤ h.asked then some now
  else if lvl = 0 then none
  else h.due (Fin.ofNat 5 (lvl - 1))

/-- A cause holds for its dwell: the supply asks for its level, and the level in force rises directly to the highest asked for (R395, R396). -/
def State.shedRise (s : State) (lvl : Nat) : State :=
  if !s.env.board.running then s
  else match s.env.power.shed.riseDue lvl s.timebase with
    | none => s
    | some d =>
      let s := s.advance d
      let s := s.updShed fun h => h.dwelt s.timebase
      let a := s.env.power.shed.asked
      if a > s.shed then s.setLevel a else s

/-- The instant from which the leave conditions of the level in force have held: that of Table 16-5 where the supply has asked for it, and that neither
the power cap nor the thermal rule asks. -/
def Shed.leaveSince (h : Shed) : Option Nat :=
  let i := Fin.ofNat 5 (h.level - 1)
  if h.level = 0 then none
  else match h.unasked[i], if h.supply ≥ h.level then h.watch[i].leave else some 0 with
    | some a, some b => some (max a b)
    | _, _ => none

/-- The level falls by one step once its leave time has passed (R396); a rise asked for by then comes first. -/
def State.shedFall (s : State) : State :=
  let h := s.env.power.shed
  match h.leaveSince with
  | none => s
  | some t =>
    let due := max t h.changedAt + (sagRow (Fin.ofNat 5 (h.level - 1))).leave
    if !s.env.board.running || h.supplyAt due ≥ h.level then s
    else
      let s := s.advance due
      let s := s.updShed fun h => { h with supply := min h.supply (h.level - 1) }
      s.setLevel (h.level - 1)

def execShedRise (lvl : Fin 6) (s : State) : Out := .next (s.shedRise lvl)
def execShedFall (s : State) : Out := .next s.shedFall

/-- The system asserts PG_48V (R432). -/
def execPg48vAssert (s : State) : Out :=
  .next (((s.updBoard fun b => { b with pg48v := true }).updShed fun h => { h.dwelt s.timebase with pgLow := none }).watchSupply)

/-- PG_48V falls: shed level 5 once 5 µs have passed (R395). -/
def execPg48vDeassert (s : State) : Out :=
  .next (if s.env.board.pg48v then ((s.updBoard fun b => { b with pg48v := false }).updShed fun h => { h with pgLow := some s.timebase }).watchSupply else s)

end Sys2Proof.Machine
end

