-- ==== Sys2Proof/Machine/Sensors.lean ====
section
/-! DEFINITION. The sensors of the Serac and what their samples do: thermal steps, supply levels, over-current (10, 16). -/

namespace Sys2Proof.Machine

/-! ### Thermal steps (R263, R397) -/

/-- A rule of steps by temperature: the level in force, and the levels that the previous sample reached and held. -/
structure Heat where
  level : Nat
  up : Nat
  down : Nat

/-- One sample, in 1/16 °C: a level is entered when two consecutive samples reach its threshold, and left when two consecutive samples
fall below the threshold less 3 °C. -/
def Heat.sample (h : Heat) (thr : List Int) (t : Int) : Heat :=
  let up := (thr.filter fun x => 16 * x ≤ t).length
  let down := (thr.filter fun x => 16 * (x - 3) ≤ t).length
  let enter := min h.up up
  let hold := max h.down down
  { level := if h.level < enter then enter else if hold < h.level then hold else h.level, up, down }

def stackThr : List Int := [85, 95, 100, 105]
def dieThr : List Int := [100, 105, 110, 115]

/-- Refresh code and throttle step by level (Table 10-4). -/
def stackRefresh (lvl : Nat) : Nat := min lvl 2
def stackThrottle (lvl : Nat) : Nat := lvl - 1

/-- The throttle cap on a die's voltage (Tables 10-4, 16-7). -/
def stepCap (step : Nat) : Nat := if step = 0 then 850 else if step = 1 then 700 else 650

/-- The voltage that a die has or is on its way to. -/
def DiePower.target (d : DiePower) : Nat := (d.pending.getD d.set).toNat

/-- A thermal cap overrides at once the voltage that the governor has chosen (R263). -/
def State.capDie (s : State) (k : Fin 4) : State :=
  let cap := stepCap (s.dieStep k)
  if cap < s.env.power.dies[k].target then
    s.updPower fun p => { p with dies := vupd p.dies k fun d => { d with pending := some (BitVec.ofNat 12 cap), limiter := 3 } }
  else s

/-- THERM_ALERT_N is asserted while any compute die or stack is at step 3 (R398). -/
def State.setAlert (s : State) : State :=
  s.updBoard fun b => { b with thermAlert := (List.finRange 4).any fun k => s.dieStep k ≥ 3 }

/-- A change of a step writes a THERMAL record. -/
def State.thermal (s : State) (sensor : Nat) (sample : BitVec 16) (old new : Nat) : State :=
  if old = new then s else s.record 0x04 (sensor + 65536 * sample.toNat) new

/-- °C of a sample in MEM_THERM: whole degrees; below 0 °C the field's value is not given (log 7). -/
def State.degrees (s : State) (t : Int) : Nat := if t < 0 then (Config.freeByte s.free 0).toNat else min (t / 16).toNat 255

/-- A stack's sample (R263). -/
def State.stackTemp (s : State) (stk : Fin 20) (v : BitVec 16) : State :=
  let k := s.memsys.stackRegs[stk]
  let h := (Heat.mk k.level k.up k.down).sample stackThr v.toInt
  let deg := s.degrees v.toInt
  let peak := max (fld k.therm 15 8) (if v.toInt < 0 then 0 else deg)
  let therm := BitVec.ofNat 32 (packNat [(4, 0), (2, stackThrottle h.level), (2, stackRefresh h.level), (8, peak), (8, deg)])
  let s := if v.toInt < 0 then s.drawn else s
  let s := { s with memsys := { s.memsys with stackRegs := vupd s.memsys.stackRegs stk fun _ => { therm, level := h.level, up := h.up, down := h.down } } }
  ((s.thermal (32 + stk) v (stackThrottle k.level) (stackThrottle h.level)).capDie (Fin.ofNat 4 (stk.val / 5))).setAlert

/-- The junction of a compute die: the highest of its eight sensors. -/
def Power.junction (p : Power) (k : Fin 4) : BitVec 16 :=
  (upTo 8).foldl (fun (m : BitVec 16) i =>
    let v := BitVec.ofNat 16 (fld p.temp[(Fin.ofNat 64 (8 * k.val + i))] 15 0)
    if i = 0 || m.toInt < v.toInt then v else m) 0

/-- The junction's thermal step (Table 16-7), at the sample of the last of its eight sensors; from 115 °C on, shed level 5. -/
def State.dieTemp (s : State) (k : Fin 4) (sensor : Nat) : State :=
  let d := s.env.power.dies[k]
  let v := s.env.power.junction k
  let h := (Heat.mk (if d.hot then 4 else d.step) d.up d.down).sample dieThr v.toInt
  let s := s.updPower fun p => { p with dies := vupd p.dies k fun d => { d with step := min h.level 3, hot := h.level ≥ 4, up := h.up, down := h.down } }
  let ask := if s.env.power.dies.toList.any (·.hot) then 5 else 0
  let s := s.updShed fun x => x.asks x.power ask s.timebase
  ((s.thermal sensor v d.step (min h.level 3)).capDie k).setAlert

/-! ### Samples (R385) -/

def peakUp (x : BitVec 32) (v : BitVec 16) (more : Bool) : BitVec 32 := putFld (if more then putFld x 31 16 v.toNat else x) 15 0 v.toNat

/-- SRC_TEMP holds the latest sample and the highest. -/
def State.tempReg (s : State) (i : Fin 64) (v : BitVec 16) : State :=
  s.updPower fun p => { p with temp := vupd p.temp i fun x => peakUp x v ((BitVec.ofNat 16 (fld x 31 16)).toInt < v.toInt) }

def State.tempSample (s : State) (i : Fin 64) (v : BitVec 16) : State :=
  let s := s.tempReg i v
  if h : 32 ≤ i.val ∧ i.val < 52 then s.stackTemp ⟨i.val - 32, by omega⟩ v
  else if i.val < 32 && i.val % 8 = 7 then
    let k : Fin 4 := Fin.ofNat 4 (i.val / 8)
    -- the sensor whose sample changed the step: the hottest of the eight
    s.dieTemp k (((upTo 8).find? fun j => fld s.env.power.temp[(Fin.ofNat 64 (8 * k.val + j))] 15 0 == (s.env.power.junction k).toNat).getD 7 + 8 * k)
  else s

def State.voltSample (s : State) (i : Nat) (v : BitVec 16) : State :=
  let s := s.updPower fun p => { p with
    volt := vupdNat p.volt i fun x => peakUp x v (v.toNat < fld x 31 16)
    seen := if i < 5 then p.seen ||| BitVec.ofNat 5 (2 ^ i) else p.seen }
  if i < 5 then s.watchSupply else s

/-- The input current and voltage make a power sample (R393); more than 1.2 × cap / 48 V starts the over-current span. -/
def State.currSample (s : State) (i : Nat) (v : BitVec 16) : State :=
  let s := s.updPower fun p => { p with curr := vupdNat p.curr i fun x => peakUp x v (fld x 31 16 < v.toNat) }
  if i = 0 then s.updPower fun p => { p with
      sum := p.sum + fld p.volt[0] 15 0 * v.toNat
      samples := p.samples + 1
      overSince := sinceOf p.overSince s.timebase (48 * v.toNat > 12 * p.capNow.toNat) }
  else s

/-- A sample of Table 16-1; indices that name no sensor have none. -/
def State.sensorSample (s : State) (k : SensorKind) (i : Fin 64) (v : BitVec 16) : State :=
  if s.env.serac.st = .off then s
  else match k with
    | .temp => s.tempSample i v
    | .volt => s.voltSample i v
    | .curr => s.currSample i v

def execSensorSample (k : SensorKind) (i : Fin 64) (v : BitVec 16) (s : State) : Out := .next (s.sensorSample k i v)
/-- A stack's sample is one of the Serac's 64 temperature sensors (10). -/
def execStackTempSample (stk : Fin 20) (t : BitVec 16) (s : State) : Out :=
  .next (s.sensorSample .temp ⟨32 + stk.val, by omega⟩ t)

/-! ### Over-current (R393) and voltage changes (R387) -/

/-- Every ceiling falls by 50 mV, from the ceiling or the voltage where that is lower (log 41), and the voltages with it. -/
def DiePower.lower (d : DiePower) (mv : Nat) : DiePower := { d with ceiling := max 650 (min d.ceiling d.target - mv) }

def DiePower.obeyCeiling (d : DiePower) : DiePower :=
  if d.ceiling < d.target then { d with pending := some (BitVec.ofNat 12 d.ceiling), limiter := 2 } else d

def State.overcurrent (s : State) : State :=
  match s.env.power.overSince with
  | none => s
  | some t =>
    let s := s.advance (t + 20000)
    s.updPower fun p => { p with dies := p.dies.map fun d => (d.lower 50).obeyCeiling, overSince := some s.timebase }

def execOvercurrentTrip (s : State) : Out := .next s.overcurrent

/-- A voltage decided is in force (R387). -/
def State.voltageDone (s : State) (k : Fin 4) : State :=
  match s.env.power.dies[k].pending with
  | none => s
  | some v => (s.updPower fun p => { p with dies := vupd p.dies k fun d => { d with set := v, pending := none } }).watchSupply

def execVoltageChangeDone (die : Fin 4) (s : State) : Out := .next (s.voltageDone die)

end Sys2Proof.Machine
end

