-- ==== Sys2Proof/Machine/Governor.lean ====
section
/-! DEFINITION. The Snowline governor: contract windows, voltages, the power cap, at_risk (R351 to R354, R388 to R394). -/

namespace Sys2Proof.Machine

/-! ### Contract windows (R388 to R390) -/

namespace Contract
def histAddr (b : BitVec 512) : Nat := fld b 511 448
def rateTarget (b : BitVec 512) : Nat := fld b 255 224
def latTarget (b : BitVec 512) : Nat := fld b 223 192
def windowMs (b : BitVec 512) : Nat := fld b 191 176
def margin (b : BitVec 512) : Nat := fld b 175 168
/-- The percentile in thousandths. -/
def pct (b : BitVec 512) : Nat := match fld b 167 160 with
  | 0 => 500 | 1 => 900 | 2 => 990 | _ => 999
end Contract

/-- The upper edge of a bucket, in ns (R389). -/
def bucketEdge (b : Nat) : Nat := if b = 0 then 1024 else 2 ^ ((b - 1) / 16 + 6) * (17 + (b - 1) % 16)

/-- The lowest bucket at which the cumulative count reaches a share of the count, in thousandths. -/
def pctBucket (total share : Nat) : List (Nat × Nat) → Nat → Option Nat
  | [], _ => none
  | (b, n) :: r, acc => if share * total ≤ 1000 * (acc + n) then some b else pctBucket total share r (acc + n)

def Gov.count (g : Gov) : Nat := (g.hist.map (·.2)).sum

/-- The window's percentile latency in µs, rounded up. -/
def Gov.latency (g : Gov) (b : BitVec 512) : Option Nat :=
  (pctBucket g.count (Contract.pct b) (g.hist.filter (·.2 > 0)) 0).map fun x => divUp (bucketEdge x) 1000

/-- OK completions per second, whole (log 42). -/
def Gov.perSecond (g : Gov) (b : BitVec 512) : Nat := g.count * 1000 / max 1 (Contract.windowMs b)

/-- The 384 counts in bucket order. -/
def Gov.histBytes (g : Gov) : List Byte := (upTo 384).flatMap fun i => leBytes 4 (g.hist.get 0 i)

/-- How a window stands to its targets (R390): short, far inside, and the shortfall in steps of 2 per cent, rounded up. -/
structure Standing where
  shortL : Bool
  shortR : Bool
  longL : Bool
  longR : Bool
  steps : Nat

def standing (b : BitVec 512) (ok : Bool) (lat rate : Nat) : Standing :=
  let lt := Contract.latTarget b
  let rt := Contract.rateTarget b
  let m := Contract.margin b
  if !ok then { shortL := lt != 0, shortR := rt != 0, longL := false, longR := false, steps := 5 }
  else
    let thrL := lt * (256 - m)
    let thrR := rt * (256 + m)
    let shortL := lt != 0 && thrL < 256 * lat
    let shortR := rt != 0 && 256 * rate < thrR
    let sl := if shortL then divUp (50 * (256 * lat - thrL)) (max 1 thrL) else 0
    let sr := if shortR then (if rate = 0 then 5 else divUp (50 * (thrR - 256 * rate)) (256 * rate)) else 0
    { shortL, shortR, longL := lt == 0 || 256 * lat < lt * (256 - 2 * m), longR := rt == 0 || rt * (256 + 2 * m) < 256 * rate, steps := max sl sr }

/-- Another context has admitted work in the partition. -/
def State.shares2 (s : State) (cx : Nat) : Bool := match s.ctxs.find cx with
  | none => false
  | some c => s.ctxs.any fun (p : Nat × Ctx) => p.1 != cx && p.1 != 0 && p.2.part == c.part && s.hasWork p.1

/-- The governor steers a context by a window (R390). -/
def Gov.steerBy (g : Gov) (t : Steer) (x : Standing) (weight batch wait : Nat) (shared : Bool) : Gov :=
  if x.shortL || x.shortR then { g with
    wait := if x.shortL then max t.swMin (wait / 2) else wait
    batch := if x.shortR then min t.sbMax (2 * batch) else batch
    weight := if shared then min 255 (2 * weight) else weight
    ask := min 850 (g.ask + 10 * min 5 x.steps) }
  else if x.longL && x.longR then { g with
    ask := max 650 (g.ask - 10)
    weight := max t.weight (weight / 2)
    wait := min t.swMax (2 * wait)
    batch := max t.sbMin (batch / 2) }
  else g

/-- The half of the block that the module writes (Table 16-3). -/
def Gov.blockHalf (g : Gov) (b : BitVec 512) : Nat :=
  packNat [(32, 0), (32, g.errors), (8, g.cause + 128 * boolNat g.risk), (24, 0), (32, g.windows), (32, g.gotLat), (32, g.gotRate), (64, Contract.histAddr b)]

/-- The block can be written now. -/
def State.blockOpen (s : State) (cx : Nat) (t : Steer) : Bool := s.xlOk (s.spaceOf cx) (t.contract + 32) 32 true

/-- What a window end writes, as far as it can be written: the histogram first, then the block (R389). -/
def State.writeWindow (s : State) (cx : Nat) (t : Steer) (old g : Gov) : State :=
  let sp := s.spaceOf cx
  let h := Contract.histAddr t.block
  let wrote := s.blockOpen cx t
  let s := if h = 0 || !s.xlOk sp h 1536 true then s else s.hostWrite sp h old.histBytes
  if wrote then s.hostPut sp (t.contract + 32) 32 (g.blockHalf t.block) else s

/-- The block, and the histogram where it has an address, can be written. -/
def State.windowPage (s : State) (cx : Nat) (t : Steer) : Option (Nat × Nat) :=
  let sp := s.spaceOf cx
  let h := Contract.histAddr t.block
  [(t.contract + 32, 32), (h, if h = 0 then 0 else 1536)].find? fun (p : Nat × Nat) => !s.xlOk sp p.1 p.2 true

/-- A window ends (R389, R390). Without a translation of what it writes it waits, and that stays unwritten where the host has none; the latency and
the rate that an event reports are those last written (R392). -/
def State.windowEnd (s : State) (cx : Fin 4096) : State :=
  match s.ctxs.find cx with
  | none => s
  | some c =>
    let t := s.steerOf cx
    if !t.isContract then s
    else
      let due := c.gov.windowAt + 1000000 * Contract.windowMs t.block
      let s := s.advance due
      match if c.gov.noWrite then none else s.windowPage cx t with
      | some p => s.ask (.area cx 7) (s.spaceOf cx) p.1 p.2 true
      | none =>
        let g := c.gov
        let ok := g.count > 0
        -- without an OK completion the spec gives no percentile: a free value
        let free := packNat ((upTo 4).map fun i => (8, (Config.freeByte s.free i).toNat))
        let lat := (g.latency t.block).getD free
        let s := if ok then s else s.drawn
        let rate := g.perSecond t.block
        let x := standing t.block ok lat rate
        let wrote := s.blockOpen cx t
        let g' := { g with hist := [], errors := g.errors, windowAt := due, admitted := s.hasWork cx, windows := g.windows + 1
                           gotRate := if wrote then rate else g.gotRate, gotLat := if wrote then lat else g.gotLat
                           short := g.admitted && (x.shortL || x.shortR), noWrite := false }
        let g' := if g.admitted then g'.steerBy t x (s.weightOf cx) (s.batchOf cx) (s.sweepWaitOf cx) (s.shares2 cx) else g'
        (s.writeWindow cx t g g').updCtx cx fun c => { c with gov := { g' with errors := 0 } }

def execContractWindowEnd (ctx : Fin 4096) (s : State) : Out := .next (s.work fun s => s.windowEnd ctx)

/-! ### Voltages (R351 to R353) -/

/-- What a context asks for (R352). -/
def State.askOf (s : State) (cx : Nat) : Nat :=
  let t := s.steerOf cx
  if t.perf = 2 then 700
  else if t.isContract then clampNat 650 850 (((s.ctxs.find cx).map fun (c : Ctx) => c.gov.ask).getD 750)
  else 750

/-- The contexts with admitted work in a partition on a die. -/
def State.onDie (s : State) (k : Nat) : List Nat :=
  (s.ctxs.map (·.1)).filter fun cx => s.hasWork cx && (s.ctxClusters cx).any fun c => dieOf c == k

/-- The bounds on a die's voltage beside the asks: CAPPED, the power cap's ceiling, the thermal cap. -/
def State.cappedOn (s : State) (k : Nat) : Nat := if (s.onDie k).any fun cx => (s.steerOf cx).perf == 2 then 700 else 850
def State.thermalCap (s : State) (k : Fin 4) : Nat := stepCap (s.dieStep k)

/-- The decision for one die: its highest ask, its voltage, and what limits it (Table 16-8), an earlier entry of R351 first. -/
def State.dieChoice (s : State) (k : Fin 4) : Nat × Nat × Nat :=
  let l := s.onDie k
  let ask := (l.map fun cx => s.askOf cx).foldl max 650
  let capped := s.cappedOn k
  let ceiling := s.env.power.dies[k].ceiling
  let heat := s.thermalCap k
  let v := min ask (min capped (min ceiling heat))
  let limiter := if l.isEmpty then 4 else if v = ask then 0 else if v = heat then 3 else if v = ceiling then 2 else 1
  (ask, v, limiter)

def DiePower.choose (d : DiePower) (ask v limiter : Nat) : DiePower :=
  { d with
    ask := BitVec.ofNat 12 ask, limiter := BitVec.ofNat 4 limiter
    pending := if d.set.toNat = v then none else some (BitVec.ofNat 12 v) }

def State.setVoltages (s : State) : State :=
  let choice := Vector.ofFn fun (k : Fin 4) => s.dieChoice k
  s.updPower fun p => { p with dies := Vector.ofFn fun (k : Fin 4) => p.dies[k].choose choice[k].1 choice[k].2.1 choice[k].2.2 }

/-! ### The power cap (R393, R394) -/

/-- The module's power over the last 1 ms against a share of the cap, in per cent: above it. -/
def Power.above (p : Power) (percent : Nat) : Bool := 100 * p.sum > percent * p.capNow.toNat * 10000 * p.samples

/-- The average, in whole watts. -/
def Power.average (p : Power) : Nat := min 0xFFFF (p.sum / (10000 * max 1 p.samples))

/-- Above the cap, the ceiling of every die with the highest voltage falls by 10 mV; after 100 decisions at or below 0.97 of it every
ceiling rises. -/
def Power.ceilings (p : Power) : Power :=
  if p.above 100 then
    let top := (p.dies.toList.map (·.target)).foldl max 0
    { p with dies := p.dies.map (fun d => if d.target = top then d.lower 10 else d), under97 := 0 }
  else if p.above 97 then { p with under97 := 0 }
  else if p.under97 + 1 ≥ 100 then { p with dies := p.dies.map (fun d => { d with ceiling := min 850 (d.ceiling + 10) }), under97 := 0 }
  else { p with under97 := p.under97 + 1 }

/-- The power cap's ask for a shed level. -/
def Power.capShed (p : Power) (now : Nat) : Power :=
  let floor := p.dies.toList.all fun d => d.set.toNat ≤ 650
  let streak := if floor && p.above 100 then p.floorOver + 1 else 0
  let rise := if streak ≥ 20 then 4 else if streak ≥ 10 then 3 else 0
  let under := if p.above 95 then 0 else p.under95 + 1
  let falls := under ≥ 100 && p.shed.power > 0
  { p with
    floorOver := streak, under95 := if under ≥ 100 then 0 else under
    shed := p.shed.asks (max rise (if falls then p.shed.power - 1 else p.shed.power)) p.shed.thermal now }

/-- A written cap takes effect, the average over the last 1 ms is taken, and the cap enforced. -/
def State.enforceCap (s : State) : State :=
  s.updPower fun p =>
    let p := { p with capNow := p.cap }
    if p.samples = 0 then p
    else
      let a := p.average
      let p := (p.ceilings).capShed s.timebase
      { p with power := putFld (if fld p.power 31 16 < a then putFld p.power 31 16 a else p.power) 15 0 a, sum := 0, samples := 0 }

/-! ### At risk (R391, R392) -/

/-- A bound holds the voltage of some die of a context's partition below its ask. -/
def State.heldBelow (s : State) (cx : Nat) (bound : Fin 4 → Nat) : Bool :=
  (List.finRange 4).any fun k => (s.ctxClusters cx).any (fun c => dieOf c == k.val) && bound k < s.askOf cx

/-- A cluster or Thaw engine of the partition is fenced. -/
def State.partFenced (s : State) (cx : Nat) : Bool := (s.ctxClusters cx).any fun c => s.clFenced c || s.thawFenced c 0 || s.thawFenced c 1

/-- The cause of Table 16-4, the lowest code where more than one applies. -/
def State.riskCause (s : State) (cx : Nat) (g : Gov) : Nat :=
  let t := s.steerOf cx
  if t.perf != 0 || t.contract = 0 then 0
  else if !t.isContract then 7
  else if g.short && s.askOf cx ≥ 850 && s.weightOf cx = 255 && s.batchOf cx = t.sbMax && s.sweepWaitOf cx = t.swMin then 1
  else if s.heldBelow cx fun k => s.cappedOn k then 2
  else if s.heldBelow cx fun k => s.env.power.dies[k].ceiling then 3
  else if s.heldBelow cx fun k => s.thermalCap k then 4
  else if g.short && s.shed ≥ 1 then 5
  else if g.short && s.partFenced cx then 6
  else 0

/-- CONTRACT_AT_RISK into the context's ring and context 0's, and its Moraine record. -/
def State.riskEvent (s : State) (cx : Nat) (g : Gov) : State :=
  let p0 := packNat [(32, g.gotLat), (32, g.gotRate)]
  let p1 := packNat [(7, g.cause), (1, 0), (1, boolNat g.risk)]
  let s := s.raise cx 0x03 cx p0 p1
  let s := if cx = 0 then s else s.raise 0 0x03 cx p0 p1
  s.record 0x06 cx p1

/-- at_risk of one context at a decision: a change writes the block's risk field, where the block can be written, then raises the event (R392); an
invalid block just read records cause 7 also where nothing changes (R388). -/
def State.riskOf (s : State) (cx : Nat) : State :=
  match s.ctxs.find cx with
  | none => s
  | some c =>
    let cause := s.riskCause cx c.gov
    let risk := cause != 0
    let changes := risk != c.gov.risk
    let g := { c.gov with cause, risk, unwritten := false }
    let done (s : State) : State :=
      let s := s.updCtx cx fun c => { c with gov := g }
      if changes then s.riskEvent cx g else s
    let t := s.steerOf cx
    let at_ := t.contract + 40
    let sp := s.spaceOf cx
    if !changes && !(c.gov.unwritten && cause = 7) then done s
    else if t.contract = 0 then done s
    else if s.xlOk sp at_ 1 true then done (s.hostPut sp at_ 1 (cause + 128 * boolNat risk))
    else if c.gov.noWrite then done s
    else s.ask (.area (Fin.ofNat 4096 cx) 7) sp at_ 1 true

def State.risks (s : State) : State := (s.ctxs.map (·.1)).foldl (fun (s : State) cx => s.riskOf cx) s

/-! ### The decision -/

def DiePower.rateSample (d : DiePower) (r : BitVec 16) : DiePower :=
  { d with rate := putFld (if r.toNat < fld d.rate 31 16 then putFld d.rate 31 16 r.toNat else d.rate) 15 0 r.toNat }

/-- The pace monitors' rates over the last 1 ms (R387). -/
def State.paceRates (s : State) (rates : List (BitVec 16)) : State :=
  s.updPower fun p => { p with dies := Vector.ofFn fun (k : Fin 4) => match rates[k.val]? with
    | some r => p.dies[k].rateSample r
    | none => p.dies[k] }

/-- One decision, every 1 ms on the timebase once the core rails are up. -/
def State.govern (s : State) (rates : List (BitVec 16)) : State :=
  if !s.channelsRun then s
  else
    let t := nextTick 1000000 s.env.power.decidedAt s.timebase
    let s := s.advance t
    let s := s.updPower fun p => { p with decidedAt := t }
    let s := ((s.paceRates rates).enforceCap).setVoltages
    s.work State.risks

def execGovernorDecision (rates : List (BitVec 16)) (s : State) : Out := .next (s.govern rates)

end Sys2Proof.Machine
end

