-- ==== Sys2Proof/Machine/Pke.lean ====
section
/-! DEFINITION. The security block (13): alias and attestation records, the public-key engine and its operations, sessions and
identities. An operation's outcome is fixed at its start and takes effect at its end. -/

namespace Sys2Proof.Machine

/-! ### Operation bodies (Tables 13-4, 13-4a, 13-5) -/

structure PkeBody where
  src : Nat
  dst : Nat
  msgLen : Nat
  reserved : Nat
  space : Nat
  dlen : Nat
  words : Nat
  alg : Nat
  sub : Nat

def PkeBody.of (b : BitVec 384) : PkeBody where
  src := fld b 383 320
  dst := fld b 319 256
  msgLen := fld b 255 216
  reserved := fld b 215 19
  space := fld b 18 18
  dlen := fld b 17 16
  words := fld b 15 8
  alg := fld b 7 4
  sub := fld b 3 0

def Adm.pkeBody (a : Adm) : PkeBody := PkeBody.of a.body

namespace PkeBody

/-- Digest bytes by dlen. -/
def digestLen (b : PkeBody) : Nat := match b.dlen with
  | 0 => 32 | 1 => 48 | _ => 64

/-- The size S of an operand (R336). -/
def slot (op : Nat) (b : PkeBody) : Nat :=
  if op = 0xB5 then 8 * b.words else if op = 0xBA then 72 else ((Crypto.Curve.ofAlg b.alg).map (·.slot)).getD 72

/-- Bytes of the operand block. -/
def inLen (op : Nat) (b : PkeBody) : Nat := match op with
  | 0xB0 => b.slot op + 64
  | 0xB1 => 4 * b.slot op + 64
  | 0xB2 => 3 * b.slot op
  | 0xB4 => b.msgLen
  | 0xB5 => 3 * b.slot op
  | 0xB8 | 0xB9 => 64
  | 0xBA => 288
  | _ => 0

/-- Bytes of the result block. -/
def outLen (op : Nat) (b : PkeBody) : Nat := match op with
  | 0xB0 => 2 * b.slot op
  | 0xB2 => b.slot op
  | 0xB3 => 3 * b.slot op
  | 0xB4 => if b.alg = 1 then 48 else 64
  | 0xB5 => b.slot op
  | 0xB8 | 0xB9 | 0xBC => 1024
  | 0xBA => 16
  | _ => 0

/-- A field that Table 13-4a does not give the operation is non-zero, or one that it gives is out of range. -/
def fieldsBad (op : Nat) (b : PkeBody) : Bool :=
  let curve := !(1 ≤ b.alg && b.alg ≤ 3)
  let no (l : List Nat) : Bool := l.any (· != 0)
  b.reserved != 0 || b.src % 64 != 0 || b.dst % 64 != 0 || match op with
    | 0xB0 => curve || b.dlen = 3 || no [b.msgLen, b.words, b.sub]
    | 0xB1 => curve || b.dlen = 3 || no [b.dst, b.msgLen, b.words, b.sub]
    | 0xB2 => curve || no [b.msgLen, b.dlen, b.words, b.sub]
    | 0xB3 => curve || no [b.src, b.msgLen, b.dlen, b.words, b.sub]
    | 0xB4 => !(b.alg = 1 || b.alg = 2) || 4194304 < b.msgLen || no [b.dlen, b.words, b.sub]
    | 0xB5 => !(1 ≤ b.words && b.words ≤ 64) || 4 < b.sub || no [b.msgLen, b.dlen, b.alg]
    | 0xB8 | 0xB9 | 0xBA => no [b.msgLen, b.dlen, b.words, b.alg, b.sub]
    | 0xBB => 7 < b.sub || no [b.src, b.dst, b.msgLen, b.space, b.dlen, b.words, b.alg]
    | _ => no [b.src, b.msgLen, b.dlen, b.words, b.alg, b.sub]

end PkeBody

/-- Ring classes of an operation (Table 13-5). -/
def pkeClass (op : Nat) (c : QClass) : Bool :=
  if op ≤ 0xB5 then c == .pke
  else if op = 0xB8 || op = 0xBC then true
  else c == .pke || c == .encNative || c == .encJasil || c == .gate

/-- The time T of Table 13-6, in ns. -/
def pkeTime (op : Nat) (b : PkeBody) : Nat :=
  let by3 (x y z : Nat) : Nat := 1000 * (match b.alg with
    | 1 => x | 2 => y | _ => z)
  match op with
  | 0xB0 => by3 70 160 330
  | 0xB1 => by3 90 200 420
  | 0xB2 | 0xB3 => by3 60 140 300
  | 0xB4 => 2000 + 40 * divUp (b.msgLen + 17) 128
  | 0xB5 => 2000 + 1000 * (match b.sub with
    | 3 => divUp (b.words * b.words) 8
    | 4 => divUp (b.words * b.words * b.words) 175
    | _ => 0)
  | 0xB8 | 0xB9 => 360000
  | 0xBA => 440000
  | _ => 4000

/-- Operations that draw randomness (R340). -/
def pkeDraws (op : Nat) : Bool := op ≤ 0xB3 || op = 0xB5 || (0xB8 ≤ op && op ≤ 0xBA)

/-! ### Records and reports (R323 to R325) -/

def Env.measBytes (e : Env) : List Byte := e.meas.toList.flatMap Crypto.digestBytes

/-- Bytes of a signature by a P-521 key over a message, r then s, with the gap of a layout between them. -/
def signP521 (key k : Nat) (msg : List Byte) : Nat × Nat :=
  Crypto.p521.sign key (Crypto.toScalar Crypto.p521.n k) (Crypto.sha512 msg)

/-- A scalar of a curve from the DRBG: uniform in [1, n − 1] (R336, R340). -/
def drbgScalar (n draw : Nat) : Nat := Crypto.toScalar n ((Config.entropy draw).toNat + 2 ^ 512 * (Config.entropy (draw + 1)).toNat)

/-- The alias record that the device identity key signs (Table 13-1). -/
def State.aliasRecordOf (s : State) (key : Nat) : BitVec 4096 :=
  let (dx, dy) := Crypto.p521.pub Config.deviceKey
  let body := Crypto.identityBody 2 s.env.serac.bootCount.toNat (Crypto.p521.pub key) (Crypto.digest s.env.measBytes) (Crypto.fingerprint dx dy)
  Crypto.signedRecord body (signP521 Config.deviceKey (Config.nonce s.free) (leBytes 376 body))

/-- The alias key pair is drawn and its record issued (R323). -/
def State.issueAlias (s : State) : State :=
  let key := drbgScalar Crypto.p521.n s.free
  { s with sec := { s.sec with aliasKey := some key, aliasRecord := s.drawn.drawn.aliasRecordOf key } }.drawn.drawn.drawn

/-- A report (Table 13-2): `who` is the context, none for a peer; on an ADMIN ring (`admin`) its number and partition are the module's, and the flags
its own. -/
def State.report (s : State) (who : Option (Nat × Ctx)) (admin : Bool) (nonce : List Byte) (challenge : Option (BitVec 512)) : List Byte :=
  let key := s.sec.aliasKey.getD 0
  let (x, y) := Crypto.p521.pub key
  let ctx := if admin then 0 else (who.map (·.1)).getD 0
  let part := match admin, who with
    | false, some (_, c) => packNat [(8, c.f 90 88), (8, c.f 101 96)]
    | _, _ => packNat [(8, s.env.setup.partCode.toNat), (8, 0)]
  let flags := match who with
    | some (_, c) => packNat [(1, boolNat (s.jasilEff c)), (1, c.f 132 132), (1, boolNat challenge.isSome)]
    | none => 4 * boolNat challenge.isSome
  let head := packNat [(32, 0x50524B41), (16, 1), (8, 3), (8, 0), (64, Config.serial.toNat), (64, s.env.serac.bootCount.toNat), (64, s.timebase),
    (16, ctx), (16, part), (8, 0xB0), (8, Config.orderCode.toNat), (16, flags), (192, 0)]
  let body := leBytes 64 head ++ (nonce ++ List.replicate (64 - nonce.length) 0) ++ leBytes 64 (challenge.getD 0).toNat ++ List.replicate 128 0 ++
    s.env.measBytes ++ leBytes 16 (Crypto.fingerprint x y).toNat ++ List.replicate 32 0
  let (r, t) := signP521 key (Config.nonce s.free) body
  body ++ leBytes 66 r ++ List.replicate 6 0 ++ leBytes 66 t ++ List.replicate 6 0

/-! ### What operations compute (R327, R336, R337) -/

/-- An outcome fixed at the start: status, result bytes, result word, and what a session operation leaves. -/
structure PkeOut where
  status : Status
  out : List Byte := []
  word : Nat := 0
  session : Option (BitVec 512) := none
  register : Option (Nat × Nat) := none

def pkeInvalid : PkeOut := { status := .inputInvalid }
def pkeFault : PkeOut := { status := .faultDetected }

/-- Operand i of a block. -/
def operand (l : List Byte) (size i : Nat) : Nat := leNat ((l.drop (i * size)).take size)

def curveOp (op : Nat) (b : PkeBody) (c : Crypto.Curve) (l : List Byte) (draw : Nat) : PkeOut :=
  let S := c.slot
  let v := operand l S
  match op with
  | 0xB0 =>
    let dig := ((l.drop S).take 64).take b.digestLen
    if !c.scalarOk (v 0) then pkeInvalid
    else
      let (r, t) := c.sign (v 0) (Crypto.toScalar c.n (Config.nonce draw)) dig
      { status := .ok, out := leBytes S r ++ leBytes S t }
  | 0xB1 =>
    let dig := ((l.drop (4 * S)).take 64).take b.digestLen
    if !(c.onCurve (v 0) (v 1) && c.scalarOk (v 2) && c.scalarOk (v 3)) then pkeInvalid
    else { status := .ok, word := boolNat (c.verify (v 0) (v 1) (v 2) (v 3) dig) }
  | 0xB2 =>
    if !(c.scalarOk (v 0) && c.onCurve (v 1) (v 2)) then pkeInvalid
    else { status := .ok, out := leBytes S ((c.mul (v 0) (some (v 1, v 2))).getD (0, 0)).1 }
  | _ =>
    let d := drbgScalar c.n draw
    let (x, y) := c.pub d
    { status := .ok, out := leBytes S d ++ leBytes S x ++ leBytes S y }

def modOp (b : PkeBody) (l : List Byte) : PkeOut :=
  let S := 8 * b.words
  let m := operand l S 0
  let x := operand l S 1
  let y := operand l S 2
  if m ≤ 1 || m % 2 = 0 || m ≤ x || m ≤ y then pkeInvalid
  else
    let res (v : Nat) : PkeOut := { status := .ok, out := leBytes S v }
    match b.sub with
    | 0 => res ((x + y) % m)
    | 1 => res ((x + (m - y)) % m)
    | 2 => res (x * y % m)
    | 3 => match Crypto.inv x m with
      | some v => res v
      | none => pkeInvalid
    | _ => res (Crypto.powMod x y m)

/-- TENANT_REGISTER's checks at its start (R327). -/
def State.registerOp (s : State) (c : Ctx) (l : List Byte) : PkeOut :=
  let v := operand l 72
  let valid := Crypto.p521.onCurve (v 0) (v 1) && Crypto.p521.scalarOk (v 2) && Crypto.p521.scalarOk (v 3)
  let open_ := match c.session with
    | some (dig, t) => if s.timebase < t then some dig else none
    | none => none
  let slot := (List.finRange 8).find? fun i => c.ids[i].isNone
  let verifies := match open_ with
    | some dig => valid && Crypto.p521.verify (v 0) (v 1) (v 2) (v 3) (Crypto.digestBytes dig)
    | none => false
  match Status.pick (causesOf [(open_.isNone, .permission), (slot.isNone, .permission), (!valid, .inputInvalid), (valid && !verifies, .permission)]) with
  | .ok => {
      status := .ok, out := leBytes 16 (Crypto.fingerprint (v 0) (v 1)).toNat, word := (slot.map (·.val)).getD 0, register := some (v 0, v 1) }
  | st => { status := st }

/-- A context operation's outcome, from what its operand block holds at its start. -/
def State.pkeCompute (s : State) (cx : Nat) (a : Adm) (l : List Byte) : PkeOut :=
  let op := a.opcode
  let b := a.pkeBody
  let draw := s.free
  if pkeDraws op && s.sec.entropyFail then pkeFault
  else match s.ctxs.find cx with
    | none => { status := .aborted }
    | some c =>
      let admin := a.cls == .admin
      let c := a.view c
      let who : Option (Nat × Ctx) := some (cx, c)
      match op with
      | 0xB4 => { status := .ok, out := if b.alg = 1 then Crypto.sha384 l else Crypto.sha512 l }
      | 0xB5 => modOp b l
      | 0xB8 => { status := .ok, out := s.report who admin l none }
      | 0xB9 =>
        let rep := s.report who admin l (some (Config.entropy (draw + 1)))
        { status := .ok, out := rep, session := some (Crypto.digest rep) }
      | 0xBA => s.registerOp c l
      | 0xBB => if (vget? c.ids b.sub).join.isSome then { status := .ok } else { status := .permission }
      | 0xBC => { status := .ok, out := leBytes 512 Crypto.deviceRecord.toNat ++ leBytes 512 s.sec.aliasRecord.toNat }
      | _ => match Crypto.Curve.ofAlg b.alg with
        | some c => curveOp op b c l draw
        | none => { status := .malformed }

/-! ### Queueing (R335, R338) -/

/-- Host blocks of an operation that have no translation yet. -/
def State.pkePages (s : State) (cx op : Nat) (b : PkeBody) : List (Nat × Nat × Bool) :=
  if b.space = 1 then []
  else [(b.src, b.inLen op, false), (b.dst, b.outLen op, true)].filter fun (p : Nat × Nat × Bool) => !s.xlOk (s.spaceOf cx) p.1 p.2.1 p.2.2

/-- The hub asks for the translations that an operation still needs. -/
def State.pkeAsk (s : State) (d : DRef) (a : Adm) : State :=
  (s.pkePages d.ctx a.opcode a.pkeBody).foldl (fun (s : State) (p : Nat × Nat × Bool) => s.ask (.work d.ctx (.desc d)) (s.spaceOf d.ctx) p.1 p.2.1 p.2.2) s

def State.pkeCauses (s : State) (cx : Nat) (a : Adm) : List Status :=
  let op := a.opcode
  let b := a.pkeBody
  let bad := b.fieldsBad op || (b.space = 1 && a.cls == .admin)
  let inside (x n : Nat) : Bool := n = 0 || match s.ctxs.find cx with
    | some c => c.inWindow x n
    | none => false
  let fenced (x n : Nat) : Bool := n != 0 && s.memFenced x n
  causesOf [(bad, .malformed), (!pkeClass op a.cls, .paramUnsupported), (s.pkeFenced || s.deadPart cx, .unitFenced), (s.shed ≥ 5, .shed),
    (!bad && b.space = 1 && !(inside b.src (b.inLen op) && inside b.dst (b.outLen op)), .permission),
    (!bad && b.space = 1 && (fenced b.src (b.inLen op) || fenced b.dst (b.outLen op)), .unitFenced)]

/-- An admitted operation goes to the engine; one that fails a check completes at once. Its blocks are translated before its start. -/
def State.pkeQueue (s : State) (d : DRef) (op : Nat) : State :=
  match s.fresh d op with
  | none => s
  | some a =>
    match Status.pick (s.pkeCauses d.ctx a) with
    | .ok =>
      let s := (s.setProg d .pke)
      ({ s with sec := { s.sec with waiting := s.sec.waiting ++ [PkeOp.context d] } } : State).pkeAsk d a
    | st => s.complete d st

/-! ### The engine (R333, R334, R339) -/

/-- The owner of an operation for the wipe (R333). -/
def State.pkeOwner (s : State) : PkeOp → PkeOwner
  | .context d => match s.adm d with
    | some a => if a.opcode = 0xB8 || a.opcode = 0xB9 then .module else .context d.ctx
    | none => .context d.ctx
  | _ => .module

/-- A waiting context operation whose blocks can be reached. -/
def State.pkeReady (s : State) (d : DRef) : Bool := match s.adm d with
  | some a => (s.pkePages d.ctx a.opcode a.pkeBody).isEmpty
  | none => false

/-- The next operation (R334): a rebuild, the module's others, context operations in admission order. At level 5 none starts. -/
def State.pkeNext (s : State) (rebuildsOnly : Bool) : Option PkeOp :=
  let l := s.sec.waiting
  if s.shed ≥ 5 || s.pkeFenced then none
  else match l.find? fun o => match o with
      | .rebuild _ => true
      | _ => false with
    | some o => some o
    | none =>
      if rebuildsOnly then none
      else match l.find? fun o => match o with
          | .keyVerify _ | .peerReport _ | .peer _ => true
          | _ => false with
        | some o => some o
        | none => (s.descs.find? fun (p : DRef × Adm) => l.contains (PkeOp.context p.1) && s.pkeReady p.1).map fun (p : DRef × Adm) => PkeOp.context p.1

/-- Verification of a key header under its identity's key (R328), over bytes 0 to 375 (R55). -/
def headerVerify (header : BitVec 4096) (key : Nat × Nat) : Status :=
  let r := fld header 3535 3008
  let t := fld header 4063 3536
  let c := Crypto.p521
  if !(c.onCurve key.1 key.2 && c.scalarOk r && c.scalarOk t) then .inputInvalid
  else if c.verify key.1 key.2 r t (Crypto.sha512 (leBytes 376 header.toNat)) then .ok else .malformed

/-- What an operation of the engine computes, and its time. -/
def State.pkeRunOf (s : State) (o : PkeOp) : Option PkeRun :=
  let module_ (st : Status) (out : List Byte) : PkeRun :=
    { op := o, ends := s.timebase + 420000, status := if s.sec.entropyFail then .faultDetected else st, out }
  match o with
  | .context d => match s.adm d with
    | none => none
    | some a =>
      let b := a.pkeBody
      let n := b.inLen a.opcode
      let l := if b.space = 1 then s.mem.read b.src n else s.hostRead (s.spaceOf d.ctx) b.src n
      let x := s.pkeCompute d.ctx a l
      some { op := o, ends := s.timebase + pkeTime a.opcode b, status := x.status, out := x.out, word := x.word, session := x.session, register := x.register }
  | .keyVerify d => match s.adm d with
    | some a => match a.prog with
      | .keyLoad k => some (module_ (headerVerify k.header (k.qx, k.qy)) [])
      | _ => none
    | none => none
  -- a rebuild's signature, under the key that its load verified with (R71, log 65)
  | .rebuild i => some (module_ (match s.keys.dir.find i with
      | some x => headerVerify x.header x.key
      | none => .malformed) [])
  | .peerReport p => s.sync.ports[p].records.map fun m => module_ .ok (s.report none true (Crypto.digestBytes m.nonce) none)
  | .peer p => some (module_ (s.peerVerdict p) [])

/-- Operations whose translations went with an invalidation ask for them again (R286, R338). -/
def State.pkeAskAll (s : State) : State :=
  s.sec.waiting.foldl (fun (s : State) o => match o with
    | .context d => match s.adm d with
      | some a => s.pkeAsk d a
      | none => s
    | _ => s) s

/-- The engine takes its next operation, after a wipe where the owner changes (R333). -/
def State.pkeStart (s : State) (rebuildsOnly : Bool) : State :=
  let s := s.pkeAskAll
  if s.sec.running.isSome || s.sec.wiping.isSome then s
  else match s.pkeNext rebuildsOnly with
    | none => s
    | some o =>
      if s.sec.owner.isSome && s.sec.owner != some (s.pkeOwner o) then
        { s with sec := { s.sec with wiping := some (s.timebase + 2000) } }
      else match s.pkeRunOf o with
        | none => { s with sec := { s.sec with waiting := s.sec.waiting.filter (· != o) } }
        | some r => { s.drawn.drawn with sec := { s.sec with
            waiting := s.sec.waiting.filter (· != o), running := some r, owner := some (s.pkeOwner o) } }

/-- The engine is out for its test; a suspect one still takes a rebuild that waits when its test begins (R339). -/
def State.pkeOperationStart (s : State) : State :=
  if s.sec.testing then s else s.pkeStart (s.unitOut 13 0)

/-- A step of the engine's test ends: a rebuild that waits runs before the test resumes. -/
def State.latentStep (s : State) : State := if s.sec.testing then s.pkeStart true else s

/-- What a context operation leaves beside its result block: the session, the identity registered or revoked. -/
def PkeRun.onCtx (r : PkeRun) (op sub now : Nat) (c : Ctx) : Ctx :=
  let c := match r.session with
    | some dig => { c with session := some (dig, now + 60000000000) }
    | none => c
  let c := match r.register with
    | some k => { c with session := none, ids := vupdNat c.ids r.word fun _ => some k }
    | none => c
  if op = 0xBB then { c with ids := vupdNat c.ids sub fun _ => none } else c

/-- The result block of a context operation becomes undefined. -/
def State.pkeUndefine (s : State) (d : DRef) (a : Adm) : State :=
  let b := a.pkeBody
  s.undefine [{ space := if b.space = 1 then 1 else 2 + spaceKey (s.spaceOf d.ctx), cl := 0, addr := b.dst, len := b.outLen a.opcode }]

/-- A context operation ends with its status (Table 13-8). -/
def State.pkeFinishCtx (s : State) (d : DRef) (r : PkeRun) (st : Status) : State :=
  match s.adm d with
  | none => s
  | some a =>
    let b := a.pkeBody
    let n := b.outLen a.opcode
    let st := if b.space = 0 && n != 0 && !s.xlOk (s.spaceOf d.ctx) b.dst n true then Status.worse st .translationError else st
    if st = .ok then
      let s := if n = 0 then s
        else if b.space = 1 then s.memWrite b.dst r.out
        else s.hostWrite (s.spaceOf d.ctx) b.dst r.out
      (s.updCtx d.ctx fun c => r.onCtx a.opcode b.sub s.timebase c).complete d .ok r.word
    else if st.undefines && !r.mute then (s.pkeUndefine d a).complete d st
    else s.complete d st

/-- The context that an operation is counted for. -/
def PkeOp.ctx? : PkeOp → Option Nat
  | .context d => some d.ctx.val
  | _ => none

/-- The running operation ends with its outcome, or FAULT_DETECTED. -/
def State.pkeFinish (s : State) (r : PkeRun) (fault : Bool) : State :=
  let st := if fault then Status.worse r.status .faultDetected else r.status
  let r := { r with mute := r.mute || fault }
  let s := { s with sec := { s.sec with running := none } }.tally 0xE00 r.op.ctx?
  match r.op with
  | .context d => s.pkeFinishCtx d r st
  | .keyVerify d => (s.updLoad d fun k => { k with sigDone := true, sigOk := st == .ok, causes := if st = .ok then k.causes else k.causes ++ [st] }).loadSettle d
  | .rebuild i => { s with keys := { s.keys with rebuilds := s.keys.rebuilds.upd i fun b => { b with verified := st == .ok, failed := st != .ok } } }
  | .peerReport p => if st = .ok then s.send (.peerAttest p r.out) else s.peerRefused p st
  | .peer p => s.peerChecked p st

/-- What the record of a difference says of the command that fails with it (Table 15-2): a context operation, a KEY_LOAD, or the PEER_CONFIG of an
exchange; a rebuild fails none. -/
def State.pkeFails (s : State) : Option PkeOp → FaultOf
  | some (.context d) | some (.keyVerify d) => FaultOf.desc d .faultDetected 0
  | some (.peer _) | some (.peerReport _) => match s.descs.find? fun (p : DRef × Adm) => p.2.prog == .peerConfig with
    | some p => FaultOf.desc p.1 .faultDetected 0
    | none => {}
  | some (.rebuild _) | none => {}

/-- A difference of the repeat, or a wipe that leaves something: the engine goes to its test (R339). -/
def State.pkeDiffer (s : State) (o : Option PkeOp) (count : Bool) : State :=
  let s := if count then { s with sec := { s.sec with mismatch := satInc s.sec.mismatch } } else s
  s.suspect (unitNo 13 0) 0x0F (s.pkeFails o)

/-- The operation draws randomness (R340): every one of the module's does. -/
def State.pkeRandom (s : State) : PkeOp → Bool
  | .context d => ((s.adm d).map fun (a : Adm) => pkeDraws a.opcode).getD false
  | _ => true

/-- An operation ends at T (R338); a wipe follows unless the next one has the same owner, and its verification belongs to the operation. -/
def State.pkeEnd (s : State) (fault : Bool) : State :=
  match s.sec.running with
  | none => s
  | some r =>
    if r.ended then s
    else
      let s := s.advance r.ends
      let s := if fault then s.pkeDiffer (some r.op) true else s
      -- a source that failed meanwhile fails what draws randomness (R340)
      let fails := fault || (s.sec.entropyFail && s.pkeRandom r.op)
      let r := { r with ended := true, mute := r.mute || fault, status := if fails then Status.worse r.status .faultDetected else r.status }
      let keep := match s.pkeNext (s.unitOut 13 0) with
        | some o => s.sec.owner == some (s.pkeOwner o)
        | none => false
      if keep then s.pkeFinish r false
      else { s with sec := { s.sec with running := some r, wiping := some (r.ends + 2000) } }

/-- The 2 µs wipe ends; one that does not verify ends the operation with FAULT_DETECTED. -/
def State.pkeWipe (s : State) (clean : Bool) : State :=
  match s.sec.wiping with
  | none => s
  | some t =>
    let s := s.advance t
    let s := { s with sec := { s.sec with wiping := none, owner := none } }
    match s.sec.running with
    | some r => (if clean then s else s.pkeDiffer (some r.op) false).pkeFinish r !clean
    | none => if clean then s else s.pkeDiffer none false

/-- A failed health test (R340): entropy_fail until reset, and the source's fence (Table 15-5). -/
def State.entropyFails (s : State) : State :=
  if s.sec.entropyFail then s
  else ({ s with sec := { s.sec with entropyFail := true } } : State).fence (unitNo 0x11 0) 0x10 false []

/-- A session ends 60 s after its SESSION_OPEN completed (R326). -/
def State.sessionExpiry (s : State) (cx : Fin 4096) : State :=
  match (s.ctxs.find cx).bind fun (c : Ctx) => c.session with
  | none => s
  | some (_, t) => (s.advance t).updCtx cx fun c => { c with session := none }

def execPkeOperationStart (s : State) : Out := .next (s.work State.pkeOperationStart)
def execPkeOperationEnd (fault : Bool) (s : State) : Out := .next (s.work fun s => s.pkeEnd fault)
def execPkeWipeEnd (clean : Bool) (s : State) : Out := .next (s.work fun s => s.pkeWipe clean)
def execLatentTestStepEnd (s : State) : Out := .next (s.work State.latentStep)
def execEntropyHealthFail (s : State) : Out := .next (s.work State.entropyFails)
def execPkeSign (d : DRef) (s : State) : Out := .next (s.work fun s => s.pkeQueue d 0xB0)
def execPkeVerify (d : DRef) (s : State) : Out := .next (s.work fun s => s.pkeQueue d 0xB1)
def execPkeEcdh (d : DRef) (s : State) : Out := .next (s.work fun s => s.pkeQueue d 0xB2)
def execPkeKeygen (d : DRef) (s : State) : Out := .next (s.work fun s => s.pkeQueue d 0xB3)
def execPkeHash (d : DRef) (s : State) : Out := .next (s.work fun s => s.pkeQueue d 0xB4)
def execPkeMod (d : DRef) (s : State) : Out := .next (s.work fun s => s.pkeQueue d 0xB5)
def execAttest (d : DRef) (s : State) : Out := .next (s.work fun s => s.pkeQueue d 0xB8)
def execSessionOpen (d : DRef) (s : State) : Out := .next (s.work fun s => s.pkeQueue d 0xB9)
def execTenantRegister (d : DRef) (s : State) : Out := .next (s.work fun s => s.pkeQueue d 0xBA)
def execTenantRevoke (d : DRef) (s : State) : Out := .next (s.work fun s => s.pkeQueue d 0xBB)
def execIdRead (d : DRef) (s : State) : Out := .next (s.work fun s => s.pkeQueue d 0xBC)
def execSessionExpiry (ctx : Fin 4096) (s : State) : Out := .next (s.work fun s => s.sessionExpiry ctx)

end Sys2Proof.Machine
end

