-- ==== Sys2Proof/Machine/Startup.lean ====
section
/-! DEFINITION. Reset, start-up and power-off (16, 19): the choice of a bank, the stages of Table 16-10, the Moraine in flash. -/

namespace Sys2Proof.Machine

/-- Every record of the mirror that flash does not have yet (R401). -/
def State.flushMoraine (s : State) : State :=
  let f := s.env.serac.flash
  let n := min (s.moraine.pos - f.logPos) 65536
  let log := (upTo n).foldl (fun (t : Table (BitVec 512)) i =>
    let p := (s.moraine.pos - n + i) % 65536
    t.set p (s.moraine.log.get 0 p)) f.log
  s.updSerac fun c => { c with flash := { c.flash with log, logPos := s.moraine.pos } }

def execMoraineFlashWrite (s : State) : Out := .next (if s.env.serac.st = .off then s else s.flushMoraine)

/-- Module flash after a reset: a bank that a STAGE was writing is not marked, and the committed bank boots (R406). -/
def Serac.flashKept (c : Serac) : Flash := match c.fwBusy with
  | some f => if f.micro then c.flash else { c.flash with mark := none, tries := 0 }
  | none => c.flash

/-- What a reset keeps (R404): module flash, the fused rollback counter, the count of resets; and what is no state of the module: PG_48V,
the queue, host memory as the link has shown it, the messages sent, the counter of free values. -/
def State.resetKeeping (s : State) : State :=
  let c := s.env.serac
  let z := State.reset
  { z with
    pending := s.pending, free := s.free, host := s.host, sent := s.sent
    env := { z.env with
      board := { z.env.board with pg48v := s.env.board.pg48v }
      serac := { z.env.serac with flash := c.flashKept, rollback := c.rollback, bootCount := c.bootCount } }
    moraine := { log := c.flash.log, pos := c.flash.logPos, seq := 0 } }

/-- MOD_RST_N is asserted. -/
def execModuleReset (s : State) : Out := .next s.resetKeeping

/-! ### The bank (R403) -/

/-- Start-up ends in FAILED, and the management bus alert is asserted (R438). -/
def State.failBoot (s : State) (code : Nat) : State :=
  (s.updSerac fun c => { c with st := .failed, failCode := BitVec.ofNat 8 code, awaiting := false }).updBoard fun b => { b with smbAlert := true }

def Flash.bank (f : Flash) (b : Bool) : Bank := if b then f.bankB else f.bankA

/-- A FIRMWARE record with fall-back set: the version of the bank abandoned. -/
def State.fallBackRecord (s : State) (version result : Nat) : State :=
  s.record 0x05 version (packNat [(2, 0), (6, 0), (8, 0), (8, result), (1, 1)])

/-- The committed bank runs, and no bank is marked any more. -/
def State.toCommitted (s : State) : State :=
  s.updSerac fun c => { c with bank := c.flash.committed, trial := false, flash := { c.flash with mark := none, tries := 0 } }

/-- What the images of the bank that runs fail: 1 signature, 2 rollback; 0 when they pass (R321). -/
def State.bankCode (s : State) : Nat :=
  let c := s.env.serac
  if !(if c.bank then c.banksOk.b else c.banksOk.a) then 1 else if (c.flash.bank c.bank).rollback.toNat < c.rollback.toNat then 2 else 0

/-- Every choice passes R321, or start-up fails. -/
def State.checkBank (s : State) : State := if s.env.serac.awaiting || s.bankCode = 0 then s else s.failBoot s.bankCode

/-- The boot ROM's choice: the bank marked for trial, at most twice, or the committed one; a forced bank; or an image set awaited. -/
def Serac.choose (c : Serac) : Serac :=
  let f := c.flash
  match c.bootSel.toNat with
  | 1 => { c with bank := false, trial := false }
  | 2 => { c with bank := true, trial := false }
  | 3 => { c with awaiting := true, trial := false }
  | _ => match f.mark with
    | none => { c with bank := f.committed, trial := false }
    | some b =>
      if f.tries ≥ 2 then { c with bank := f.committed, trial := false, flash := { f with mark := none, tries := 0 } }
      else { c with bank := b, trial := true, flash := { f with tries := f.tries + 1 } }

/-- Start-up begins (Table 16-10) at an instant of the timebase: the straps are those sampled, the mirror is loaded, a bank is chosen and the BOOT
record written, and with it the record of a trial bank that has had its two tries. -/
def State.boot (s : State) (jcompatN : Bool) (sel addr : BitVec 2) (ok : BanksOk) (now : Nat) : State :=
  let s := (s.updBoard fun b => { b with running := true, jcompatN, bootSel := sel, mgmtAddr := addr }).updSerac fun c => { c with
    st := .serac, bootSel := sel, bootCount := c.bootCount + 1, banksOk := ok }
  let f := s.env.serac.flash
  let s := ({ s with timebase := now, moraine := { log := f.log, pos := f.logPos, seq := 0 } } : State).updSerac Serac.choose
  let s := s.record 0x02 s.env.serac.bootCount.toNat s.env.serac.word
  match f.mark with
  | some b => if sel = 0 && f.tries ≥ 2 then s.fallBackRecord (f.bank b).version.toNat 0 else s
  | none => s

/-- A trial bank is abandoned (R403): the module resets into the committed bank, which passes R321 or fails start-up, with the straps it has sampled;
MOD_RST_N stays deasserted, so the timebase goes on (R436). -/
def State.abandonTrial (s : State) (result : Nat) : State :=
  let b := s.env.board
  let c := s.env.serac
  ((s.resetKeeping.toCommitted.boot b.jcompatN b.bootSel b.mgmtAddr c.banksOk s.timebase).fallBackRecord
    (c.flash.bank c.bank).version.toNat result).checkBank

/-- MOD_RST_N is deasserted, with PG_48V asserted (R404, R432). -/
def execResetDeassert (jcompatN : Bool) (bootSel mgmtAddr : BitVec 2) (bankOk : BanksOk) (s : State) : Out :=
  .next (if s.env.board.running || !s.env.board.pg48v then s
    else
      let s := s.boot jcompatN bootSel mgmtAddr bankOk 0
      if s.env.serac.trial && s.bankCode != 0 then s.abandonTrial s.bankCode else s.checkBank)

/-- The module has not reached SETUP. -/
def Serac.starting (c : Serac) : Bool := c.is [.serac, .firmware, .rails, .memory, .test, .failed]

def execTrialBootTimeout (s : State) : Out :=
  .next (if s.env.board.running && s.env.serac.trial && s.env.serac.starting then (s.advance 6000000000).abandonTrial 0 else s)

/-- An image set has come over the management bus: the boot ROM boots from it, where it passes R321. -/
def execManagementImageSet (ok : Bool) (s : State) : Out :=
  .next (if s.env.serac.awaiting then (if ok then s.updSerac fun c => { c with awaiting := false } else s.failBoot 1) else s)

/-! ### Stages (Table 16-10) -/

/-- The digests of a stage's images, each into its register. -/
def State.measureAll (s : State) (regs : List (Fin 8)) (digests : List (BitVec 512)) : State :=
  { s with env := (regs.zip digests).foldl (fun (e : Env) (p : Fin 8 × BitVec 512) => e.measure p.1 p.2) s.env }

def State.setSrc (s : State) (st : SrcState) : State := s.updSerac fun c => { c with st }

/-- The tests of start-up: failed units are fenced; a failed hub or security block, or no cluster left, fails start-up. -/
def State.testStage (s : State) (failed : List (BitVec 16)) : State :=
  let s := { s with health := { s.health with basePass := s.timebase } }
  let s := s.work fun s => failed.foldl (fun (s : State) u => s.fence u.toNat 0x12 true []) s
  if failed.any fun u => u.toNat / 2048 = 13 || u.toNat / 2048 = 14 || u.toNat / 2048 = 17 then s.failBoot 5
  else if allClusters.all fun c => s.clFenced c then s.failBoot 6
  else s.setSrc .setup

/-- A stage passes. -/
def State.stagePass (s : State) (digests : List (BitVec 512)) (failed : List (BitVec 16)) : State :=
  match s.env.serac.st with
  | .serac => (s.measureAll [1] digests).setSrc .firmware
  | .firmware => (s.measureAll [2, 0] digests).setSrc .rails
  | .rails => ({ s with hub := { s.hub with fclUp := true, fclLanes := BitVec.ofNat 4 (Config.lanesTrained.val + 1) } }).setSrc .memory
  | .memory => s.setSrc .test
  | .test => (s.measureAll [3, 3, 3, 3, 3] digests).testStage failed
  | .setup => if s.env.serac.locked then ((s.work State.issueAlias).updSetup Setup.placed).setSrc .ready else s
  | _ => s

/-- A stage ends: in the next state, or in FAILED with its code; a trial bank that fails a check of R321 is abandoned. -/
def State.stageEnd (s : State) (r : StageResult) : State :=
  if s.env.serac.awaiting then s
  else match r with
    | .pass digests failed => s.stagePass digests failed
    | .fail code =>
      if code.val = 0 || code.val > 6 || !s.env.serac.is [.serac, .firmware, .rails, .memory, .test] then s
      else if s.env.serac.trial && code.val ≤ 2 then s.abandonTrial code
      else s.failBoot code

def execStartupStageEnd (r : StageResult) (s : State) : Out := .next (s.stageEnd r)

/-! ### Clocks and power (R433, R437) -/

/-- A reference clock's loop loses lock for more than 1 µs (R437): before stage 3 ends FAILED with code 3, later a hub stop. -/
def execRefclkLockLoss (c : RefClk) (s : State) : Out :=
  .next (match s.env.serac.st with
    | .serac | .firmware | .rails => s.failBoot 3
    | .memory | .test | .setup | .ready => s.hubHalt (if c = .tb then 0x11 else 0x13)
    | _ => s)

/-- The input falls below 34.0 V (Table 16-6): the final record goes to flash first, records not yet there are lost, and the regulators
go off. -/
def State.powerOff (s : State) : State :=
  if s.env.serac.st = .off then s.updBoard fun b => { b with pg48v := false }
  else
    let s := s.record 0x08 s.env.power.cap.toNat 0
    let last := s.moraine.pos - 1
    let s := s.updSerac fun c => { c with flash := { c.flash with log := c.flash.log.set (last % 65536) (s.moraine.log.get 0 (last % 65536)), logPos := s.moraine.pos } }
    s.resetKeeping.updBoard fun b => { b with pg48v := false }

def execPowerOff (s : State) : Out := .next s.powerOff

end Sys2Proof.Machine
end

