-- ==== Sys2Proof/Machine/Dispatch.lean ====
section
/-! DEFINITION. Every command and its meaning: one direct call an arm. -/

namespace Sys2Proof.Machine

open Host

def exec (i : Instr) (s : State) : Host.Outcome State Fault Refusal :=
  match i with
  | .moduleReset => Sys2Proof.Machine.execModuleReset s
  | .resetDeassert jcompatN bootSel mgmtAddr bankOk => Sys2Proof.Machine.execResetDeassert jcompatN bootSel mgmtAddr bankOk s
  | .startupStageEnd r => Sys2Proof.Machine.execStartupStageEnd r s
  | .trialBootTimeout => Sys2Proof.Machine.execTrialBootTimeout s
  | .pg48vAssert => Sys2Proof.Machine.execPg48vAssert s
  | .pg48vDeassert => Sys2Proof.Machine.execPg48vDeassert s
  | .powerOff => Sys2Proof.Machine.execPowerOff s
  | .refclkLockLoss c => Sys2Proof.Machine.execRefclkLockLoss c s
  | .smbWindowRead off wide => Sys2Proof.Machine.execSmbWindowRead off wide s
  | .smbWindowWrite off wide v => Sys2Proof.Machine.execSmbWindowWrite off wide v s
  | .registerWrite off wide v => Sys2Proof.Machine.execRegisterWrite off wide v s
  | .rcFieldRead off wide => Sys2Proof.Machine.execRcFieldRead off wide s
  | .go => Sys2Proof.Machine.execGo s
  | .hubStatePoolWrite v => Sys2Proof.Machine.execHubStatePoolWrite v s
  | .hubPartCfgWrite v => Sys2Proof.Machine.execHubPartCfgWrite v s
  | .ctx0Create readable => Sys2Proof.Machine.execCtx0Create readable s
  | .memClassShareWrite v => Sys2Proof.Machine.execMemClassShareWrite v s
  | .memTgStart ch v => Sys2Proof.Machine.execMemTgStart ch v s
  | .memTgStop ch => Sys2Proof.Machine.execMemTgStop ch s
  | .memTgRunEnd ch obs => Sys2Proof.Machine.execMemTgRunEnd ch obs s
  | .powerCapWrite v => Sys2Proof.Machine.execPowerCapWrite v s
  | .fwStage slot micro => Sys2Proof.Machine.execFwStage slot micro s
  | .fwStageDone result img => Sys2Proof.Machine.execFwStageDone result img s
  | .fwActivate => Sys2Proof.Machine.execFwActivate s
  | .fwCommit => Sys2Proof.Machine.execFwCommit s
  | .ctrSelWrite n v => Sys2Proof.Machine.execCtrSelWrite n v s
  | .freezeSet => Sys2Proof.Machine.execFreezeSet s
  | .freezeClear => Sys2Proof.Machine.execFreezeClear s
  | .snap => Sys2Proof.Machine.execSnap s
  | .snapshotWriteDone => Sys2Proof.Machine.execSnapshotWriteDone s
  | .doorbellSnoop ctx line v => Sys2Proof.Machine.execDoorbellSnoop ctx line v s
  | .cqHeadUpdate ctx v => Sys2Proof.Machine.execCqHeadUpdate ctx v s
  | .descriptorAdmit ctx ring look hubDiffer => Sys2Proof.Machine.execDescriptorAdmit ctx ring look hubDiffer s
  | .krtRebuildEnd idx checksPass => Sys2Proof.Machine.execKrtRebuildEnd idx checksPass s
  | .recordLostReport ctx => Sys2Proof.Machine.execRecordLostReport ctx s
  | .translationComplete pasid va r => Sys2Proof.Machine.execTranslationComplete pasid va r s
  | .pageResponse pasid va r => Sys2Proof.Machine.execPageResponse pasid va r s
  | .pageFaultTimeout w => Sys2Proof.Machine.execPageFaultTimeout w s
  | .translationInvalidate pasid va len => Sys2Proof.Machine.execTranslationInvalidate pasid va len s
  | .abort d => Sys2Proof.Machine.execAbort d s
  | .ctxCreate d readable => Sys2Proof.Machine.execCtxCreate d readable s
  | .ctxUpdate d readable => Sys2Proof.Machine.execCtxUpdate d readable s
  | .ctxTeardown d => Sys2Proof.Machine.execCtxTeardown d s
  | .teardownComplete ctx => Sys2Proof.Machine.execTeardownComplete ctx s
  | .keyLoad d => Sys2Proof.Machine.execKeyLoad d s
  | .keyLoadCopyDone d fault => Sys2Proof.Machine.execKeyLoadCopyDone d fault s
  | .keyFree d => Sys2Proof.Machine.execKeyFree d s
  | .keyPin d => Sys2Proof.Machine.execKeyPin d s
  | .keyUnpin d => Sys2Proof.Machine.execKeyUnpin d s
  | .keyQuery d => Sys2Proof.Machine.execKeyQuery d s
  | .firnEpoch => Sys2Proof.Machine.execFirnEpoch s
  | .firnStageDone idx => Sys2Proof.Machine.execFirnStageDone idx s
  | .qprogLoad d => Sys2Proof.Machine.execQprogLoad d s
  | .qrun d => Sys2Proof.Machine.execQrun d s
  | .insertionPass d fail => Sys2Proof.Machine.execInsertionPass d fail s
  | .qrunTaskStart d => Sys2Proof.Machine.execQrunTaskStart d s
  | .argumentBlockLanded d => Sys2Proof.Machine.execArgumentBlockLanded d s
  | .taskTimeslice cl => Sys2Proof.Machine.execTaskTimeslice cl s
  | .add q => Sys2Proof.Machine.execAdd q s
  | .sub q => Sys2Proof.Machine.execSub q s
  | .and q => Sys2Proof.Machine.execAnd q s
  | .or q => Sys2Proof.Machine.execOr q s
  | .xor q => Sys2Proof.Machine.execXor q s
  | .shl q => Sys2Proof.Machine.execShl q s
  | .shr q => Sys2Proof.Machine.execShr q s
  | .sra q => Sys2Proof.Machine.execSra q s
  | .mul q => Sys2Proof.Machine.execMul q s
  | .minu q => Sys2Proof.Machine.execMinu q s
  | .maxu q => Sys2Proof.Machine.execMaxu q s
  | .sltu q => Sys2Proof.Machine.execSltu q s
  | .addi q => Sys2Proof.Machine.execAddi q s
  | .andi q => Sys2Proof.Machine.execAndi q s
  | .ori q => Sys2Proof.Machine.execOri q s
  | .shli q => Sys2Proof.Machine.execShli q s
  | .shri q => Sys2Proof.Machine.execShri q s
  | .shori q => Sys2Proof.Machine.execShori q s
  | .ld q => Sys2Proof.Machine.execLd q s
  | .lw q => Sys2Proof.Machine.execLw q s
  | .sd q => Sys2Proof.Machine.execSd q s
  | .sw q => Sys2Proof.Machine.execSw q s
  | .csrr q => Sys2Proof.Machine.execCsrr q s
  | .beq q => Sys2Proof.Machine.execBeq q s
  | .bne q => Sys2Proof.Machine.execBne q s
  | .bltu q => Sys2Proof.Machine.execBltu q s
  | .bgeu q => Sys2Proof.Machine.execBgeu q s
  | .blt q => Sys2Proof.Machine.execBlt q s
  | .bge q => Sys2Proof.Machine.execBge q s
  | .jal q => Sys2Proof.Machine.execJal q s
  | .jr q => Sys2Proof.Machine.execJr q s
  | .push q => Sys2Proof.Machine.execPush q s
  | .pushn q => Sys2Proof.Machine.execPushn q s
  | .clw q => Sys2Proof.Machine.execClw q s
  | .wait q => Sys2Proof.Machine.execWait q s
  | .yield q => Sys2Proof.Machine.execYield q s
  | .endTask q => Sys2Proof.Machine.execEndTask q s
  | .nestIssueBody q n => Sys2Proof.Machine.execNestIssueBody q n s
  | .longWordPlace q place => Sys2Proof.Machine.execLongWordPlace q place s
  | .gsub cl look => Sys2Proof.Machine.execGsub cl look s
  | .gsubPresent cl engine => Sys2Proof.Machine.execGsubPresent cl engine s
  | .qgate cl => Sys2Proof.Machine.execQgate cl s
  | .flagSet cl h => Sys2Proof.Machine.execFlagSet cl h s
  | .flagClear cl h => Sys2Proof.Machine.execFlagClear cl h s
  | .flagWait cl h => Sys2Proof.Machine.execFlagWait cl h s
  | .barArrive cl h => Sys2Proof.Machine.execBarArrive cl h s
  | .syncTimeout w => Sys2Proof.Machine.execSyncTimeout w s
  | .flagRequestSnoop ctx w setReq clrReq => Sys2Proof.Machine.execFlagRequestSnoop ctx w setReq clrReq s
  | .hostFlagSnoop ctx hf v => Sys2Proof.Machine.execHostFlagSnoop ctx hf v s
  | .syncAlloc d => Sys2Proof.Machine.execSyncAlloc d s
  | .syncFree d => Sys2Proof.Machine.execSyncFree d s
  | .flagOp d => Sys2Proof.Machine.execFlagOp d s
  | .barConfig d => Sys2Proof.Machine.execBarConfig d s
  | .barArriveRing d => Sys2Proof.Machine.execBarArriveRing d s
  | .peerConfig d => Sys2Proof.Machine.execPeerConfig d s
  | .peerAttestMessage m => Sys2Proof.Machine.execPeerAttestMessage m s
  | .peerBind d => Sys2Proof.Machine.execPeerBind d s
  | .peerBindMatch d window => Sys2Proof.Machine.execPeerBindMatch d window s
  | .peerBindTimeout d => Sys2Proof.Machine.execPeerBindTimeout d s
  | .peerBarrierArrival port ctx bar => Sys2Proof.Machine.execPeerBarrierArrival port ctx bar s
  | .peerBarrierRelease port bar => Sys2Proof.Machine.execPeerBarrierRelease port bar s
  | .peerWriteReceive port ctx off data rflag => Sys2Proof.Machine.execPeerWriteReceive port ctx off data rflag s
  | .peerPortFail port => Sys2Proof.Machine.execPeerPortFail port s
  | .nibLdf cl => Sys2Proof.Machine.execNibLdf cl s
  | .nibLdv cl => Sys2Proof.Machine.execNibLdv cl s
  | .nibLdb cl => Sys2Proof.Machine.execNibLdb cl s
  | .nibStf cl => Sys2Proof.Machine.execNibStf cl s
  | .nibStv cl => Sys2Proof.Machine.execNibStv cl s
  | .nibInv cl => Sys2Proof.Machine.execNibInv cl s
  | .nibLoadEnd cl n => Sys2Proof.Machine.execNibLoadEnd cl n s
  | .nibMma cl => Sys2Proof.Machine.execNibMma cl s
  | .nibLin cl => Sys2Proof.Machine.execNibLin cl s
  | .nibDrain cl fail => Sys2Proof.Machine.execNibDrain cl fail s
  | .nibKsw cl => Sys2Proof.Machine.execNibKsw cl s
  | .nibKswBlock cl => Sys2Proof.Machine.execNibKswBlock cl s
  | .thawRefresh cl q => Sys2Proof.Machine.execThawRefresh cl q s
  | .thawGate cl q => Sys2Proof.Machine.execThawGate cl q s
  | .thawStep cl engine fail => Sys2Proof.Machine.execThawStep cl engine fail s
  | .brMap cl => Sys2Proof.Machine.execBrMap cl s
  | .brBin cl => Sys2Proof.Machine.execBrBin cl s
  | .brCmp cl => Sys2Proof.Machine.execBrCmp cl s
  | .brSel cl => Sys2Proof.Machine.execBrSel cl s
  | .brRed cl => Sys2Proof.Machine.execBrRed cl s
  | .brSmax cl => Sys2Proof.Machine.execBrSmax cl s
  | .brSmaxTail cl => Sys2Proof.Machine.execBrSmaxTail cl s
  | .brPairupd cl => Sys2Proof.Machine.execBrPairupd cl s
  | .brRun cl => Sys2Proof.Machine.execBrRun cl s
  | .brChainLoad cl => Sys2Proof.Machine.execBrChainLoad cl s
  | .epilogueInvoke cl => Sys2Proof.Machine.execEpilogueInvoke cl s
  | .brCadd cl => Sys2Proof.Machine.execBrCadd cl s
  | .brCsub cl => Sys2Proof.Machine.execBrCsub cl s
  | .brCneg cl => Sys2Proof.Machine.execBrCneg cl s
  | .brPadd cl => Sys2Proof.Machine.execBrPadd cl s
  | .brSmul cl => Sys2Proof.Machine.execBrSmul cl s
  | .brMsw cl => Sys2Proof.Machine.execBrMsw cl s
  | .dmCopy cl => Sys2Proof.Machine.execDmCopy cl s
  | .dmXpose cl => Sys2Proof.Machine.execDmXpose cl s
  | .dmGather cl => Sys2Proof.Machine.execDmGather cl s
  | .dmScatterAdd cl => Sys2Proof.Machine.execDmScatterAdd cl s
  | .dmFill cl => Sys2Proof.Machine.execDmFill cl s
  | .dmIcopy cl => Sys2Proof.Machine.execDmIcopy cl s
  | .dmPwrite cl => Sys2Proof.Machine.execDmPwrite cl s
  | .dmTransferIssue cl => Sys2Proof.Machine.execDmTransferIssue cl s
  | .dmTransferDone cl x => Sys2Proof.Machine.execDmTransferDone cl x s
  | .remoteAccessServe target cl n => Sys2Proof.Machine.execRemoteAccessServe target cl n s
  | .engineCommandEnd cl q n fail hubDiffer => Sys2Proof.Machine.execEngineCommandEnd cl q n fail hubDiffer s
  | .sweepStart idx look => Sys2Proof.Machine.execSweepStart idx look s
  | .sweepWaitExpiry idx => Sys2Proof.Machine.execSweepWaitExpiry idx s
  | .fragmentIssue slot => Sys2Proof.Machine.execFragmentIssue slot s
  | .fragmentArrive slot cl engine tag => Sys2Proof.Machine.execFragmentArrive slot cl engine tag s
  | .memRoundStart ch => Sys2Proof.Machine.execMemRoundStart ch s
  | .memReadComplete ch block beat syn r => Sys2Proof.Machine.execMemReadComplete ch block beat syn r s
  | .scrubBurst ch block beat syn => Sys2Proof.Machine.execScrubBurst ch block beat syn s
  | .stackTempSample stk t => Sys2Proof.Machine.execStackTempSample stk t s
  | .sensorSample k n v => Sys2Proof.Machine.execSensorSample k n v s
  | .governorDecision rates => Sys2Proof.Machine.execGovernorDecision rates s
  | .contractWindowEnd ctx => Sys2Proof.Machine.execContractWindowEnd ctx s
  | .voltageChangeDone die => Sys2Proof.Machine.execVoltageChangeDone die s
  | .overcurrentTrip => Sys2Proof.Machine.execOvercurrentTrip s
  | .shedRise lvl => Sys2Proof.Machine.execShedRise lvl s
  | .shedFall => Sys2Proof.Machine.execShedFall s
  | .quantumExpiry part => Sys2Proof.Machine.execQuantumExpiry part s
  | .parkSwitchTimeout part => Sys2Proof.Machine.execParkSwitchTimeout part s
  | .contextSwitchDecide part => Sys2Proof.Machine.execContextSwitchDecide part s
  | .contextSwitchComplete part => Sys2Proof.Machine.execContextSwitchComplete part s
  | .watchdogStall u => Sys2Proof.Machine.execWatchdogStall u s
  | .latentTestDue u => Sys2Proof.Machine.execLatentTestDue u s
  | .latentTestStart u => Sys2Proof.Machine.execLatentTestStart u s
  | .latentTestEnd u r => Sys2Proof.Machine.execLatentTestEnd u r s
  | .moraineFlashWrite => Sys2Proof.Machine.execMoraineFlashWrite s
  | .pkeOperationStart => Sys2Proof.Machine.execPkeOperationStart s
  | .pkeOperationEnd fault => Sys2Proof.Machine.execPkeOperationEnd fault s
  | .pkeWipeEnd clean => Sys2Proof.Machine.execPkeWipeEnd clean s
  | .entropyHealthFail => Sys2Proof.Machine.execEntropyHealthFail s
  | .pkeSign d => Sys2Proof.Machine.execPkeSign d s
  | .pkeVerify d => Sys2Proof.Machine.execPkeVerify d s
  | .pkeEcdh d => Sys2Proof.Machine.execPkeEcdh d s
  | .pkeKeygen d => Sys2Proof.Machine.execPkeKeygen d s
  | .pkeHash d => Sys2Proof.Machine.execPkeHash d s
  | .pkeMod d => Sys2Proof.Machine.execPkeMod d s
  | .attest d => Sys2Proof.Machine.execAttest d s
  | .sessionOpen d => Sys2Proof.Machine.execSessionOpen d s
  | .sessionExpiry ctx => Sys2Proof.Machine.execSessionExpiry ctx s
  | .tenantRegister d => Sys2Proof.Machine.execTenantRegister d s
  | .tenantRevoke d => Sys2Proof.Machine.execTenantRevoke d s
  | .idRead d => Sys2Proof.Machine.execIdRead d s
  | .linkReadCompletion sp addr data => Sys2Proof.Machine.execLinkReadCompletion sp addr data s
  | .peerBarrierConfirm port d ok => Sys2Proof.Machine.execPeerBarrierConfirm port d ok s
  | .traceHeadUpdate v => Sys2Proof.Machine.execTraceHeadUpdate v s
  | .traceCtrlWrite v => Sys2Proof.Machine.execTraceCtrlWrite v s
  | .hostLinkRetryExhausted => Sys2Proof.Machine.execHostLinkRetryExhausted s
  | .latentTestStepEnd => Sys2Proof.Machine.execLatentTestStepEnd s
  | .managementImageSet ok => Sys2Proof.Machine.execManagementImageSet ok s

end Sys2Proof.Machine
end

