-- ==== Sys2Proof/Machine/Step.lean ====
section
/-! DEFINITION. One step: the command at the front of the queue runs; on an empty queue 1 ns of the timebase passes
(R436, log 1). -/

namespace Sys2Proof.Machine

/-- The module with its queue replaced. -/
def State.withPending (s : State) (q : List Instr) : State := { s with pending := q }

/-- What happens on an empty queue: the timebase advances by 1 while MOD_RST_N is deasserted (R436), and a trace record that waits may go. -/
def State.idle (s : State) : State := if s.env.board.running then (s.advance (s.timebase + 1)).traceDue else s

def step (s : State) : Host.Outcome State Fault Refusal :=
  match s.pending with
  | [] => .next s.idle
  | c :: q => exec c (s.withPending q)

/-- The state with the command that a word spells at the front of its queue; no row of the table has bits, so no word
spells one (log 4). -/
def State.withFetchWord (s : State) (nbits w : Nat) : State :=
  match decodeTableWord nbits w with
  | some c => s.withPending (c :: s.pending)
  | none => s

end Sys2Proof.Machine
end

