-- ==== Sys2Proof/Safety.lean ====
section
/-! DEFINITION. What claims call legal: the set-up, power and measurement registers within the ranges the spec gives them, and memories
in their canonical form. -/

namespace Sys2Proof.Machine

/-- A core voltage never leaves 0.65 V to 0.85 V (R386, R387). -/
def voltageOk (mv : Nat) : Bool := 650 ≤ mv && mv ≤ 850

def DiePower.legal (d : DiePower) : Bool :=
  voltageOk d.set.toNat && voltageOk d.ceiling && match d.pending with
    | some v => voltageOk v.toNat
    | none => true

def Shed.legal (h : Shed) : Bool := h.level ≤ 5 && h.supply ≤ 5 && h.power ≤ 4 && h.thermal ≤ 5

/-- Start-up agrees with the pins: while MOD_RST_N is asserted the module is off, and an image set is awaited in start-up's first stage alone (R403, R404). -/
def Env.started (e : Env) : Bool := (e.board.running || e.serac.st == .off) && (!e.serac.awaiting || e.serac.st == .serac)

/-- Registers that only checked writes reach: part_code (Table 14-2), the power cap (R393), the memory shares (R266), M6 and M7 (R322),
the dies' voltages (R387), the shed level (R395); and a start-up that agrees with the pins. -/
def Env.legal (e : Env) : Bool :=
  e.started &&
  e.setup.partCode.toNat ≤ 5 && (700 ≤ e.power.cap.toNat && e.power.cap.toNat ≤ 2000) &&
  shareOk (fld e.share 7 0) (fld e.share 15 8) (fld e.share 23 16) && e.meas[6] == 0 && e.meas[7] == 0 &&
  e.power.dies.toList.all (·.legal) && e.power.shed.legal

abbrev State.Legal (s : State) : Prop := s.env.legal = true

/-- Every memory of the state in its canonical form. -/
def State.memoryOk (s : State) : Bool :=
  s.mem.wf && s.host.all (fun (p : Nat × Memory) => p.2.wf) &&
  s.clusters.toList.all fun (c : Cluster) => c.ink.wf && c.eng.store.wf && c.eng.dmem.wf

/-- The commands that reach pins, management, power and set-up; every other command leaves `env` as it is. -/
def changesEnv : Instr → Bool
  | .moduleReset | .resetDeassert _ _ _ _ | .startupStageEnd _ | .trialBootTimeout | .pg48vAssert | .pg48vDeassert | .powerOff
  | .refclkLockLoss _ | .smbWindowRead _ _ | .smbWindowWrite _ _ _ | .registerWrite _ _ _ | .rcFieldRead _ _ | .go | .hubStatePoolWrite _
  | .hubPartCfgWrite _ | .ctx0Create _ | .memClassShareWrite _ | .powerCapWrite _ | .fwStage _ _ | .fwStageDone _ _ | .fwActivate
  | .fwCommit | .stackTempSample _ _ | .sensorSample _ _ _ | .governorDecision _ | .voltageChangeDone _ | .overcurrentTrip
  | .shedRise _ | .shedFall | .latentTestEnd _ _ | .descriptorAdmit _ _ _ _ | .engineCommandEnd _ _ _ _ _ | .moraineFlashWrite
  | .managementImageSet _ | .watchdogStall _ => true
  | _ => false

/-- The bodies that wait in a queue, in order, the gate marks apart. -/
def Queue.waiting (k : Queue) : List Body := k.items.filterMap fun i => match i with
  | .body b => some b
  | .mark _ _ _ => none

/-- The Quill of a cluster stands before an instruction of an opcode, with no difference between its cores. -/
def State.quillAt (s : State) (q : QCtl) (op : Nat) (n : QNow) : Prop := s.quillNow q.cl = some n ∧ fld n.w 31 26 = op ∧ q.differ = .none

/-- A cluster with the task of a place replaced. -/
def Cluster.withTask (k : Cluster) (p : Fin 8) (t : Task) : Cluster := { k with eng := { k.eng with tasks := vupd k.eng.tasks p fun _ => some t } }

/-- The state with the task of a place of a cluster replaced, and the counters of 17 as given. -/
def State.withTask (s : State) (cl : Fin 64) (p : Fin 8) (t : Task) (o : Obs) : State :=
  { s with obs := o, clusters := vupd s.clusters cl fun k => k.withTask p t }

/-- A task that has executed an instruction and stands at an index. -/
def Task.went (t : Task) (pc : Nat) : Task := { t with pc, since := t.since + 1 }

/-- No task of a run is left on a cluster. -/
def State.noTask (s : State) (cl : Fin 64) (d : DRef) : Prop := ∀ p : Fin 8, ∀ t, s.clusters[cl].eng.tasks[p] = some t → t.run ≠ d

/-- A run has completed, or has failed with a cause of the status given. -/
def State.runFailed (s : State) (d : DRef) (st : Status) : Prop := s.run d = none ∨ ∃ r, s.run d = some r ∧ r.failed = true ∧ ∃ x ∈ r.causes, x.1 = st

/-- k bodies of a nest later. -/
def Nest.later : Nat → Nest → Option Nest
  | 0, n => some n
  | k + 1, n => n.after.bind (Nest.later k)

/-- No KEY_FREE, in progress or aborted, names an entry that it has not reached yet. -/
def State.notFreed (s : State) (i : Nat) : Prop := (∀ p ∈ s.descs, ∀ l, p.2.prog = .keyFree l → i ∉ l) ∧ i ∉ s.keys.doomed

/-- No KEY_FREE is admitted, and none that was aborted still waits on a load: a completion evicts nothing. -/
def State.noFrees (s : State) : Prop := (∀ p ∈ s.descs, p.2.opcode ≠ 0x71 ∧ ∀ l, p.2.prog ≠ .keyFree l) ∧ s.keys.doomed = []

/-- A sweep's next unit may be issued (R81): it has one, its Glacier has a read left (R252), every subscriber has credit, and no unit on its way is out of
service. -/
def State.unitReady (s : State) (w : Sweep) : Prop :=
  let die := s.glacierOf (unitDie (Krt.first w.entry) w.unit)
  s.shed < 5 ∧ s.glacierOut = false ∧ w.unit < Krt.length w.entry ∧ (w.staged = true ∨ s.glacierReads die < 1024) ∧
    ∀ x ∈ w.subs, 0 < x.credit ∧ s.bridgeOut die (dieOf x.sub.cl) = false

/-- Something is left of an admitted QRUN: it has neither begun nor failed, or a cluster of its set still holds work of it. -/
def State.runLeft (s : State) (p : DRef × Adm) : Bool := match p.2.prog with
  | .qrun r => !(r.started || r.failed) || !r.set.all fun c => (s.engOf p.1.ctx c).quiet p.1
  | _ => true

/-- A channel's round will serve one request, with its last burst, and nothing else is to be done there: no patrol, no staging copy, and no QRUN of which
nothing is left. -/
def State.servesLast (s : State) (ch : Fin 160) (q : MemReq) : Prop :=
  s.ready = true ∧ s.shed < 5 ∧ s.hub.fenceCh = 0 ∧ (s.testOf (unitNo 10 ch)).faults = [] ∧ s.timebase < s.memsys.chans[ch].patrolAt ∧
    s.memsys.chans[ch].reqs = [q] ∧ q.left = 1 ∧ q.cls ≠ .test ∧ q.who ≠ .scrub ∧ s.keys.staging = [] ∧ s.descs.all s.runLeft = true

/-- An admitted QRUN that a switch of a partition's clusters between two contexts does not complete: it has neither begun nor failed, or a task of it stands on a
cluster of its set. -/
def State.runKept (s : State) (d : DRef) (r : Run) (l : List (Fin 64)) (cx o : Fin 4096) : Prop :=
  (r.started = false ∧ r.failed = false) ∨
    ∃ c ∈ r.set, (d.ctx = cx ∨ d.ctx = o → c ∈ l) ∧ ∃ (p : Fin 8) (t : Task), (s.engOf d.ctx c).tasks[p] = some t ∧ t.run = d

/-- Nothing of a body is left to do: it has retired, or has ended and waits for those before it. -/
def State.bodyEnded (s : State) (cl : Fin 64) (q : Fin 7) (i : Nat) : Prop := ∀ w, s.work? cl q i = some w → w.done = true

/-- A SYNC body at the head of its queue, in order, whose operand and condition let it act now (R302). -/
def State.syncHead (s : State) (cl : Fin 64) (op : Nat) (b : Body) (a : Adm) (c : SyncBody) : Prop :=
  s.headOp cl 6 op = some (b, a) ∧ c = SyncBody.of b.bits ∧ s.syncCauses b.run.ctx c = [] ∧ s.syncDue cl c = true ∧ s.work? cl 6 b.no = none

/-- A ring operation of chapter 12, in order and of the right class, that has not begun. -/
def State.syncFresh (s : State) (d : DRef) (op : Nat) (c : SyncOp) : Prop :=
  ∃ a, s.fresh d op = some a ∧ c = SyncOp.of a.body ∧ c.reserved = false ∧ (a.cls == .admin) = (op == 0x98 || op == 0x99) ∧ s.deadPart d.ctx = false

/-- What a command at the head of a queue of a cluster may change as it issues: the cluster, use counts of keys, counters, free values. -/
def State.headFrame (s t : State) (cl : Fin 64) : Prop :=
  t = { s with free := t.free, obs := t.obs, keys := { s.keys with use := t.keys.use }, clusters := vupd s.clusters cl fun _ => t.clusters[cl] }

/-- The head of a queue has issued: it has left the queue's items and its work stands by its number, other queues as they were. -/
def State.issued (s t : State) (cl : Fin 64) (q : Fin 7) (w : Work) : Prop :=
  s.headFrame t cl ∧ (∃ x y : Bool, t.queue cl q = { s.queue cl q with
    items := (s.queue cl q).items.drop 1, samples := (s.queue cl q).samples + 1, works := insertWork { w with sampled := x, follow := y } (s.queue cl q).works }) ∧
  ∀ j, j ≠ q → t.queue cl j = s.queue cl j

/-- Every byte of a cluster's Inkwell outside the ranges listed reads as before. -/
def State.inkKept (s t : State) (cl : Fin 64) (l : List Dest) : Prop :=
  ∀ x, (∀ r ∈ l, x < r.addr ∨ r.addr + r.len ≤ x) → (t.ink cl).get x = (s.ink cl).get x

/-- Every work of a number in a queue is of a kind. -/
def State.workKind (s : State) (cl : Fin 64) (q : Fin 7) (i : Nat) (k : WorkKind) : Prop := ∀ w ∈ (s.queue cl q).works, w.b.no = i → w.kind = k

/-- A leveled ciphertext operation of the Brush, by the family and layout that its command names. -/
def BrCmd.ctRow (c : BrCmd) (_ : BrEnv) (_ : ChainRec) (m : Memory) : BrOut := c.runCt ((Family.ofId c.family).getD .P1) (c.ctLayout.getD .big) m

/-- Numbers strictly rising. -/
def Table.ordered {α : Type} (t : Table α) : Prop := t.Pairwise fun x y => x.1 < y.1

/-- The module runs: neither held in reset, nor FAILED, nor stopped. -/
def State.operating (s : State) : Bool := s.env.board.running && !(s.env.serac.is [.off, .failed, .stopped])

end Sys2Proof.Machine
end

