-- ==== Sys2Proof/WellFormed.lean ====
section
/-! DEFINITION. Well-formed commands: operands that name something the spec has. A command outside it has no such happening, and leaves
the module as it is (log 2). -/

namespace Sys2Proof

/-- Sensors of Table 16-1. -/
def SensorKind.count : SensorKind → Nat
  | .temp => 64
  | .volt => 24
  | .curr => 8

/-- At most five images are measured in a stage; fail codes of Table 16-10. -/
def StageResult.wf : StageResult → Bool
  | .pass digests _ => digests.length ≤ 5
  | .fail code => 1 ≤ code.val && code.val ≤ 6

/-- The numbers of Table 15-4. -/
def unitOk (u : BitVec 16) : Bool :=
  let i := u.toNat % 2048
  match u.toNat / 2048 with
  | 1 | 2 | 4 | 6 | 7 => i < 64
  | 3 => i < 128
  | 5 => true
  | 8 | 9 => i < 4
  | 10 => i < 160
  | 11 => i < 10
  | 12 | 15 => i < 2
  | 13 | 14 | 16 | 17 => i = 0
  | _ => false

/-- Operands within the ranges that the spec's tables give; commands not named take every value of their operands' types. -/
def Instr.wf : Instr → Bool
  | .startupStageEnd r => r.wf
  | .smbWindowRead off wide => off.off.toNat % (if wide then 8 else 4) = 0
  | .rcFieldRead off wide => off.toNat % (if wide then 8 else 4) = 0
  | .smbWindowWrite off wide v => off.off.toNat % (if wide then 8 else 4) = 0 && (wide || v.toNat < 2 ^ 32)
  | .registerWrite off wide v => off.toNat % (if wide then 8 else 4) = 0 && (wide || v.toNat < 2 ^ 32)
  | .memReadComplete _ block _ _ _ | .scrubBurst _ block _ _ => block.toNat ≤ 12582911
  | .sensorSample k i _ => i.val < k.count
  | .governorDecision rates => rates.length = 4
  | .watchdogStall u | .latentTestDue u | .latentTestStart u | .latentTestEnd u _ => unitOk u
  | .flagRequestSnoop _ _ set clr => set != 0 || clr != 0
  | .linkReadCompletion _ _ data | .peerWriteReceive _ _ _ data _ => !data.isEmpty
  | .shedRise lvl => lvl.val != 0
  | _ => true

end Sys2Proof
end

