-- ==== Sys2Proof/Certificates/Slice0/Obligations.lean ====
section
/-! DEFINITION. The statements for the provers. A frame is written as an equation: a state with the named fields changed and every
other field as it was. A record field, a counter or a trace buffer that a statement does not fix stands under an existential. -/

open Sys2Proof Sys2Proof.Machine

/-! ### Steps -/

/-- The command at the front of the queue runs on the state with the queue's rest. -/
def Obligations.StepRunsFrontCommand : Prop :=
  ∀ (c : Instr) (q : List Instr) (s : State), s.pending = c :: q → step s = exec c (s.withPending q)

/-- Every command answers a next state: no command faults and none is refused. On an empty queue, by the model's choice (log 1), 1 ns of the timebase
of R436 passes while MOD_RST_N is deasserted, and nothing changes but what counts time, and where a trace record waits, its place in host memory. -/
def Obligations.EveryStepAnswersNext : Prop :=
  (∀ s : State, s.pending = [] → ∃ (o : Obs) (h : Table Memory),
    step s = .next { s with
      timebase := if s.env.board.running then s.timebase + 1 else s.timebase, obs := if s.env.board.running then o else s.obs
      host := if s.env.board.running ∧ s.obs.due ≠ none then h else s.host }) ∧
  (∀ (c : Instr) (s : State), ∃ t, exec c s = .next t)

/-- What registers read after a module reset, where Tables 10-7, 11-4, 14-2, 15-6a, 16-8, 17-5 and 18-4 to 18-6 give the value; and the state after
reset is legal, with every memory in its canonical form and no command waiting. -/
def Obligations.ResetValues : Prop :=
  ((∀ r ∈ [Reg.partCfg, .statePool, .keyPool, .keyDir, .setupErr, .timebase, .ctx0Desc, .ctx0Ctrl, .fenceCl, .fenceMisc, .faultCnt, .fclStatus,
      .fclRetry, .fplRetry 0, .fplRetry 1, .power, .shed, .srcState, .go, .fwAddr, .fwCtrl, .pkeStat, .pkeMismatch, .obsGlobal, .freezeTime, .snapAddr, .snapSeq,
      .traceBase, .traceCb, .traceCtrl], State.reset.regRead r = 0) ∧
  (∀ w < 3, State.reset.regRead (.fenceCh w) = 0) ∧ (∀ w < 2, State.reset.regRead (.fenceThaw w) = 0) ∧
  (∀ i, State.reset.regRead (.temp i) = 0x80000000) ∧ (∀ i, State.reset.regRead (.volt i) = 0xFFFF0000) ∧
  (∀ i, State.reset.regRead (.curr i) = 0) ∧ State.reset.regRead .powerCap = 2000 ∧
  (∀ k, State.reset.regRead (.dieV k) = 750 + 2 ^ 12 * 750) ∧ (∀ k, State.reset.regRead (.dieRate k) = 0xFFFF0000) ∧
  State.reset.regRead .classShare = 16 + 2 ^ 8 * 32 + 2 ^ 16 * 8 ∧ (∀ p, State.reset.regRead (.fplStatus p) = 0) ∧
  (∀ k, State.reset.regRead (.therm k) = 0) ∧ (∀ c, State.reset.regRead (.tgSeed c) = 1) ∧ (∀ c, State.reset.regRead (.tgStatus c) = 0) ∧
  (∀ n, State.reset.regRead (.ctrSel n) = 0 ∧ State.reset.regRead (.ctrVal n) = 0) ∧ (∀ c, State.reset.regRead (.ctxStatus c) = 0) ∧
  (∀ k, State.reset.regRead (.dieStatus k) = 16 * 2 ^ 16 ∧ State.reset.regRead (.dieFirn k) = 0)) ∧
  (State.reset.Legal ∧ State.reset.memoryOk = true ∧ State.reset.pending = [])

/-- Whatever command runs, the checked registers stay in their ranges: part_code, the power cap, the memory shares, the core voltages
between 0.65 V and 0.85 V, the shed level, M6 and M7; the module is off while MOD_RST_N is asserted, and awaits an image set in its first
stage alone. -/
def Obligations.LegalKeptByEveryStep : Prop := ∀ s t : State, s.Legal → step s = .next t → t.Legal

/-- Work of engines, rings, keys, memory and the security block never touches pins, management, power, set-up or measurements, and no
command touches the queue of the commands that wait. -/
def Obligations.OtherCommandsKeepManagement : Prop :=
  ∀ (c : Instr) (s t : State), exec c s = .next t → t.pending = s.pending ∧ (changesEnv c = false → t.env = s.env)

/-- A hub lockstep difference (R372, R405): the hub stops at once, with its link error message and the management bus alert; no command but
MOD_RST_N leaves SRC_STATE 9, or the loss of power; and until then nothing is admitted and no completion record is written, in any context. -/
def Obligations.HubStopHoldsUntilReset : Prop :=
  (∀ (s : State) (cx : Fin 4096) (r : Fin 4) (looks : List (Fin 131072 × KrtLook)) (c : Ctx) (w : Waiting), s.ready = true → s.ctxs.find cx = some c → w ∈ c.waiting →
    w.ring = r → ∃ t, exec (.descriptorAdmit cx r looks true) s = .next t ∧ t.env.serac.st = .stopped ∧ t.env.board.smbAlert = true ∧
      t.sent = .linkError :: s.sent ∧ t.descs = s.descs ∧ t.ctxs = s.ctxs) ∧
  (∀ (c : Instr) (s t : State), s.Legal → s.env.serac.st = .stopped → exec c s = .next t → c ≠ .moduleReset → c ≠ .powerOff → t.env.serac.st = .stopped) ∧
  (∀ s : State, s.env.serac.st = .stopped →
    (∀ d st res tag ev, s.complete1 d st res tag ev = s) ∧ (∀ n cx, State.flushHeld n cx s = s) ∧
    (∀ cx r looks differ, exec (.descriptorAdmit cx r looks differ) s = .next s) ∧ ∀ d, exec (.abort d) s = .next s)

/-! ### Reset, start-up and pins (16, 19) -/

/-- MOD_RST_N completes in every state and resets the whole module (R404): every context, key entry, fence, flag, measurement register and set-up value is
lost; flash, the fused rollback counter and what lies outside the module stay, and a bank that a STAGE was writing is not marked (R406). -/
def Obligations.ModuleResetKeepsFlashAndFuses : Prop :=
  ∀ s : State, ∃ t, exec .moduleReset s = .next t ∧
    t.env.serac.st = .off ∧ t.env.board.running = false ∧
    t.ctxs = [] ∧ t.descs = [] ∧ t.keys = State.reset.keys ∧ t.hub = State.reset.hub ∧ t.sync = State.reset.sync ∧
    t.env.meas = Vector.replicate 8 0 ∧ t.env.setup = State.reset.env.setup ∧ t.clusters = State.reset.clusters ∧ t.sec = State.reset.sec ∧
    t.memsys = State.reset.memsys ∧ t.obs = State.reset.obs ∧ t.health = State.reset.health ∧ t.timebase = 0 ∧
    t.env.serac.flash = { s.env.serac.flash with mark := t.env.serac.flash.mark, tries := t.env.serac.flash.tries } ∧
    ((∀ f, s.env.serac.fwBusy = some f → f.micro = true) → t.env.serac.flash = s.env.serac.flash) ∧
    (∀ f, s.env.serac.fwBusy = some f → f.micro = false → t.env.serac.flash.mark = none) ∧
    t.env.serac.rollback = s.env.serac.rollback ∧ t.env.serac.bootCount = s.env.serac.bootCount ∧
    t.moraine.log = s.env.serac.flash.log ∧ t.moraine.pos = s.env.serac.flash.logPos ∧
    t.env.board.pg48v = s.env.board.pg48v ∧ t.host = s.host ∧ t.sent = s.sent ∧
    ∀ r : Reg, r ≠ .fwStatus → r ≠ .morainePos → (∀ e w, r ≠ .moraine e w) → t.regRead r = State.reset.regRead r

/-- The input falls below 34.0 V (Table 16-6): a POWER record goes to flash at the next position, and the module goes off with nothing
but flash and fuses kept. That the record takes the next position of the log, whatever records are not yet in flash, is the model's choice (log 32);
that PG_48V reads deasserted follows from its pin (19). -/
def Obligations.PowerOffWritesFinalRecord : Prop :=
  ∀ s : State, s.env.serac.st ≠ .off → ∃ (t : State) (r : BitVec 512), exec .powerOff s = .next t ∧
    t.env.serac.st = .off ∧ t.env.board.running = false ∧ t.env.board.pg48v = false ∧ t.ctxs = [] ∧
    t.env.serac.flash.log = s.env.serac.flash.log.set (s.moraine.pos % 65536) r ∧ t.env.serac.flash.logPos = s.moraine.pos + 1 ∧
    fld r 7 0 = 0x08 ∧ fld r 447 384 = s.env.power.cap.toNat ∧ fld r 511 448 = s.timebase % 2 ^ 64 ∧
    t.env.serac.rollback = s.env.serac.rollback

/-- Deassertion with PG_48V asserted starts the module: straps sampled, timebase 0, boot_count one more for each reset, and the BOOT record, with seq 0,
at the position that flash gives, with the bank that runs; a bank marked for trial that fails R321 is abandoned at once, which is a second reset, into
the committed bank. -/
def Obligations.DeassertionStartsTheModule : Prop :=
  ∀ (s : State) (j : Bool) (b m : BitVec 2) (ok : BanksOk) (tried : Prop), s.env.board.running = false → s.env.board.pg48v = true →
    (tried ↔ b = 0 ∧ s.env.serac.flash.tries < 2 ∧ ∃ x, s.env.serac.flash.mark = some x ∧
      ((if x then ok.b else ok.a) = false ∨ (s.env.serac.flash.bank x).rollback.toNat < s.env.serac.rollback.toNat)) →
    ∃ (t : State) (r : BitVec 512), exec (.resetDeassert j b m ok) s = .next t ∧
      t.env.board.running = true ∧ t.env.board.jcompatN = j ∧ t.env.board.bootSel = b ∧ t.env.board.mgmtAddr = m ∧ t.env.serac.bootSel = b ∧
      t.timebase = 0 ∧ (¬ tried → t.env.serac.bootCount = s.env.serac.bootCount + 1) ∧
      (tried → t.env.serac.bootCount = s.env.serac.bootCount + 2 ∧ t.env.serac.trial = false ∧ t.env.serac.bank = s.env.serac.flash.committed ∧
        t.env.serac.flash.mark = none) ∧
      t.moraine.log.find (s.env.serac.flash.logPos % 65536) = some r ∧
      fld r 7 0 = 0x02 ∧ fld r 149 118 = 0 ∧ fld r 447 384 = t.env.serac.bootCount.toNat ∧ fld r 511 448 = 0 ∧
      fld r 336 336 = boolNat t.env.serac.bank ∧ fld r 337 337 = boolNat t.env.serac.trial ∧
      (t.env.serac.st = .serac ∨ t.env.serac.st = .failed)

/-- The strap is sampled at deassertion and held to the next reset; a context's Jasil compatibility follows jcompat, or the sample. -/
def Obligations.JcompatStrapSampledAndHeld : Prop :=
  (∀ (s : State) (j : Bool) (b m : BitVec 2) (ok : BanksOk), s.env.board.running = false → s.env.board.pg48v = true →
    ∃ t, exec (.resetDeassert j b m ok) s = .next t ∧ t.env.board.jcompatN = j) ∧
  (∀ (c : Instr) (s t : State), exec c s = .next t → s.env.board.running = true → c ≠ .moduleReset → c ≠ .powerOff →
    t.env.board.jcompatN = s.env.board.jcompatN) ∧
  (∀ (s : State) (cx : Nat) (c : Ctx), s.ctxs.find cx = some c →
    ((s.ctxStatus cx).getLsbD 2 = true ↔ c.f 134 133 = 2 ∨ (c.f 134 133 = 0 ∧ s.env.board.jcompatN = false)))

/-- Table 16-10: the stages follow one another, with the measurements of R322; from READY on HUB_KEYDIR reads the key header directory's place, the last
64 units of the key pool; a stage that fails leads to FAILED with its code. -/
def Obligations.StartupStagesFollowTable : Prop :=
  (∀ (s : State) (d : BitVec 512) (f : List (BitVec 16)), s.env.serac.awaiting = false →
    (s.env.serac.st = .serac → ∃ t, exec (.startupStageEnd (.pass [d] f)) s = .next t ∧
      t = { s with env := t.env } ∧ t.env.serac = { s.env.serac with st := .firmware } ∧ t.env.meas = (s.env.measure 1 d).meas) ∧
    (s.env.serac.st = .rails → ∃ t, exec (.startupStageEnd (.pass [d] f)) s = .next t ∧
      t = { s with env := t.env, hub := t.hub } ∧ t.env.serac = { s.env.serac with st := .memory } ∧ t.hub.fclUp = true ∧
      1 ≤ t.hub.fclLanes.toNat ∧ t.hub.fclLanes.toNat ≤ 8) ∧
    (s.env.serac.st = .memory → ∃ t, exec (.startupStageEnd (.pass [d] f)) s = .next t ∧
      t = { s with env := t.env } ∧ t.env.serac = { s.env.serac with st := .test }) ∧
    (s.env.serac.st = .test → s.hub.fenceCl = 0 → ∃ t, exec (.startupStageEnd (.pass [d] [])) s = .next t ∧
      t.env.serac = { s.env.serac with st := .setup } ∧ t.env.meas = (s.env.measure 3 d).meas ∧ t.health.basePass = s.timebase) ∧
    (s.env.serac.st = .setup → s.env.serac.locked = true → ∃ t, exec (.startupStageEnd (.pass [d] f)) s = .next t ∧
      t.env.serac = { s.env.serac with st := .ready } ∧ t.sec.aliasKey.isSome ∧
      t.regRead .keyDir = (keyBase s.env.setup.keyPool + keySize s.env.setup.keyPool - 64) * 2 ^ 21)) ∧
  (∀ (s : State) (d0 d2 : BitVec 512) (f : List (BitVec 16)), s.env.serac.awaiting = false → s.env.serac.st = .firmware →
    ∃ t, exec (.startupStageEnd (.pass [d2, d0] f)) s = .next t ∧
      t = { s with env := t.env } ∧ t.env.serac = { s.env.serac with st := .rails } ∧ t.env.meas = ((s.env.measure 2 d2).measure 0 d0).meas) ∧
  (∀ (s : State) (k : Fin 8), s.env.serac.awaiting = false → s.env.serac.trial = false → 1 ≤ k.val → k.val ≤ 6 →
    s.env.serac.st ∈ [SrcState.serac, .firmware, .rails, .memory, .test] →
    ∃ t, exec (.startupStageEnd (.fail k)) s = .next t ∧ t = { s with env := t.env } ∧ t.env.serac.st = .failed ∧
      t.env.serac.failCode = BitVec.ofNat 8 k.val ∧ t.env.board.smbAlert = true)

/-- A trial bank that does not reach SETUP within 6 s, or fails a check of R321, is abandoned: the module resets into the committed bank and writes
a FIRMWARE record with fall-back set, and the timebase does not move back. An image set over the management bus ends its wait; a lost reference clock
fails start-up or stops the hub (R437); the edges of PG_48V. That a clock lost after start-up leaves one Moraine record, HUB_STOP, and no fault record
is the model's choice (log 55). -/
def Obligations.TrialBankClocksAndPower : Prop :=
  (∀ (s : State) (c : Instr), s.env.board.running = true → s.env.serac.trial = true → s.env.serac.awaiting = false → s.env.board.bootSel = 0 →
    (c = .trialBootTimeout ∧ s.env.serac.st ∈ [SrcState.serac, .firmware, .rails, .memory, .test] ∨
      (c = .startupStageEnd (.fail 1) ∨ c = .startupStageEnd (.fail 2)) ∧ s.env.serac.st ∈ [SrcState.serac, .firmware, .rails, .memory, .test]) →
    (s.env.serac.flash.bank s.env.serac.flash.committed).rollback.toNat ≥ s.env.serac.rollback.toNat →
    (if s.env.serac.flash.committed then s.env.serac.banksOk.b else s.env.serac.banksOk.a) = true →
    ∃ (t : State) (r : BitVec 512), exec c s = .next t ∧ s.timebase ≤ t.timebase ∧ t.env.serac.st = .serac ∧ t.env.serac.trial = false ∧
      t.env.serac.bank = s.env.serac.flash.committed ∧ t.env.serac.flash.mark = none ∧
      t.moraine.log.find ((s.env.serac.flash.logPos + 1) % 65536) = some r ∧ fld r 7 0 = 0x05 ∧ fld r 344 344 = 1) ∧
  ((∀ s : State, s.env.serac.awaiting = true → ∃ t, exec (.managementImageSet true) s = .next t ∧ t = { s with env := t.env } ∧
    t.env.serac = { s.env.serac with awaiting := false }) ∧
  (∀ (s : State) (k : RefClk), s.env.serac.st ∈ [SrcState.serac, .firmware, .rails] → ∃ t, exec (.refclkLockLoss k) s = .next t ∧
    t = { s with env := t.env } ∧ t.env.serac.st = .failed ∧ t.env.serac.failCode = 3) ∧
  (∀ (s : State) (k : RefClk), s.env.serac.st ∈ [SrcState.memory, .test, .setup, .ready] → ∃ t, exec (.refclkLockLoss k) s = .next t ∧
    t.env.serac.st = .stopped ∧ t.env.board.smbAlert = true ∧ t.sent = .linkError :: s.sent ∧ t.moraine.pos = s.moraine.pos + 1) ∧
  (∀ s : State, ∃ t, exec .pg48vAssert s = .next t ∧ t = { s with env := t.env } ∧ t.env.board = { s.env.board with pg48v := true } ∧
    t.env.power.shed.pgLow = none) ∧
  (∀ s : State, s.env.board.pg48v = true → ∃ t, exec .pg48vDeassert s = .next t ∧ t = { s with env := t.env } ∧
    t.env.board = { s.env.board with pg48v := false } ∧ t.env.power.shed.pgLow = some s.timebase))

/-! ### The set-up window (10, 14, 16, 17, 18) -/

/-- A read of the right width returns the register's value, and then clears its RC fields: counts and error data to 0, a peak or low to its reset
value, the latest samples staying; an access of the wrong width, or of an offset that no register occupies, reads 0, clears nothing and writes
nothing. -/
def Obligations.WindowReadsAndRcFields : Prop :=
  (∀ (s : State) (off : BitVec 32) (wide : Bool) (r : Reg) (c : Instr), regAt off.toNat = some (r, wide) →
    (c = .rcFieldRead off wide ∧ s.hub.fclUp = true ∨ c = .smbWindowRead { off, target := s.smbAddr } wide ∧ s.env.serac.st ≠ .off) →
    ∃ t, exec c s = .next t ∧ t.env.board = { s.env.board with readPort := BitVec.ofNat 64 (s.regRead r) } ∧
      t = { s with env := t.env, hub := t.hub, sec := t.sec, memsys := t.memsys } ∧
      (r ∈ [Reg.faultCnt, .fclRetry, .pkeMismatch] → t.regRead r = 0) ∧
      (∀ p, r = .fplRetry p → t.regRead r = 0) ∧
      (∀ i, r = .temp i → t.regRead r = 2 ^ 16 * 0x8000 + s.regRead r % 2 ^ 16) ∧
      (∀ i, r = .volt i → t.regRead r = 2 ^ 16 * 0xFFFF + s.regRead r % 2 ^ 16) ∧
      (∀ i, r = .curr i → t.regRead r = s.regRead r % 2 ^ 16) ∧ (r = .power → t.regRead r = s.regRead r % 2 ^ 16) ∧
      (∀ k, r = .dieRate k → t.regRead r = 2 ^ 16 * 0xFFFF + s.regRead r % 2 ^ 16) ∧
      (r = .shed → t.regRead r = s.regRead r % 2 ^ 4 + 2 ^ 8 * (s.regRead r / 2 ^ 8)) ∧
      (∀ k, r = .therm k → t.regRead r = s.regRead r % 2 ^ 8 + 2 ^ 16 * (s.regRead r / 2 ^ 16)) ∧
      (∀ k, r = .eccCe k ∨ r = .eccUe k ∨ r = .eccLast k ∨ r = .tgCodec k ∨ r = .tgErrs k → t.regRead r = 0)) ∧
  (∀ (s : State) (off : BitVec 32) (wide : Bool) (v : BitVec 64), s.hub.fclUp = true → (∀ r, regAt off.toNat ≠ some (r, wide)) →
    exec (.rcFieldRead off wide) s = .next (s.updBoard fun b => { b with readPort := 0 }) ∧ exec (.registerWrite off wide v) s = .next s)

/-- A register takes a write only in the states of Table 18-2, a write in another state is ignored, and RO registers take none. Written through the
host link, the pools, the context 0 descriptor, the firmware address, the generators' seed and range, and the snapshot and trace addresses take the value
that their fields hold; the management bus, at the module's address and with a right packet error code, writes the power cap and the firmware registers and
no other. -/
def Obligations.RegisterWritesTakeTheirStates : Prop :=
  (∀ (s : State) (off : BitVec 32) (v : BitVec 64) (r : Reg), s.hub.fclUp = true → regAt off.toNat = some (r, true) →
    (r = .keyPool → s.setupOpen = true → ∃ t, exec (.registerWrite off true v) s = .next t ∧
      t = s.updSetup (fun _ => t.env.setup) ∧ t.env.setup = { s.env.setup with keyPool := t.env.setup.keyPool } ∧
      keyBase t.env.setup.keyPool = v.toNat % 2 ^ 20 ∧ keySize t.env.setup.keyPool = v.toNat / 2 ^ 32 % 2 ^ 20) ∧
    (r = .statePool → s.setupOpen = true → exec (.registerWrite off true v) s =
      .next (s.updSetup fun u => { u with statePool := BitVec.ofNat 64 (v.toNat % 2 ^ 48) })) ∧
    (r = .ctx0Desc → s.ready = true → exec (.registerWrite off true v) s =
      .next (s.updSetup fun u => { u with ctx0Desc := BitVec.ofNat 64 (v.toNat / 256 * 256) })) ∧
    (r = .fwAddr → s.setupOrReady = true → exec (.registerWrite off true v) s = .next (s.updSerac fun c => { c with fwAddr := v })) ∧
    (∀ c, r = .tgRange c → s.tgWritable = true → exec (.registerWrite off true v) s =
      .next (s.updChan c fun h => { h with tgRange := BitVec.ofNat 64 (v.toNat % 2 ^ 48) })) ∧
    (r = .snapAddr → s.setupOrReady = true → exec (.registerWrite off true v) s =
      .next { s with obs := { s.obs with snapAddr := BitVec.ofNat 64 (v.toNat / 4096 * 4096) } }) ∧
    (r = .traceBase → s.setupOrReady = true → s.obs.traceOn = false → exec (.registerWrite off true v) s =
      .next { s with obs := { s.obs with traceBase := BitVec.ofNat 64 (v.toNat / 4096 * 4096) } }) ∧
    (r = .traceCb → s.setupOrReady = true → s.obs.traceOn = false → exec (.registerWrite off true v) s =
      .next { s with obs := { s.obs with
        traceCb := BitVec.ofNat 64 (v.toNat / 64 * 64), head := BitVec.ofNat 32 (s.hostNat .phys (v.toNat / 64 * 64) 4) } })) ∧
  ((∀ (s : State) (off : BitVec 32) (v : BitVec 64) (c : Fin 160), s.hub.fclUp = true → regAt off.toNat = some (.tgSeed c, false) →
    s.tgWritable = true → exec (.registerWrite off false v) s = .next (s.updChan c fun h => { h with tgSeed := BitVec.ofNat 32 v.toNat })) ∧
  (∀ (s : State) (off : BitVec 32) (wide : Bool) (v : BitVec 64) (r : Reg), regAt off.toNat = some (r, wide) →
    (r ∈ [Reg.partCfg, .keyPool, .go] ∧ s.setupOpen = false ∨ r = .statePool ∧ s.setupOpen = false ∧ s.ready = false ∨ r = .ctx0Desc ∧ s.ready = false ∨
      (r ∈ [Reg.fwAddr, .fwCtrl, .snapAddr, .traceBase, .traceCb, .traceCtrl] ∨ ∃ n, r = .ctrSel n) ∧ s.setupOrReady = false ∨
      r ∈ [Reg.traceBase, .traceCb] ∧ s.obs.traceOn = true ∨ (∃ c, r ∈ [Reg.tgCtrl c, .tgSeed c, .tgRange c]) ∧ s.tgWritable = false ∨
      r ∈ [Reg.setupErr, .ctx0Ctrl, .fwStatus] ∧ s.hub.fclUp = false) → exec (.registerWrite off wide v) s = .next s) ∧
  (∀ (s : State) (off : BitVec 32) (wide : Bool) (v : BitVec 64) (r : Reg), regAt off.toNat = some (r, wide) → s.setupOrReady = false →
    (r = .powerCap → ∃ e, exec (.registerWrite off wide v) s = .next (s.updPower fun p => { p with capErr := e })) ∧
    (r = .classShare → ∃ e, exec (.registerWrite off wide v) s = .next { s with env := { s.env with shareErr := e } }))) ∧
  (∀ (s : State) (off : BitVec 32) (wide : Bool) (v : BitVec 64) (r : Reg), regAt off.toNat = some (r, wide) →
    r ∈ [Reg.hubId, .serial, .keyDir, .timebase, .fenceCl, .fenceMisc, .faultCnt, .srcState, .morainePos, .pkeStat, .pkeMismatch, .freezeTime,
      .snapSeq, .shed, .power] → exec (.registerWrite off wide v) s = .next s) ∧
  (∀ (s : State) (o : SmbOff) (wide : Bool) (v : BitVec 64) (r : Reg), regAt o.off.toNat = some (r, wide) →
    (s.env.serac.st = .off ∨ o.pecOk = false ∨ o.target ≠ s.smbAddr ∨ r ∉ [Reg.powerCap, .fwAddr, .fwCtrl] → exec (.smbWindowWrite o wide v) s = .next s) ∧
    (s.env.serac.st ≠ .off → o.pecOk = true → o.target = s.smbAddr → r = .fwAddr → wide = true → s.setupOrReady = true →
      exec (.smbWindowWrite o wide v) s = .next (s.updSerac fun c => { c with fwAddr := v })))

/-- Go (R423): refused with the bit of every cause, the module staying in SETUP; or accepted, set-up locked, and the set-up record, with the key header
directory in the last 64 units of the key pool, measured into M5. -/
def Obligations.GoChecksThenLocks : Prop :=
  ∀ s : State,
    (s.setupOpen = true → (keyRangeBad s.env.setup.keyPool || keyTestBad s.env.setup.keyPool || statePoolBad s.env.setup.statePool s.env.setup.keyPool) = true →
      ∃ t, exec .go s = .next t ∧ t = s.updSetup (fun u => { u with setupErr := t.env.setup.setupErr }) ∧
        t.env.setup.setupErr.getLsbD 3 = true ∧
        t.env.setup.setupErr.getLsbD 0 = (s.env.setup.setupErr.getLsbD 0 || keyRangeBad s.env.setup.keyPool) ∧
        t.env.setup.setupErr.getLsbD 1 = (s.env.setup.setupErr.getLsbD 1 || keyTestBad s.env.setup.keyPool) ∧
        t.env.setup.setupErr.getLsbD 2 = (s.env.setup.setupErr.getLsbD 2 || statePoolBad s.env.setup.statePool s.env.setup.keyPool)) ∧
    (s.setupOpen = true → keyRangeBad s.env.setup.keyPool = false → keyTestBad s.env.setup.keyPool = false →
      statePoolBad s.env.setup.statePool s.env.setup.keyPool = false →
      ∃ t, exec .go s = .next t ∧ t = { s with env := t.env } ∧ t.env.serac = { s.env.serac with locked := true } ∧
        t.env.setup = s.env.setup ∧ ∃ d : BitVec 64, d.toNat = (keyBase s.env.setup.keyPool + keySize s.env.setup.keyPool - 64) * 2 ^ 21 ∧
        t.env.meas = (s.env.measure 5 (Crypto.digest ({ s.env.setup with keyDir := d } : Setup).record)).meas) ∧
    (s.setupOpen = false → exec .go s = .next s)

/-- HUB_PART_CFG, HUB_STATE_POOL, MEM_CLASS_SHARE and SRC_POWER_CAP: a value in range is taken in the states of Table 18-2, one out of range
sets the error bit where the register has one, and any other write is ignored, but for the 1 that clears an error bit. -/
def Obligations.CheckedRegistersTakeOnlyLegalValues : Prop :=
  (∀ (s : State) (v : BitVec 32), exec (.hubPartCfgWrite v) s =
    .next (if s.setupOpen = true ∧ v.toNat % 8 < 6 then s.updSetup fun u => { u with partCode := BitVec.ofNat 3 v.toNat } else s)) ∧
  (∀ (s : State) (v : BitVec 64), ∃ t, exec (.hubStatePoolWrite v) s = .next t ∧ t = s.updSetup (fun _ => t.env.setup) ∧
    (s.setupOpen = true → t.env.setup = { s.env.setup with statePool := BitVec.ofNat 64 (v.toNat % 2 ^ 48) }) ∧
    (s.setupOpen = false → s.ready = false → t = s) ∧
    (s.ready = true → s.ctxs.any (·.1 != 0) = true → t.env.setup.statePool = s.env.setup.statePool ∧ t.env.setup.setupErr.getLsbD 4 = true) ∧
    (s.ready = true → s.ctxs.any (·.1 != 0) = false → statePoolBad (BitVec.ofNat 64 (v.toNat % 2 ^ 48)) s.env.setup.keyPool = true →
      t.env.setup.statePool = s.env.setup.statePool ∧ t.env.setup.setupErr.getLsbD 2 = true) ∧
    (s.ready = true → s.ctxs.any (·.1 != 0) = false → statePoolBad (BitVec.ofNat 64 (v.toNat % 2 ^ 48)) s.env.setup.keyPool = false →
      t.env.setup.statePool.toNat = v.toNat % 2 ^ 48 ∧ t.env.setup.setupErr = s.env.setup.setupErr)) ∧
  (∀ (s : State) (v : BitVec 32), s.setupOrReady = true → ∃ t, exec (.memClassShareWrite v) s = .next t ∧
    t = { s with env := { s.env with share := t.env.share, shareErr := t.env.shareErr } } ∧
    (shareOk (v.toNat % 256) (v.toNat / 256 % 256) (v.toNat / 65536 % 256) = true → t.env.share.toNat = v.toNat % 2 ^ 24) ∧
    (shareOk (v.toNat % 256) (v.toNat / 256 % 256) (v.toNat / 65536 % 256) = false → t.env.share = s.env.share ∧ t.env.shareErr = true)) ∧
  (∀ (s : State) (v : BitVec 32), s.setupOrReady = false →
    (∃ e, exec (.memClassShareWrite v) s = .next { s with env := { s.env with shareErr := e } } ∧ (s.hub.fclUp = false → e = s.env.shareErr)) ∧
    ∃ e, exec (.powerCapWrite v) s = .next (s.updPower fun p => { p with capErr := e }) ∧ (s.hub.fclUp = false → e = s.env.power.capErr)) ∧
  (∀ (s : State) (v : BitVec 32), s.setupOrReady = true → ∃ t, exec (.powerCapWrite v) s = .next t ∧
    t = s.updPower (fun p => { p with cap := t.env.power.cap, capErr := t.env.power.capErr }) ∧
    (700 ≤ v.toNat % 65536 ∧ v.toNat % 65536 ≤ 2000 → t.env.power.cap.toNat = v.toNat % 65536) ∧
    (¬ (700 ≤ v.toNat % 65536 ∧ v.toNat % 65536 ≤ 2000) → t.env.power.cap = s.env.power.cap ∧ t.env.power.capErr = true))

/-- The traffic generators (R267, R268): a start within the range sets busy and latches the run, one that R267 refuses sets refused; a stop asks a
running one to end; the end of a run, served whole or stopped, clears busy, sets done and adds what its checker counted; a run that only reads
leaves memory and its code words as they were. -/
def Obligations.GeneratorStartsStopsAndEnds : Prop :=
  (∀ (s : State) (ch : Fin 160) (v : BitVec 32), s.tgWritable = true → ∃ t, exec (.memTgStart ch v) s = .next t ∧
    t = s.updChan ch (fun _ => t.memsys.chans[ch]) ∧
    (s.tgRefuses ch (v ||| 0x80000000#32).toNat = true →
      t.memsys.chans[ch].tgRefused = true ∧ t.memsys.chans[ch].tgBusy = s.memsys.chans[ch].tgBusy) ∧
    (s.tgRefuses ch (v ||| 0x80000000#32).toNat = false →
      t.memsys.chans[ch].tgBusy = true ∧ t.memsys.chans[ch].tgRefused = s.memsys.chans[ch].tgRefused ∧
      t.memsys.chans[ch].tgRun.seed = s.memsys.chans[ch].tgSeed ∧ t.memsys.chans[ch].tgRun.served = 0)) ∧
  (∀ (s : State) (ch : Fin 160), s.tgWritable = true → exec (.memTgStop ch) s =
    .next (s.updChan ch fun h => { h with tgStopping := h.tgStopping || h.tgBusy })) ∧
  (∀ (s : State) (ch : Fin 160) (o : TgObs), s.memsys.chans[ch].tgBusy = true →
    s.memsys.chans[ch].tgStopping = true ∨ s.memsys.chans[ch].tgRun.bursts ≤ s.memsys.chans[ch].tgRun.served →
    ∃ (t : State) (r : TgAcc), exec (.memTgRunEnd ch o) s = .next t ∧ r = s.tgResult ch s.memsys.chans[ch].tgRun o ∧
      t = { s with mem := r.mem, memsys := { s.memsys with flips := r.flips, chans := t.memsys.chans } } ∧
      (∀ j, j ≠ ch → t.memsys.chans[j] = s.memsys.chans[j]) ∧
      t.memsys.chans[ch].tgBusy = false ∧ t.memsys.chans[ch].tgDone = true ∧
      t.memsys.chans[ch].tgErrs = s.memsys.chans[ch].tgErrs + BitVec.ofNat 32 r.errs ∧
      fld t.memsys.chans[ch].tgCodec 15 0 = min (fld s.memsys.chans[ch].tgCodec 15 0 + r.ce) 0xFFFF ∧
      fld t.memsys.chans[ch].tgCodec 31 16 = min (fld s.memsys.chans[ch].tgCodec 31 16 + r.ue) 0xFFFF ∧
      (s.memsys.chans[ch].tgRun.op = 1 → t.mem = s.mem ∧ t.memsys.flips = s.memsys.flips))

/-- The firmware commands (R402): STAGE runs and ends with a result, a staged bank or slot taking the image only with result 0; ACTIVATE
marks the staged bank; COMMIT commits the bank on trial and raises the rollback counter; a command refused in its state ends with result 5,
and a rollback value below the counter with result 2. -/
def Obligations.FirmwareCommands : Prop :=
  (∀ (s : State) (slot : BitVec 8) (m : Bool), s.setupOrReady = true → (m = false ∨ slot.toNat ≤ 31) → ∃ t, exec (.fwStage slot m) s = .next t ∧
    (s.env.serac.fwBusy = none → t = s.updSerac fun c => { c with fwSlot := slot, fwBusy := some ⟨slot, m⟩ }) ∧
    (s.env.serac.fwBusy.isSome = true → t.env.serac.fwResult = 5 ∧ t.env.serac.fwDone = true ∧ t.env.serac.fwBusy = s.env.serac.fwBusy)) ∧
  (∀ (s : State) (f : FwCmd) (r : Fin 6) (img : ImageInfo), s.env.serac.fwBusy = some f → s.shed < 5 → (f.micro = true → s.slotNamed f.slot.toNat = false) →
    ∃ t, exec (.fwStageDone r img) s = .next t ∧ t = { s with env := t.env, moraine := t.moraine, obs := t.obs } ∧
      t.env.serac.fwBusy = none ∧ t.env.serac.fwDone = true ∧ t.moraine.pos = s.moraine.pos + 1 ∧
      (r = 0 → img.rollback.toNat < s.env.serac.rollback.toNat → t.env.serac.fwResult = 2) ∧
      (r ≠ 0 → t.env.serac.fwResult = BitVec.ofNat 8 r.val) ∧
      (t.env.serac.fwResult ≠ 0 → t.env.serac.flash = s.env.serac.flash ∧ t.env.serac.micro = s.env.serac.micro ∧ t.env.meas = s.env.meas) ∧
      (t.env.serac.fwResult = 0 → f.micro = false → t.env.serac.otherBank = ⟨img.version, img.rollback, img.digest, true⟩ ∧
        t.env.meas = s.env.meas ∧ t.env.serac.flash.bank t.env.serac.bank = s.env.serac.flash.bank s.env.serac.bank ∧ t.env.serac.flash.mark ≠ some (!s.env.serac.bank)) ∧
      (t.env.serac.fwResult = 0 → f.micro = true → t.env.serac.micro.find (0x20 + f.slot.toNat) = some img.digest ∧
        t.env.meas = (s.env.measure 4 img.digest).meas ∧ t.env.serac.flash = s.env.serac.flash)) ∧
  (∀ s : State, s.setupOrReady = true → ∃ t, exec .fwActivate s = .next t ∧ t = { s with env := t.env, moraine := t.moraine, obs := t.obs } ∧
    (s.env.serac.fwBusy = none → s.env.serac.otherBank.staged = true → s.shed < 5 →
      t.env.serac.flash = { s.env.serac.flash with mark := some (!s.env.serac.bank), tries := 0 } ∧ t.env.serac.fwResult = 0) ∧
    (s.env.serac.fwBusy.isSome = true → t.env.serac.flash = s.env.serac.flash ∧ t.env.serac.fwResult = 5)) ∧
  (∀ s : State, s.setupOrReady = true → ∃ t, exec .fwCommit s = .next t ∧ t = { s with env := t.env, moraine := t.moraine, obs := t.obs } ∧
    (s.env.serac.trial = true → t.env.serac.flash.committed = s.env.serac.bank ∧ t.env.serac.flash.mark = none ∧ t.env.serac.trial = false ∧
      t.env.serac.rollback.toNat = max s.env.serac.rollback.toNat (s.env.serac.flash.bank s.env.serac.bank).rollback.toNat) ∧
    (s.env.serac.trial = false → t.env.serac.fwResult = 5 ∧ t.env.serac.flash = s.env.serac.flash))

/-- Counters, freeze, snapshot and trace (R408 to R411, R415): a write of OBS_CTR_SEL zeroes the counter, and enables it only for an event that the
place and the filter admit; a freeze or a snapshot at t takes the instant of R410; a snapshot in progress refuses another; OBS_TRACE_CTRL sets
enable, and size only while enable reads 0, and holds the head line that it reads then; a record that waits goes or is dropped and counted; the head
that the host has written is the one the module holds. -/
def Obligations.ObservationControls : Prop :=
  ((∀ (s : State) (n : Fin 1216) (v : BitVec 32), s.setupOrReady = true → ∃ (o : Obs) (t : State), exec (.ctrSelWrite n v) s = .next t ∧
    t = { s with obs := o } ∧ t.regRead (.ctrVal n) = 0 ∧ fld (o.ctrs.get {} n).sel 11 0 = v.toNat % 4096 ∧
    ((o.ctrs.get {} n).sel.getLsbD 31 = true ↔ v.getLsbD 31 = true ∧
      ∃ a, eventAttr (v.toNat % 4096) = some a ∧ eventAt n (v.toNat % 4096) = true ∧ (v.getLsbD 30 = false ∨ a = true)) ∧
    (∀ m : Nat, m ≠ n.val → (o.ctrs.get {} m).sel = (s.obs.ctrs.get {} m).sel ∧ (o.ctrs.get {} m).val = (s.obs.ctrs.get {} m).val)) ∧
  (∀ s : State, s.setupOrReady = true → s.obs.freeze = false → ∃ t, exec .freezeSet s = .next t ∧
    t = { s with obs := { s.obs with freeze := true, holdAt := t.obs.holdAt, freezeTime := BitVec.ofNat 64 t.obs.holdAt, holds := t.obs.holds } } ∧
    t.obs.holdAt % 1000 = 0 ∧ s.timebase + 1000 ≤ t.obs.holdAt ∧ t.obs.holdAt < s.timebase + 2000 ∧
    ∀ x, s.timebase ≤ x → t.obs.counting x = (s.obs.counting x && decide (x < t.obs.holdAt))) ∧
  (∀ s : State, s.setupOrReady = true → s.obs.freeze = true → ∃ t, exec .freezeClear s = .next t ∧
    t = { s with obs := { s.obs with freeze := false, resumeAt := t.obs.resumeAt } } ∧
    t.obs.resumeAt % 1000 = 0 ∧ s.timebase + 1000 ≤ t.obs.resumeAt ∧ t.obs.resumeAt < s.timebase + 2000) ∧
  (∀ s : State, s.setupOrReady = true → ∃ t, exec .snap s = .next t ∧ t = { s with obs := t.obs } ∧
    (s.obs.snapBusy.isSome = true → t.obs = { s.obs with snapErr := true }) ∧
    (s.obs.snapBusy = none → t.obs.snapBusy.isSome = true ∧ t.obs.snapSeq = s.obs.snapSeq ∧ t.obs.ctrs = s.obs.ctrs ∧
      (s.obs.freeze = true → t.obs.snapAt = s.obs.holdAt))) ∧
  (∀ s : State, s.obs.snapBusy.isSome = true → ∃ t, exec .snapshotWriteDone s = .next t ∧
    t = { s with timebase := max s.timebase s.obs.snapAt, obs := t.obs, host := t.host } ∧
    t.obs.snapBusy = none ∧ t.obs.snapSeq = s.obs.snapSeq + 1 ∧
    (∀ sp : BitVec 20, t.hostMem (.pasid sp) = s.hostMem (.pasid sp)))) ∧
  ((∀ (s : State) (v : BitVec 32), s.setupOrReady = true → ∃ t, exec (.traceCtrlWrite v) s = .next t ∧ t = { s with obs := t.obs, host := t.host } ∧
    t.obs.traceOn = v.getLsbD 31 ∧ t.obs.traceSize = (if s.obs.traceOn then s.obs.traceSize else BitVec.ofNat 4 v.toNat) ∧
    (s.obs.due = none → t.host = s.host ∧ t.obs = { s.obs with traceOn := t.obs.traceOn, traceSize := t.obs.traceSize, head := t.obs.head } ∧
      t.obs.head = if v.getLsbD 31 ∧ s.obs.traceOn = false then BitVec.ofNat 32 (s.hostNat .phys s.obs.traceCb.toNat 4) else s.obs.head) ∧
    (s.obs.due ≠ none → v.getLsbD 31 = false → t.obs.due = none ∧
      (t.obs.tail = s.obs.tail + 1 ∧ t.obs.lostSince = s.obs.lostSince ∨ t.obs.tail = s.obs.tail ∧ t.obs.lostSince = s.obs.lostSince + 1))) ∧
  (∀ (s : State) (v : BitVec 32), ∃ t, exec (.traceHeadUpdate v) s = .next t ∧ t = { s with obs := t.obs, host := t.host } ∧
    t.obs.head = v ∧ (s.obs.due = none → t.obs = { s.obs with head := v }) ∧
    (∀ sp : BitVec 20, t.hostMem (.pasid sp) = s.hostMem (.pasid sp))))

/-! ### Sensors, the governor and shedding (10, 14, 16) -/

/-- A sample stands in its sensor's register as the latest, and as the peak or low where it passes what stood there; no other sensor's
register changes. -/
def Obligations.SensorRegistersHoldSamples : Prop :=
  ∀ (s : State) (i : Fin 64) (v : BitVec 16), s.env.serac.st ≠ .off →
    (∀ c : Instr, (c = .sensorSample .temp i v ∨ ∃ k : Fin 20, i.val = 32 + k.val ∧ c = .stackTempSample k v) → ∃ t, exec c s = .next t ∧
      (∀ j : Fin 64, j ≠ i → t.env.power.temp[j] = s.env.power.temp[j]) ∧ t.env.power.volt = s.env.power.volt ∧ t.env.power.curr = s.env.power.curr ∧
      fld t.env.power.temp[i] 15 0 = v.toNat ∧
      fld t.env.power.temp[i] 31 16 = if (BitVec.ofNat 16 (fld s.env.power.temp[i] 31 16)).toInt < v.toInt then v.toNat else fld s.env.power.temp[i] 31 16) ∧
    (∀ h : i.val < 24, ∃ t, exec (.sensorSample .volt i v) s = .next t ∧ t.env.power.temp = s.env.power.temp ∧ t.env.power.curr = s.env.power.curr ∧
      (∀ j : Fin 24, j.val ≠ i.val → t.env.power.volt[j] = s.env.power.volt[j]) ∧
      fld t.env.power.volt[i.val] 15 0 = v.toNat ∧ fld t.env.power.volt[i.val] 31 16 = min v.toNat (fld s.env.power.volt[i.val] 31 16)) ∧
    (∀ h : i.val < 8, ∃ t, exec (.sensorSample .curr i v) s = .next t ∧ t.env.power.temp = s.env.power.temp ∧ t.env.power.volt = s.env.power.volt ∧
      (∀ j : Fin 8, j.val ≠ i.val → t.env.power.curr[j] = s.env.power.curr[j]) ∧
      fld t.env.power.curr[i.val] 15 0 = v.toNat ∧ fld t.env.power.curr[i.val] 31 16 = max v.toNat (fld s.env.power.curr[i.val] 31 16))

/-- A stack's sample (R263, Table 10-4): MEM_THERM takes it, in whole degrees where it is not below 0 °C; a level is entered only by two
consecutive samples that reach its threshold, and left only by two that fall 3 °C below it; refresh code and throttle step follow the level. -/
def Obligations.StackLevelNeedsTwoSamples : Prop :=
  ∀ (s : State) (k : Fin 20) (v : BitVec 16), s.env.serac.st ≠ .off → s.memsys.stackRegs[k].level ≤ 4 → ∃ t, exec (.stackTempSample k v) s = .next t ∧
    (∀ j, j ≠ k → t.memsys.stackRegs[j] = s.memsys.stackRegs[j]) ∧ t.memsys.chans = s.memsys.chans ∧
    (s.memsys.stackRegs[k].level < t.memsys.stackRegs[k].level →
      ∃ x : Int, stackThr[t.memsys.stackRegs[k].level - 1]? = some x ∧ 16 * x ≤ v.toInt ∧ t.memsys.stackRegs[k].level ≤ s.memsys.stackRegs[k].up) ∧
    (t.memsys.stackRegs[k].level < s.memsys.stackRegs[k].level →
      ∃ x : Int, stackThr[t.memsys.stackRegs[k].level]? = some x ∧ v.toInt < 16 * (x - 3) ∧ s.memsys.stackRegs[k].down ≤ t.memsys.stackRegs[k].level) ∧
    t.memsys.stackRegs[k].up = (stackThr.filter fun x => 16 * x ≤ v.toInt).length ∧
    t.memsys.stackRegs[k].down = (stackThr.filter fun x => 16 * (x - 3) ≤ v.toInt).length ∧
    (0 ≤ v.toInt → v.toInt < 4096 → fld t.memsys.stackRegs[k].therm 23 16 = v.toNat / 16) ∧
    fld t.memsys.stackRegs[k].therm 7 6 = min t.memsys.stackRegs[k].level 2 ∧ fld t.memsys.stackRegs[k].therm 5 4 = t.memsys.stackRegs[k].level - 1

/-- One decision of the governor (R353, R393): every die is set to the lowest of the highest ask of the contexts with work on it, the bound of a CAPPED
one, the ceiling of the power cap and the thermal cap; above the cap in SRC_POWER_CAP, which takes effect then, the ceiling of every die with the highest voltage falls by 10 mV, never below
0.65 V. A voltage decided comes into force; over-current lowers every ceiling by 50 mV, from the voltage where that is lower (the model's reading,
log 41). -/
def Obligations.GovernorAndVoltages : Prop :=
  (∀ (s : State) (rates : List (BitVec 16)), s.channelsRun = true → ∃ t, exec (.governorDecision rates) s = .next t ∧
    (∀ k : Fin 4, t.env.power.dies[k].target =
      min (((s.onDie k).map fun cx => s.askOf cx).foldl max 650) (min (s.cappedOn k) (min t.env.power.dies[k].ceiling (s.thermalCap k)))) ∧
    (∀ k : Fin 4, s.env.power.samples ≠ 0 → ({ s.env.power with capNow := s.env.power.cap } : Power).above 100 = true →
      t.env.power.dies[k].ceiling =
        if s.env.power.dies[k].target = (s.env.power.dies.toList.map (·.target)).foldl max 0
        then max 650 (min s.env.power.dies[k].ceiling s.env.power.dies[k].target - 10) else s.env.power.dies[k].ceiling) ∧
    (∀ k : Fin 4, t.env.power.dies[k].set = s.env.power.dies[k].set) ∧
    t.env.power.decidedAt = nextTick 1000000 s.env.power.decidedAt s.timebase ∧ t.env.power.capNow = s.env.power.cap) ∧
  ((∀ (s : State) (k : Fin 4) (v : BitVec 12), s.env.power.dies[k].pending = some v → ∃ t, exec (.voltageChangeDone k) s = .next t ∧
    t = { s with env := t.env } ∧ t.env.power.dies = vupd s.env.power.dies k (fun d => { d with set := v, pending := none })) ∧
  (∀ (s : State) (u : Nat), s.env.power.overSince = some u → ∃ t, exec .overcurrentTrip s = .next t ∧ t.timebase = max s.timebase (u + 20000) ∧
    ∀ k : Fin 4, t.env.power.dies[k].ceiling = max 650 (min s.env.power.dies[k].ceiling s.env.power.dies[k].target - 50) ∧
      t.env.power.dies[k].set = s.env.power.dies[k].set))

/-- A shed level rises directly to the highest level asked for once a dwell has ended, and falls one level at a time, not before its leave
time has passed since the last change; each change is counted in SRC_SHED. -/
def Obligations.ShedRisesAtOnceAndFallsByOne : Prop :=
  (∀ (s : State) (lvl : Fin 6) (d : Nat), s.env.board.running = true → s.shed < lvl.val → s.env.power.shed.riseDue lvl.val s.timebase = some d →
    ∃ t, exec (.shedRise lvl) s = .next t ∧ t.timebase = max s.timebase d ∧
      t.shed = max s.shed (max (max s.env.power.shed.supply (s.env.power.shed.supplyAt t.timebase)) (max s.env.power.shed.power s.env.power.shed.thermal)) ∧
      lvl.val ≤ t.shed ∧ t.env.power.shed.changedAt = t.timebase ∧ t.shed ≤ t.env.power.shed.peak) ∧
  (∀ (s : State) (u : Nat), s.env.board.running = true → s.env.power.shed.level ≤ 5 → s.env.power.shed.leaveSince = some u →
    s.env.power.shed.supplyAt (max u s.env.power.shed.changedAt + (sagRow (Fin.ofNat 5 (s.shed - 1))).leave) < s.shed →
    ∃ t, exec .shedFall s = .next t ∧ t.shed + 1 = s.shed ∧
      s.env.power.shed.changedAt + (sagRow (Fin.ofNat 5 (s.shed - 1))).leave ≤ t.timebase ∧ t.env.power.shed.changedAt = t.timebase)

/-- Only a fall lowers the shed level, and by one; only a rise raises it; a reset, of whatever cause, returns it to 0. -/
def Obligations.ShedLevelMovesOnlyByRiseAndFall : Prop :=
  ∀ (c : Instr) (s t : State), exec c s = .next t →
    (t.shed = s.shed ∨ (∃ l, c = .shedRise l) ∧ s.shed < t.shed ∨ c = .shedFall ∧ t.shed + 1 = s.shed ∨
      t.shed = 0 ∧ (c = .moduleReset ∨ c = .powerOff ∨ c = .trialBootTimeout ∨ (∃ r, c = .startupStageEnd r) ∨ ∃ j b m k, c = .resetDeassert j b m k))

/-- The end of a contract window (R389, R390) of a context with a valid block whose pages are translated: its counts are cleared, one more
window has ended at the instant that the window length gives, the ask stays between 0.65 V and 0.85 V, and nothing but the context, host
memory, counters and the counter of free values changes. -/
def Obligations.ContractWindowEnds : Prop :=
  ∀ (s : State) (cx : Fin 4096) (c : Ctx), s.ctxs.find cx = some c → (s.steerOf cx).isContract = true → c.gov.noWrite = false →
    650 ≤ c.gov.ask → c.gov.ask ≤ 850 →
    s.windowPage cx (s.steerOf cx) = none → ∃ (t : State) (c' : Ctx), exec (.contractWindowEnd cx) s = .next t ∧
      t = { s with timebase := t.timebase, obs := t.obs, free := t.free, host := t.host, ctxs := s.ctxs.upd cx fun _ => c' } ∧
      c' = { c with gov := c'.gov } ∧ c'.gov.hist = [] ∧ c'.gov.errors = 0 ∧ c'.gov.windows = c.gov.windows + 1 ∧
      c'.gov.windowAt = c.gov.windowAt + 1000000 * Contract.windowMs (s.steerOf cx).block ∧
      650 ≤ c'.gov.ask ∧ c'.gov.ask ≤ 850 ∧
      (c.gov.admitted = false → c'.gov.ask = c.gov.ask ∧ c'.gov.weight = c.gov.weight ∧ c'.gov.batch = c.gov.batch ∧ c'.gov.wait = c.gov.wait)

/-! ### The Quill (08) -/

/-- Table 8-6, register and immediate arithmetic: rd takes the result of the operands, the task goes on at the next index, and nothing else changes
but the counters of 17. q0 reads 0, a write to it is discarded, and a write to any other register is read back and changes no other. -/
def Obligations.QuillArithmeticAndRegisters : Prop :=
  ((∀ row ∈ ([(.add, 0x01, fun x y => x + y), (.sub, 0x02, fun x y => x - y), (.and, 0x03, fun x y => x &&& y), (.or, 0x04, fun x y => x ||| y),
      (.xor, 0x05, fun x y => x ^^^ y), (.shl, 0x06, fun x y => x <<< (y.toNat % 64)), (.shr, 0x07, fun x y => x >>> (y.toNat % 64)),
      (.sra, 0x08, fun x y => x.sshiftRight (y.toNat % 64)), (.mul, 0x09, fun x y => BitVec.ofNat 64 (x.toNat * y.toNat)),
      (.minu, 0x0A, fun x y => BitVec.ofNat 64 (min x.toNat y.toNat)), (.maxu, 0x0B, fun x y => BitVec.ofNat 64 (max x.toNat y.toNat)),
      (.sltu, 0x0C, fun x y => if x < y then 1 else 0)] : List ((QCtl → Instr) × Nat × (BitVec 64 → BitVec 64 → BitVec 64))),
    ∀ (s : State) (q : QCtl) (n : QNow), s.quillAt q row.2.1 n → n.t.pc + 1 < s.progLength n → ∃ o, exec (row.1 q) s =
      .next (s.withTask q.cl n.p ((n.t.setReg (fld n.w 25 21) (row.2.2 (n.t.reg (fld n.w 20 16)) (n.t.reg (fld n.w 15 11)))).went (n.t.pc + 1)) o)) ∧
  (∀ row ∈ ([(.addi, 0x10, fun x i => x + i.signExtend 64), (.andi, 0x11, fun x i => x &&& i.zeroExtend 64), (.ori, 0x12, fun x i => x ||| i.zeroExtend 64),
      (.shli, 0x13, fun x i => x <<< (i.toNat % 64)), (.shri, 0x14, fun x i => x >>> (i.toNat % 64)),
      (.shori, 0x15, fun x i => (x <<< 16) ||| i.zeroExtend 64)] : List ((QCtl → Instr) × Nat × (BitVec 64 → BitVec 16 → BitVec 64))),
    ∀ (s : State) (q : QCtl) (n : QNow), s.quillAt q row.2.1 n → n.t.pc + 1 < s.progLength n → ∃ o, exec (row.1 q) s =
      .next (s.withTask q.cl n.p ((n.t.setReg (fld n.w 25 21) (row.2.2 (n.t.reg (fld n.w 20 16)) (BitVec.ofNat 16 (fld n.w 15 0)))).went (n.t.pc + 1)) o))) ∧
  (∀ (t : Task) (v : BitVec 64) (i j : Nat), i < 32 → j < 32 →
    t.reg 0 = 0 ∧ t.setReg 0 v = t ∧ (i ≠ 0 → (t.setReg i v).reg i = v) ∧ (i ≠ j → (t.setReg i v).reg j = t.reg j))

/-- LD, LW, SD and SW: an aligned access inside the task's window of 8 KiB reads or writes the place's own bytes of the data memory; a load
from a part of the argument block that has not landed waits. -/
def Obligations.QuillLoadsAndStores : Prop :=
  (∀ row ∈ ([(.ld, 0x18, 8), (.lw, 0x19, 4)] : List ((QCtl → Instr) × Nat × Nat)),
    ∀ (s : State) (q : QCtl) (n : QNow) (a : Nat), s.quillAt q row.2.1 n → n.t.pc + 1 < s.progLength n →
      a = (n.t.reg (fld n.w 20 16) + (BitVec.ofNat 16 (fld n.w 15 0)).signExtend 64).toNat → a + row.2.2 ≤ 8192 → a % row.2.2 = 0 →
      (n.t.unlanded a row.2.2 = false → ∃ o, exec (row.1 q) s = .next (s.withTask q.cl n.p ((n.t.setReg (fld n.w 25 21) (BitVec.ofNat 64 (s.clusters[q.cl].eng.dmem.readNat (8192 * n.p.val + a) row.2.2))).went (n.t.pc + 1)) o)) ∧
      (n.t.unlanded a row.2.2 = true → ∃ t, exec (row.1 q) s = .next t ∧ t.clusters[q.cl].eng.tasks[n.p] = some { n.t with st := .waiting .args } ∧
        t.clusters[q.cl].eng.dmem = s.clusters[q.cl].eng.dmem)) ∧
  (∀ row ∈ ([(.sd, 0x1A, 8), (.sw, 0x1B, 4)] : List ((QCtl → Instr) × Nat × Nat)),
    ∀ (s : State) (q : QCtl) (n : QNow) (a : Nat), s.quillAt q row.2.1 n → n.t.pc + 1 < s.progLength n →
      a = (n.t.reg (fld n.w 20 16) + (BitVec.ofNat 16 (fld n.w 15 0)).signExtend 64).toNat → a + row.2.2 ≤ 8192 → a % row.2.2 = 0 →
      s.clusters[q.cl].eng.dmem.wf = true →
      ∃ (o : Obs) (m : Memory), exec (row.1 q) s = .next
          ((s.updEng q.cl fun e => { e with dmem := m }).withTask q.cl n.p (n.t.went (n.t.pc + 1)) o) ∧
        m.readNat (8192 * n.p.val + a) row.2.2 = (n.t.reg (fld n.w 25 21)).toNat % 2 ^ (8 * row.2.2) ∧
        (∀ x, (x < 8192 * n.p.val + a ∨ 8192 * n.p.val + a + row.2.2 ≤ x) → m.get x = s.clusters[q.cl].eng.dmem.get x) ∧ m.wf = true)

/-- Branches, JAL and JR: the target counts from the program's instruction 0, branch and JAL offsets from the instruction itself; rd of JAL takes the
next index. CSRR reads the counters of Table 8-7, and 0 for every other number. -/
def Obligations.QuillControlFlowAndCounters : Prop :=
  ((∀ row ∈ ([(.beq, 0x20, fun x y => decide (x = y)), (.bne, 0x21, fun x y => decide (x ≠ y)), (.bltu, 0x22, fun x y => decide (x.toNat < y.toNat)),
      (.bgeu, 0x23, fun x y => decide (x.toNat ≥ y.toNat)), (.blt, 0x24, fun x y => decide (x.toInt < y.toInt)),
      (.bge, 0x25, fun x y => decide (x.toInt ≥ y.toInt))] : List ((QCtl → Instr) × Nat × (BitVec 64 → BitVec 64 → Bool))),
    ∀ (s : State) (q : QCtl) (n : QNow) (pc : Nat), s.quillAt q row.2.1 n →
      (pc : Int) = (if row.2.2 (n.t.reg (fld n.w 25 21)) (n.t.reg (fld n.w 20 16)) then n.t.pc + (BitVec.ofNat 16 (fld n.w 15 0)).toInt else n.t.pc + 1) →
      pc < s.progLength n →
      ∃ o, exec (row.1 q) s = .next (s.withTask q.cl n.p (n.t.went pc) o)) ∧
  (∀ (s : State) (q : QCtl) (n : QNow) (pc : Nat), s.quillAt q 0x26 n → (pc : Int) = n.t.pc + (BitVec.ofNat 16 (fld n.w 15 0)).toInt →
    pc < s.progLength n → ∃ o, exec (.jal q) s = .next (s.withTask q.cl n.p ((n.t.setReg (fld n.w 25 21) (BitVec.ofNat 64 (n.t.pc + 1))).went pc) o)) ∧
  (∀ (s : State) (q : QCtl) (n : QNow), s.quillAt q 0x27 n → (n.t.reg (fld n.w 20 16)).toNat < s.progLength n →
    ∃ o, exec (.jr q) s = .next (s.withTask q.cl n.p (n.t.went (n.t.reg (fld n.w 20 16)).toNat) o))) ∧
  (∀ (s : State) (q : QCtl) (n : QNow), s.quillAt q 0x1C n → n.t.pc + 1 < s.progLength n → ∃ (o : Obs) (v : BitVec 64), exec (.csrr q) s =
      .next (s.withTask q.cl n.p ((n.t.setReg (fld n.w 25 21) v).went (n.t.pc + 1)) o) ∧
    (∀ i : Fin 7, fld n.w 7 0 = i.val → v.toNat = (s.queue q.cl i).placed % 2 ^ 32) ∧
    (∀ i : Fin 7, fld n.w 7 0 = 8 + i.val → v.toNat = (s.queue q.cl i).retired.toNat) ∧
    (fld n.w 7 0 = 0x10 → v.toNat = s.timebase % 2 ^ 64) ∧ (fld n.w 7 0 = 0x11 → v.toNat = q.cl.val) ∧ (fld n.w 7 0 = 0x12 → v.toNat = n.p.val) ∧
    (fld n.w 7 0 = 7 ∨ fld n.w 7 0 = 15 ∨ 0x12 < fld n.w 7 0 → v = 0))

/-- A run-time error of R211 ends the task and fails its QRUN with MALFORMED: an access outside the window or not aligned, an index outside
the program, a PUSH of queue 7. -/
def Obligations.QuillRunTimeErrors : Prop :=
  ∀ (s : State) (q : QCtl) (n : QNow) (r : Run) (c : Instr), s.clusters[q.cl].ctx = some n.t.run.ctx → s.run n.t.run = some r → r.failed = false →
    q.cl ∈ r.set → r.set.Nodup →
    (c = .ld q ∧ s.quillAt q 0x18 n ∧ windowOk n.addr 8 8 = false ∨ c = .lw q ∧ s.quillAt q 0x19 n ∧ windowOk n.addr 4 4 = false ∨
      c = .sd q ∧ s.quillAt q 0x1A n ∧ windowOk n.addr 8 8 = false ∨ c = .sw q ∧ s.quillAt q 0x1B n ∧ windowOk n.addr 4 4 = false ∨
      c = .push q ∧ s.quillAt q 0x28 n ∧ fld n.w 2 0 = 7 ∨ c = .add q ∧ s.quillAt q 0x01 n ∧ s.progLength n ≤ n.t.pc + 1 ∨
      c = .jr q ∧ s.quillAt q 0x27 n ∧ s.progLength n ≤ (n.t.reg (fld n.w 20 16)).toNat) →
    ∃ t, exec c s = .next t ∧ t.noTask q.cl n.t.run ∧ t.runFailed n.t.run .malformed

/-- A difference between the cores of a pair, or an uncorrectable word of its memories (R200, R201): no body enters a queue, of an instruction or of a
nest's or a stream's placement; every QRUN with a task on the cluster fails with FAULT_DETECTED and has no task there any more, and the pair leaves
service. -/
def Obligations.LockstepDifferenceStopsTheQuill : Prop :=
  (∀ (s : State) (q : QCtl) (n : QNow) (r : Run) (c : Instr), q.differ ≠ .none → s.quillNow q.cl = some n →
    (c, fld n.w 31 26) ∈ [(Instr.add q, 0x01), (.sub q, 0x02), (.and q, 0x03), (.or q, 0x04), (.xor q, 0x05), (.shl q, 0x06), (.shr q, 0x07), (.sra q, 0x08),
      (.mul q, 0x09), (.minu q, 0x0A), (.maxu q, 0x0B), (.sltu q, 0x0C), (.addi q, 0x10), (.andi q, 0x11), (.ori q, 0x12), (.shli q, 0x13), (.shri q, 0x14),
      (.shori q, 0x15), (.ld q, 0x18), (.lw q, 0x19), (.sd q, 0x1A), (.sw q, 0x1B), (.csrr q, 0x1C), (.beq q, 0x20), (.bne q, 0x21), (.bltu q, 0x22),
      (.bgeu q, 0x23), (.blt q, 0x24), (.bge q, 0x25), (.jal q, 0x26), (.jr q, 0x27), (.push q, 0x28), (.pushn q, 0x29), (.clw q, 0x2A), (.wait q, 0x2C),
      (.yield q, 0x2D), (.endTask q, 0x2E)] →
    s.clusters[q.cl].ctx = some n.t.run.ctx → s.run n.t.run = some r → r.failed = false → q.cl ∈ r.set → r.set.Nodup →
    (∀ (p : Fin 8) (x : Task), s.clusters[q.cl].eng.tasks[p] = some x → x.run = n.t.run) →
    ∃ t, exec c s = .next t ∧ t.noTask q.cl n.t.run ∧ t.runFailed n.t.run .faultDetected ∧
      (t.unitOut 1 q.cl.val = true ∨ t.clFenced q.cl.val = true) ∧
      ∀ (k : Fin 7) (b : Body), b ∈ (t.queue q.cl k).waiting → b ∈ (s.queue q.cl k).waiting) ∧
  (∀ (s : State) (cl : Fin 64) (i : Fin 2) (n : Nest) (k : Fin 7) (f : QFault), f ≠ .none → s.inService cl = true → s.unitOut 1 cl = false →
    s.clusters[cl].eng.nests[i] = some n → n.queue = k.val → s.clusters[cl].eng.room k = true → ∃ t, exec (.nestIssueBody ⟨cl, f⟩ i) s = .next t ∧
      (t.unitOut 1 cl.val = true ∨ t.clFenced cl.val = true) ∧
      ∀ (j : Fin 7) (b : Body), b ∈ (t.queue cl j).waiting → b ∈ (s.queue cl j).waiting) ∧
  (∀ (s : State) (cl : Fin 64) (p : Fin 8) (f : QFault) (st : Stream) (x : Task) (c : Ctx) (mask size : Nat), f ≠ .none → s.inService cl = true →
    s.unitOut 1 cl = false → (s.clusters[cl].eng.streams.find? fun y => y.1 == p.val) = some (p.val, st) → s.clusters[cl].eng.tasks[p] = some x →
    s.ctxs.find x.run.ctx = some c → mask = fld (BitVec.ofNat 128 (s.mem.readNat st.addr 16)) 6 0 → mask ≠ 0 →
    fld (BitVec.ofNat 128 (s.mem.readNat st.addr 16)) 127 7 = 0 → size = (longSlots mask).2 → c.inWindow st.addr size = true →
    s.memFenced st.addr 16 = false → s.memFenced st.addr size = false → s.memWaits (.stream cl p.val) = false →
    (∀ k : Fin 7, mask.testBit k.val = true → s.clusters[cl].eng.room k = true ∧ s.clusters[cl].eng.mayWord p.val k.val = true) →
    ∃ t, exec (.longWordPlace ⟨cl, f⟩ p) s = .next t ∧ (t.unitOut 1 cl.val = true ∨ t.clFenced cl.val = true) ∧
      ∀ (j : Fin 7) (b : Body), b ∈ (t.queue cl j).waiting → b ∈ (s.queue cl j).waiting)

/-- PUSH (R212, R216, R218): the body of the task's window enters the tail of its queue, its tag made of sub_id, cluster and push sequence; rd
takes the placed count after it; no other queue receives a body, and no other cluster changes. -/
def Obligations.PushPlacesOneBody : Prop :=
  ∀ (s : State) (q : QCtl) (n : QNow) (k : Fin 7) (a : Nat), s.quillAt q 0x28 n → fld n.w 2 0 = k.val → n.t.pc + 1 < s.progLength n →
    a = (n.t.reg (fld n.w 20 16) + BitVec.ofNat 64 (8 * fld n.w 15 3)).toNat → windowOk a (bodyBytes k) (bodyBytes k) = true →
    n.t.unlanded a (bodyBytes k) = false → s.clusters[q.cl].eng.room k = true → s.clusters[q.cl].eng.mayPlace k = true →
    ∃ (t : State) (b : Body), exec (.push q) s = .next t ∧ t = { s with obs := t.obs, clusters := vupd s.clusters q.cl fun _ => t.clusters[q.cl] } ∧
      (t.queue q.cl k).waiting = (s.queue q.cl k).waiting ++ [b] ∧ (∀ j, j ≠ k → (t.queue q.cl j).waiting = (s.queue q.cl j).waiting) ∧
      (t.queue q.cl k).placed = (s.queue q.cl k).placed + 1 ∧
      b.run = n.t.run ∧ b.no = (s.queue q.cl k).placed ∧ (∀ x, s.adm n.t.run = some x → fld b.tag 31 16 = fld x.body 319 304) ∧
      fld b.tag 15 10 = q.cl.val ∧ fld b.tag 9 0 = n.t.seq % 1024 ∧
      fld b.bits (8 * bodyBytes k - 33) 0 = s.taskNat n a (bodyBytes k) % 2 ^ (8 * bodyBytes k - 32) ∧
      fld b.bits (8 * bodyBytes k - 1) (8 * bodyBytes k - 32) = b.tag.toNat ∧
      t.clusters[q.cl].eng.tasks[n.p] = some ((({ n.t with seq := n.t.seq + 1 } : Task).setReg (fld n.w 25 21)
        (BitVec.ofNat 64 (((s.queue q.cl k).placed + 1) % 2 ^ 32))).went (n.t.pc + 1))

/-- PUSHN (R219, R222): a record in order is copied by a free issuer, by the model's choice the lowest one (log 14), and rd takes the placed count of its
queue after its last body; CLW (R224) of no long word writes 0 at once, of some starts a stream for which the task waits, with the queues that its words
still name, which is the model's reading of R216 (log 70). An issuer places its next body with the tag of its PUSHN (R218); a long word places one body
for each set bit of its mask in the same instant (R223). -/
def Obligations.NestsAndStreamsStartAndPlace : Prop :=
  ((∀ (s : State) (q : QCtl) (n : QNow) (h : NestHead) (i : Fin 2), s.quillAt q 0x29 n → n.t.pc + 1 < s.progLength n → windowOk n.addr 32 8 = true →
    h = NestHead.of (BitVec.ofNat 256 (s.taskNat n n.addr 32)) → h.ok = true → windowOk n.addr (32 + 8 * (h.npatch + h.nedge)) 8 = true →
    n.t.landed = true →
    (words8 s.clusters[q.cl].eng.dmem (8192 * n.p.val + n.addr + 32) h.npatch).all (patchOk false h.levels h.nbody (bodyBytes h.queue)) = true →
    (words8 s.clusters[q.cl].eng.dmem (8192 * n.p.val + n.addr + 32 + 8 * h.npatch) h.nedge).all (patchOk true h.levels h.nbody (bodyBytes h.queue)) = true →
    s.clusters[q.cl].eng.nests[i] = none → (∀ j : Fin 2, j < i → s.clusters[q.cl].eng.nests[j].isSome) → s.clusters[q.cl].eng.mayPlace h.queue = true →
    ∃ (t : State) (x : Nest), exec (.pushn q) s = .next t ∧ t.clusters[q.cl].eng.nests[i] = some x ∧ x.queue = h.queue ∧
      x.counts = h.counts.take h.levels ∧ x.nbody = h.nbody ∧ x.iter = 0 ∧ x.body = 0 ∧ x.run = n.t.run ∧ x.templates.length = h.nbody + 1 ∧
      (∀ k, (t.queue q.cl k).items = (s.queue q.cl k).items) ∧
      t.clusters[q.cl].eng.tasks[n.p] = some ((({ n.t with seq := n.t.seq + 1 } : Task).setReg (fld n.w 25 21)
        (BitVec.ofNat 64 ((((vget? s.clusters[q.cl].eng.queues h.queue).map (·.placed)).getD 0 + nestTotal x.counts x.nbody) % 2 ^ 32))).went (n.t.pc + 1))) ∧
  (∀ (s : State) (q : QCtl) (n : QNow) (m : Nat), s.quillAt q 0x2A n → n.t.pc + 1 < s.progLength n →
    m = streamQueues s.mem (n.t.reg (fld n.w 15 11)).toNat (n.t.reg (fld n.w 20 16)).toNat 0 →
    (n.t.streamDone = true ∨ n.t.reg (fld n.w 15 11) = 0 → ∃ o, exec (.clw q) s = .next (s.withTask q.cl n.p
      ((({ n.t with streamDone := false } : Task).setReg (fld n.w 25 21) 0).went (n.t.pc + 1)) o)) ∧
    (n.t.streamDone = false → n.t.reg (fld n.w 15 11) ≠ 0 → (n.t.reg (fld n.w 20 16)).toNat % 64 = 0 →
      (∃ c, s.ctxs.find n.t.run.ctx = some c ∧ c.inWindow (n.t.reg (fld n.w 20 16)).toNat 16 = true) →
      s.clusters[q.cl].eng.mayStream m = true →
      ∃ t, exec (.clw q) s = .next t ∧ t.clusters[q.cl].eng.tasks[n.p] = some { n.t with st := .waiting .stream } ∧
        t.clusters[q.cl].eng.streams = s.clusters[q.cl].eng.streams ++
          [(n.p.val, { addr := (n.t.reg (fld n.w 20 16)).toNat, left := (n.t.reg (fld n.w 15 11)).toNat, queues := m, run := n.t.run })]))) ∧
  ((∀ (s : State) (cl : Fin 64) (i : Fin 2) (n : Nest) (k : Fin 7), s.inService cl = true → s.unitOut 1 cl = false → s.clusters[cl].eng.nests[i] = some n →
    n.queue = k.val → s.clusters[cl].eng.room k = true → ∃ (t : State) (b : Body), exec (.nestIssueBody ⟨cl, .none⟩ i) s = .next t ∧
      (t.queue cl k).waiting = (s.queue cl k).waiting ++ [b] ∧ (∀ j, j ≠ k → (t.queue cl j).waiting = (s.queue cl j).waiting) ∧
      b.bits = fillTag k n.bits n.tag ∧ b.tag = n.tag ∧ b.iter = n.iter ∧ b.ix = n.body ∧ b.run = n.run ∧
      t.clusters[cl].eng.nests[i] = n.after) ∧
  (∀ (s : State) (cl : Fin 64) (p : Fin 8) (st : Stream) (x : Task) (c : Ctx) (mask size : Nat), s.inService cl = true → s.unitOut 1 cl = false →
    s.clusters[cl].eng.streams = [(p.val, st)] → s.clusters[cl].eng.tasks[p] = some x → s.ctxs.find x.run.ctx = some c →
    mask = fld (BitVec.ofNat 128 (s.mem.readNat st.addr 16)) 6 0 → mask ≠ 0 → fld (BitVec.ofNat 128 (s.mem.readNat st.addr 16)) 127 7 = 0 →
    size = (longSlots mask).2 → c.inWindow st.addr size = true → s.hub.fenceCh = 0 → s.memWaits (.stream cl p.val) = false →
    (∀ k : Fin 7, mask.testBit k.val = true → s.clusters[cl].eng.room k = true ∧ s.clusters[cl].eng.mayWord p.val k.val = true) →
    ∃ t, exec (.longWordPlace ⟨cl, .none⟩ p) s = .next t ∧
      (∀ k : Fin 7, mask.testBit k.val = true → ∃ b, (t.queue cl k).waiting = (s.queue cl k).waiting ++ [b] ∧ b.run = x.run) ∧
      (∀ k : Fin 7, mask.testBit k.val = false → (t.queue cl k).waiting = (s.queue cl k).waiting) ∧
      (st.left ≤ 1 → t.clusters[cl].eng.streams = []) ∧
      (1 < st.left → t.clusters[cl].eng.streams = [(p.val, { st with
        addr := alignUp (st.addr + size) 16, left := st.left - 1, queues := streamQueues s.mem (st.left - 1) (alignUp (st.addr + size) 16) 0 })])))

/-- WAIT, YIELD, END and the time slice (R207, R208, R213): WAIT goes on once the retired count has reached ra, and waits until then; YIELD
and a spent slice make the task READY; END frees its place. -/
def Obligations.TasksWaitYieldAndEnd : Prop :=
  (∀ (s : State) (q : QCtl) (n : QNow) (k : Fin 7), s.quillAt q 0x2C n → fld n.w 2 0 = k.val → n.t.pc + 1 < s.progLength n →
    (0 ≤ ((s.queue q.cl k).retired - BitVec.ofNat 32 (n.t.reg (fld n.w 20 16)).toNat).toInt → ∃ o, exec (.wait q) s =
      .next (s.withTask q.cl n.p (n.t.went (n.t.pc + 1)) o)) ∧
    (((s.queue q.cl k).retired - BitVec.ofNat 32 (n.t.reg (fld n.w 20 16)).toNat).toInt < 0 → ∃ t, exec (.wait q) s = .next t ∧
      t.clusters[q.cl].eng.tasks[n.p] = some { n.t with st := .waiting (.retired k (BitVec.ofNat 32 (n.t.reg (fld n.w 20 16)).toNat)) } ∧
      t.clusters[q.cl].eng.cur ≠ some n.p)) ∧
  (∀ (s : State) (q : QCtl) (n : QNow), s.quillAt q 0x2D n → n.t.pc + 1 < s.progLength n → (∀ r, s.run n.t.run = some r → r.failed = false) →
    ∃ (t : State) (x : Task), exec (.yield q) s = .next t ∧ t.clusters[q.cl].eng.tasks[n.p] = some x ∧ x.pc = n.t.pc + 1 ∧ x.regs = n.t.regs ∧
      (x.st = .ready ∨ x.st = .running ∧ t.clusters[q.cl].eng.cur = some n.p) ∧
      ((∃ p y, p ≠ n.p ∧ s.clusters[q.cl].eng.tasks[p] = some y ∧ y.st = .ready) → t.clusters[q.cl].eng.cur ≠ none)) ∧
  (∀ (s : State) (q : QCtl) (n : QNow), s.quillAt q 0x2E n → ∃ t, exec (.endTask q) s = .next t ∧ t.clusters[q.cl].eng.tasks[n.p] = none ∧
    (∀ (p : Fin 8), p ≠ n.p → (t.clusters[q.cl].eng.tasks[p]).isSome = (s.clusters[q.cl].eng.tasks[p]).isSome) ∧
    t.clusters[q.cl].eng.cur ≠ some n.p) ∧
  (∀ (s : State) (cl : Fin 64) (p : Fin 8) (x : Task), s.inService cl = true → s.unitOut 1 cl = false → s.clusters[cl].eng.cur = some p →
    s.clusters[cl].eng.tasks[p] = some x → x.st = .running → s.clusters[cl].eng.sliceDue x = true → s.clusters[cl].eng.last = p →
    ∃ (t : State) (y : Task), exec (.taskTimeslice cl) s = .next t ∧ t.clusters[cl].eng.tasks[p] = some y ∧ y.st = .ready ∧ y.pc = x.pc ∧ y.regs = x.regs ∧
      t.clusters[cl].eng.cur.isSome ∧ t.clusters[cl].eng.cur ≠ some p)

/-- A nest places exactly the bodies of R221: count + 1 of each level times nbody + 1, one body a step, and then no more. -/
def Obligations.NestPlacesExactlyItsBodies : Prop :=
  ∀ (n : Nest) (k : Nat), n.iter = 0 → n.body = 0 →
    ((Nest.later k n).isSome = true ↔ k < nestTotal n.counts n.nbody) ∧
    (∀ m, Nest.later k n = some m → m.iter = k / (n.nbody + 1) ∧ m.body = k % (n.nbody + 1) ∧ m.templates = n.templates ∧ m.tag = n.tag)

/-! ### Keys and sweeps (03) -/

/-- A descriptor completes with exactly one record (R10, R281): posted at the next place of its completion ring, or held for credit or a
translation, or dropped once the ring has failed (R289); no other context's counts of records change. -/
def Obligations.CompletionMakesOneRecord : Prop :=
  ∀ (s : State) (d : DRef) (a : Adm) (c : Ctx) (st : Status) (res tag : Nat) (ev : Events), s.adm d = some a → s.env.serac.st ≠ .stopped →
    s.ctxs.find d.ctx = some c →
    (s.complete1 d st res tag ev).adm d = none ∧
    (∀ e, e ≠ d → ((s.complete1 d st res tag ev).adm e).isSome = (s.adm e).isSome) ∧
    (∀ y : Nat, y ≠ d.ctx.val → y ≠ 0 → (s.complete1 d st res tag ev).ctxs.find y = s.ctxs.find y) ∧
    ∃ c', (s.complete1 d st res tag ev).ctxs.find d.ctx = some c' ∧
      (c'.cqPosted = c.cqPosted + 1 ∧ c'.held = c.held ∧ (c.cqPosted - c.cqHead).toNat < c.cqSize ∧ c.held = [] ∨
        c'.cqPosted = c.cqPosted ∧ c'.held.length = c.held.length + 1 ∨
        c'.cqPosted = c.cqPosted ∧ c'.held = c.held ∧ c.held = [] ∧ c.failed.contains 2 = true)

/-- An allocating KEY_LOAD (R52, R60): the lowest free pair, or entry of a LUTSET (the model's choice, log 14), takes the next generation and its
owner and kind in state LOADING, and with the header's checks passed the verification waits for the public-key engine. -/
def Obligations.KeyLoadAllocates : Prop :=
  ∀ (s : State) (d : DRef) (a : Adm) (c : Ctx) (i base x y : Nat) (h : BitVec 4096), s.adm d = some a → a.opcode = 0x70 → a.prog = .fresh → s.shed < 5 →
    a.keyBody.allocates = true → s.loadCauses d.ctx a = [] → s.findEntry (a.keyBody.kind != kindLUT) = some i → s.ctxs.find d.ctx = some c →
    s.xlOk (s.spaceOf d.ctx) a.keyBody.addr 512 false = true → h = BitVec.ofNat 4096 (s.hostNat (s.spaceOf d.ctx) a.keyBody.addr 512) →
    headerCauses h a.keyBody.kind none = [] → c.identity (fld h 255 128) = some (x, y) →
    s.allocRows (divUp (max 1 (divUp (fld h 127 64) 4096)) 20) = some base → c.keyUse + max 1 (divUp (fld h 127 64) 4096) ≤ fld a.desc 223 192 →
    s.pkeFenced = false → a.keyBody.pin = false → max 1 (divUp (fld h 127 64) 4096) < 2 ^ 20 → s.keys.nextStack < 20 → base < 2 ^ 24 →
    ∃ (t : State) (k : KeyLoad), exec (.keyLoad d) s = .next t ∧
      Krt.state (t.entry i) = stLOADING ∧ Krt.owner (t.entry i) = d.ctx.val ∧ Krt.kind (t.entry i) = a.keyBody.kind ∧
      Krt.gen (t.entry i) = nextGen (if a.keyBody.kind = kindLUT then Krt.gen (s.entry i) else max (Krt.gen (s.entry i)) (Krt.gen (s.entry (i + 1)))) ∧
      Krt.length (t.entry i) = max 1 (divUp (fld h 127 64) 4096) ∧ Krt.base (t.entry i) = base ∧ Krt.first (t.entry i) = s.keys.nextStack ∧
      (a.keyBody.kind ≠ kindLUT → Krt.gen (t.entry (i + 1)) = Krt.gen (t.entry i) ∧ Krt.state (t.entry (i + 1)) = stFREE) ∧
      (∀ j, j ≠ i → (a.keyBody.kind = kindLUT ∨ j ≠ i + 1) → t.entry j = s.entry j) ∧
      t.adm d = some { a with prog := .keyLoad k } ∧ k.started = true ∧ k.header = h ∧ t.sec.waiting = s.sec.waiting ++ [.keyVerify d] ∧
      t.mem = s.mem ∧ t.clusters = s.clusters ∧ t.env = s.env

/-- A KEY_LOAD whose signature has verified and whose copy ends with the header's digest (R60 steps 5 to 7, R64): the stripes are written unit by
unit, the entry is RESIDENT with the fingerprint of R56 in both copies, its directory slot waits to be written to module memory (R65), and the load
completes. -/
def Obligations.KeyLoadEndsResident : Prop :=
  ∀ (s : State) (d : DRef) (a : Adm) (k : KeyLoad) (data : List Byte), s.adm d = some { a with prog := .keyLoad k } → k.started = true →
    k.copyDone = false → k.sigDone = true → k.causes = [] → s.shed < 5 → s.hub.fenceCh = 0 → s.env.serac.st ≠ .stopped → s.noFrees →
    s.memWaits (.keyLoad d) = false → s.rebuilding k.idx = false →
    a.keyBody.kind ≠ kindLUT → a.keyBody.pin = false → Krt.state (s.entry k.idx) = stLOADING → (Family.ofId (fld k.header 55 48)).isSome →
    s.xlOk (s.spaceOf d.ctx) (a.keyBody.addr + 512) (fld k.header 127 64) false = true →
    data = s.hostRead (s.spaceOf d.ctx) (a.keyBody.addr + 512) (fld k.header 127 64) → (Crypto.digest data).toNat = fld k.header 831 320 →
    ∃ t, exec (.keyLoadCopyDone d none) s = .next t ∧ t.adm d = none ∧
      Krt.state (t.entry k.idx) = stRESIDENT ∧ Krt.fp (t.entry k.idx) = fld k.header 447 320 ∧ t.keys.b.get 0 k.idx = t.entry k.idx ∧
      Krt.gen (t.entry k.idx) = Krt.gen (s.entry k.idx) ∧ Krt.owner (t.entry k.idx) = Krt.owner (s.entry k.idx) ∧
      ∃ x, t.keys.dir.find k.idx = some x ∧ x.header = k.header ∧ x.owner = d.ctx.val ∧ x.evicting = false ∧
        t.memWaits (.slot k.idx) = true ∧ t.mem = keyWrite k.units k.first k.base 0 data s.mem

/-- KEY_QUERY (R58, R66): the entry, with use_count mirrored from the counter array, is written to its destination, and the query completes. The
statuses that a handle gives (R52, R54, R67, R441), by the entry that copy A holds. -/
def Obligations.KeyQueryAndNaming : Prop :=
  (∀ (s : State) (d : DRef) (a : Adm), s.fresh d 0x74 = some a → s.rebuilding (handleIdx a.keyBody.handle) = false → a.keyBody.reserved = false →
    a.keyBody.select = 0 → a.keyBody.kind = 0 → a.keyBody.pin = false → a.keyBody.addr % 64 = 0 → a.cls.keyOps = true → s.deadPart d.ctx = false →
    s.keyCauses d.ctx a.keyBody.handle (handleIdx a.keyBody.handle) [kindBSK, kindGBSK, kindKSK, kindLUT] = [] →
    s.xlOk (s.spaceOf d.ctx) a.keyBody.addr 32 true = true → s.env.serac.st ≠ .stopped → ∃ (t : State) (e : BitVec 256),
    exec (.keyQuery d) s = .next t ∧ t.adm d = none ∧
      t = (s.hostPut (s.spaceOf d.ctx) a.keyBody.addr 32 e.toNat).work (fun s => s.complete d .ok) ∧
      fld e 31 16 = s.useOf (handleIdx a.keyBody.handle) % 2 ^ 16 ∧ fld e 15 0 = fld (s.entry (handleIdx a.keyBody.handle)) 15 0 ∧
      fld e 255 32 = fld (s.entry (handleIdx a.keyBody.handle)) 255 32) ∧
  (∀ (s : State) (cx : Nat) (h : BitVec 32) (i : Nat) (kinds : List Nat), s.krtFenced = false →
    (Krt.state (s.entry i) = stFREE ∨ Krt.gen (s.entry i) ≠ handleGen h → s.keyCauses cx h i kinds = [.keyNotResident]) ∧
    (Krt.state (s.entry i) ≠ stFREE → Krt.gen (s.entry i) = handleGen h →
      (Krt.owner (s.entry i) ≠ cx → .permission ∈ s.keyCauses cx h i kinds) ∧
      (Krt.state (s.entry i) = stQUARANTINED → Krt.qCause (s.entry i) = 1 → .keyCorrupt ∈ s.keyCauses cx h i kinds) ∧
      (Krt.state (s.entry i) = stLOADING ∨ Krt.state (s.entry i) = stVERIFYING ∨ Krt.state (s.entry i) = stEVICTING ∨
        Krt.state (s.entry i) = stQUARANTINED ∧ Krt.qCause (s.entry i) ≠ 1 → .keyNotResident ∈ s.keyCauses cx h i kinds) ∧
      (Krt.state (s.entry i) = stRESIDENT → Krt.kind (s.entry i) ∉ kinds → .malformed ∈ s.keyCauses cx h i kinds) ∧
      (s.keyCauses cx h i kinds = [] ↔ Krt.state (s.entry i) = stRESIDENT ∧ Krt.owner (s.entry i) = cx ∧ Krt.kind (s.entry i) ∈ kinds)))

/-- KEY_FREE, KEY_PIN and KEY_UNPIN of a LUTSET (R58, R68, R76): a key that nothing uses is FREE at once and the operation completes; one in use
goes into EVICTING, unpinned, and the operation waits. A pin is set, and the operation waits until the key is staged, which it is at once where the key
stands in the Firns already; where no other key does and none is pinned, its staging copy begins. An unpin clears the pin. -/
def Obligations.KeyFreePinUnpin : Prop :=
  ∀ (s : State) (d : DRef) (a : Adm) (i : Nat), i = handleIdx a.keyBody.handle → s.rebuilding i = false → s.krtFenced = false → s.deadPart d.ctx = false → a.cls.keyOps = true →
    a.keyBody.reserved = false → a.keyBody.select = 0 → a.keyBody.kind = 0 → a.keyBody.pin = false → a.keyBody.addr = 0 →
    Krt.kind (s.entry i) = kindLUT → Krt.state (s.entry i) = stRESIDENT → Krt.gen (s.entry i) = handleGen a.keyBody.handle →
    Krt.owner (s.entry i) = d.ctx.val → s.env.serac.st ≠ .stopped → s.notFreed i →
    (s.fresh d 0x71 = some a → ∃ t, exec (.keyFree d) s = .next t ∧
      (s.useOf i = 0 → s.swept i = false → Krt.state (t.entry i) = stFREE ∧ Krt.gen (t.entry i) = Krt.gen (s.entry i) ∧ t.adm d = none) ∧
      (0 < s.useOf i → (∀ p ∈ s.descs, i ∉ p.2.uses) → Krt.state (t.entry i) = stEVICTING ∧ Krt.pin (t.entry i) = false ∧
        t.adm d = some { a with prog := .keyFree [i] })) ∧
    (s.fresh d 0x72 = some a → a.pinAllowed = true → s.firnOff = false →
      s.pinOk ([i].filter fun j => !Krt.pin (s.entry j)) 0 0 = true → Table.ordered s.keys.a → (∀ p ∈ s.descs, ∀ l w, p.2.prog ≠ .keyPin l w) →
      ∃ t, exec (.keyPin d) s = .next t ∧ Krt.pin (t.entry i) = true ∧ Krt.state (t.entry i) = stRESIDENT ∧
        (2 ≤ Krt.firn (s.entry i) → Krt.firn (t.entry i) = 2 ∧ t.adm d = none) ∧
        (Krt.firn (s.entry i) < 2 → Krt.firn (s.entry i) ≤ Krt.firn (t.entry i) ∧ Krt.firn (t.entry i) ≤ 1 ∧ t.adm d = some { a with
          prog := .keyPin [i] (([i].filter fun j => !Krt.pin (s.entry j)).map fun j => (j, Krt.firn (s.entry j))) }) ∧
        ((∀ p ∈ s.keys.a, Krt.firn p.2 = 0 ∧ Krt.pin p.2 = false) → Krt.firn (t.entry i) = 1)) ∧
    (s.fresh d 0x73 = some a → ∃ t, exec (.keyUnpin d) s = .next t ∧ Krt.pin (t.entry i) = false ∧ Krt.state (t.entry i) = stRESIDENT ∧ t.adm d = none)

/-- The end of a rebuild (R71), its slot read: with its checks passed both copies hold the fields of the directory slot, q_cause and sweeps_last 0, and
the Firn's copies are dropped; with a check failed both copies are QUARANTINED with q_cause 1, and the KEY_LOADs and KEY_FREEs parked on the entry
complete. An entry that was QUARANTINED before stays so with its cause, by the model's reading of R69 (log 65). -/
def Obligations.RebuildEnds : Prop :=
  ∀ (s : State) (i : Fin 131072) (r : Rebuild) (x : DirSlot), s.keys.rebuilds.find i = some r → s.keys.dir.find i = some x →
    s.memWaits (.rebuild i) = false → r.was.1 ≠ stEVICTING →
    (r.verified = true → r.failed = false → s.slotOk i = true → s.memFenced (s.slotAddr i) 1024 = false → x.evicting = false → s.notFreed i → r.was.2 < 2 → x.gen < 2 ^ 15 → x.owner < 4096 → x.length < 2 ^ 20 → x.base < 2 ^ 24 →
      x.first < 32 →
      ∃ t, exec (.krtRebuildEnd i true) s = .next t ∧ Krt.state (t.entry i) = (if r.was.1 = stQUARANTINED then stQUARANTINED else stRESIDENT) ∧ Krt.gen (t.entry i) = x.gen ∧ Krt.owner (t.entry i) = x.owner ∧
        Krt.length (t.entry i) = x.length ∧ Krt.base (t.entry i) = x.base ∧ Krt.first (t.entry i) = x.first ∧ Krt.pin (t.entry i) = x.pin ∧
        Krt.kind (t.entry i) = fld x.header 58 56 ∧ Krt.family (t.entry i) = fld x.header 55 48 ∧ Krt.fp (t.entry i) = fld x.header 447 320 ∧
        Krt.sweepsLast (t.entry i) = 0 ∧ Krt.qCause (t.entry i) = (if r.was.1 = stQUARANTINED then r.was.2 else 0) ∧ t.keys.b.get 0 i = t.entry i ∧
        (Krt.firn (t.entry i) = if x.pin && !s.firnOff then 1 else 0)) ∧
    (s.notFreed i → s.env.serac.st ≠ .stopped →
      ∃ t, exec (.krtRebuildEnd i false) s = .next t ∧ Krt.state (t.entry i) = stQUARANTINED ∧ Krt.qCause (t.entry i) = 1 ∧
      Krt.stateStatus (t.entry i) = .keyCorrupt ∧ t.keys.b.get 0 i = t.entry i ∧
      (∀ d a k, s.adm d = some a → a.prog = .keyLoad k → k.idx = i.val → t.adm d = none) ∧
      ∀ d a, s.fresh d 0x71 = some a → i.val ∈ s.handleMembers (handleIdx a.keyBody.handle) → t.adm d = none)

/-- The Firn (R75, R76): an epoch takes the sweeps of the last one into sweeps_last, saturated, drops no pinned key, and leaves no unpinned key that it
has not chosen but one that a sweep still reads; a staging that ends makes the key staged. -/
def Obligations.FirnEpochAndStaging : Prop :=
  (∀ s : State, Table.ordered s.keys.a → ∃ t, exec .firnEpoch s = .next t ∧ t.keys.epochAt = nextTick 1000000 s.keys.epochAt s.timebase ∧ t.keys.epoch = [] ∧
    (∀ i e, s.keys.a.find i = some e → Krt.sweepsLast (t.entry i) = min (s.keys.epoch.get 0 i) 0xFFFF ∧
      (Krt.pin e = true → Krt.firn e ≠ 0 → Krt.firn (t.entry i) = Krt.firn e) ∧
      (Krt.pin e = false → i ∉ t.keys.chosen → Krt.firn (t.entry i) = if 2 ≤ Krt.firn e ∧ s.swept i = true then 3 else 0) ∧
      Krt.pin (t.entry i) = Krt.pin e ∧ Krt.state (t.entry i) = Krt.state e) ∧
    t.mem = s.mem ∧ t.clusters = s.clusters ∧ t.descs = s.descs) ∧
  (∀ (s : State) (i : Fin 131072), Krt.firn (s.entry i) = 1 → s.firnOff = false → s.swept i = false → s.stageWaits i = false →
    (∀ p ∈ s.descs, ∀ l w, p.2.prog ≠ .keyPin l w) →
    ∃ t, exec (.firnStageDone i) s = .next t ∧ Krt.firn (t.entry i) = 2 ∧ (∀ j, j ≠ i.val → t.entry j = s.entry j) ∧
      t = { s with keys := { s.keys with a := t.keys.a, b := t.keys.b } })

/-- Sweeps (R79 to R81): a sweep that is due takes a free slot with a copy of its entry and every waiting subscription, each with credit for 64
fragments; a unit is issued only when every subscriber has credit and the Glacier a read left (R252), and takes one credit of each. -/
def Obligations.SweepsStartAndIssue : Prop :=
  (∀ (s : State) (i : Fin 131072) (slot : Fin 8), s.keys.sweeps[slot] = none → (∀ j : Fin 8, j < slot → s.keys.sweeps[j].isSome) →
    s.firstReady i = true → s.glacierOut = false → s.krtOut = false → s.rebuilding i = false → s.krtFenced = false → s.sweepsOff = false → Krt.state (s.entry i) = stRESIDENT →
    ∃ (t : State) (w : Sweep), exec (.sweepStart i .agree) s = .next t ∧ t.keys.sweeps[slot] = some w ∧ w.idx = i.val ∧ w.entry = s.entry i ∧ w.unit = 0 ∧
      w.subs.map (·.sub) = s.keys.subs.get [] i ∧ (∀ x ∈ w.subs, x.credit = 64 ∧ x.flight = []) ∧ t.keys.subs = s.keys.subs.erase i ∧
      (∀ j, j ≠ slot → t.keys.sweeps[j] = s.keys.sweeps[j]) ∧ t.clusters = s.clusters ∧ t.mem = s.mem) ∧
  (∀ (s : State) (slot : Fin 8) (w : Sweep), s.keys.sweeps[slot] = some w →
    (s.unitReady w → ∃ (t : State), exec (.fragmentIssue slot) s = .next t ∧ (w.staged = true → t.memsys = s.memsys) ∧
      (w.staged = false → t.memsys = (s.post (.fragment slot w.unit) .ks false (unitAddr (Krt.first w.entry) (Krt.base w.entry) w.unit) 4096).memsys) ∧ t = { s with obs := t.obs, memsys := t.memsys, keys := { s.keys with sweeps := s.keys.sweeps.set slot (some { w with
        unit := w.unit + 1, subs := w.subs.map fun x => { x with credit := x.credit - 1, flight := x.flight ++ [w.unit] } }) } }) ∧
    (¬ s.unitReady w → exec (.fragmentIssue slot) s = .next s)) ∧
  (∀ (s : State) (i : Fin 131072) (x : Sub) (r : List Sub), s.keys.subs.get [] i = x :: r → ∃ (t : State), exec (.sweepWaitExpiry i) s = .next t ∧
    t = { s with timebase := t.timebase, obs := t.obs } ∧ x.arrived + r.foldl (fun m y => min m (s.subWait y)) (s.subWait x) ≤ t.timebase)

/-! ### Flags, barriers and peers (12) -/

/-- FLAG_SET, FLAG_CLEAR, FLAG_WAIT and BAR_ARRIVE at the head of the SYNC queue (R299, R302, R309 to R311), where nobody else waits: a set or clear
changes its one flag and ends; a wait ends at once on a set flag, which it clears where it consumes, and is held on a clear one; an arrival short
of the expected count is counted and ends, or is held where it waits, and the last one begins the next phase. A timeout ends a held wait. -/
def Obligations.SyncBodiesAct : Prop :=
  (∀ (s : State) (cl : Fin 64) (op : Nat) (b : Body) (a : Adm) (c : SyncBody) (g : Nat), op = 0x11 ∨ op = 0x12 → s.syncHead cl op b a c →
    c.op = op → c.host = false → s.devFlag b.run.ctx c.index = some g → s.flagWaiters b.run.ctx false c.index = [] →
    ∃ t, exec (if op = 0x11 then .flagSet cl {} else .flagClear cl {}) s = .next t ∧ t.bodyEnded cl 6 b.no ∧
      t.sync = { s.sync with flags := putFld s.sync.flags g g (if op = 0x11 then 1 else 0) }) ∧
  (∀ (s : State) (cl : Fin 64) (b : Body) (a : Adm) (c : SyncBody) (g : Nat), s.syncHead cl 0x13 b a c → c.op = 0x13 → c.host = false →
    s.devFlag b.run.ctx c.index = some g → s.flagWaiters b.run.ctx false c.index = [] → s.clusters[cl].ctx = some b.run.ctx →
    ∃ t, exec (.flagWait cl {}) s = .next t ∧
      (s.sync.flags.getLsbD g = true → t.bodyEnded cl 6 b.no ∧
        t.sync = { s.sync with flags := if c.consume then putFld s.sync.flags g g 0 else s.sync.flags }) ∧
      (s.sync.flags.getLsbD g = false → t.sync = s.sync ∧ ∃ w, t.work? cl 6 b.no = some w ∧ w.done = false)) ∧
  (∀ (s : State) (cl : Fin 64) (b : Body) (a : Adm) (c : SyncBody) (x : Barrier), s.syncHead cl 0x14 b a c → c.op = 0x14 →
    s.bar b.run.ctx c.index = some x → x.root = 0 → x.count + 1 ≠ BitVec.ofNat 16 x.expected → x.expected < 2 ^ 16 →
    ∃ t, exec (.barArrive cl {}) s = .next t ∧ t.bar b.run.ctx c.index = some { x with count := x.count + 1 } ∧
      (c.wait = false → t.bodyEnded cl 6 b.no) ∧
      (c.wait = true → ∃ w dl, t.work? cl 6 b.no = some w ∧ w.done = false ∧ w.kind = .held dl x.phase true)) ∧
  (∀ (s : State) (cl : Fin 64) (b : Body) (a : Adm) (c : SyncBody) (x : Barrier), s.syncHead cl 0x14 b a c → c.op = 0x14 →
    s.bar b.run.ctx c.index = some x → x.root = 0 → x.count + 1 = BitVec.ofNat 16 x.expected → x.expected < 2 ^ 16 → x.relValid = false →
    s.clusters[cl].ctx = some b.run.ctx →
    ∃ t, exec (.barArrive cl {}) s = .next t ∧ t.bar b.run.ctx c.index = some { x with count := 0, phase := x.phase + 1, ports := [] } ∧
      t.bodyEnded cl 6 b.no) ∧
  (∀ (s : State) (cl : Fin 64) (i : Nat) (w : Work) (u : Nat) (ph : BitVec 16) (k : Bool), s.work? cl 6 i = some w → w.done = false →
    w.kind = .held (some u) ph k → ∃ t, exec (.syncTimeout (.body cl 6 i)) s = .next t ∧ t.timebase = max s.timebase u ∧ t.bodyEnded cl 6 i ∧
      t.sync = s.sync ∧ (∀ r, s.run w.b.run = some r → t.run w.b.run = none ∨ ∃ r', t.run w.b.run = some r' ∧ r'.failed = true))

/-- QGATE (R213, R215): a gate in order stays shut, with its mark in the target's queue, until its source has retired the count; a source that has
reached it opens the gate at once; one whose queues cannot be held is refused and opens. -/
def Obligations.GatesHoldUntilTheCount : Prop :=
  (∀ (s : State) (cl : Fin 64) (b : Body) (a : Adm), s.headOp cl 6 0x10 = some (b, a) → s.work? cl 6 b.no = none → gateOk b.bits = true →
    fld b.bits 63 16 = 0 → ∃ t, exec (.qgate cl) s = .next t ∧
      (s.clusters[cl].eng.gateOpen (fld b.bits 15 12) (BitVec.ofNat 32 (fld b.bits 95 64)) = true → t.bodyEnded cl 6 b.no) ∧
      (s.clusters[cl].eng.gateOpen (fld b.bits 15 12) (BitVec.ofNat 32 (fld b.bits 95 64)) = false →
        (∃ w, t.work? cl 6 b.no = some w ∧ w.done = false ∧ w.kind = .gate (fld b.bits 11 8) (fld b.bits 15 12) (BitVec.ofNat 32 (fld b.bits 95 64))) ∧
        ∀ k : Fin 7, .mark b.no (fld b.bits 15 12) (BitVec.ofNat 32 (fld b.bits 95 64)) ∈ (s.queue cl k).items →
          .mark b.no (fld b.bits 15 12) (BitVec.ofNat 32 (fld b.bits 95 64)) ∈ (t.queue cl k).items)) ∧
  (∀ (s : State) (cl : Fin 64) (b : Body) (a : Adm), s.headOp cl 6 0x10 = some (b, a) → s.work? cl 6 b.no = none → gateOk b.bits = false →
    ∃ t, exec (.qgate cl) s = .next t ∧ t.bodyEnded cl 6 b.no ∧
      (∀ (k : Fin 7) (src : Nat) (n : BitVec 32), .mark b.no src n ∉ (t.queue cl k).items) ∧
      (∀ r, s.run b.run = some r → t.run b.run = none ∨ ∃ r', t.run b.run = some r' ∧ r'.failed = true)) ∧
  (∀ (r c : BitVec 32), reached r c = true ↔ 0 ≤ (r - c).toInt)

/-- The ring operations of flags and barriers (R298, R303, R308 to R311): an allocation takes the lowest free block and local slot (the model's choice,
log 14) with its flags 0, or the lowest free barrier; a free gives it back; FLAG_OP sets or clears, or ends a wait on a set flag; BAR_CONFIG at a local
root sets the barrier; an arrival is counted, and its operation completes, or waits where it is told to, until the last arrival begins the next phase. A
word of the flag page sets its flags and is taken with an exchange of 0; a host flag that is not 0 ends a wait on it, which clears it where it consumes. -/
def Obligations.SyncRingOperations : Prop :=
  (∀ (s : State) (d : DRef) (c : SyncOp) (x : Ctx) (i b : Nat), s.syncFresh d 0x90 c → c.bar = false → s.env.serac.st ≠ .stopped →
    s.ctxs.find d.ctx = some x → ((upTo 64).find? fun i => (x.blocks.find i).isNone) = some i →
    ((upTo 512).find? fun i => (s.sync.blocks.find i).isNone) = some b →
    ∃ t, exec (.syncAlloc ⟨d, none⟩) s = .next t ∧ t.adm d = none ∧ t.devFlag d.ctx (64 * i) = some (64 * b) ∧ t.sync.blocks.find b = some (d.ctx, i) ∧
      (∀ k, k < 64 → t.sync.flags.getLsbD (64 * b + k) = false) ∧ t.sync.bars = s.sync.bars) ∧
  (∀ (s : State) (d : DRef) (c : SyncOp) (i : Nat), s.syncFresh d 0x90 c → c.bar = true → s.env.serac.st ≠ .stopped →
    ((upTo 256).find? fun i => (s.sync.bars.find i).isNone) = some i → ∃ t, exec (.syncAlloc ⟨d, none⟩) s = .next t ∧ t.adm d = none ∧
      t.sync = { s.sync with bars := s.sync.bars.set i { owner := d.ctx } }) ∧
  (∀ (s : State) (d : DRef) (c : SyncOp) (b : Nat), s.syncFresh d 0x91 c → c.bar = false → c.index ≤ 63 → s.env.serac.st ≠ .stopped →
    s.blockOf d.ctx c.index = some b → (∀ x, s.ctxs.find d.ctx = some x → Table.ordered x.blocks) → ∃ t, exec (.syncFree ⟨d, none⟩) s = .next t ∧ t.adm d = none ∧
      t.sync = { s.sync with blocks := s.sync.blocks.erase b } ∧ t.blockOf d.ctx c.index = none ∧
      ∀ j, j ≠ c.index → t.blockOf d.ctx j = s.blockOf d.ctx j) ∧
  (∀ (s : State) (d : DRef) (c : SyncOp) (x : Barrier), s.syncFresh d 0x91 c → c.bar = true → c.index ≤ 255 → s.env.serac.st ≠ .stopped →
    s.bar d.ctx c.index = some x → ∃ t, exec (.syncFree ⟨d, none⟩) s = .next t ∧ t.adm d = none ∧
      t.sync = { s.sync with bars := s.sync.bars.erase c.index }) ∧
  (∀ (s : State) (d : DRef) (c : SyncOp) (g : Nat), s.syncFresh d 0x92 c → c.host = false → s.devFlag d.ctx c.index = some g →
    s.flagWaiters d.ctx false c.index = [] → s.env.serac.st ≠ .stopped → ∃ t, exec (.flagOp ⟨d, none⟩) s = .next t ∧
      (c.op < 2 → t.adm d = none ∧ t.sync = { s.sync with flags := putFld s.sync.flags g g (1 - c.op) }) ∧
      (2 ≤ c.op → s.sync.flags.getLsbD g = true → t.adm d = none ∧ t.sync = { s.sync with flags := if c.op = 3 then putFld s.sync.flags g g 0 else s.sync.flags }) ∧
      (2 ≤ c.op → s.sync.flags.getLsbD g = false → (t.adm d).isSome ∧ t.sync = s.sync)) ∧
  (∀ (s : State) (d : DRef) (c : SyncOp) (x : Barrier), s.syncFresh d 0x93 c → c.index ≤ 255 → c.root = 0 → c.expected ≠ 0 → c.relValid = false →
    s.env.serac.st ≠ .stopped → s.bar d.ctx c.index = some x → ∃ t, exec (.barConfig ⟨d, none⟩) s = .next t ∧ t.adm d = none ∧
      ∃ y, t.bar d.ctx c.index = some y ∧ y.expected = c.expected ∧ y.root = 0 ∧ y.configured = true ∧ y.count = 0 ∧ y.phase = x.phase) ∧
  (∀ (s : State) (d : DRef) (c : SyncOp) (x : Barrier), s.syncFresh d 0x94 c → c.index ≤ 255 → c.op = 0 → s.env.serac.st ≠ .stopped →
    s.bar d.ctx c.index = some x → x.configured = true → x.root = 0 → x.count + 1 ≠ BitVec.ofNat 16 x.expected → x.expected < 2 ^ 16 →
    ∃ t, exec (.barArriveRing ⟨d, none⟩) s = .next t ∧ t.adm d = none ∧ t.bar d.ctx c.index = some { x with count := x.count + 1 }) ∧
  (∀ (s : State) (d : DRef) (c : SyncOp) (x : Barrier) (a : Adm), s.syncFresh d 0x94 c → s.adm d = some a → c.index ≤ 255 → c.op = 2 → s.env.serac.st ≠ .stopped →
    s.bar d.ctx c.index = some x → x.configured = true → x.root = 0 → x.count + 1 ≠ BitVec.ofNat 16 x.expected → x.expected < 2 ^ 16 →
    ∃ t, exec (.barArriveRing ⟨d, none⟩) s = .next t ∧ t.adm d = some { a with prog := .barWait c.index x.phase (s.opDeadline c) } ∧
      t.bar d.ctx c.index = some { x with count := x.count + 1 }) ∧
  (∀ (s : State) (d : DRef) (c : SyncOp) (x : Barrier), s.syncFresh d 0x94 c → c.index ≤ 255 → c.op % 2 = 0 → s.env.serac.st ≠ .stopped →
    s.bar d.ctx c.index = some x → x.configured = true → x.root = 0 → x.count + 1 = BitVec.ofNat 16 x.expected → x.expected < 2 ^ 16 → x.relValid = false →
    ∃ t, exec (.barArriveRing ⟨d, none⟩) s = .next t ∧ t.adm d = none ∧
      t.bar d.ctx c.index = some { x with count := 0, phase := x.phase + 1, ports := [] }) ∧
  (∀ (s : State) (cx : Fin 4096) (w k : Fin 64) (set clr : BitVec 64) (c : Ctx) (g : Nat), s.ready = true → s.ctxs.find cx = some c →
    s.xlOk (s.spaceOf cx) (c.flagPage + 0x400) 0x400 true = true → c.blocks.find w = some g → g < 512 → set ≠ 0 → clr = 0 →
    (s.hostMem (s.spaceOf cx)).wf = true → s.hostNat (s.spaceOf cx) (c.flagPage + 0x400 + 8 * w.val) 8 = 0 →
    s.hostNat (s.spaceOf cx) (c.flagPage + 0x600 + 8 * w.val) 8 = 0 →
    (∀ j : Fin 64, s.flagWaiters cx false (64 * w + j) = []) → ∃ t, exec (.flagRequestSnoop cx w set clr) s = .next t ∧
      (set.getLsbD k = true → t.sync.flags.getLsbD (64 * g + k) = true) ∧
      (set.getLsbD k = false → t.sync.flags.getLsbD (64 * g + k) = s.sync.flags.getLsbD (64 * g + k)) ∧ t.sync.bars = s.sync.bars ∧
      t.hostNat (s.spaceOf cx) (c.flagPage + 0x400 + 8 * w.val) 8 = 0) ∧
  (∀ (s : State) (cx : Fin 4096) (page : Nat) (hf : Fin 256) (v : BitVec 32), s.flagWaiters cx true hf ≠ [] →
    (∀ j : Nat, ∀ x ∈ s.flagWaiters cx true j, s.waitPage x.1 = page) → s.hostFlagReady cx page hf = true → v = 0 →
    (s.hostMem (s.spaceOf cx)).wf = true →
    ∃ t, exec (.hostFlagSnoop cx hf v) s = .next t ∧ t = s.putHostFlag cx page hf 0) ∧
  (∀ (s : State) (cx : Fin 4096) (page : Nat) (hf : Fin 256) (v : BitVec 32) (d : DRef) (k : Bool), s.flagWaiters cx true hf = [(.desc d, k)] →
    (∀ j : Nat, ∀ x ∈ s.flagWaiters cx true j, s.waitPage x.1 = page) → s.hostFlagReady cx page hf = true → v ≠ 0 →
    (s.hostMem (s.spaceOf cx)).wf = true → s.env.serac.st ≠ .stopped → ∃ t, exec (.hostFlagSnoop cx hf v) s = .next t ∧ t.adm d = none ∧
      t = s.work fun s => ((if k then (s.putHostFlag cx page hf v.toNat).putHostFlag cx page hf 0 else s.putHostFlag cx page hf v.toNat)).complete d .ok)

/-- Peers (R312 to R315, R330): a PEER_CONFIG gives the module its ID and sends its device record, its alias record and a nonce, which it keeps, across each
port that it enables, the other port being off; with none enabled it completes at once. A partner's records wait for the public-key engine to make a report,
and are checked once its own report is here too; an enabled port answers an exchange with its own (the model's choice, log 79). A binding is asked for, made
at its match, and given up at its timeout; that it is judged again at the match (an ACTIVE context, no fence, no binding on the port) is the model's choice
(log 39). -/
def Obligations.PeersConfigureAndBind : Prop :=
  (∀ (s : State) (d : DRef) (c : SyncOp), s.syncFresh d 0x98 c → c.moduleId ≠ 0 → s.env.serac.st ≠ .stopped →
    (∀ p : Fin 2, c.portEn / 2 ^ p.val % 2 = 1 → s.portFenced p = false) → ∃ t, exec (.peerConfig d) s = .next t ∧ t.sync.moduleId = c.moduleId ∧
    (∀ p : Fin 2, c.portEn / 2 ^ p.val % 2 = 0 → t.sync.ports[p] = {}) ∧
    (∀ p : Fin 2, c.portEn / 2 ^ p.val % 2 = 1 → ∃ (n : BitVec 512) (m : List Byte), n = Config.entropy (s.free + if c.portEn = 3 then p.val else 0) ∧
      t.sync.ports[p] = { s.sync.ports[p] with attesting := true, nonce := n, records := none, report := none } ∧ .peerAttest p m ∈ t.sent ∧
      m = leBytes 512 Crypto.deviceRecord.toNat ++ leBytes 512 s.sec.aliasRecord.toNat ++ leBytes 64 n.toNat) ∧
    (c.portEn = 0 → t.adm d = none) ∧ (c.portEn ≠ 0 → (t.adm d).isSome)) ∧
  (∀ (s : State) (p : Fin 2) (r : PeerRecords), s.sync.ports[p].attesting = true → s.pkeFenced = false → exec (.peerAttestMessage ⟨p, .records r⟩) s =
    .next { s with sync := { s.sync with ports := vupd s.sync.ports p fun q => { q with records := some r } },
                   sec := { s.sec with waiting := s.sec.waiting ++ ([.peerReport p] ++ if s.sync.ports[p].report.isSome then [.peer p] else []) } }) ∧
  (∀ (s : State) (p : Fin 2) (r : BitVec 8192), s.sync.ports[p].attesting = true → s.sync.ports[p].report = none → s.pkeFenced = false →
    exec (.peerAttestMessage ⟨p, .report r⟩) s = .next { s with
      sync := { s.sync with ports := vupd s.sync.ports p fun q => { q with report := some r } },
      sec := { s.sec with waiting := s.sec.waiting ++ if s.sync.ports[p].records.isSome then [.peer p] else [] } }) ∧
  (∀ (s : State) (p : Fin 2) (r : PeerRecords), s.sync.ports[p].attesting = false → s.sync.ports[p].enabled = true → s.pkeFenced = false →
    ∃ (t : State) (m : List Byte), exec (.peerAttestMessage ⟨p, .records r⟩) s = .next t ∧ t.sent = .peerAttest p m :: s.sent ∧
      t.sync.ports[p].attesting = true ∧ t.sync.ports[p].enabled = true ∧ t.sync.ports[p].records = some r ∧ t.sec.waiting = s.sec.waiting ++ [.peerReport p]) ∧
  (∀ (s : State) (d : DRef) (c : SyncOp), s.syncFresh d 0x99 c → c.timeout ≠ 0 → s.portFenced c.port = false → (s.ctxs.find c.ctx).isSome →
    s.binding c.ctx c.port = none → ∃ t, exec (.peerBind d) s = .next t ∧ t.sent = .peerBind c.port c.ctx c.remote :: s.sent ∧ t.sync = s.sync ∧
      ∃ a, t.adm d = some a ∧ a.prog = .peerBind (s.timebase + 1000 * c.timeout)) ∧
  (∀ (s : State) (d : DRef) (a : Adm) (u : Nat) (w : BitVec 20), s.adm d = some a → a.prog = .peerBind u → s.env.serac.st ≠ .stopped →
    (∀ c, c = SyncOp.of a.body →
      ((∃ x, s.ctxs.find c.ctx = some x ∧ x.st = .active) ∧ s.portFenced c.port = false ∧ s.binding c.ctx c.port = none →
        ∃ t, exec (.peerBindMatch d w) s = .next t ∧ t.adm d = none ∧
          t.sync = { s.sync with bindings := s.sync.bindings ++ [⟨c.port, c.ctx, c.remote, w.toNat⟩] }) ∧
      (¬ ((∃ x, s.ctxs.find c.ctx = some x ∧ x.st = .active) ∧ s.portFenced c.port = false ∧ s.binding c.ctx c.port = none) →
        ∃ t, exec (.peerBindMatch d w) s = .next t ∧ t.adm d = none ∧ t.sync = s.sync)) ∧
    (∃ t, exec (.peerBindTimeout d) s = .next t ∧ t.adm d = none ∧ t.sync = s.sync ∧ t.timebase = max s.timebase u))

/-- Traffic of the peer ports: an arrival from a bound partner is counted at its root and a release begins the next phase, in which a waiter goes on
whose forwarded arrival the ended phase did not count (R312, in the model's form of the message, log 68); a partner's write into the window of the
context bound to it waits at the channels with class BULK, each of which writes its own bytes of it and no others, and its flag is set with the last of
them (R315), and one that leaves the window does nothing; a port that fails is fenced and disabled (R313); a root's answer configures the barrier or ends
the operation. -/
def Obligations.PeerTraffic : Prop :=
  (∀ (s : State) (p : Fin 2) (cx : Fin 4096) (i : Fin 256) (x : Barrier), s.bar cx i = some x → (s.binding cx p).isSome → x.configured = true → x.root = 0 →
    s.portFenced p = false → x.count + 1 ≠ BitVec.ofNat 16 x.expected → x.expected < 2 ^ 16 → ∃ (t : State) (y : Barrier),
      exec (.peerBarrierArrival p cx i) s = .next t ∧ t = { s with sync := { s.sync with bars := t.sync.bars } } ∧
      t.bar cx i = some y ∧ y.count = x.count + 1 ∧ y.phase = x.phase ∧ p ∈ y.ports) ∧
  (∀ (s : State) (p : Fin 2) (root : Fin 256) (i : Nat) (x : Barrier), s.sync.bars = [(i, x)] → x.configured = true → x.root = p.val + 1 →
    x.rootBar = root.val → x.relValid = false → ∀ n, ∃ (t : State) (y : Barrier), exec (.peerBarrierRelease p ⟨root, n⟩) s = .next t ∧
      t.sync.bars.find i = some y ∧ y.phase = x.phase + 1 ∧ y.count = 0 ∧
      ∀ (d : DRef) (a : Adm) (dl : Option Nat), s.sync.forwarded = [⟨p, root.val, i, some (.desc d)⟩] → s.adm d = some a → a.prog = .barWait i x.phase dl →
        d.ctx = x.owner → s.env.serac.st ≠ .stopped →
        (n = 0 → t.adm d = some { a with prog := .barWait i (x.phase + 1) dl }) ∧ (n ≠ 0 → t.adm d = none)) ∧
  (∀ (s : State) (p : Fin 2) (cx : Fin 4096) (off : BitVec 64) (data : List Byte) (c : Ctx) (o : Option (BitVec 12)) (a : Nat), s.ctxs.find cx = some c →
    (s.binding cx p).isSome → s.portFenced p = false → a = 2 ^ 21 * c.f 339 320 + off.toNat →
    (off.toNat + data.length ≤ 2 ^ 21 * c.f 371 352 → data ≠ [] → s.memFenced a data.length = false → ∃ t, exec (.peerWriteReceive p cx off data o) s = .next t ∧
      t = { s with memsys := t.memsys, sync := { s.sync with
        nextArrival := s.sync.nextArrival + 1, arrivals := s.sync.arrivals ++ [⟨s.sync.nextArrival, cx, a, data, o, false⟩] } } ∧ t.memWaits (.peer s.sync.nextArrival) = true ∧
      ∀ (ch : Fin 160), ∀ q ∈ t.memsys.chans[ch].reqs, q ∈ s.memsys.chans[ch].reqs ∨ q.who = .peer s.sync.nextArrival ∧ q.cls = .bulk ∧ q.write = true) ∧
    (2 ^ 21 * c.f 371 352 < off.toNat + data.length → exec (.peerWriteReceive p cx off data o) s = .next s)) ∧
  (∀ (s : State) (ch : Fin 160) (q : MemReq) (no : Nat) (x : Arrival), s.servesLast ch q → q.who = .peer no →
    s.sync.arrivals.find? (·.no == no) = some x → x.failed = false → (∀ f, x.flag = some f → s.flagWaiters x.ctx false f.toNat = []) → s.mem.wf = true →
    ∃ t, exec (.memRoundStart ⟨ch, []⟩) s = .next t ∧
    (∀ y, t.mem.get y = if (x.addr ≤ y ∧ y < x.addr + x.data.length) ∧ inChan ch y = true then x.data.getD (y - x.addr) 0 else s.mem.get y) ∧
    ((∃ c : Fin 160, c ≠ ch ∧ ∃ r ∈ s.memsys.chans[c].reqs, r.who = .peer no) → t.sync.flags = s.sync.flags) ∧
    ((∀ c : Fin 160, c ≠ ch → ∀ r ∈ s.memsys.chans[c].reqs, r.who ≠ .peer no) → ∀ (f : BitVec 12) (g : Nat), x.flag = some f →
      s.devFlag x.ctx f.toNat = some g → g < 32768 → t.sync.flags.getLsbD g = true)) ∧
  (∀ (s : State) (p : Fin 2), s.portFenced p = false → ∃ t, exec (.peerPortFail p) s = .next t ∧ t.portFenced p = true ∧
    t.sync.ports[p].enabled = false ∧ ∀ cl : Fin 64, ∀ x ∈ t.clusters[cl].eng.xfers ++ t.clusters[cl].eng.sends, x.toPort p = false) ∧
  (∀ (s : State) (p : Fin 2) (d : DRef) (a : Adm) (c : SyncOp) (x : Barrier), s.adm d = some a → a.prog = .barConfirm → c = SyncOp.of a.body →
    c.root = p.val + 1 → s.env.serac.st ≠ .stopped →
    (s.bar d.ctx c.index = some x → ∃ (t : State) (y : Barrier), exec (.peerBarrierConfirm p d true) s = .next t ∧ t.adm d = none ∧
      t.bar d.ctx c.index = some y ∧ y.root = c.root ∧ y.rootBar = c.rootBar ∧ y.configured = true ∧ y.count = 0) ∧
    (∃ t, exec (.peerBarrierConfirm p d false) s = .next t ∧ t.adm d = none ∧ t.sync = s.sync))

/-! ### Rings, translations and contexts (11) -/

/-- What the doorbell page and the link bring (R275, R276, R289): a sq_tail ahead by no more than the ring is taken and every descriptor up to it read, in
order; one that moves backwards or too far, in any state of its context, changes nothing of it; evt_head and cq_head are taken, and freed credit lets a held record out;
RECORD_LOST comes again 1 ms after the last one; a host read's bytes are what the module then reads there. -/
def Obligations.DoorbellsAndHostReads : Prop :=
  (∀ (s : State) (cx : Fin 4096) (c : Ctx) (r : Fin 4) (v : BitVec 32), s.ready = true → s.ctxs.find cx = some c → (c.ringClass r).isSome = true →
    (c.st = .active → 0 ≤ (v - c.sqTail[r]).toInt → (v - c.sqHead[r]).toNat ≤ c.sqSize r → s.xlOk (s.spaceOf cx) (c.dbPage + 0x180) 0x20 true = true →
      (∀ k, k < c.sqSize r → s.xlOk (s.spaceOf cx) (c.sqBase r + 64 * k) 64 false = true) →
      ∃ (t : State) (c' : Ctx), exec (.doorbellSnoop cx (.sqTail r) v) s = .next t ∧ t = { s with host := t.host, ctxs := s.ctxs.upd cx fun _ => c' } ∧
        c' = { c with sqTail := vupd c.sqTail r fun _ => v, sqHead := vupd c.sqHead r fun _ => v, waiting := c'.waiting } ∧
        (c'.waiting.map fun w => (w.ring, w.idx)) =
          (c.waiting.map fun w => (w.ring, w.idx)) ++ (upTo (v - c.sqHead[r]).toNat).map fun k => (r, c.sqHead[r] + BitVec.ofNat 32 k)) ∧
    ((v - c.sqTail[r]).toInt < 0 ∨ c.sqSize r < (v - c.sqHead[r]).toNat → cx ≠ 0 →
      ∃ t, exec (.doorbellSnoop cx (.sqTail r) v) s = .next t ∧ t.ctxs.find cx = some c ∧ t.descs = s.descs ∧ t.clusters = s.clusters)) ∧
  (∀ (s : State) (cx : Fin 4096) (c : Ctx) (v : BitVec 32), s.ready = true → s.ctxs.find cx = some c →
    (∃ t, exec (.doorbellSnoop cx .evtHead v) s = .next t ∧ t = { s with host := t.host, ctxs := s.ctxs.upd cx fun _ => { c with evtHead := v } }) ∧
    (c.held = [] → c.heldEvt = [] → ∃ t, exec (.cqHeadUpdate cx v) s = .next t ∧
      t = { s with obs := t.obs, host := t.host, reqs := t.reqs, sent := t.sent, ctxs := s.ctxs.upd cx fun _ => { c with cqHead := v } }) ∧
    (∀ h, c.held = [h] → c.heldEvt = [] → (c.cqPosted - v).toNat < c.cqSize →
      (∀ x ∈ s.descs, x.1.ctx = cx → (∀ l n, x.2.prog ≠ .aborting l n) ∧ ∀ l, x.2.prog ≠ .keyFree l) →
      s.xlOk (s.spaceOf cx) (c.cqBase + 32 * (c.cqPosted.toNat % c.cqSize)) 32 true = true →
      ∃ (t : State) (c' : Ctx), exec (.cqHeadUpdate cx v) s = .next t ∧ t.ctxs.find cx = some c' ∧ c'.held = [] ∧ c'.cqPosted = c.cqPosted + 1)) ∧
  (∀ (s : State) (cx : Fin 4096) (c : Ctx) (u : Nat), s.ctxs.find cx = some c → cx ≠ 0 → c.lostAt = some u → c.dropped ≠ 0 →
    ∃ t, exec (.recordLostReport cx) s = .next t ∧ t.timebase = max s.timebase (u + 1000000) ∧
      t.ctxs.find cx = some { c with lostAt := some t.timebase, dropped := 0 } ∧ t.descs = s.descs ∧ t.clusters = s.clusters) ∧
  (∀ (s : State) (sp : HostSpace) (a : BitVec 64) (data : List Byte), (s.hostMem sp).wf = true → ∃ t, exec (.linkReadCompletion sp a data) s = .next t ∧
    t = { s with host := t.host } ∧ t.hostRead sp a.toNat data.length = data ∧
    (∀ x, (x < a.toNat ∨ a.toNat + data.length ≤ x) → (t.hostMem sp).get x = (s.hostMem sp).get x))

/-- Admission (R278, R295, R360, R361): the next descriptor of a ring enters with a copy of its context's descriptor and modes once it may, and not before; one whose opcode no
chapter defines completes at once; a difference of the hub's pair stops the hub (R372). ABORT (R294) ends every command of the rings it names that
has not begun, and completes once their records are out. -/
def Obligations.DescriptorsAreAdmitted : Prop :=
  (∀ (s : State) (cx : Fin 4096) (c : Ctx) (r : Fin 4) (w : Waiting), s.ctxs.find cx = some c →
    (∀ x ∈ c.waiting, x.ring = r → fld x.bits 7 0 ≠ 0x7E) → (c.waiting.find? fun x => x.ring == r) = some w →
    (s.mayAdmit cx c w = true → ringOpcode (fld w.bits 7 0) = true → fld w.bits 63 11 = 0 →
      ∃ (t : State) (a : Adm), exec (.descriptorAdmit cx r [] false) s = .next t ∧
        t = { s with obs := t.obs, host := t.host, descs := s.descs ++ [(⟨cx, r, w.idx⟩, a)], ctxs := t.ctxs } ∧
        a.bits = w.bits ∧ a.admitted = s.timebase ∧ a.cls = (c.ringClass r).getD .admin ∧ a.desc = c.desc ∧
        a.modes = (if a.cls = .admin then { s.modesOf c with trace := 0 } else s.modesOf c) ∧ a.steer = c.steer ∧
        t.ctxs = s.ctxs.upd cx fun _ => { c with
          waiting := c.waiting.filter fun x => !(x.ring == r && x.idx == w.idx), admissions := c.admissions + 1, gov := { c.gov with admitted := true } }) ∧
    (s.mayAdmit cx c w = true → ringOpcode (fld w.bits 7 0) = false → s.adm ⟨cx, r, w.idx⟩ = none →
      ∃ t, exec (.descriptorAdmit cx r [] false) s = .next t ∧ t.adm ⟨cx, r, w.idx⟩ = none ∧ t.clusters = s.clusters ∧ (s.noFrees → t.mem = s.mem) ∧
        ∃ c', t.ctxs.find cx = some c' ∧ c'.admissions = c.admissions + 1) ∧
    (s.mayAdmit cx c w = false → exec (.descriptorAdmit cx r [] false) s = .next s) ∧
    (s.ready = true → ∃ t, exec (.descriptorAdmit cx r [] true) s = .next t ∧ t.env.serac.st = .stopped ∧ t.env.board.smbAlert = true ∧
      t.sent = .linkError :: s.sent ∧ t.descs = s.descs ∧ t.clusters = s.clusters)) ∧
  (∀ (s : State) (d : DRef) (c : Ctx) (w : Waiting) (p : CtxOp), s.ready = true → s.unitOut 14 0 = false → s.ctxs.find d.ctx = some c → c.st = .active → s.adm d = none →
    c.waiting = [w] → w.ring = d.ring → w.idx = d.idx → fld w.bits 7 0 = 0x7E → fld w.bits 63 11 = 0 → p = CtxOp.of (BitVec.ofNat 384 (fld w.bits 511 128)) →
    p.addr = 0 → p.ctx = 0 → p.reserved = false →
    (∀ x ∈ s.descs, x.1.ctx = d.ctx → p.rings / 2 ^ x.1.ring.val % 2 = 1 → x.2.prog = .fresh ∧ x.2.ctxOp = false ∧ s.pkeOver x.1 = false) →
    ∃ t, exec (.abort d) s = .next t ∧ t.clusters = s.clusters ∧ (s.noFrees → t.mem = s.mem) ∧
      (c.held = [] → (c.cqPosted - c.cqHead).toNat + s.descs.length < c.cqSize →
        (∀ k, k < c.cqSize → s.xlOk (s.spaceOf d.ctx) (c.cqBase + 32 * k) 32 true = true) → t.adm d = none) ∧
      (∀ e : DRef, e ≠ d → e.ctx = d.ctx → p.rings / 2 ^ e.ring.val % 2 = 1 → t.adm e = none) ∧
      (∀ e : DRef, e ≠ d → (e.ctx ≠ d.ctx ∨ p.rings / 2 ^ e.ring.val % 2 = 0) → (∀ x ∈ s.descs, x.1 = e → x.2.prog = .fresh) →
        (s.adm e).isSome = true → (t.adm e).isSome = true) ∧
      exec (.descriptorAdmit d.ctx d.ring [] false) s = .next t)

/-- Translations (R286 to R289): a grant ends the requests for its page; a missing one asks for the page where fault_timeout is not 0 and fails the
command, or the context, where it is 0; a page response, or the end of fault_timeout, ends the wait; an invalidation drops what it names at once and is
acknowledged once no transfer that was outstanding then uses it. -/
def Obligations.TranslationsAndPages : Prop :=
  (∀ (s : State) (p : BitVec 20) (va : BitVec 64) (g : Granule), (∃ q ∈ s.reqs, q.pasid = p ∧ q.va = va.toNat / 4096 * 4096) →
    (∀ q ∈ s.reqs, q.pasid = p → q.va = va.toNat / 4096 * 4096 → q.paged = false ∧ ∃ cx w, q.who = .work cx w) →
    ∃ t, exec (.translationComplete p va (.granted g true)) s = .next t ∧
      t = { s with xls := t.xls, reqs := s.reqs.filter fun q => !(q.pasid == p && q.va == va.toNat / 4096 * 4096) } ∧
      (∀ w : Bool, t.xls.any (·.covers p va.toNat w) = true)) ∧
  (∀ (s : State) (q : XlReq) (va : BitVec 64) (d : DRef) (a : Adm) (c : Ctx), s.reqs = [q] → q.va = va.toNat / 4096 * 4096 →
    q.who = .work d.ctx (.desc d) → s.ctxs.find d.ctx = some c → s.adm d = some a → a.prog = .fresh → a.ctxOp = false → s.env.serac.st ≠ .stopped →
    (q.paged = false → (a.view c).faultTimeout ≠ 0 → ∃ t, exec (.translationComplete q.pasid va .missing) s = .next t ∧
      { q with paged := true, deadline := some (s.timebase + 1000 * (a.view c).faultTimeout) } ∈ t.reqs ∧ .pageRequest q.pasid q.va ∈ t.sent ∧ t.adm d = s.adm d ∧
      t.parkedOf d.ctx = true ∧ ∃ c', t.ctxs.find d.ctx = some c' ∧ c'.parkedAt.isSome = true) ∧
    (q.paged = false → (a.view c).faultTimeout = 0 → ∃ t, exec (.translationComplete q.pasid va .missing) s = .next t ∧ t.adm d = none ∧ q ∉ t.reqs) ∧
    (∀ g, q.paged = true → ∃ t, exec (.pageResponse q.pasid va (.granted g true)) s = .next t ∧ q ∉ t.reqs ∧ t.adm d = s.adm d ∧
      ∃ c', t.ctxs.find d.ctx = some c' ∧ c'.parkedAt = none) ∧
    (q.paged = true → ∃ t, exec (.pageResponse q.pasid va .missing) s = .next t ∧ t.adm d = none) ∧
    (∀ u, q.paged = true → q.deadline = some u → ∃ t, exec (.pageFaultTimeout q.who) s = .next t ∧ t.timebase = max s.timebase u ∧ t.adm d = none)) ∧
  (∀ (s : State) (q : XlReq) (va : BitVec 64) (cx : Fin 4096) (k : Nat) (c : Ctx), s.reqs = [q] → q.va = va.toNat / 4096 * 4096 → q.who = .area cx k →
    1 ≤ k → k ≤ 4 → q.paged = false → s.ctxs.find cx = some c → c.st = .active → c.faultTimeout = 0 → ∃ (t : State) (c' : Ctx),
      exec (.translationComplete q.pasid va .missing) s = .next t ∧ t.ctxs.find cx = some c' ∧ c'.st = .faulted ∧ c'.faultCause.toNat = k) ∧
  (∀ (s : State) (p : BitVec 20) (va len : BitVec 64), s.invals = [] → ∃ t, exec (.translationInvalidate p va len) s = .next t ∧
    t = { s with xls := t.xls, invals := t.invals, sent := t.sent } ∧
    (∀ x ∈ t.xls, x ∈ s.xls ∧ ¬ (x.pasid = p ∧ x.va < va.toNat + len.toNat ∧ va.toNat < x.va + x.size)) ∧
    (s.usersOf p va.toNat len.toNat = [] → t.invals = [] ∧ t.sent = .invalidateAck p va.toNat :: s.sent) ∧
    (s.usersOf p va.toNat len.toNat ≠ [] → t.sent = s.sent ∧
      t.invals = [{ pasid := p, va := va.toNat, len := len.toNat, users := s.usersOf p va.toNat len.toNat }]))

/-- Context operations (R271, R273, R295, R296): a descriptor that passes every check makes an ACTIVE context, or changes one; one that fails a check, or cannot be read,
changes none; teardown ends what its context has begun, forgets its sessions, flags and barriers, and frees it when its last command has ended. A write of 1 to HUB_CTX0_CTRL is the creation of context 0 with a descriptor that can be
read: that the row of the write says so is the model's choice (log 59). -/
def Obligations.ContextsLiveAndDie : Prop :=
  (∀ (s : State) (d : DRef) (a : Adm) (c : CtxOp) (b : BitVec 2048), s.adm d = some a → a.prog = .fresh → a.cls = .admin → c = CtxOp.of a.body →
    c.reserved = false → c.rings = 0 → s.env.serac.st ≠ .stopped → b = BitVec.ofNat 2048 (s.hostNat .phys c.addr 256) →
    (a.opcode = 0xA0 → c.addr % 256 = 0 → c.ctx ≠ 0 → s.ctxs.find c.ctx = none →
      (s.ctxCauses b c.ctx = [] → fld b 1279 1216 = 0 →
        (∀ x ∈ ringAreas b, s.xlOk (.pasid (BitVec.ofNat 20 (fld b 83 64))) x.1 x.2.1 x.2.2 = true) →
        ∃ (t : State) (x : Ctx), exec (.ctxCreate d true) s = .next t ∧ t.adm d = none ∧ t.ctxs.find c.ctx = some x ∧ x.st = .active ∧ x.desc = b ∧
          t.clusters = s.clusters ∧ (s.noFrees → t.mem = s.mem)) ∧
      (s.ctxCauses b c.ctx ≠ [] → ∃ t, exec (.ctxCreate d true) s = .next t ∧ t.adm d = none ∧ t.ctxs.find c.ctx = none) ∧
      ∃ t, exec (.ctxCreate d false) s = .next t ∧ t.adm d = none ∧ t.ctxs.find c.ctx = none) ∧
    (∀ x, a.opcode = 0xA1 → c.addr % 256 = 0 → s.ctxs.find c.ctx = some x →
      (x.st = .active → s.xlOk (s.spaceOf c.ctx) (x.dbPage + 0x180) 0x20 true = true → fixedPart b = fixedPart x.desc → x.keyUse ≤ fld b 223 192 → s.ctxCauses b c.ctx = [] → fld b 1279 1216 = 0 →
        ∃ (t : State) (y : Ctx), exec (.ctxUpdate d true) s = .next t ∧ t.adm d = none ∧ t.ctxs.find c.ctx = some y ∧ y.st = .active ∧ y.desc = b ∧
          t.clusters = s.clusters ∧ (s.noFrees → t.mem = s.mem)) ∧
      (fixedPart b ≠ fixedPart x.desc → ∃ t, exec (.ctxUpdate d true) s = .next t ∧ t.adm d = none ∧ (t.ctxs.find c.ctx).map (·.desc) = some x.desc) ∧
      ∃ t, exec (.ctxUpdate d false) s = .next t ∧ t.adm d = none ∧ (t.ctxs.find c.ctx).map (·.desc) = some x.desc) ∧
    (∀ x, a.opcode = 0xA2 → c.addr = 0 → c.ctx ≠ 0 → c.ctx ≠ d.ctx → s.ctxs.find c.ctx = some x → x.st ≠ .teardown →
      ∃ (t : State) (y : Ctx), exec (.ctxTeardown d) s = .next t ∧ t.ctxs.find c.ctx = some y ∧ y.st = .teardown ∧ y.waiting = [] ∧ y.tearing = [d] ∧
        y.session = none ∧ y.ids = Vector.replicate 8 none ∧ y.blocks = [] ∧ (t.adm d).isSome = true ∧
        (∀ e : DRef, e.ctx = c.ctx → (∀ z, s.adm e = some z → z.prog = .fresh) → t.adm e = none) ∧
        (∀ z ∈ t.sync.blocks, z.2.1 ≠ c.ctx) ∧ (∀ z ∈ t.sync.bars, z.2.owner ≠ c.ctx) ∧ (∀ z ∈ t.sync.bindings, z.ctx ≠ c.ctx))) ∧
  (∀ (s : State) (cx : Fin 4096) (c : Ctx), s.ctxs.find cx = some c → c.st = .teardown → (∀ x ∈ s.descs, x.1.ctx ≠ cx) → s.sec.running = none →
    s.switching.find c.part = none → Table.ordered s.ctxs → s.env.serac.st ≠ .stopped → ∃ t, exec (.teardownComplete cx) s = .next t ∧
      t.ctxs.find cx = none ∧ (∀ e ∈ c.tearing, t.adm e = none) ∧ (∀ cl ∈ s.clustersOf c.part, t.clusters[cl].ctx ≠ some cx) ∧
      (∀ cl : Fin 64, s.clusters[cl].ctx ≠ some cx → t.clusters[cl] = s.clusters[cl]) ∧ (s.noFrees → t.mem = s.mem)) ∧
  (∀ (s : State) (b : BitVec 2048), s.ready = true → s.ctxs.find 0 = none → b = BitVec.ofNat 2048 (s.hostNat .phys s.env.setup.ctx0Desc.toNat 256) →
    (s.ctxCauses b 0 = [] → ∃ (t : State) (x : Ctx), exec (.ctx0Create true) s = .next t ∧ t.ctxs.find 0 = some x ∧ x.st = .active ∧ x.desc = b ∧
      t.env = s.env ∧ t.clusters = s.clusters ∧ t.mem = s.mem) ∧
    exec (.ctx0Create false) s = .next (s.updSetup fun u => { u with ctx0Err := true }) ∧
    (s.ctxCauses b 0 ≠ [] → exec (.ctx0Create true) s = .next (s.updSetup fun u => { u with ctx0Err := true }))) ∧
  (∀ (s : State) (off : BitVec 32), regAt off.toNat = some (.ctx0Ctrl, false) → s.hub.fclUp = true →
    exec (.registerWrite off false 1) s = exec (.ctx0Create true) s)

/-! ### Programs and QRUNs (08) -/

/-- QPROG_LOAD and QRUN (R203 to R206, R444 to R448): a program of the right form enters its slots on every cluster of the partition, and one whose CRC
differs enters none; a QRUN's set is taken from the list of its admission, and the descriptors of its plan that lie in the stacks are read at the channels
first (R259); a passed insertion writes its regions and no other byte of module memory; the
tasks start on every cluster of the set at the program's entry with the registers of R206; the argument block lands at 0x0020 of each. -/
def Obligations.ProgramsLoadAndRun : Prop :=
  (∀ (s : State) (d : DRef) (a : Adm) (c : Ctx) (addr slot : Nat) (p : Prog) (words : List Byte), s.fresh d 0x78 = some a → s.ctxs.find d.ctx = some c →
    addr = fld a.body 63 0 → slot = fld a.body 67 64 → fld a.body 383 68 = 0 → addr % 64 = 0 → a.cls.runs = true → s.deadPart d.ctx = false → s.env.serac.st ≠ .stopped →
    s.xlOk (s.spaceOf d.ctx) addr 64 false = true → progHeader (s.hostNat (s.spaceOf d.ctx) addr 64) slot = some p → s.runsNow d.ctx = true →
    s.loadWaits d c.part slot (progSlots p.length) = false → s.xlOk (s.spaceOf d.ctx) (addr + 64) (4 * p.length) false = true →
    words = s.hostRead (s.spaceOf d.ctx) (addr + 64) (4 * p.length) →
    ((∀ i, i < p.length → quillOpcode ((Memory.write ([] : Memory) 0 words).readNat (4 * i) 4 / 2 ^ 26) = true) →
      Crypto.crc32 words = fld (BitVec.ofNat 512 (s.hostNat (s.spaceOf d.ctx) addr 64)) 127 96 → ∃ t, exec (.qprogLoad d) s = .next t ∧ t.adm d = none ∧
        (∀ cl ∈ s.clustersOf c.part, t.clusters[cl] = { s.clusters[cl] with eng := s.clusters[cl].eng.putProg slot p words } ∧
          t.clusters[cl].eng.progs.find slot = some p) ∧
        (∀ cl : Fin 64, cl ∉ s.clustersOf c.part → t.clusters[cl] = s.clusters[cl]) ∧ (s.noFrees → t.mem = s.mem)) ∧
    (Crypto.crc32 words ≠ fld (BitVec.ofNat 512 (s.hostNat (s.spaceOf d.ctx) addr 64)) 127 96 → ∃ t, exec (.qprogLoad d) s = .next t ∧ t.adm d = none ∧
      t.clusters = s.clusters ∧ (s.noFrees → t.mem = s.mem))) ∧
  (∀ (s : State) (d : DRef) (a : Adm) (r : Run) (c : Ctx), s.adm d = some a → a.prog = .qrun r → s.ctxs.find d.ctx = some c → r.checked = false →
    s.qrunCauses a r = [] →
    (a.qrunBody.planLen = 0 → ∃ t, exec (.qrun ⟨d, []⟩) s = .next t ∧ t = { s with descs := t.descs } ∧
      t.run d = some { r with set := (r.list.drop a.qrunBody.first).take a.qrunBody.ncl, checked := true }) ∧
    (∀ (r' : Run) (effs : List (Nat × Bool)) (off : Nat) (args : List Byte), a.qrunBody.planLen ≠ 0 → r.badRange a.qrunBody.argAddr a.qrunBody.argBytes = false →
      s.xlOk (s.spaceOf d.ctx) a.qrunBody.argAddr a.qrunBody.argBytes false = true → args = s.hostRead (s.spaceOf d.ctx) a.qrunBody.argAddr a.qrunBody.argBytes →
      off = a.qrunBody.argBytes - 8 * a.qrunBody.planLen → (Plan.T.of (args.drop off)).ok = true →
      (s.planReads c (Plan.T.of (args.drop off)) ≠ [] → r.descsAsked = false → ∃ t, exec (.qrun ⟨d, []⟩) s = .next t ∧
        t = { s with descs := t.descs, memsys := t.memsys } ∧ t.run d = some { r with descsAsked := true }) ∧
      (s.planReads c (Plan.T.of (args.drop off)) = [] ∨ r.descsAsked = true → s.memWaits (.plan d) = false → s.krtOut = false →
      s.planCheck d a c { r with set := (r.list.drop a.qrunBody.first).take a.qrunBody.ncl } (Plan.T.of (args.drop off)) = .good r' effs →
      (∀ i ∈ r'.names, s.rebuilding i = false) →
      ∃ t, exec (.qrun ⟨d, []⟩) s = .next t ∧ t = { s with descs := t.descs, keys := { s.keys with use := t.keys.use }, obs := t.obs } ∧
        t.run d = some { r' with args := planCopy args off effs, argsRead := true } ∧
        (r'.names.Nodup → ∀ i, t.useOf i = s.useOf i + if i ∈ r'.names then 1 else 0)))) ∧
  (∀ (s : State) (d : DRef) (a : Adm) (r : Run), s.adm d = some a → a.prog = .qrun r → r.checked = true → r.started = false → r.inserted = false →
    r.inserts ≠ [] → s.runsNow d.ctx = true → (∀ c ∈ r.set, s.clFenced c.val = false) → s.shed < 5 → s.sweepsOff = false → s.krtFenced = false →
    s.freeSlot.isSome = true → s.glacierOut = false → (∀ c ∈ r.set, (s.serves c 0).isSome = true) →
    (∀ i ∈ r.inserts, ∀ n, n < 2 → s.rebuilding (handleIdx i.t.kset + n) = false ∧ s.passKey r i.t.kset n = .ok) →
    (∀ i ∈ r.inserts, i.host = true → s.xlOk (s.spaceOf d.ctx) i.addr (i.t.count * i.t.stride) false = true) → s.mem.wf = true →
    ∃ t, exec (.insertionPass d []) s = .next t ∧ t.run d = some { r with inserted := true } ∧ (∃ x, t.adm d = some x ∧ x.refreshIns = true) ∧
      (∀ cl : Fin 64, t.clusters[cl].eng = s.clusters[cl].eng) ∧ t.host = s.host ∧
      (∀ x, (∀ i ∈ r.inserts, ∀ k, k < i.t.count → x < i.into + k * i.t.stride ∨ i.into + k * i.t.stride + i.t.layout.bytes i.t.f ≤ x) →
        t.mem.get x = s.mem.get x) ∧ t.mem.wf = true) ∧
  (∀ (s : State) (d : DRef) (a : Adm) (r : Run) (p : Prog), s.adm d = some a → a.prog = .qrun r → r.checked = true → r.started = false →
    r.inserts = [] ∨ r.inserted = true → s.runsNow d.ctx = true → s.startWaits d a.qrunBody.slot (s.progSpan (r.set.headD 0) a.qrunBody.slot) = false → (∀ c ∈ r.set, s.clFenced c.val = false) →
    s.clusters[r.set.headD 0].eng.progs.find a.qrunBody.slot = some p → r.set.Nodup →
    (∀ c ∈ r.set, s.clusters[c].eng.freePlace.isSome = true ∧ s.unitOut 1 c.val = false) → ∃ t, exec (.qrunTaskStart d) s = .next t ∧
      t.run d = some { r with started := true } ∧ t.mem = s.mem ∧ (∀ cl : Fin 64, cl ∉ r.set → t.clusters[cl] = s.clusters[cl]) ∧
      ∀ (k : Nat) (cl : Fin 64), r.set[k]? = some cl → ∃ (pl : Fin 8) (x : Task), s.clusters[cl].eng.freePlace = some pl ∧
        t.clusters[cl].eng.tasks[pl] = some x ∧ x.run = d ∧ x.pc = p.entry ∧ x.slot = a.qrunBody.slot ∧ x.seq = 0 ∧
        x.reg 1 = BitVec.ofNat 64 k ∧ x.reg 2 = BitVec.ofNat 64 a.qrunBody.ncl ∧ x.reg 3 = BitVec.ofNat 64 cl.val ∧ x.reg 4 = BitVec.ofNat 64 pl.val ∧
        (∀ i, i < 32 → i = 0 ∨ 5 ≤ i → x.reg i = 0) ∧ x.landed = (a.qrunBody.argBytes == 0)) ∧
  (∀ (s : State) (d : DRef) (a : Adm) (r : Run) (args : List Byte), s.adm d = some a → a.prog = .qrun r → r.started = true → r.failed = false →
    a.qrunBody.argBytes ≠ 0 → s.xlOk (s.spaceOf d.ctx) a.qrunBody.argAddr a.qrunBody.argBytes false = true →
    args = (if r.argsRead then r.args else s.hostRead (s.spaceOf d.ctx) a.qrunBody.argAddr a.qrunBody.argBytes) → args.length ≤ 4064 →
    ∃ t, exec (.argumentBlockLanded d) s = .next t ∧ t.mem = s.mem ∧ t.host = s.host ∧ t.descs = s.descs ∧
      ∀ (cl : Fin 64) (pl : Fin 8) (x : Task), cl ∈ r.set → s.clusters[cl].eng.tasks[pl] = some x → x.run = d → x.landed = false →
        s.clusters[cl].eng.dmem.wf = true → (∃ y, t.clusters[cl].eng.tasks[pl] = some y ∧ y.landed = true ∧ y.run = d ∧ y.pc = x.pc ∧ y.regs = x.regs) ∧
          t.clusters[cl].eng.dmem.read (8192 * pl.val + 0x20) args.length = args)

/-! ### Subscriptions and the Thaw (03, 04) -/

/-- GSUB and the Thaw (R78, R82, R103 to R105, R102, R356): a GSUB that passes its checks issues and counts a use of its entry; paired, it is presented once
its engine is free; a fragment with the tag of R82 lands and moves its subscriber on, one with another tag ends the command with KEY_MISMATCH; a refresh
begins with its rotations and a step carries every ciphertext one step on, the last one writing the outputs and no other byte. That an issued GSUB counts a
use of its entry (log 29), and the order in which a fragment's bytes lie in its slots (log 13), are the model's choices. -/
def Obligations.SubscriptionsAndThaw : Prop :=
  (∀ (s : State) (cl : Fin 64) (b : Body) (a : Adm) (g : GsubBody), s.headOp cl 5 0x30 = some (b, a) → g = GsubBody.of b.bits → g.formBad = false → s.krtOut = false →
    s.planKset b.run g.handle = true → s.shed < 5 → s.sweepsOff = false → s.rebuilding g.idx = false →
    (if g.select = 1 then s.bskCauses b.run.ctx g.handle else s.kskCauses b.run.ctx g.handle) = [] → Krt.classOk (s.entry g.idx) a.cls = true →
    ∃ t, exec (.gsub cl .agree) s = .next t ∧
      s.issued t cl 5 { s.workOf b a (.gsub g.engine g.handle g.select g.batch false) [] with uses := [g.idx] } ∧
      (∀ i, t.useOf i = s.useOf i + if i = g.idx then 1 else 0)) ∧
  (∀ (s : State) (cl : Fin 64) (e : Fin 3) (q : Fin 7) (w gw : Work) (g n sel batch : Nat) (h : BitVec 32), s.inService cl = true → s.subscribed cl e.val = false → s.onEngine cl e = [(q, w)] →
    w.gsub? = some g → w.midRun = false → s.work? cl 5 g = some gw → gw.kind = .gsub n h sel batch false → s.sweepsOff = false → ∃ (t : State) (x : Sub),
      exec (.gsubPresent cl e) s = .next t ∧ t = { s with keys := { s.keys with subs := t.keys.subs }, clusters := vupd s.clusters cl fun _ => t.clusters[cl] } ∧
      (t.keys.subs.get [] (handleIdx h + if sel = 2 then 1 else 0)) = (s.keys.subs.get [] (handleIdx h + if sel = 2 then 1 else 0)) ++ [x] ∧
      x.cl = cl ∧ x.engine = e.val ∧ x.gsub = g ∧ x.ctx = w.b.run.ctx ∧ x.batch = batch ∧ x.arrived = s.timebase ∧
      t.work? cl 5 g = some { gw with kind := .gsub n h sel batch true }) ∧
  (∀ (s : State) (slot : Fin 8) (cl : Fin 64) (e : Fin 3) (sw : Sweep) (x : Subscriber) (u : Nat) (rest : List Nat) (q : Fin 7) (w : Work),
    s.keys.sweeps[slot] = some sw → (sw.subs.find? fun x => x.sub.cl == cl && x.sub.engine == e.val) = some x → x.flight = u :: rest → x.first = none →
    s.pairedWork cl x.sub.gsub = some (q, w) → s.memWaits (.fragment slot u) = false →
    (∀ k, w.kind = .ksw k → s.firstOk w e (fragTag sw slot u) = true → u + 1 < Krt.length sw.entry → ∃ (t : State) (sw' : Sweep),
      exec (.fragmentArrive slot cl e none) s = .next t ∧ t.keys.sweeps[slot] = some sw' ∧
      (∀ y ∈ sw'.subs, Sweep.has cl x.sub.gsub y.sub = true → y.flight = rest ∧ y.next = u + 1 ∧ y.first.isSome = true) ∧
      t.workKind cl q w.b.no (.ksw { k with key := k.key.write (4096 * u) (s.unitBytes sw.entry u), landed := k.landed + 4096 }) ∧
      t.mem = s.mem ∧ t.descs = s.descs) ∧
    (∀ tag, s.firstOk w e tag = false → ∃ t, exec (.fragmentArrive slot cl e (some tag)) s = .next t ∧
      (∀ y ∈ (t.queue cl q).works, y.b.no = w.b.no → .keyMismatch ∈ y.causes) ∧
      (∀ (i : Fin 8) (sw' : Sweep), t.keys.sweeps[i] = some sw' → ∀ y ∈ sw'.subs, Sweep.has cl x.sub.gsub y.sub = false))) ∧
  (∀ (s : State) (cl : Fin 64) (q : Fin 2) (op : Nat) (b : Body) (a : Adm) (c : ThawCmd) (e : Nat) (f : Family) (w : Work), op = 0x40 ∨ op = 0x41 →
    s.headOp cl (if q = 0 then 1 else 2) op = some (b, a) → s.serves cl q.val = some e → c = ThawCmd.of b.bits → s.thawHeadWaits cl e b a = false →
    s.thawAfter cl e q b = false → s.rebuilding (handleIdx c.kset) = false → s.rebuilding (handleIdx c.kset + 1) = false →
    (op = 0x40 → s.rebuilding (handleIdx c.lut) = false) → s.pairing cl e b.ord = .gsub w → Family.ofId c.family = some f → s.thawCauses c b a (.gsub w) = [] →
    ∃ (t : State) (x : ThawWork) (y : Work), exec (if op = 0x40 then .thawRefresh cl q else .thawGate cl q) s = .next t ∧
      s.issued t cl (if q = 0 then 1 else 2) y ∧ y.b = b ∧ y.causes = [] ∧ y.done = false ∧ y.kind = .thaw x ∧ x.f = f ∧ x.engine = e ∧ x.step = 0 ∧
      x.rots.length = c.batch ∧ x.landed = 0 ∧ x.gsub = w.b.no ∧ x.ended = false ∧ x.dual = a.modes.dual ∧ x.sweepsLeft = (if x.dual && !x.both then 2 else 1) ∧ t.ink cl = s.ink cl ∧
      y.region = inkRows cl c.work 0 1 (c.workBytes f a.modes.dual) ∧ y.dests = inkRows cl c.out (8 * c.outStride) (c.batch * c.theta) (8 * (f.ring + 1)) ∧
      ∀ i, t.useOf i = s.useOf i) ∧
  (∀ (s : State) (cl : Fin 64) (e : Fin 2) (q : Fin 7) (w : Work) (x : ThawWork), s.thawRunning cl e = some (q, w, x) → s.inService cl = true →
    s.underTest 3 (2 * cl + e) = false → s.banksTest cl = false →
    (x.step + 1) * x.f.stepBytes ≤ x.landed → x.sweepsLeft = 1 →
    (x.step + 1 < x.f.steps → ∃ (t : State) (rots : List Refresh.Rot), exec (.thawStep cl e []) s = .next t ∧
      t.workKind cl q w.b.no (.thaw { x with step := x.step + 1, rots := rots, ended := false }) ∧ rots.length = x.rots.length ∧
      (∀ i (h : i < rots.length) (h' : i < x.rots.length), rots[i].a = x.rots[i].a) ∧ t.ink cl = s.ink cl ∧ t.mem = s.mem) ∧
    (x.step + 1 = x.f.steps → (s.ink cl).wf = true → ∃ (t : State) (rots : List Refresh.Rot), exec (.thawStep cl e []) s = .next t ∧
      t.workKind cl q w.b.no (.thaw { x with step := x.step + 1, rots := rots, ended := true }) ∧
      (∀ z, (∀ i k, i < x.rots.length → k < (ThawCmd.of w.b.bits).theta →
          z < (ThawCmd.of w.b.bits).out + 8 * (ThawCmd.of w.b.bits).outStride * (i * (ThawCmd.of w.b.bits).theta + k) ∨
          (ThawCmd.of w.b.bits).out + 8 * (ThawCmd.of w.b.bits).outStride * (i * (ThawCmd.of w.b.bits).theta + k) + 8 * (x.f.ring + 1) ≤ z) →
        (t.ink cl).get z = (s.ink cl).get z) ∧ t.mem = s.mem))

/-! ### The Nib and the Brush (05, 07) -/

/-- The Nib (R117, R121, R126 to R129, R133 to R135, R138): a load marks its slots LOADING and, once landed, VALID with its data; a store and a drain write
the Inkwell where their command says and nowhere else; an invalidation clears its slots; products enter their chain, which waits to be drained once finished;
a key switch takes block after block; a command that fails a check of its issue keeps its causes and does nothing else. The statuses and tags that Table 5-12
does not name (log 62), the place of a ciphertext's body (log 27) and the order of reads before writes (log 25) are the model's choices. -/
def Obligations.NibCommandsAct : Prop :=
  (∀ row ∈ ([(.nibLdf, 0x20), (.nibLdv, 0x21), (.nibLdb, 0x22)] : List ((Fin 64 → Instr) × Nat)),
    ∀ (s : State) (cl : Fin 64) (b : Body) (a : Adm) (c : NibCmd), s.headOp cl 0 row.2 = some (b, a) → c = NibCmd.of b.bits → s.nibCauses c a b.run = [] →
      c.shapeOk (s.nib cl) = true → ∃ t, exec (row.1 cl) s = .next t ∧ s.issued t cl 0 (s.workOf b a .load []) ∧ t.ink cl = s.ink cl ∧
        (t.nib cl).trf = (s.nib cl).trf ∧ (∀ i, c.slotA ≤ i → i < c.slotA + c.span → ((t.nib cl).tag i).state = SlotTag.loading) ∧
        (∀ i, (i < c.slotA ∨ c.slotA + c.span ≤ i) → (t.nib cl).tag i = (s.nib cl).tag i)) ∧
  (∀ (s : State) (cl : Fin 64) (w : Work) (c : NibCmd), ((s.queue cl 0).works.find? fun w => w.kind == .load) = some w → s.inService cl = true →
    s.underTest 6 cl = false → s.banksTest cl = false → c = NibCmd.of w.b.bits → c.opcode = 0x20 ∨ c.opcode = 0x21 ∨ c.opcode = 0x22 → ∃ t, exec (.nibLoadEnd cl w.b.no) s = .next t ∧
      t.workKind cl 0 w.b.no .plain ∧ (t.nib cl).trf = c.loadData (s.ink cl) (s.nib cl).trf ∧ t.ink cl = s.ink cl ∧
      (∀ i, c.slotA ≤ i → i < c.slotA + c.span → ((t.nib cl).tag i).state = SlotTag.valid) ∧
      t = { s with clusters := vupd s.clusters cl fun _ => t.clusters[cl] }) ∧
  (∀ row ∈ ([(.nibStf, 0x23), (.nibStv, 0x24)] : List ((Fin 64 → Instr) × Nat)),
    ∀ (s : State) (cl : Fin 64) (b : Body) (a : Adm) (c : NibCmd), s.headOp cl 0 row.2 = some (b, a) → c = NibCmd.of b.bits → s.nibCauses c a b.run = [] →
      s.loadsInto cl c.reads = false → c.shapeOk (s.nib cl) = true → (s.ink cl).wf = true → ∃ t, exec (row.1 cl) s = .next t ∧
        s.issued t cl 0 { s.workOf b a .plain [] with dests := c.storeDests cl } ∧ t.ink cl = c.storeData (s.ink cl) (s.nib cl).trf ∧
        s.inkKept t cl (c.storeDests cl) ∧ t.nib cl = s.nib cl) ∧
  (∀ (s : State) (cl : Fin 64) (b : Body) (a : Adm) (c : NibCmd), s.headOp cl 0 0x25 = some (b, a) → c = NibCmd.of b.bits → s.nibCauses c a b.run = [] →
    s.loadsInto cl c.writes = false → ∃ t, exec (.nibInv cl) s = .next t ∧
      s.issued t cl 0 (s.workOf b a .plain []) ∧ t.ink cl = s.ink cl ∧ (t.nib cl).trf = (s.nib cl).trf ∧
      (∀ i, (t.nib cl).tag i = if c.slotA ≤ i ∧ i < c.slotA + c.k then 0 else (s.nib cl).tag i)) ∧
  (∀ row ∈ ([(.nibMma, 0x28, fun s a c n => c.mmaStep (s.num a) n), (.nibLin, 0x29, fun _ _ c n => c.linStep n)] :
      List ((Fin 64 → Instr) × Nat × (State → Adm → NibCmd → NibState → NibChain))),
    ∀ (s : State) (cl : Fin 64) (b : Body) (a : Adm) (c : NibCmd) (h : NibChain), s.headOp cl 0 row.2.1 = some (b, a) → c = NibCmd.of b.bits →
      s.nibCauses c a b.run = [] → s.loadsInto cl c.reads = false → c.shapeOk (s.nib cl) = true → (c.start = true → s.halvesUsed cl < 2) →
      h = row.2.2 s a c (s.nib cl) → ∃ t, exec (row.1 cl) s = .next t ∧
        s.issued t cl 0 { s.workOf b a .plain [] with dests := if c.finish && !c.epilogue then c.drainDests cl else [] } ∧ t.ink cl = s.ink cl ∧
        t.nib cl = if c.finish then { s.nib cl with chain := none, drains := (s.nib cl).drains ++ [(b.no, b.bits, h)] } else { s.nib cl with chain := some h }) ∧
  (∀ (s : State) (cl : Fin 64) (i : Nat) (bits : BitVec 512) (h : NibChain) (rest : List (Nat × BitVec 512 × NibChain)) (w : Work) (a : Adm) (c : NibCmd),
    (s.nib cl).drains = (i, bits, h) :: rest → s.work? cl 0 i = some w → s.adm w.b.run = some a → c = NibCmd.of bits →
    h.m = c.m → h.n = c.n → h.family = c.family → h.lin = (c.opcode == 0x29) → h.bodies.length ≤ c.m → (c.sel ≠ 1 → h.bodies = []) → (s.ink cl).wf = true →
    ∃ t, exec (.nibDrain cl []) s = .next t ∧ (t.nib cl).drains = rest ∧ (t.nib cl).chain = (s.nib cl).chain ∧ (t.nib cl).tags = (s.nib cl).tags ∧
      t = { s with clusters := vupd s.clusters cl fun _ => t.clusters[cl] } ∧
      (c.epilogue = true → h.lin = false → t.ink cl = s.ink cl ∧ ∃ x o, (t.nib cl).tiles = (s.nib cl).tiles ++ [(i, bits, x, o)] ∧ x.length = c.m) ∧
      (c.epilogue = false → (t.nib cl).tiles = (s.nib cl).tiles ∧ s.inkKept t cl (c.drainDests cl) ∧ (t.ink cl).wf = true)) ∧
  (∀ (s : State) (cl : Fin 64) (b : Body) (a : Adm) (c : NibCmd) (w : Work) (f : Family), s.headOp cl 0 0x2A = some (b, a) → c = NibCmd.of b.bits →
    s.pairing cl 2 b.ord = .gsub w → s.rebuilding (handleIdx (BitVec.ofNat 32 c.handle)) = false →
    s.rebuilding (handleIdx (BitVec.ofNat 32 c.handle) + 1) = false → s.nibCauses c a b.run = [] → c.shapeOk (s.nib cl) = true →
    s.kswCauses c b b.run.ctx (.gsub w) = [] → s.halvesUsed cl = 0 → Family.ofId c.family = some f → ∃ (t : State) (y : Work),
      exec (.nibKsw cl) s = .next t ∧ s.issued t cl 0 y ∧ y.b = b ∧ y.causes = [] ∧ t.ink cl = s.ink cl ∧
      y.kind = .ksw { f, accs := List.replicate c.m (List.replicate (f.lweDim + 1) 0), gsub := w.b.no } ∧
      y.region = inkRows cl (4096 * c.work) 0 1 262144 ∧ y.dests = inkRows cl c.addr (8 * c.stride2) c.m (8 * (f.lweDim + 1)) ∧
      ∀ i, t.useOf i = s.useOf i) ∧
  (∀ (s : State) (cl : Fin 64) (w : Work) (k : KswWork) (c : NibCmd), s.kswRunning cl = some (w, k) → s.inService cl = true → c = NibCmd.of w.b.bits →
    s.underTest 2 cl = false → s.underTest 6 cl = false → s.banksTest cl = false →
    Ksw.offset k.f k.blk + Ksw.blockBytes k.f k.blk ≤ k.landed → (∀ x ∈ k.accs, x.length = k.f.lweDim + 1) → k.accs.length = c.m → (s.ink cl).wf = true →
    ∃ (t : State) (accs : List (List Nat)), exec (.nibKswBlock ⟨cl, []⟩) s = .next t ∧ accs.length = c.m ∧ (∀ x ∈ accs, x.length = k.f.lweDim + 1) ∧
      t.workKind cl 0 w.b.no (.ksw { k with blk := k.blk + 1, accs := accs, ended := decide (k.blk + 1 = Ksw.blocks k.f) }) ∧
      (k.blk + 1 ≠ Ksw.blocks k.f → t.ink cl = s.ink cl) ∧ s.inkKept t cl (inkRows cl c.addr (8 * c.stride2) c.m (8 * (k.f.lweDim + 1))) ∧
      t.mem = s.mem ∧ t.descs = s.descs) ∧
  (∀ row ∈ ([(.nibLdf, 0x20), (.nibLdv, 0x21), (.nibLdb, 0x22), (.nibStf, 0x23), (.nibStv, 0x24), (.nibInv, 0x25), (.nibMma, 0x28), (.nibLin, 0x29)] :
      List ((Fin 64 → Instr) × Nat)),
    ∀ (s : State) (cl : Fin 64) (b : Body) (a : Adm), s.headOp cl 0 row.2 = some (b, a) → (NibCmd.of b.bits).wellFormed = false → ∃ t,
      exec (row.1 cl) s = .next t ∧ s.issued t cl 0 (s.workOf b a .plain (s.nibCauses (NibCmd.of b.bits) a b.run)) ∧
      .malformed ∈ s.nibCauses (NibCmd.of b.bits) a b.run ∧ t.ink cl = s.ink cl ∧ t.nib cl = s.nib cl)

/-- The Brush (R172 to R199): a command that passes its checks issues with its counts and writes where its rows lie and nowhere else; one that does not
writes nothing. The leveled operations give every coefficient of Table 7-10. A chain load fills its entry, and a record that fails empties it, with MALFORMED, or
PARAM_UNSUPPORTED for a family that is in no table (R2), or both causes; an epilogue takes the oldest tile, and one that would send at shed level 5 ends with SHED instead (Table 12-11). -/
def Obligations.BrushCommandsAct : Prop :=
  (∀ row ∈ ([(.brMap, 0x50, fun c e _ m => c.runMap e m), (.brBin, 0x51, fun c e _ m => c.runBin e m), (.brCmp, 0x52, fun c e _ m => c.runCmp e m),
      (.brSel, 0x53, fun c e _ m => c.runSel e m), (.brRed, 0x54, fun c e _ m => c.runRed e m), (.brSmax, 0x55, fun c e _ m => c.runSmax e m),
      (.brSmaxTail, 0x56, fun c e _ m => c.runTail e m), (.brPairupd, 0x57, fun c e _ m => c.runPairupd e m),
      (.brRun, 0x58, fun c e r m => c.runChain e r m), (.brCadd, 0x60, BrCmd.ctRow), (.brCsub, 0x61, BrCmd.ctRow), (.brCneg, 0x62, BrCmd.ctRow),
      (.brPadd, 0x63, BrCmd.ctRow), (.brSmul, 0x64, BrCmd.ctRow), (.brMsw, 0x65, BrCmd.ctRow)] :
      List ((Fin 64 → Instr) × Nat × (BrCmd → BrEnv → ChainRec → Memory → BrOut))),
    ∀ (s : State) (cl : Fin 64) (b : Body) (a : Adm) (c : BrCmd) (r : ChainRec) (o : BrOut), s.headOp cl 3 row.2.1 = some (b, a) → c = BrCmd.of b.bits →
      r = (s.clusters[cl].eng.chains.find c.chain).getD 0 → o = row.2.2 c (s.brEnv a) r (s.ink cl) →
      (s.brCauses cl c b a (s.clusters[cl].eng.chains.find c.chain) = [] → (row.2.1 = 0x58 → Chain.recOk r (s.brEnv a) = true) → (s.ink cl).wf = true →
        ∃ (t : State) (w : Work), exec (row.1 cl) s = .next t ∧ s.issued t cl 3 w ∧ w.b = b ∧ w.causes = [] ∧ w.kind = .plain ∧ w.ev = o.ev ∧
          w.mon = o.mon ∧ w.dests = c.dests cl r ∧ t.ink cl = o.ink ∧ s.inkKept t cl (c.dests cl r) ∧ (t.ink cl).wf = true ∧
          t.clusters[cl].eng.chains = s.clusters[cl].eng.chains ∧ (row.2.1 ≠ 0x58 → t.clusters[cl].eng.sends = s.clusters[cl].eng.sends)) ∧
      (∀ x, x = s.brCauses cl c b a (s.clusters[cl].eng.chains.find c.chain) → x ≠ [] → ∃ t, exec (row.1 cl) s = .next t ∧
        s.issued t cl 3 (s.workOf b a .plain x) ∧ t.ink cl = s.ink cl ∧ t.clusters[cl].eng.sends = s.clusters[cl].eng.sends)) ∧
  (∀ row ∈ ([(.brCadd, 0x60, fun _ _ _ Q x y => (x + y) % Q), (.brCsub, 0x61, fun _ _ _ Q x y => (x + (Q - y)) % Q),
      (.brCneg, 0x62, fun _ _ _ Q x _ => (Q - x) % Q), (.brSmul, 0x64, fun c _ _ Q x _ => ((c.immSigned * (x : Int)) % (Q : Int)).toNat),
      (.brMsw, 0x65, fun _ f _ _ x _ => mswCoeff f x)] : List ((Fin 64 → Instr) × Nat × (BrCmd → Family → Nat → Nat → Nat → Nat → Nat))),
    ∀ (s : State) (cl : Fin 64) (b : Body) (a : Adm) (c : BrCmd) (f : Family) (l : Layout) (i k : Nat), s.headOp cl 3 row.2.1 = some (b, a) →
      c = BrCmd.of b.bits → Family.ofId c.family = some f → c.ctLayout = some l → s.brCauses cl c b a (s.clusters[cl].eng.chains.find c.chain) = [] →
      (s.ink cl).wf = true → i < c.rows → k < c.cols → ∃ t, exec (row.1 cl) s = .next t ∧
        (t.ink cl).readNat (c.dst + i * c.dstStride + (if row.2.1 = 0x65 then 2 else l.elemBytes) * k) (if row.2.1 = 0x65 then 2 else l.elemBytes) =
          row.2.2 c f k (layoutModulus f l) (coeffAt (s.ink cl) f l (c.srcA + i * c.aStride) k) (coeffAt (s.ink cl) f l (c.srcB + i * c.bStride) k)) ∧
  (∀ (s : State) (cl : Fin 64) (b : Body) (a : Adm) (c : BrCmd) (f : Family) (l : Layout) (i k : Nat) (x : Nat) (u : Int), s.headOp cl 3 0x63 = some (b, a) →
    c = BrCmd.of b.bits → Family.ofId c.family = some f → c.ctLayout = some l → s.brCauses cl c b a (s.clusters[cl].eng.chains.find c.chain) = [] →
    (s.ink cl).wf = true → i < c.rows → k < c.cols → x = coeffAt (s.ink cl) f l (c.srcA + i * c.aStride) k →
    u = (if c.bForm = 3 then c.immSigned else signedOf (fmtBits c.bFmt) (getBits (s.ink cl) c.srcB (i * fmtBits c.bFmt) (fmtBits c.bFmt))) →
    ∃ t, exec (.brPadd cl) s = .next t ∧ (t.ink cl).readNat (c.dst + i * c.dstStride + l.elemBytes * k) l.elemBytes =
      if k + 1 = c.cols then (x + encW f c.width u) % layoutModulus f l else x) ∧
  (∀ (s : State) (cl : Fin 64) (b : Body) (a : Adm) (c : BrCmd) (r : ChainRec), s.headOp cl 3 0x59 = some (b, a) → c = BrCmd.of b.bits →
    s.brCauses cl c b a none = [] → r = BitVec.ofNat 2048 ((s.ink cl).readNat c.srcA 256) →
    (Chain.familyOk r = true → Chain.recOk r (s.brEnv a) = true → ∃ t, exec (.brChainLoad cl) s = .next t ∧ s.issued t cl 3 (s.workOf b a .plain []) ∧ t.ink cl = s.ink cl ∧
      t.clusters[cl].eng.chains = s.clusters[cl].eng.chains.set c.chain r) ∧
    (∀ x, x = causesOf [(!Chain.familyOk r, .paramUnsupported), (!Chain.recOk r (s.brEnv a), .malformed)] → x ≠ [] →
      ∃ t, exec (.brChainLoad cl) s = .next t ∧ s.issued t cl 3 (s.workOf b a .plain x) ∧
      t.ink cl = s.ink cl ∧ t.clusters[cl].eng.chains = s.clusters[cl].eng.chains.erase c.chain)) ∧
  (∀ (s : State) (cl : Fin 64) (i : Nat) (bits : BitVec 512) (tile : List (List Pair)) (ovf : List (List Bool))
      (rest : List (Nat × BitVec 512 × List (List Pair) × List (List Bool))) (w : Work) (a : Adm)
      (c : NibCmd) (v : Chain.Inv), (s.nib cl).tiles = (i, bits, tile, ovf) :: rest → s.work? cl 0 i = some w → s.adm w.b.run = some a → s.inService cl = true →
    s.unitOut 4 cl = false → c = NibCmd.of bits → v = ⟨c.addr, 8 * c.stride, c.m, c.n⟩ →
    (s.clusters[cl].eng.chains.find c.handle = none → ∃ t, exec (.epilogueInvoke cl) s = .next t ∧ (t.nib cl).tiles = rest ∧ t.ink cl = s.ink cl ∧
      (∀ y ∈ (t.queue cl 0).works, y.b.no = i → .malformed ∈ y.causes)) ∧
    (∀ r, s.clusters[cl].eng.chains.find c.handle = some r → Chain.recOk r (s.brEnv a) = true → Chain.isCt r = false → v.originOk r = true →
      v.rangeOk r (fmtBits (Chain.outFmt r)) = true → v.shapeOk r = true → Chain.sends r = false → tile.length = c.m → (∀ row ∈ tile, row.length = c.n) →
      (s.ink cl).wf = true → ∃ t, exec (.epilogueInvoke cl) s = .next t ∧ (t.nib cl).tiles = rest ∧ s.inkKept t cl (invDests cl r v (fmtBits (Chain.outFmt r))) ∧
        (∀ y ∈ (t.queue cl 0).works, y.b.no = i → y.dests = invDests cl r v (fmtBits (Chain.outFmt r)) ∧ y.layer = Chain.layer r) ∧
        t = { s with free := t.free, obs := t.obs, clusters := vupd s.clusters cl fun _ => t.clusters[cl] }) ∧
    (∀ r, s.clusters[cl].eng.chains.find c.handle = some r → Chain.isCt r = false → v.originOk r = true → v.rangeOk r (fmtBits (Chain.outFmt r)) = true →
      Chain.sends r = true → s.shed ≥ 5 → ∃ t, exec (.epilogueInvoke cl) s = .next t ∧ (t.nib cl).tiles = rest ∧ t.ink cl = s.ink cl ∧
        t.clusters[cl].eng.sends = s.clusters[cl].eng.sends ∧ ∀ y ∈ (t.queue cl 0).works, y.b.no = i → .shed ∈ y.causes))

/-! ### The data mover and the end of commands (08, 09) -/

/-- The data mover (R235 to R245, R315, R317): a command that passes its checks lists its transfers and moves nothing yet; SEND parts issue first, then the
oldest command's next transfer, whose reads of module memory wait at the channels; a channel that serves the last burst of a read gives the bytes that stand
there then, and one that serves a write its own bytes, but for a word that fails SECDED at its encoder, which stays unwritten and fails the command
(R257, R261); a transfer's end puts its bytes into its cluster, and a failed check fails its command; a remote end is served by its cluster. A command whose
work is done ends, with its cause where it has one; one whose check fails ends at once (R366); a difference of the hub's pair stops the hub. -/
def Obligations.MoverAndCommandEnds : Prop :=
  (∀ row ∈ ([(.dmCopy, 0x80), (.dmXpose, 0x81), (.dmGather, 0x82), (.dmScatterAdd, 0x83), (.dmFill, 0x84), (.dmIcopy, 0x85), (.dmPwrite, 0x88)] :
      List ((Fin 64 → Instr) × Nat)),
    ∀ (s : State) (cl : Fin 64) (b : Body) (a : Adm) (c : DmCmd) (r : Run) (x : Ctx) (l : List Status), s.headOp cl 4 row.2 = some (b, a) →
      c = DmCmd.of b.bits → s.run b.run = some r → s.ctxs.find b.run.ctx = some x → l = s.dmCauses cl c b a r x →
      (l = [] → ∃ t, exec (row.1 cl) s = .next t ∧ s.issued t cl 4 { s.workOf b a (.mover (c.xfers cl (s.spaceOf b.run.ctx) r b (s.ink cl))) [] with
        dests := c.dests cl (s.spaceOf b.run.ctx) r (s.ink cl), layer := c.layer, ev := b.ev
        region := if c.overlaps (s.ink cl) then c.dests cl (s.spaceOf b.run.ctx) r (s.ink cl) else [] } ∧ t.ink cl = s.ink cl ∧
        t.clusters[cl].eng.xfers = s.clusters[cl].eng.xfers) ∧
      (l ≠ [] → ∃ t, exec (row.1 cl) s = .next t ∧ s.issued t cl 4 (s.workOf b a .plain l) ∧ t.ink cl = s.ink cl)) ∧
  (∀ (a len : Nat), 1 ≤ len → ((cutRun a len).map (·.2)).sum = len ∧
    ∀ p ∈ cutRun a len, 1 ≤ p.2 ∧ p.2 ≤ 4096 ∧ p.1 + p.2 ≤ len ∧ (a + p.1) / 4096 = (a + p.1 + p.2 - 1) / 4096) ∧
  (∀ (s : State) (cl : Fin 64) (x : Xfer) (n : Nat), s.inService cl = true → s.unitOut 7 cl = false → s.bankOut cl = false → s.pathOut cl x = false → s.shed < 5 →
    s.clusters[cl].eng.xfers.length < 256 → n = s.clusters[cl].eng.nextXfer → (∀ y ∈ s.clusters[cl].eng.xfers, y.no ≠ n) →
    (∀ cx, s.clusters[cl].ctx = some cx → s.clParked cx cl = false) →
    (∀ rest, s.clusters[cl].eng.sends = x :: rest → x.src = none → (∀ p ∈ x.dst, p.space = 1 → s.memFenced p.addr x.len = false) →
      ∃ t, exec (.dmTransferIssue cl) s = .next t ∧ t = { s with obs := t.obs, memsys := t.memsys, clusters := vupd s.clusters cl fun _ => t.clusters[cl] } ∧
      t.clusters[cl].eng.sends = rest ∧ t.clusters[cl].eng.xfers = s.clusters[cl].eng.xfers ++ [{ x with no := n, loaded := true }] ∧
      t.clusters[cl].eng.queues = s.clusters[cl].eng.queues ∧ t.ink cl = s.ink cl) ∧
    (∀ w rest p sp, s.clusters[cl].eng.sends = [] → nextTodo s.clusters[cl].eng.queues[4].works = some (w, x, rest) → x.src = some p → sp = s.spaceOf w.b.run.ctx →
      s.placeReady sp p x.len false = true → (∀ y ∈ x.dst, s.placeReady sp y x.len true = true) → ∃ t, exec (.dmTransferIssue cl) s = .next t ∧
      t = { s with obs := t.obs, memsys := t.memsys, clusters := vupd s.clusters cl fun _ => t.clusters[cl] } ∧ t.ink cl = s.ink cl ∧
      t.workKind cl 4 w.b.no (.mover rest) ∧
      (p.space = 1 → t.clusters[cl].eng.xfers = s.clusters[cl].eng.xfers ++ [{ x with no := n, data := List.replicate x.len 0 }] ∧
        (1 ≤ x.len → s.hub.fenceCh = 0 → t.memWaits (.xfer cl n) = true)) ∧
      (p.space ≠ 1 → x.farSource cl = true → t.clusters[cl].eng.xfers = s.clusters[cl].eng.xfers ++ [{ x with no := n, data := [] }]) ∧
      (p.space ≠ 1 → x.farSource cl = false → t.clusters[cl].eng.xfers = s.clusters[cl].eng.xfers ++ [{ x with no := n, data := s.readPlace p x.len, loaded := true }]))) ∧
  (∀ (s : State) (ch : Fin 160) (q : MemReq) (cl : Fin 64) (no : Nat) (x : Xfer), s.servesLast ch q → q.who = .xfer cl no →
    (s.clusters[cl].eng.xfers.find? fun x => x.no == no) = some x →
    (∀ p, q.write = false → x.src = some p → ∃ (t : State) (y : Xfer), exec (.memRoundStart ⟨ch, []⟩) s = .next t ∧ t.mem = s.mem ∧
      (t.clusters[cl].eng.xfers.find? fun x => x.no == no) = some y ∧ y.data.length = x.data.length ∧
      (∀ k, k < x.data.length → y.data.getD k 0 = if inChan ch (p.addr + k) = true then s.mem.get (p.addr + k) else x.data.getD k 0) ∧
      ((∃ c : Fin 160, c ≠ ch ∧ ∃ r ∈ s.memsys.chans[c].reqs, r.who = .xfer cl no) → y.loaded = x.loaded) ∧
      ((∀ c : Fin 160, c ≠ ch → ∀ r ∈ s.memsys.chans[c].reqs, r.who ≠ .xfer cl no) → y.loaded = true)) ∧
    (∀ bad : List (MemWho × Nat), q.write = true → x.turned = none → q.len = x.data.length → s.mem.wf = true → ∃ t, exec (.memRoundStart ⟨ch, bad⟩) s = .next t ∧
      (bad = [] ∨ (∃ j, x.owner = some j ∧ (s.work? cl 4 j).isSome = true) → ∀ y, t.mem.get y = if (q.addr ≤ y ∧ y < q.addr + q.len) ∧ inChan ch y = true ∧ ((q.who, y / 8) ∉ bad ∨ q.holds ch (8 * (y / 8)) = false) then
        x.data.getD (y - q.addr) 0 else s.mem.get y) ∧
      ∀ k, (q.who, k) ∈ bad → q.holds ch (8 * k) = true →
        (∀ j w, x.owner = some j → s.work? cl 4 j = some w → ∀ y ∈ (t.queue cl 4).works, y.b.no = j → .faultDetected ∈ y.causes) ∧
        (x.owner = none → (s.run x.run).isSome = true → t.runFailed x.run .faultDetected))) ∧
  (∀ (s : State) (cl : Fin 64) (i j : Nat) (x : Xfer) (w : Work), (s.clusters[cl].eng.xfers.find? fun x => x.no == i) = some x →
    x.owner = some j → s.work? cl 4 j = some w → w.b.run = x.run → s.clusters[cl].ctx = some x.run.ctx → (∀ r, s.run x.run = some r → cl ∈ r.set) →
    (∀ p, fld w.b.bits 7 0 ≠ 0x81 → fld w.b.bits 7 0 ≠ 0x83 → x.turned = none → x.loaded = true → x.remote = [] → s.memWaits (.xfer cl i) = false → x.dst = [p] →
      p.space < 2 → ∃ t, exec (.dmTransferDone cl ⟨i, []⟩) s = .next t ∧ t.clusters[cl].eng.xfers = s.clusters[cl].eng.xfers.filter (fun y => y.no != i) ∧
        t.mem = s.mem ∧ (∀ k, k ≠ cl → t.clusters[k] = s.clusters[k]) ∧
        t.ink cl = if p.space = 0 ∧ p.id = cl.val then (s.ink cl).write p.addr x.data else s.ink cl) ∧
    (∀ fail : List CheckFail, fail ≠ [] → (∀ f ∈ fail, x.mayFail cl (s.xferCmd cl x) f = true) → ∃ t, exec (.dmTransferDone cl ⟨i, fail⟩) s = .next t ∧
      ∀ y ∈ (t.queue cl 4).works, y.b.no = j → .faultDetected ∈ y.causes)) ∧
  (∀ (s : State) (g cl : Fin 64) (i : Nat) (x : Xfer), (s.clusters[cl].eng.xfers.find? fun x => x.no == i) = some x → g ∈ x.remote →
    s.clusters[g].ctx = some x.run.ctx → s.clFenced g = false → s.unitOut 7 g = false → s.bankOut g = false → g ≠ cl →
    (∀ p, x.src = some p → p.space = 0 → p.id = g.val → x.loaded = false → ∃ t, exec (.remoteAccessServe g cl i) s = .next t ∧
      (t.clusters[cl].eng.xfers.find? fun y => y.no == i) =
        some { x with data := (s.ink g).read p.addr x.len, remote := x.remote.erase g, loaded := true } ∧ t.mem = s.mem ∧ ∀ k : Fin 64, t.ink k = s.ink k) ∧
    (∀ p, x.loaded = true ∨ x.src = none → (x.dst.filter fun y => y.space == 0 && y.id == g.val) = [p] → ∃ t, exec (.remoteAccessServe g cl i) s = .next t ∧
      t.ink g = (s.ink g).write p.addr x.data ∧ t.mem = s.mem ∧ (∀ k, k ≠ g → t.ink k = s.ink k) ∧
      (t.clusters[cl].eng.xfers.find? fun y => y.no == i) = some { x with remote := x.remote.erase g })) ∧
  (∀ (s : State) (cl : Fin 64) (q : Fin 7) (i : Nat),
    (∀ w, s.work? cl q i = some w → w.done = false → s.endReady cl q w = true → s.pauses cl q w = false →
      (w.causes = [] → ∃ t, exec (.engineCommandEnd cl q i [] false) s = .next t ∧ t.bodyEnded cl q i) ∧
      (∀ st r, w.causes = [st] → st ≠ .ok → s.run w.b.run = some r → r.failed = false → ∃ t, exec (.engineCommandEnd cl q i [] false) s = .next t ∧
        t.bodyEnded cl q i ∧ t.runFailed w.b.run st)) ∧
    (∀ w fail, s.work? cl q i = some w → w.done = false → s.pauses cl q w = false → fail ≠ [] → ∃ t, exec (.engineCommandEnd cl q i fail false) s = .next t ∧
      t.bodyEnded cl q i) ∧
    (∀ b a r, s.work? cl q i = none → s.issueHead cl q = some (b, a) → b.no = i → queueTakes q b.opcode = false → s.run b.run = some r → r.failed = false →
      ∃ t, exec (.engineCommandEnd cl q i [] false) s = .next t ∧ t.bodyEnded cl q i ∧ t.runFailed b.run .malformed) ∧
    ((s.work? cl q i).isSome = true → s.env.serac.st ≠ .stopped → ∃ t, exec (.engineCommandEnd cl q i [] true) s = .next t ∧
      t.env.serac.st = .stopped ∧ t.sent = .linkError :: s.sent ∧ t.clusters = s.clusters ∧ t.descs = s.descs))

/-! ### Memory channels and context switches (10, 11) -/

/-- The symbol code (R255): a code word as encoded reads as it is; one symbol in error is corrected, and two are detected. Its roots and the place's
symbols are the model's choice (log 64). A round (R260) has 64 slots less refresh and tests, its guarantees cut to fit them, bulk first, then ks; no slot is
left unused while a request waits, no request is lost, and LC gets its guarantee; a write of a directory slot leaves in its channel's part what the slot
holds (R65). A read's syndrome (Table 10-2, R256 to R258): a corrected one is counted and located, an
uncorrectable one recorded with its address; key data that cannot be read quarantines a RESIDENT key (R73). The patrol's burst of 256 B joins the channel's
requests once it is due; its 16 beats are judged each by itself, and it queues no write-back: its own is part of it (R258). When it comes due is the model's
choice, and the order among requests of a class too (log 64). -/
def Obligations.MemoryRoundsAndReads : Prop :=
  (∀ data block beat w, data < 2 ^ 128 → w = Rs.encode data block beat → Rs.decode w block beat = (.zero, data) ∧
    ∀ (i : Fin 19) (u : Nat), 1 ≤ u → u < 256 → Rs.decode (Nat.xor w (u * 2 ^ (8 * i.val))) block beat = (.corrected i, data) ∧
      ∀ (j : Fin 19) (v : Nat), j ≠ i → 1 ≤ v → v < 256 →
        (Rs.decode (Nat.xor (Nat.xor w (u * 2 ^ (8 * i.val))) (v * 2 ^ (8 * j.val))) block beat).1 = .uncorrectable) ∧
  (∀ (g : Grants) (n : Nat) (l : List MemReq) (r : Round), (∀ q ∈ l, 1 ≤ q.left ∧ q.cls ≠ .test ∧ q.who ≠ .scrub) → r = roundServe g n l →
    (r.reqs.map (·.left)).sum = (l.map (·.left)).sum - n ∧ r.reqs.length + r.done.length = l.length ∧
    (g.lc ≤ n → l.Pairwise (fun x y => x.clash y = false ∧ y.clash x = false) →
      ((r.reqs.filter (·.cls == .lc)).map (·.left)).sum ≤ ((l.filter (·.cls == .lc)).map (·.left)).sum - g.lc)) ∧
  (∀ (s : State) (ch : Fin 160), s.channelsRun = true → s.shed < 5 → s.chFenced ch = false → (s.testOf (unitNo 10 ch)).faults = [] →
    s.timebase < s.memsys.chans[ch].patrolAt → (∀ q ∈ s.memsys.chans[ch].reqs, 64 < q.left) → ∃ (t : State) (h : Chan),
    exec (.memRoundStart ⟨ch, []⟩) s = .next t ∧
    t = { s with obs := t.obs, memsys := { s.memsys with flips := t.memsys.flips, chans := vupd s.memsys.chans ch fun _ => h } } ∧
    h.slots = 64 - (s.memsys.stackRegs[Fin.ofNat 20 (ch.val / 8)]).refreshSlots - s.testSlots ch ∧
    h.lc = fld s.env.share 7 0 ∧ h.ks ≤ fld s.env.share 15 8 ∧ h.bulk ≤ fld s.env.share 23 16 ∧
    (h.lc ≤ h.slots → h.lc + h.ks + h.bulk ≤ h.slots) ∧ (h.ks < fld s.env.share 15 8 → h.bulk = 0) ∧
    (h.lc + fld s.env.share 15 8 + fld s.env.share 23 16 ≤ h.slots → h.ks = fld s.env.share 15 8 ∧ h.bulk = fld s.env.share 23 16) ∧
    h.reqs = (roundServe { lc := h.lc, ks := h.ks, bulk := h.bulk } h.slots s.memsys.chans[ch].reqs).reqs ∧
    h.writeBack = s.memsys.chans[ch].writeBack.drop 1 ∧ (s.memsys.chans[ch].writeBack = [] → t.memsys.flips = s.memsys.flips) ∧
    h.ce = s.memsys.chans[ch].ce ∧ h.ue = s.memsys.chans[ch].ue ∧ h.last = s.memsys.chans[ch].last) ∧
  (∀ (s : State) (ch : Fin 160), s.channelsRun = true → s.shed < 5 → s.chFenced ch = false → (s.testOf (unitNo 10 ch)).faults = [] →
    s.memsys.chans[ch].patrolAt ≤ s.timebase → s.memsys.chans[ch].reqs = [] → ∃ (t : State) (q : MemReq), exec (.memRoundStart ⟨ch, []⟩) s = .next t ∧
    t.mem = s.mem ∧ t.clusters = s.clusters ∧ t.memsys.chans[ch].reqs = [q] ∧ t.memsys.chans[ch].patrolAt = s.timebase + 3400000 ∧
    q.who = .scrub ∧ q.cls = .bulk ∧ q.write = false ∧ q.len = 256 ∧
    q.addr = blockAddr ch (s.memsys.chans[ch].patrol / 2) + 256 * (s.memsys.chans[ch].patrol % 2) ∧ (0 < t.memsys.chans[ch].slots → q.left = 0)) ∧
  (∀ (s : State) (ch : Fin 160) (q : MemReq) (i : Nat) (x : DirSlot), s.servesLast ch q → q.who = .slot i → s.keys.dir.find i = some x →
    x.bytes.length = 1024 → s.mem.wf = true → ∃ t, exec (.memRoundStart ⟨ch, []⟩) s = .next t ∧ t.memsys.chans[ch].reqs = [] ∧
    ∀ y, t.mem.get y = if (s.slotAddr i ≤ y ∧ y < s.slotAddr i + 1024) ∧ inChan ch y = true then x.bytes.getD (y - s.slotAddr i) 0 else s.mem.get y) ∧
  (∀ (s : State) (ch : Fin 160) (l : BitVec 24) (half : Fin 2) (o : List ReadObs), s.channelsRun = true → s.chFenced ch = false → s.shed < 5 →
    (s.memsys.chans[ch].patrol ≠ 2 * l.toNat + half ∨ (∀ q ∈ s.memsys.chans[ch].reqs, q.who = .scrub → q.left ≠ 0) → exec (.scrubBurst ch l half o) s = .next s) ∧
    (s.memsys.chans[ch].patrol = 2 * l.toNat + half → (∃ q ∈ s.memsys.chans[ch].reqs, q.who = .scrub ∧ q.left = 0) →
      ((∀ k, k < 16 → s.readBeat ch l.toNat (16 * half + k) (o.getD k {}) = .zero) → exec (.scrubBurst ch l half o) s =
        .next (s.updChan ch fun h => { h with patrol := (h.patrol + 1) % 25165824, reqs := h.reqs.filter (·.who != .scrub) })) ∧
      ∀ k, k < 16 → (∀ j, j < 16 → j ≠ k → s.readBeat ch l.toNat (16 * half + j) (o.getD j {}) = .zero) → ∀ beat, beat = 16 * half.val + k →
        (∀ i : Fin 19, s.readBeat ch l.toNat beat (o.getD k {}) = .corrected i → Table.ordered s.memsys.flips → (∀ x ∈ o, x.wrong = none) →
          ∃ t, exec (.scrubBurst ch l half o) s = .next t ∧ t.mem = s.mem ∧ t.clusters = s.clusters ∧ (∀ j, j ≠ ch → t.memsys.chans[j] = s.memsys.chans[j]) ∧
            t.memsys.flips = s.memsys.flips.erase ((blockAddr ch l.toNat + 16 * beat) / 16) ∧ t.memsys.chans[ch].ue = s.memsys.chans[ch].ue ∧
            t.memsys.chans[ch].ce = (if s.memsys.chans[ch].ce = 0xFFFFFFFF then 0xFFFFFFFF else s.memsys.chans[ch].ce + 1) ∧
            t.memsys.chans[ch].last = eccLast l.toNat beat (some i.val) ∧ t.memsys.chans[ch].writeBack = s.memsys.chans[ch].writeBack) ∧
        (s.readBeat ch l.toNat beat (o.getD k {}) = .uncorrectable →
          ∃ (t : State) (r : BitVec 512), exec (.scrubBurst ch l half o) s = .next t ∧ t.mem = s.mem ∧ t.clusters = s.clusters ∧ t.memsys.flips = s.memsys.flips ∧
            t.memsys.chans[ch].ce = s.memsys.chans[ch].ce ∧ t.memsys.chans[ch].last = eccLast l.toNat beat none ∧
            t.memsys.chans[ch].ue = (if s.memsys.chans[ch].ue = 0xFFFFFFFF then 0xFFFFFFFF else s.memsys.chans[ch].ue + 1) ∧
            t.moraine.pos = s.moraine.pos + 1 ∧ t.moraine.log.find (s.moraine.pos % 65536) = some r ∧ fld r 7 0 = 0x01 ∧ fld r 169 162 = 0x0A ∧
            fld r 185 170 = unitNo 10 ch ∧ fld r 383 320 = (blockAddr ch l.toNat + 16 * beat) % 2 ^ 64))) ∧
  (∀ (s : State) (ch : Fin 160) (l : BitVec 24) (beat : Fin 32) (o : ReadObs), s.channelsRun = true → s.chFenced ch = false → s.shed < 5 → l.toNat ≤ 12582911 →
    (s.readBeat ch l.toNat beat o = .zero → exec (.memReadComplete ch l beat o .hub) s = .next s) ∧
    (∀ i : Fin 19, s.readBeat ch l.toNat beat o = .corrected i →
      ∃ t, exec (.memReadComplete ch l beat o .hub) s = .next t ∧ t.mem = s.mem ∧ t.clusters = s.clusters ∧
        (∀ j, j ≠ ch → t.memsys.chans[j] = s.memsys.chans[j]) ∧ t.memsys.chans[ch].ue = s.memsys.chans[ch].ue ∧
        t.memsys.chans[ch].ce = (if s.memsys.chans[ch].ce = 0xFFFFFFFF then 0xFFFFFFFF else s.memsys.chans[ch].ce + 1) ∧
        t.memsys.chans[ch].last = eccLast l.toNat beat (some i.val) ∧ t.memsys.chans[ch].writeBack = s.memsys.chans[ch].writeBack ++ [l]) ∧
    (s.readBeat ch l.toNat beat o = .uncorrectable →
      ∃ (t : State) (r : BitVec 512), exec (.memReadComplete ch l beat o .hub) s = .next t ∧ t.mem = s.mem ∧ t.clusters = s.clusters ∧
        (∀ j, j ≠ ch → t.memsys.chans[j] = s.memsys.chans[j]) ∧ t.memsys.chans[ch].ce = s.memsys.chans[ch].ce ∧
        t.memsys.chans[ch].ue = (if s.memsys.chans[ch].ue = 0xFFFFFFFF then 0xFFFFFFFF else s.memsys.chans[ch].ue + 1) ∧
        t.memsys.chans[ch].last = eccLast l.toNat beat none ∧ t.moraine.pos = s.moraine.pos + 1 ∧
        t.moraine.log.find (s.moraine.pos % 65536) = some r ∧ fld r 7 0 = 0x01 ∧ fld r 169 162 = 0x0A ∧ fld r 185 170 = unitNo 10 ch ∧
        fld r 383 320 = (blockAddr ch l.toNat + 16 * beat.val) % 2 ^ 64) ∧
    (∀ (slot : Fin 8) (w : Sweep), s.readBeat ch l.toNat beat o = .uncorrectable → s.keys.sweeps[slot] = some w → w.staged = false →
      Krt.state (s.entry w.idx) = stRESIDENT → ∃ t, exec (.memReadComplete ch l beat o (.sweep slot)) s = .next t ∧
        Krt.state (t.entry w.idx) = stQUARANTINED ∧ Krt.qCause (t.entry w.idx) = 0 ∧ Krt.gen (t.entry w.idx) = Krt.gen (s.entry w.idx) ∧ t.mem = s.mem))

/-- Context switches (R290 to R292): a switch is decided for the context that R290 picks and for no other; a quantum's end, or 10 µs of parking, completes
at its instant with the decision that R290 gives there; it completes with the incoming context on every cluster of its partition, which finds the Inkwell and the engine state that it saved there, or, where it has never
run, an Inkwell of zeros and engines as at reset; the outgoing one's engine state and Inkwell are saved, and no admitted command is lost. The form of the saved
engine state (log 15), and which of equal contexts runs (log 19), are the model's choices. -/
def Obligations.ContextSwitches : Prop :=
  (∀ (s : State) (p : Fin 64), (s.switchTo p = none → exec (.contextSwitchDecide p) s = .next s) ∧
    (∀ cx, s.switchTo p = some cx → Table.ordered s.ctxs → (∀ e ∈ s.ctxs, e.1 < 4096) → ∃ t, exec (.contextSwitchDecide p) s = .next t ∧ t.switching.find p = some (some cx, s.timebase) ∧
      (∃ c, s.ctxs.find cx = some c ∧ c.part = p.val ∧ c.st ≠ .teardown) ∧ s.hasWork cx = true ∧ cx ≠ 0 ∧
      t.timebase = s.timebase ∧ t.descs = s.descs ∧ (∀ k : Fin 64, k ∉ s.clustersOf p → t.clusters[k].eng = s.clusters[k].eng) ∧
      (∀ k : Fin 64, t.clusters[k].ctx = s.clusters[k].ctx)) ∧
    (∀ cx c u, s.runningIn p = some cx → s.ctxs.find cx = some c → c.inSince = some u →
      exec (.quantumExpiry p) s = exec (.contextSwitchDecide p) (s.advance (u + 1000 * (s.steerOf cx).quantum))) ∧
    (∀ cx c u, s.runningIn p = some cx → s.ctxs.find cx = some c → c.parkedAt = some u →
      exec (.parkSwitchTimeout p) s = exec (.contextSwitchDecide p) (s.advance (u + 10000)))) ∧
  (∀ (s : State) (p : Fin 64) (cx o : Fin 4096) (c : Ctx), s.runningIn p = some cx → s.ctxs.find cx = some c → p.val < s.parts → s.switching.find p = none →
    s.shed < 5 → s.leastRun ((s.candidates p).filter (· != cx.val)) = some o.val →
    s.hasWork cx = false ∨ (s.lessRun o cx = true ∧ ∃ u, c.inSince = some u ∧ u + 1000 * (s.steerOf cx).quantum ≤ s.timebase) ∨
      (∃ u, c.parkedAt = some u ∧ u + 10000 ≤ s.timebase) → s.switchTo p = some o) ∧
  (∀ (s : State) (p : Fin 64) (cx : Fin 4096) (c : Ctx) (u v : Nat) (i : Instr), s.runningIn p = some cx → s.ctxs.find cx = some c →
    (i = .quantumExpiry p ∧ c.inSince = some u ∧ v = u + 1000 * (s.steerOf cx).quantum) ∨ (i = .parkSwitchTimeout p ∧ c.parkedAt = some u ∧ v = u + 10000) →
    ((s.advance v).switchTo p = none → exec i s = .next (s.advance v)) ∧
    ∀ o, (s.advance v).switchTo p = some o → Table.ordered s.ctxs → (∀ e ∈ s.ctxs, e.1 < 4096) → ∃ t, exec i s = .next t ∧
      t.timebase = max s.timebase v ∧ t.switching.find p = some (some o, t.timebase) ∧ o ≠ cx ∧ o ≠ 0 ∧ s.hasWork o = true ∧ t.descs = s.descs ∧
      (∀ k : Fin 64, t.clusters[k].ctx = s.clusters[k].ctx) ∧ (∀ k : Fin 64, k ∉ s.clustersOf p → t.clusters[k].eng = s.clusters[k].eng)) ∧
  (∀ (s : State) (p : Fin 64) (cx o : Fin 4096) (ci co : Ctx) (u : Nat), s.switching.find p = some (some cx, u) → s.shed < 5 →
    (∀ k ∈ s.clustersOf p, s.settled k = true ∧ s.clusters[k].ctx = some o) → s.memWaits (.switch p) = false → s.clustersOf p ≠ [] → o ≠ cx → s.ctxs.find cx = some ci → s.ctxs.find o = some co →
    (∀ k ∈ s.clustersOf p, (ci.saved.get {} (s.placeOf k)).queues[6].works = []) → (∀ x ∈ s.descs, ∀ r, x.2.prog = .qrun r → s.runKept x.1 r (s.clustersOf p) cx o) →
    s.mem.wf = true → (∀ k : Fin 64, (s.ink k).wf = true) →
    ∃ (t : State) (co' ci' : Ctx), exec (.contextSwitchComplete p) s = .next t ∧ t.switching = s.switching.erase p ∧ t.descs = s.descs ∧
      (∀ k ∈ s.clustersOf p, ∀ e, e = ci.saved.get {} (s.placeOf k) → t.clusters[k].ctx = some cx ∧
        (s.placeOf k ∉ ci.ran → t.ink k = []) ∧ (ci.saved = [] → t.clusters[k].eng = {}) ∧
        (s.placeOf k ∈ ci.ran → ∀ x, (t.ink k).get x = if x < ci.inkSave then t.mem.get (ci.record (s.placeOf k) + engineBytes + x) else 0) ∧
        t.clusters[k].eng.nib = e.nib ∧ t.clusters[k].eng.chains = e.chains ∧ t.clusters[k].eng.progs = e.progs ∧ t.clusters[k].eng.store = e.store ∧
        t.clusters[k].eng.dmem = e.dmem ∧ t.clusters[k].eng.streams = e.streams ∧ t.clusters[k].eng.nests = e.nests ∧
        ∀ i : Fin 8, (t.clusters[k].eng.tasks[i].map fun y => (y.run, y.pc, y.regs)) = e.tasks[i].map fun y => (y.run, y.pc, y.regs)) ∧
      (∀ k : Fin 64, k ∉ s.clustersOf p → t.clusters[k] = s.clusters[k]) ∧
      t.ctxs.find o = some co' ∧ co'.inSince = none ∧ co'.runTime = s.runTimeOf o ∧
      (∀ k ∈ s.clustersOf p, co'.saved.find (s.placeOf k) = some s.clusters[k].eng ∧ s.placeOf k ∈ co'.ran ∧
        ∀ x, x < co.inkSave → t.mem.get (co.record (s.placeOf k) + engineBytes + x) = (s.ink k).get x) ∧
      t.ctxs.find cx = some ci' ∧ ci'.inSince = some s.timebase)

/-! ### Faults and tests (15, 16) -/

/-- Watchdog and tests (R367, R369, R378, R379): a stall ends every command that holds the unit, and takes the unit out of service, also where only the
hub's own work holds it: a rebuild that the stalled engine checks has failed; a unit is due 150 ms after
its last pass; a test takes it out of service, a pass returns it and writes the records that waited, a failure fences it, or stops the hub (a
channel's test is judged by what its two runs count, R268, adds that to MEM_TG_CODEC, and touches no byte below its region); a rebuild runs between steps of
the engine's test. The third detection of the hub's pair stops the hub (R370, R372). An exhausted link retry is recorded and fails no command; the flash takes
every record of the mirror. Which commands hold a unit, and when inside the 200 ms a test is forced, are the model's choices (logs 11, 56). -/
def Obligations.WatchdogAndTests : Prop :=
  (∀ (s : State) (u : BitVec 16), s.holders u.toNat ≠ [] ∨ s.holdsOwn u.toNat = true → s.isFenced u.toNat = false → (s.testOf u.toNat).testing = false →
    ∃ t, exec (.watchdogStall u) s = .next t ∧ (∀ cl q i, .body cl q i ∈ s.holders u.toNat → t.bodyEnded cl q i) ∧
      (∀ d, .desc d ∈ s.holders u.toNat → (s.run d).isSome = true → s.sec.running = none → t.runFailed d .faultDetected) ∧
      (isUnit u.toNat = true → (t.testOf u.toNat).faults ≠ [] ∨ t.isFenced u.toNat = true ∨ (u.toNat = unitNo 0x0E 0 ∧ t.env.serac.st = .stopped)) ∧
      (u.toNat = unitNo 0x0E 0 → s.env.serac.hubRuns = true → 2 ≤ (s.recent u.toNat).length + (s.testOf u.toNat).faults.length →
        t.env.serac.st = .stopped ∧ t.env.board.smbAlert = true) ∧
      ∀ (r : PkeRun) (i : Nat) (x : Rebuild), u.toNat = unitNo 13 0 → (s.recent u.toNat).length + (s.testOf u.toNat).faults.length < 2 → s.sec.running = some r →
        r.op = .rebuild i → r.ended = false → s.keys.rebuilds.find i = some x → t.keys.rebuilds.find i = some { x with failed := true } ∧ t.descs = s.descs) ∧
  (∀ (s : State) (u : BitVec 16) (x : UnitTest), x = s.testOf u.toNat → isUnit u.toNat = true → s.isFenced u.toNat = false →
    (x.testing = false → x.due = false → s.env.serac.st = .setup ∨ s.env.serac.st = .ready → ∃ t, exec (.latentTestDue u) s = .next t ∧
      t = { s with timebase := max s.timebase (x.lastPass + 150000000), obs := t.obs, health := t.health } ∧ t.testOf u.toNat = { x with due := true }) ∧
    (s.testMayStart u.toNat = true → ∃ t, exec (.latentTestStart u) s = .next t ∧ t = { s with health := t.health, sec := t.sec } ∧
      t.testOf u.toNat = { x with testing := true } ∧ (t.sec = s.sec ∨ u.toNat / 2048 = 13 ∧ t.sec = { s.sec with testing := true })) ∧
    (∀ pass one two, x.testing = true →
      (if u.toNat / 2048 = 10 then (s.channelTest (Fin.ofNat 160 (u.toNat % 2048)) one two).1 else pass) = true → s.mem.wf = true →
      ∃ t, exec (.latentTestEnd u ⟨pass, one, two⟩) s = .next t ∧ t.testOf u.toNat = { x with testing := false, due := false, faults := [], lastPass := s.timebase } ∧
        t.moraine.pos = s.moraine.pos + x.faults.length ∧ t.clusters = s.clusters ∧ t.env = s.env ∧ t.mem.wf = true ∧
        (∀ y, (u.toNat / 2048 = 10 → y < blockAddr (Fin.ofNat 160 (u.toNat % 2048)) 12582896) → t.mem.get y = s.mem.get y) ∧
        ∀ ch : Fin 160, u.toNat = unitNo 10 ch → ∀ p ∈ ([(15, 0), (31, 16)] : List (Nat × Nat)),
          min (fld s.memsys.chans[ch].tgCodec p.1 p.2 + 512) 0xFFFF ≤ fld t.memsys.chans[ch].tgCodec p.1 p.2) ∧
    (∀ pass one two, x.testing = true → u.toNat ≠ unitNo 0x0E 0 →
      (if u.toNat / 2048 = 10 then (s.channelTest (Fin.ofNat 160 (u.toNat % 2048)) one two).1 else pass) = false →
      ∃ t, exec (.latentTestEnd u ⟨pass, one, two⟩) s = .next t ∧ t.isFenced u.toNat = true ∧ (t.testOf u.toNat).testing = false ∧ t.env = s.env) ∧
    (∀ one two, x.testing = true → u.toNat = unitNo 0x0E 0 → s.env.serac.hubRuns = true → ∃ t, exec (.latentTestEnd u ⟨false, one, two⟩) s = .next t ∧
      t.env.serac.st = .stopped ∧ t.env.board.smbAlert = true ∧ t.sent = .linkError :: s.sent)) ∧
  (∀ (s : State) (i : Nat), s.sec.testing = true → s.sec.running = none → s.sec.wiping = none → s.shed < 5 → s.pkeFenced = false → s.sec.waiting = [.rebuild i] →
    s.sec.owner = none ∨ s.sec.owner = some .module → ∃ (t : State) (r : PkeRun), exec .latentTestStepEnd s = .next t ∧ t.sec.running = some r ∧
      r.op = .rebuild i ∧ r.ends = s.timebase + 420000 ∧ t.sec.waiting = [] ∧ t = { s with free := t.free, sec := t.sec }) ∧
  (∀ s : State, ∃ (t : State) (r : BitVec 512), exec .hostLinkRetryExhausted s = .next t ∧ t.moraine.pos = s.moraine.pos + 1 ∧
    t.moraine.log.find (s.moraine.pos % 65536) = some r ∧ fld r 7 0 = 0x01 ∧ fld r 169 162 = 0x13 ∧ fld r 185 170 = unitNo 0x10 0 ∧ fld r 153 150 = 0 ∧
    t.descs = s.descs ∧ t.clusters = s.clusters ∧ t.mem = s.mem ∧ t.env = s.env) ∧
  (∀ s : State, s.env.serac.st ≠ .off → ∃ t, exec .moraineFlashWrite s = .next t ∧ t = { s with env := t.env } ∧
    t.env.serac.flash.logPos = s.moraine.pos ∧ (∀ k, s.env.serac.flash.logPos ≤ k → k < s.moraine.pos → s.moraine.pos - k ≤ 65536 →
      t.env.serac.flash.log.find (k % 65536) = some (s.moraine.log.get 0 (k % 65536))) ∧
    t = s.updSerac fun c => { c with flash := { c.flash with log := t.env.serac.flash.log, logPos := s.moraine.pos } })

/-! ### The public-key engine (13) -/

/-- Public-key operations (R333 to R340, R326): an operation that passes its checks waits for the engine, and completes at once otherwise; the engine takes
the next one, after a wipe where the owner changes, ends it at its time, and wipes; a result block takes the result's bytes and no other; a failed health test
stands until reset; a session ends 60 s after its record. Where operand i lies (log 47), the draws of random values (log 8), and that a suspect engine takes
only rebuilds (log 48) are the model's choices. -/
def Obligations.PublicKeyEngine : Prop :=
  (∀ row ∈ ([(.pkeSign, 0xB0), (.pkeVerify, 0xB1), (.pkeEcdh, 0xB2), (.pkeKeygen, 0xB3), (.pkeHash, 0xB4), (.pkeMod, 0xB5), (.attest, 0xB8),
      (.sessionOpen, 0xB9), (.tenantRegister, 0xBA), (.tenantRevoke, 0xBB), (.idRead, 0xBC)] : List ((DRef → Instr) × Nat)),
    ∀ (s : State) (d : DRef) (a : Adm), s.fresh d row.2 = some a →
      (s.pkeCauses d.ctx a = [] → ∃ t, exec (row.1 d) s = .next t ∧ t = { s with obs := t.obs, descs := t.descs, reqs := t.reqs, sent := t.sent, sec := t.sec } ∧
        t.adm d = some { a with prog := .pke } ∧ t.sec = { s.sec with waiting := s.sec.waiting ++ [.context d] }) ∧
      (Status.pick (s.pkeCauses d.ctx a) ≠ .ok → s.env.serac.st ≠ .stopped → ∃ t, exec (row.1 d) s = .next t ∧ t.adm d = none ∧
        t.sec.running = s.sec.running ∧ (∀ x ∈ t.sec.waiting, x ∈ s.sec.waiting) ∧ t.clusters = s.clusters ∧ (s.noFrees → t.mem = s.mem))) ∧
  (∀ (s : State) (o : PkeOp) (r : PkeRun), s.sec.testing = false → s.unitOut 13 0 = false → s.sec.running = none → s.sec.wiping = none →
    s.pkeNext false = some o → s.pkeRunOf o = some r →
    (s.sec.owner = none ∨ s.sec.owner = some (s.pkeOwner o) → ∃ t, exec .pkeOperationStart s = .next t ∧
      t = { s with free := t.free, obs := t.obs, reqs := t.reqs, sent := t.sent, sec := t.sec } ∧
      t.sec = { s.sec with waiting := s.sec.waiting.filter (· != o), running := some r, owner := some (s.pkeOwner o) } ∧ r.op = o ∧ r.ended = false ∧
      s.timebase < r.ends) ∧
    (s.sec.owner.isSome = true → s.sec.owner ≠ some (s.pkeOwner o) → ∃ t, exec .pkeOperationStart s = .next t ∧
      t = { s with obs := t.obs, reqs := t.reqs, sent := t.sent, sec := { s.sec with wiping := some (s.timebase + 2000) } })) ∧
  (∀ (s : State) (r : PkeRun), s.sec.running = some r → r.ended = false → s.sec.entropyFail = false →
    (∀ o, (s.advance r.ends).pkeNext (s.unitOut 13 0) = some o → s.sec.owner ≠ some (s.pkeOwner o)) → ∃ t, exec (.pkeOperationEnd false) s = .next t ∧
      t = { s with timebase := max s.timebase r.ends, obs := t.obs, sec := { s.sec with running := some { r with ended := true }, wiping := some (r.ends + 2000) } }) ∧
  (∀ (s : State) (r : PkeRun) (u : Nat) (d : DRef) (a : Adm), s.sec.wiping = some u → s.sec.running = some r → r.op = .context d → s.adm d = some a →
    r.status = .ok → a.pkeBody.space = 1 → r.out.length = a.pkeBody.outLen a.opcode → s.mem.wf = true → s.env.serac.st ≠ .stopped → s.noFrees →
    ∃ t, exec (.pkeWipeEnd true) s = .next t ∧ t.timebase = max s.timebase u ∧ t.sec.running = none ∧ t.sec.wiping = none ∧ t.sec.owner = none ∧
      t.adm d = none ∧ t.mem.read a.pkeBody.dst r.out.length = r.out ∧ t.clusters = s.clusters ∧
      (∀ x, (x < a.pkeBody.dst ∨ a.pkeBody.dst + r.out.length ≤ x) → t.mem.get x = s.mem.get x) ∧
      (∀ dig c, r.session = some dig → r.register = none → a.opcode = 0xB9 → s.ctxs.find d.ctx = some c → ∃ c', t.ctxs.find d.ctx = some c' ∧
        c'.session = some (dig, t.timebase + 60000000000))) ∧
  (∀ s : State, s.sec.entropyFail = false → ∃ t, exec .entropyHealthFail s = .next t ∧ t.sec.entropyFail = true ∧ t.isFenced (unitNo 0x11 0) = true ∧
    t.clusters = s.clusters ∧ t.mem = s.mem) ∧
  (∀ (s : State) (cx : Fin 4096) (c : Ctx) (dig : BitVec 512) (u : Nat), s.ctxs.find cx = some c → c.session = some (dig, u) → ∃ t,
    exec (.sessionExpiry cx) s = .next t ∧ t = { s with timebase := max s.timebase u, obs := t.obs, ctxs := s.ctxs.upd cx fun _ => { c with session := none } })
end

