-- ==== Sys2Proof/Laws/Memory.lean ====
section
/-! SUPPORT. Byte memories: a read after a write, and the canonical form, which every memory operation keeps. -/

namespace Sys2Proof.Machine.Memory

theorem wfFrom_mono {lo lo' : Nat} (h : lo' ≤ lo) : ∀ {m : Memory}, wfFrom lo m = true → wfFrom lo' m = true
  | [], _ => rfl
  | (a, b) :: r, hm => by
    simp only [wfFrom, Bool.and_eq_true, decide_eq_true_eq] at hm ⊢
    exact ⟨⟨by omega, hm.1.2⟩, hm.2⟩

theorem wf_nil : wf [] = true := rfl

/-- Nothing below the first address of a memory in canonical form is listed. -/
theorem get_below {lo : Nat} : ∀ {m : Memory}, wfFrom lo m = true → ∀ {x : Nat}, x < lo → m.get x = unlisted
  | [], _, _, _ => rfl
  | (a, b) :: r, hm, x, hx => by
    simp only [wfFrom, Bool.and_eq_true, decide_eq_true_eq] at hm
    have ha : lo ≤ a := hm.1.1
    have h1 : ¬ x = a := by omega
    have h2 : x < a := by omega
    simp [get, h1, h2]

theorem wfFrom_put {lo : Nat} : ∀ {m : Memory}, wfFrom lo m = true → ∀ {x : Nat} {v : Byte}, lo ≤ x → wfFrom lo (m.put x v) = true
  | [], _, x, v, hx => by
    by_cases hv : v = unlisted <;> simp [put, hv, wfFrom, hx]
  | (a, b) :: r, hm, x, v, hx => by
    have hm' := hm
    simp only [wfFrom, Bool.and_eq_true, decide_eq_true_eq] at hm
    obtain ⟨⟨ha, hb⟩, hr⟩ := hm
    by_cases h1 : x < a
    · by_cases hv : v = unlisted
      · simp [put, h1, hv, hm']
      · simp only [put, h1, if_true, hv, if_false, wfFrom, Bool.and_eq_true, decide_eq_true_eq]
        exact ⟨⟨hx, hv⟩, ⟨by omega, hb⟩, hr⟩
    · by_cases h2 : x = a
      · subst h2
        by_cases hv : v = unlisted
        · subst hv
          simp only [put, h1, if_false, if_true]
          exact wfFrom_mono (by omega) hr
        · simp only [put, h1, if_false, if_true, hv, wfFrom, Bool.and_eq_true, decide_eq_true_eq]
          exact ⟨⟨by omega, hv⟩, hr⟩
      · simp only [put, h1, h2, if_false, wfFrom, Bool.and_eq_true, decide_eq_true_eq]
        exact ⟨⟨ha, hb⟩, wfFrom_put hr (by omega)⟩

theorem wf_put {m : Memory} (h : m.wf = true) (x : Nat) (v : Byte) : (m.put x v).wf = true := wfFrom_put h (Nat.zero_le _)

/-- A read after a write to the same place gives the value written, and a write leaves every other place alone. -/
theorem get_put {lo : Nat} : ∀ {m : Memory}, wfFrom lo m = true → ∀ (x : Nat) (v : Byte) (y : Nat),
    (m.put x v).get y = if y = x then v else m.get y
  | [], _, x, v, y => by
    by_cases hv : v = unlisted
    · subst hv; by_cases hy : y = x <;> simp [put, get, hy]
    · by_cases hy : y = x
      · simp [put, hv, get, hy]
      · by_cases h : y < x <;> simp [put, hv, get, hy, h]
  | (a, b) :: r, hm, x, v, y => by
    simp only [wfFrom, Bool.and_eq_true, decide_eq_true_eq] at hm
    obtain ⟨⟨_, _⟩, hr⟩ := hm
    by_cases h1 : x < a
    · by_cases hv : v = unlisted
      · subst hv
        simp only [put, h1, if_true]
        by_cases hy : y = x
        · subst hy
          have : ¬ y = a := by omega
          simp [get, this, h1]
        · simp [hy]
      · simp only [put, h1, if_true, hv, if_false]
        by_cases hy : y = x
        · simp [get, hy]
        · by_cases h : y < x
          · have hya : ¬ y = a := by omega
            have hya' : y < a := by omega
            simp [get, hy, h, hya, hya']
          · simp [get, hy, h]
    · by_cases h2 : x = a
      · subst h2
        by_cases hv : v = unlisted
        · subst hv
          simp only [put, h1, if_false, if_true]
          by_cases hy : y = x
          · subst hy
            simp [get_below hr (Nat.lt_succ_self y)]
          · by_cases h : y < x
            · have := get_below hr (x := y) (by omega)
              simp [get, hy, h, this]
            · simp [get, hy, h]
        · simp only [put, h1, if_false, if_true, hv]
          by_cases hy : y = x
          · simp [get, hy]
          · simp [get, hy]
      · simp only [put, h1, h2, if_false]
        by_cases hy : y = a
        · have : ¬ a = x := by omega
          simp [get, hy, this]
        · by_cases h : y < a
          · have hyx : ¬ y = x := by omega
            simp [get, hy, h, hyx]
          · simp only [get, hy, h, if_false]
            exact get_put hr x v y

theorem wf_write : ∀ (bs : List Byte) {m : Memory}, m.wf = true → ∀ (a : Nat), (m.write a bs).wf = true
  | [], _, h, _ => h
  | b :: r, _, h, a => wf_write r (wf_put h a b) (a + 1)

theorem wf_writeNat {m : Memory} (h : m.wf = true) (a n v : Nat) : (m.writeNat a n v).wf = true := wf_write _ h a

theorem wf_fillFree : ∀ (n : Nat) {m : Memory}, m.wf = true → ∀ (k a : Nat), (m.fillFree k a n).wf = true
  | 0, _, h, _, _ => h
  | n + 1, _, h, k, a => wf_fillFree n (wf_put h a _) k (a + 1)

theorem wf_clear : ∀ (n : Nat) {m : Memory}, m.wf = true → ∀ (a : Nat), (m.clear a n).wf = true
  | 0, _, h, _ => h
  | n + 1, _, h, a => wf_clear n (wf_put h a 0) (a + 1)

theorem wfFrom_filter (p : Host.Cell → Bool) : ∀ {lo : Nat} {m : Memory}, wfFrom lo m = true → wfFrom lo (m.filter p) = true
  | _, [], _ => rfl
  | lo, (a, b) :: r, hm => by
    simp only [wfFrom, Bool.and_eq_true, decide_eq_true_eq] at hm
    obtain ⟨⟨ha, hb⟩, hr⟩ := hm
    by_cases hp : p (a, b) = true
    · simp only [List.filter, hp, wfFrom, Bool.and_eq_true, decide_eq_true_eq]
      exact ⟨⟨ha, hb⟩, wfFrom_filter p hr⟩
    · simp only [List.filter, hp]
      exact wfFrom_mono (by omega) (wfFrom_filter p hr)

theorem wf_slice {m : Memory} (h : m.wf = true) (a n : Nat) : (m.slice a n).wf = true := wfFrom_filter _ h
theorem wf_wipe {m : Memory} (h : m.wf = true) (a n : Nat) : (m.wipe a n).wf = true := wfFrom_filter _ h

theorem wf_foldl_put (f : Host.Cell → Nat) : ∀ (l : List Host.Cell) {m : Memory}, m.wf = true →
    (l.foldl (fun (m : Memory) c => m.put (f c) c.2) m).wf = true
  | [], _, h => h
  | c :: r, _, h => wf_foldl_put f r (wf_put h (f c) c.2)

theorem wf_copyFrom {m : Memory} (h : m.wf = true) (src : Memory) (a b n : Nat) : (m.copyFrom src a b n).wf = true :=
  wf_foldl_put _ _ (wf_wipe h b n)

theorem read_length (m : Memory) : ∀ (n a : Nat), (m.read a n).length = n
  | 0, _ => rfl
  | n + 1, a => by simp [read, read_length m n (a + 1)]

/-- Bytes outside a range written read as before. -/
theorem get_write_of_outside : ∀ (bs : List Byte) {m : Memory}, m.wf = true → ∀ (a y : Nat), (y < a ∨ a + bs.length ≤ y) →
    (m.write a bs).get y = m.get y
  | [], _, _, _, _, _ => rfl
  | b :: r, m, h, a, y, hy => by
    have hlen : (b :: r).length = r.length + 1 := rfl
    have hne : ¬ y = a := by rcases hy with h1 | h1 <;> omega
    show (write (m.put a b) (a + 1) r).get y = m.get y
    rw [get_write_of_outside r (wf_put h a b) (a + 1) y (by omega), get_put h]
    simp [hne]

/-- Bytes written read back. -/
theorem read_write_same : ∀ (bs : List Byte) {m : Memory}, m.wf = true → ∀ (a : Nat), (m.write a bs).read a bs.length = bs
  | [], _, _, _ => rfl
  | b :: r, m, h, a => by
    show (write (m.put a b) (a + 1) r).get a :: (write (m.put a b) (a + 1) r).read (a + 1) r.length = b :: r
    rw [read_write_same r (wf_put h a b) (a + 1), get_write_of_outside r (wf_put h a b) (a + 1) a (by omega), get_put h]
    simp

end Sys2Proof.Machine.Memory

namespace Sys2Proof.Machine.Table
variable {α : Type}

theorem find_set : ∀ (t : Table α) (x : Nat) (v : α) (y : Nat), (t.set x v).find y = if y = x then some v else t.find y
  | [], x, v, y => by
    by_cases h : y = x
    · simp [set, find, h]
    · by_cases h' : y < x <;> simp [set, find, h, h']
  | (a, w) :: r, x, v, y => by
    by_cases h1 : x < a
    · by_cases h : y = x
      · simp [set, h1, find, h]
      · by_cases h' : y < x
        · have h2 : ¬ y = a := by omega
          have h3 : y < a := by omega
          simp [set, h1, find, h, h', h2, h3]
        · simp [set, h1, find, h, h']
    · by_cases h2 : x = a
      · subst h2
        by_cases h : y = x
        · simp [set, find, h]
        · simp [set, find, h]
      · by_cases h3 : y = a
        · have : ¬ a = x := by omega
          simp [set, h1, h2, find, h3, this]
        · by_cases h4 : y < a
          · have : ¬ y = x := by omega
            simp [set, h1, h2, find, h3, h4, this]
          · simp only [set, h1, h2, if_false, find, h3, h4]
            exact find_set r x v y

@[simp] theorem find_set_same (t : Table α) (x : Nat) (v : α) : (t.set x v).find x = some v := by simp [find_set]

theorem find_set_other (t : Table α) {x y : Nat} (v : α) (h : y ≠ x) : (t.set x v).find y = t.find y := by simp [find_set, h]

theorem get_set (t : Table α) (d : α) (x : Nat) (v : α) (y : Nat) : (t.set x v).get d y = if y = x then v else t.get d y := by
  by_cases h : y = x <;> simp [get, find_set, h]

theorem find_upd (t : Table α) (x : Nat) (f : α → α) (y : Nat) :
    (t.upd x f).find y = if y = x then (t.find x).map f else t.find y := by
  unfold upd
  cases hx : t.find x with
  | none =>
    by_cases h : y = x
    · simp [h, hx]
    · simp [h]
  | some v => simp [find_set]

end Sys2Proof.Machine.Table
end

