-- ==== Sys2Proof/Laws/Channels.lean ====
section
/-! SUPPORT. What the operations of the memory channels can do: requests change the queues of the channels alone, a channel writes nothing but
its part of a range, and a round serves what the order of its queue leaves ready. -/

namespace Sys2Proof.Machine

theorem State.updChan_frame (s : State) (c : Fin 160) (f : Chan → Chan) : s.updChan c f = { s with memsys := (s.updChan c f).memsys } := rfl

theorem State.post_frame (s : State) (who : MemWho) (cls : MemClass) (write : Bool) (a len : Nat) :
    s.post who cls write a len = { s with memsys := (s.post who cls write a len).memsys } := rfl

theorem State.unpost_frame (s : State) (p : MemWho → Bool) : s.unpost p = { s with memsys := (s.unpost p).memsys } := rfl

theorem State.putPart_frame (s : State) (c : Fin 160) (a len : Nat) (bad : List Nat) (new : Memory) :
    s.putPart c a len bad new = { s with mem := (s.putPart c a len bad new).mem, memsys := (s.putPart c a len bad new).memsys } := rfl

/-- The canonical form stays through bytes copied one by one, and an address that none of them has reads as before. -/
theorem Memory.foldl_put_of {new : Memory} : ∀ (l : List Nat) {m : Memory}, m.wf = true →
    (l.foldl (fun (m : Memory) x => m.put x (new.get x)) m).wf = true ∧
    ∀ y, (l.foldl (fun (m : Memory) x => m.put x (new.get x)) m).get y = if y ∈ l then new.get y else m.get y
  | [], _, h => ⟨h, fun _ => by simp⟩
  | x :: r, m, h => by
    obtain ⟨w, g⟩ := foldl_put_of (new := new) r (wf_put h x (new.get x))
    refine ⟨w, fun y => (g y).trans ?_⟩
    simp only [get_put h, List.mem_cons]
    by_cases hx : y = x
    · subst hx; simp
    · by_cases hr : y ∈ r <;> simp [hx, hr]

theorem mem_upTo (n i : Nat) : i ∈ upTo n ↔ i < n := by simp [upTo]

/-- A channel writes its own bytes of the range as they stand in `new`, but those of the words that failed at its encoder (R257); every other byte reads as
before, and the canonical form stays. -/
theorem State.putPart_mem {s : State} (h : s.mem.wf = true) (c : Fin 160) (a len : Nat) (bad : List Nat) (new : Memory) :
    (s.putPart c a len bad new).mem.wf = true ∧
    ∀ y, (s.putPart c a len bad new).mem.get y = if (a ≤ y ∧ y < a + len) ∧ inChan c y = true ∧ y / 8 ∉ bad then new.get y else s.mem.get y := by
  refine ⟨(Memory.foldl_put_of _ h).1, fun y => ((Memory.foldl_put_of _ h).2 y).trans ?_⟩
  have e : y ∈ ((upTo len).map (a + ·)).filter (fun x => inChan c x && !bad.contains (x / 8)) ↔
      (a ≤ y ∧ y < a + len) ∧ inChan c y = true ∧ y / 8 ∉ bad := by
    simp only [List.mem_filter, List.mem_map, mem_upTo, Bool.and_eq_true, Bool.not_eq_true', List.contains_eq_mem, decide_eq_false_iff_not]
    refine and_congr_left fun _ => ⟨?_, fun hy => ⟨y - a, by omega, by omega⟩⟩
    rintro ⟨i, hi, rfl⟩
    omega
  simp only [e]

/-- What a slot of a class serves: the first request of the class with bursts left that no earlier request of the queue to the same block holds back;
no other request moves, and it leaves the queue with its last burst unless it is the patrol's (R258, R261). -/
theorem serveIn_some {c : MemClass} : ∀ {seen l l' : List MemReq} {done : Option MemReq}, serveIn c seen l = some (l', done) →
    ∃ pre q post, l = pre ++ q :: post ∧ q.cls = c ∧ q.left ≠ 0 ∧ (∀ y ∈ seen, q.clash y = false) ∧ (∀ y ∈ pre, q.clash y = false) ∧
      ((q.left = 1 ∧ q.who ≠ .scrub ∧ l' = pre ++ post ∧ done = some q) ∨
       ((q.left ≠ 1 ∨ q.who = .scrub) ∧ l' = pre ++ { q with left := q.left - 1 } :: post ∧ done = none))
  | _, [], _, _, h => nomatch h
  | seen, q :: r, l', done, h => by
    unfold serveIn at h
    split at h
    · rename_i hc
      simp only [Bool.and_eq_true, bne_iff_ne, Bool.not_eq_true', List.any_eq_false, decide_eq_true_eq] at hc
      refine ⟨[], q, r, rfl, hc.1.1, hc.1.2, fun y hy => by simpa using hc.2 y hy, fun y hy => (List.not_mem_nil hy).elim, ?_⟩
      split at h <;> rename_i hl <;> cases h <;> simp only [Bool.and_eq_true, bne_iff_ne, decide_eq_true_eq, not_and_or, not_not] at hl
      · exact .inl ⟨hl.1, hl.2, rfl, rfl⟩
      · exact .inr ⟨hl, rfl, rfl⟩
    · obtain ⟨x, hx, hy⟩ := Option.map_eq_some_iff.1 h
      obtain ⟨pre, p, post, rfl, a, b, hs, hp, hd⟩ := serveIn_some (l' := x.1) (done := x.2) hx
      cases hy
      refine ⟨q :: pre, p, post, rfl, a, b, fun y hy => hs y (.tail _ hy), fun y hy => ?_, ?_⟩
      · rcases List.mem_cons.1 hy with rfl | hy
        · exact hs _ (.head _)
        · exact hp y hy
      · rcases hd with ⟨x1, x2, x3, x4⟩ | ⟨x1, x2, x3⟩
        · exact .inl ⟨x1, x2, by rw [x3]; rfl, x4⟩
        · exact .inr ⟨x1, by rw [x2]; rfl, x3⟩

theorem Grants.add_total (g : Grants) (c : MemClass) :
    (g.add c).lc + (g.add c).ks + (g.add c).bulk ≤ g.lc + g.ks + g.bulk + 1 := by
  cases c <;> simp only [Grants.add] <;> omega

/-- A burst slot serves one burst at most. -/
theorem Round.slot_served (g : Grants) (x : Round) :
    (x.slot g).served.lc + (x.slot g).served.ks + (x.slot g).served.bulk ≤ x.served.lc + x.served.ks + x.served.bulk + 1 := by
  unfold Round.slot
  dsimp only
  split
  · exact Grants.add_total _ _
  · split
    · exact Grants.add_total _ _
    · omega

/-- A round serves no more bursts than it has slots (R260). -/
theorem roundServe_served (g : Grants) (n : Nat) (l : List MemReq) :
    (roundServe g n l).served.lc + (roundServe g n l).served.ks + (roundServe g n l).served.bulk ≤ n := by
  suffices h : ∀ (k : List Nat) (x : Round), (k.foldl (fun x _ => Round.slot g x) x).served.lc + (k.foldl (fun x _ => Round.slot g x) x).served.ks +
      (k.foldl (fun x _ => Round.slot g x) x).served.bulk ≤ x.served.lc + x.served.ks + x.served.bulk + k.length by
    have := h (upTo n) { reqs := l }
    simpa [upTo, roundServe] using this
  intro k
  induction k with
  | nil => intro x; simp
  | cons a k ih =>
    intro x
    have h1 := ih (x.slot g)
    have h2 := x.slot_served g
    simp only [List.foldl_cons, List.length_cons]
    omega

end Sys2Proof.Machine
end

