-- ==== Sys2Proof/Laws/State.lean ====
section
/-! SUPPORT. The fields of the state after each update: one lemma a field, for the fields that the update leaves as they were; what an update
writes stands below. Every lemma holds by unfolding, and none unfolds a record in a later proof. -/

namespace Sys2Proof.Machine

/-! ### Work leaves management and the queue of commands as they were -/

@[simp] theorem State.work_env (s : State) (f : State → State) : (s.work f).env = s.env := rfl
@[simp] theorem State.work_pending (s : State) (f : State → State) : (s.work f).pending = s.pending := rfl
@[simp] theorem State.work_free (s : State) (f : State → State) : (s.work f).free = (f s).free := rfl
@[simp] theorem State.work_timebase (s : State) (f : State → State) : (s.work f).timebase = (f s).timebase := rfl
@[simp] theorem State.work_hub (s : State) (f : State → State) : (s.work f).hub = (f s).hub := rfl
@[simp] theorem State.work_moraine (s : State) (f : State → State) : (s.work f).moraine = (f s).moraine := rfl
@[simp] theorem State.work_mem (s : State) (f : State → State) : (s.work f).mem = (f s).mem := rfl
@[simp] theorem State.work_memsys (s : State) (f : State → State) : (s.work f).memsys = (f s).memsys := rfl
@[simp] theorem State.work_host (s : State) (f : State → State) : (s.work f).host = (f s).host := rfl
@[simp] theorem State.work_keys (s : State) (f : State → State) : (s.work f).keys = (f s).keys := rfl
@[simp] theorem State.work_clusters (s : State) (f : State → State) : (s.work f).clusters = (f s).clusters := rfl
@[simp] theorem State.work_ctxs (s : State) (f : State → State) : (s.work f).ctxs = (f s).ctxs := rfl
@[simp] theorem State.work_descs (s : State) (f : State → State) : (s.work f).descs = (f s).descs := rfl
@[simp] theorem State.work_xls (s : State) (f : State → State) : (s.work f).xls = (f s).xls := rfl
@[simp] theorem State.work_reqs (s : State) (f : State → State) : (s.work f).reqs = (f s).reqs := rfl
@[simp] theorem State.work_invals (s : State) (f : State → State) : (s.work f).invals = (f s).invals := rfl
@[simp] theorem State.work_sync (s : State) (f : State → State) : (s.work f).sync = (f s).sync := rfl
@[simp] theorem State.work_sec (s : State) (f : State → State) : (s.work f).sec = (f s).sec := rfl
@[simp] theorem State.work_health (s : State) (f : State → State) : (s.work f).health = (f s).health := rfl
@[simp] theorem State.work_obs (s : State) (f : State → State) : (s.work f).obs = (f s).obs := rfl
@[simp] theorem State.work_sent (s : State) (f : State → State) : (s.work f).sent = (f s).sent := rfl
@[simp] theorem State.work_switching (s : State) (f : State → State) : (s.work f).switching = (f s).switching := rfl

/-! ### withPending -/

@[simp] theorem State.withPending_env (s : State) (q : List Instr) : (s.withPending q).env = s.env := rfl
@[simp] theorem State.withPending_free (s : State) (q : List Instr) : (s.withPending q).free = s.free := rfl
@[simp] theorem State.withPending_timebase (s : State) (q : List Instr) : (s.withPending q).timebase = s.timebase := rfl
@[simp] theorem State.withPending_hub (s : State) (q : List Instr) : (s.withPending q).hub = s.hub := rfl
@[simp] theorem State.withPending_moraine (s : State) (q : List Instr) : (s.withPending q).moraine = s.moraine := rfl
@[simp] theorem State.withPending_mem (s : State) (q : List Instr) : (s.withPending q).mem = s.mem := rfl
@[simp] theorem State.withPending_memsys (s : State) (q : List Instr) : (s.withPending q).memsys = s.memsys := rfl
@[simp] theorem State.withPending_host (s : State) (q : List Instr) : (s.withPending q).host = s.host := rfl
@[simp] theorem State.withPending_keys (s : State) (q : List Instr) : (s.withPending q).keys = s.keys := rfl
@[simp] theorem State.withPending_clusters (s : State) (q : List Instr) : (s.withPending q).clusters = s.clusters := rfl
@[simp] theorem State.withPending_ctxs (s : State) (q : List Instr) : (s.withPending q).ctxs = s.ctxs := rfl
@[simp] theorem State.withPending_descs (s : State) (q : List Instr) : (s.withPending q).descs = s.descs := rfl
@[simp] theorem State.withPending_xls (s : State) (q : List Instr) : (s.withPending q).xls = s.xls := rfl
@[simp] theorem State.withPending_reqs (s : State) (q : List Instr) : (s.withPending q).reqs = s.reqs := rfl
@[simp] theorem State.withPending_invals (s : State) (q : List Instr) : (s.withPending q).invals = s.invals := rfl
@[simp] theorem State.withPending_sync (s : State) (q : List Instr) : (s.withPending q).sync = s.sync := rfl
@[simp] theorem State.withPending_sec (s : State) (q : List Instr) : (s.withPending q).sec = s.sec := rfl
@[simp] theorem State.withPending_health (s : State) (q : List Instr) : (s.withPending q).health = s.health := rfl
@[simp] theorem State.withPending_obs (s : State) (q : List Instr) : (s.withPending q).obs = s.obs := rfl
@[simp] theorem State.withPending_sent (s : State) (q : List Instr) : (s.withPending q).sent = s.sent := rfl
@[simp] theorem State.withPending_switching (s : State) (q : List Instr) : (s.withPending q).switching = s.switching := rfl

/-! ### drawn -/

@[simp] theorem State.drawn_pending (s : State) : s.drawn.pending = s.pending := rfl
@[simp] theorem State.drawn_env (s : State) : s.drawn.env = s.env := rfl
@[simp] theorem State.drawn_timebase (s : State) : s.drawn.timebase = s.timebase := rfl
@[simp] theorem State.drawn_hub (s : State) : s.drawn.hub = s.hub := rfl
@[simp] theorem State.drawn_moraine (s : State) : s.drawn.moraine = s.moraine := rfl
@[simp] theorem State.drawn_mem (s : State) : s.drawn.mem = s.mem := rfl
@[simp] theorem State.drawn_memsys (s : State) : s.drawn.memsys = s.memsys := rfl
@[simp] theorem State.drawn_host (s : State) : s.drawn.host = s.host := rfl
@[simp] theorem State.drawn_keys (s : State) : s.drawn.keys = s.keys := rfl
@[simp] theorem State.drawn_clusters (s : State) : s.drawn.clusters = s.clusters := rfl
@[simp] theorem State.drawn_ctxs (s : State) : s.drawn.ctxs = s.ctxs := rfl
@[simp] theorem State.drawn_descs (s : State) : s.drawn.descs = s.descs := rfl
@[simp] theorem State.drawn_xls (s : State) : s.drawn.xls = s.xls := rfl
@[simp] theorem State.drawn_reqs (s : State) : s.drawn.reqs = s.reqs := rfl
@[simp] theorem State.drawn_invals (s : State) : s.drawn.invals = s.invals := rfl
@[simp] theorem State.drawn_sync (s : State) : s.drawn.sync = s.sync := rfl
@[simp] theorem State.drawn_sec (s : State) : s.drawn.sec = s.sec := rfl
@[simp] theorem State.drawn_health (s : State) : s.drawn.health = s.health := rfl
@[simp] theorem State.drawn_obs (s : State) : s.drawn.obs = s.obs := rfl
@[simp] theorem State.drawn_sent (s : State) : s.drawn.sent = s.sent := rfl
@[simp] theorem State.drawn_switching (s : State) : s.drawn.switching = s.switching := rfl

/-! ### updTest -/

@[simp] theorem State.updTest_pending (s : State) (u : Nat) (f : UnitTest → UnitTest) : (s.updTest u f).pending = s.pending := rfl
@[simp] theorem State.updTest_env (s : State) (u : Nat) (f : UnitTest → UnitTest) : (s.updTest u f).env = s.env := rfl
@[simp] theorem State.updTest_free (s : State) (u : Nat) (f : UnitTest → UnitTest) : (s.updTest u f).free = s.free := rfl
@[simp] theorem State.updTest_timebase (s : State) (u : Nat) (f : UnitTest → UnitTest) : (s.updTest u f).timebase = s.timebase := rfl
@[simp] theorem State.updTest_hub (s : State) (u : Nat) (f : UnitTest → UnitTest) : (s.updTest u f).hub = s.hub := rfl
@[simp] theorem State.updTest_moraine (s : State) (u : Nat) (f : UnitTest → UnitTest) : (s.updTest u f).moraine = s.moraine := rfl
@[simp] theorem State.updTest_mem (s : State) (u : Nat) (f : UnitTest → UnitTest) : (s.updTest u f).mem = s.mem := rfl
@[simp] theorem State.updTest_memsys (s : State) (u : Nat) (f : UnitTest → UnitTest) : (s.updTest u f).memsys = s.memsys := rfl
@[simp] theorem State.updTest_host (s : State) (u : Nat) (f : UnitTest → UnitTest) : (s.updTest u f).host = s.host := rfl
@[simp] theorem State.updTest_keys (s : State) (u : Nat) (f : UnitTest → UnitTest) : (s.updTest u f).keys = s.keys := rfl
@[simp] theorem State.updTest_clusters (s : State) (u : Nat) (f : UnitTest → UnitTest) : (s.updTest u f).clusters = s.clusters := rfl
@[simp] theorem State.updTest_ctxs (s : State) (u : Nat) (f : UnitTest → UnitTest) : (s.updTest u f).ctxs = s.ctxs := rfl
@[simp] theorem State.updTest_descs (s : State) (u : Nat) (f : UnitTest → UnitTest) : (s.updTest u f).descs = s.descs := rfl
@[simp] theorem State.updTest_xls (s : State) (u : Nat) (f : UnitTest → UnitTest) : (s.updTest u f).xls = s.xls := rfl
@[simp] theorem State.updTest_reqs (s : State) (u : Nat) (f : UnitTest → UnitTest) : (s.updTest u f).reqs = s.reqs := rfl
@[simp] theorem State.updTest_invals (s : State) (u : Nat) (f : UnitTest → UnitTest) : (s.updTest u f).invals = s.invals := rfl
@[simp] theorem State.updTest_sync (s : State) (u : Nat) (f : UnitTest → UnitTest) : (s.updTest u f).sync = s.sync := rfl
@[simp] theorem State.updTest_sec (s : State) (u : Nat) (f : UnitTest → UnitTest) : (s.updTest u f).sec = s.sec := rfl
@[simp] theorem State.updTest_obs (s : State) (u : Nat) (f : UnitTest → UnitTest) : (s.updTest u f).obs = s.obs := rfl
@[simp] theorem State.updTest_sent (s : State) (u : Nat) (f : UnitTest → UnitTest) : (s.updTest u f).sent = s.sent := rfl
@[simp] theorem State.updTest_switching (s : State) (u : Nat) (f : UnitTest → UnitTest) : (s.updTest u f).switching = s.switching := rfl

/-! ### tallyCl -/

@[simp] theorem State.tallyCl_pending (s : State) (e cl : Nat) (ctx : Option Nat) (n : Nat) : (s.tallyCl e cl ctx n).pending = s.pending := rfl
@[simp] theorem State.tallyCl_env (s : State) (e cl : Nat) (ctx : Option Nat) (n : Nat) : (s.tallyCl e cl ctx n).env = s.env := rfl
@[simp] theorem State.tallyCl_free (s : State) (e cl : Nat) (ctx : Option Nat) (n : Nat) : (s.tallyCl e cl ctx n).free = s.free := rfl
@[simp] theorem State.tallyCl_timebase (s : State) (e cl : Nat) (ctx : Option Nat) (n : Nat) : (s.tallyCl e cl ctx n).timebase = s.timebase := rfl
@[simp] theorem State.tallyCl_hub (s : State) (e cl : Nat) (ctx : Option Nat) (n : Nat) : (s.tallyCl e cl ctx n).hub = s.hub := rfl
@[simp] theorem State.tallyCl_moraine (s : State) (e cl : Nat) (ctx : Option Nat) (n : Nat) : (s.tallyCl e cl ctx n).moraine = s.moraine := rfl
@[simp] theorem State.tallyCl_mem (s : State) (e cl : Nat) (ctx : Option Nat) (n : Nat) : (s.tallyCl e cl ctx n).mem = s.mem := rfl
@[simp] theorem State.tallyCl_memsys (s : State) (e cl : Nat) (ctx : Option Nat) (n : Nat) : (s.tallyCl e cl ctx n).memsys = s.memsys := rfl
@[simp] theorem State.tallyCl_host (s : State) (e cl : Nat) (ctx : Option Nat) (n : Nat) : (s.tallyCl e cl ctx n).host = s.host := rfl
@[simp] theorem State.tallyCl_keys (s : State) (e cl : Nat) (ctx : Option Nat) (n : Nat) : (s.tallyCl e cl ctx n).keys = s.keys := rfl
@[simp] theorem State.tallyCl_clusters (s : State) (e cl : Nat) (ctx : Option Nat) (n : Nat) : (s.tallyCl e cl ctx n).clusters = s.clusters := rfl
@[simp] theorem State.tallyCl_ctxs (s : State) (e cl : Nat) (ctx : Option Nat) (n : Nat) : (s.tallyCl e cl ctx n).ctxs = s.ctxs := rfl
@[simp] theorem State.tallyCl_descs (s : State) (e cl : Nat) (ctx : Option Nat) (n : Nat) : (s.tallyCl e cl ctx n).descs = s.descs := rfl
@[simp] theorem State.tallyCl_xls (s : State) (e cl : Nat) (ctx : Option Nat) (n : Nat) : (s.tallyCl e cl ctx n).xls = s.xls := rfl
@[simp] theorem State.tallyCl_reqs (s : State) (e cl : Nat) (ctx : Option Nat) (n : Nat) : (s.tallyCl e cl ctx n).reqs = s.reqs := rfl
@[simp] theorem State.tallyCl_invals (s : State) (e cl : Nat) (ctx : Option Nat) (n : Nat) : (s.tallyCl e cl ctx n).invals = s.invals := rfl
@[simp] theorem State.tallyCl_sync (s : State) (e cl : Nat) (ctx : Option Nat) (n : Nat) : (s.tallyCl e cl ctx n).sync = s.sync := rfl
@[simp] theorem State.tallyCl_sec (s : State) (e cl : Nat) (ctx : Option Nat) (n : Nat) : (s.tallyCl e cl ctx n).sec = s.sec := rfl
@[simp] theorem State.tallyCl_health (s : State) (e cl : Nat) (ctx : Option Nat) (n : Nat) : (s.tallyCl e cl ctx n).health = s.health := rfl
@[simp] theorem State.tallyCl_sent (s : State) (e cl : Nat) (ctx : Option Nat) (n : Nat) : (s.tallyCl e cl ctx n).sent = s.sent := rfl
@[simp] theorem State.tallyCl_switching (s : State) (e cl : Nat) (ctx : Option Nat) (n : Nat) : (s.tallyCl e cl ctx n).switching = s.switching := rfl

/-! ### tallyDie -/

@[simp] theorem State.tallyDie_pending (s : State) (e die n : Nat) : (s.tallyDie e die n).pending = s.pending := rfl
@[simp] theorem State.tallyDie_env (s : State) (e die n : Nat) : (s.tallyDie e die n).env = s.env := rfl
@[simp] theorem State.tallyDie_free (s : State) (e die n : Nat) : (s.tallyDie e die n).free = s.free := rfl
@[simp] theorem State.tallyDie_timebase (s : State) (e die n : Nat) : (s.tallyDie e die n).timebase = s.timebase := rfl
@[simp] theorem State.tallyDie_hub (s : State) (e die n : Nat) : (s.tallyDie e die n).hub = s.hub := rfl
@[simp] theorem State.tallyDie_moraine (s : State) (e die n : Nat) : (s.tallyDie e die n).moraine = s.moraine := rfl
@[simp] theorem State.tallyDie_mem (s : State) (e die n : Nat) : (s.tallyDie e die n).mem = s.mem := rfl
@[simp] theorem State.tallyDie_memsys (s : State) (e die n : Nat) : (s.tallyDie e die n).memsys = s.memsys := rfl
@[simp] theorem State.tallyDie_host (s : State) (e die n : Nat) : (s.tallyDie e die n).host = s.host := rfl
@[simp] theorem State.tallyDie_keys (s : State) (e die n : Nat) : (s.tallyDie e die n).keys = s.keys := rfl
@[simp] theorem State.tallyDie_clusters (s : State) (e die n : Nat) : (s.tallyDie e die n).clusters = s.clusters := rfl
@[simp] theorem State.tallyDie_ctxs (s : State) (e die n : Nat) : (s.tallyDie e die n).ctxs = s.ctxs := rfl
@[simp] theorem State.tallyDie_descs (s : State) (e die n : Nat) : (s.tallyDie e die n).descs = s.descs := rfl
@[simp] theorem State.tallyDie_xls (s : State) (e die n : Nat) : (s.tallyDie e die n).xls = s.xls := rfl
@[simp] theorem State.tallyDie_reqs (s : State) (e die n : Nat) : (s.tallyDie e die n).reqs = s.reqs := rfl
@[simp] theorem State.tallyDie_invals (s : State) (e die n : Nat) : (s.tallyDie e die n).invals = s.invals := rfl
@[simp] theorem State.tallyDie_sync (s : State) (e die n : Nat) : (s.tallyDie e die n).sync = s.sync := rfl
@[simp] theorem State.tallyDie_sec (s : State) (e die n : Nat) : (s.tallyDie e die n).sec = s.sec := rfl
@[simp] theorem State.tallyDie_health (s : State) (e die n : Nat) : (s.tallyDie e die n).health = s.health := rfl
@[simp] theorem State.tallyDie_sent (s : State) (e die n : Nat) : (s.tallyDie e die n).sent = s.sent := rfl
@[simp] theorem State.tallyDie_switching (s : State) (e die n : Nat) : (s.tallyDie e die n).switching = s.switching := rfl

/-! ### tally -/

@[simp] theorem State.tally_pending (s : State) (e : Nat) (ctx : Option Nat) (n : Nat) : (s.tally e ctx n).pending = s.pending := rfl
@[simp] theorem State.tally_env (s : State) (e : Nat) (ctx : Option Nat) (n : Nat) : (s.tally e ctx n).env = s.env := rfl
@[simp] theorem State.tally_free (s : State) (e : Nat) (ctx : Option Nat) (n : Nat) : (s.tally e ctx n).free = s.free := rfl
@[simp] theorem State.tally_timebase (s : State) (e : Nat) (ctx : Option Nat) (n : Nat) : (s.tally e ctx n).timebase = s.timebase := rfl
@[simp] theorem State.tally_hub (s : State) (e : Nat) (ctx : Option Nat) (n : Nat) : (s.tally e ctx n).hub = s.hub := rfl
@[simp] theorem State.tally_moraine (s : State) (e : Nat) (ctx : Option Nat) (n : Nat) : (s.tally e ctx n).moraine = s.moraine := rfl
@[simp] theorem State.tally_mem (s : State) (e : Nat) (ctx : Option Nat) (n : Nat) : (s.tally e ctx n).mem = s.mem := rfl
@[simp] theorem State.tally_memsys (s : State) (e : Nat) (ctx : Option Nat) (n : Nat) : (s.tally e ctx n).memsys = s.memsys := rfl
@[simp] theorem State.tally_host (s : State) (e : Nat) (ctx : Option Nat) (n : Nat) : (s.tally e ctx n).host = s.host := rfl
@[simp] theorem State.tally_keys (s : State) (e : Nat) (ctx : Option Nat) (n : Nat) : (s.tally e ctx n).keys = s.keys := rfl
@[simp] theorem State.tally_clusters (s : State) (e : Nat) (ctx : Option Nat) (n : Nat) : (s.tally e ctx n).clusters = s.clusters := rfl
@[simp] theorem State.tally_ctxs (s : State) (e : Nat) (ctx : Option Nat) (n : Nat) : (s.tally e ctx n).ctxs = s.ctxs := rfl
@[simp] theorem State.tally_descs (s : State) (e : Nat) (ctx : Option Nat) (n : Nat) : (s.tally e ctx n).descs = s.descs := rfl
@[simp] theorem State.tally_xls (s : State) (e : Nat) (ctx : Option Nat) (n : Nat) : (s.tally e ctx n).xls = s.xls := rfl
@[simp] theorem State.tally_reqs (s : State) (e : Nat) (ctx : Option Nat) (n : Nat) : (s.tally e ctx n).reqs = s.reqs := rfl
@[simp] theorem State.tally_invals (s : State) (e : Nat) (ctx : Option Nat) (n : Nat) : (s.tally e ctx n).invals = s.invals := rfl
@[simp] theorem State.tally_sync (s : State) (e : Nat) (ctx : Option Nat) (n : Nat) : (s.tally e ctx n).sync = s.sync := rfl
@[simp] theorem State.tally_sec (s : State) (e : Nat) (ctx : Option Nat) (n : Nat) : (s.tally e ctx n).sec = s.sec := rfl
@[simp] theorem State.tally_health (s : State) (e : Nat) (ctx : Option Nat) (n : Nat) : (s.tally e ctx n).health = s.health := rfl
@[simp] theorem State.tally_sent (s : State) (e : Nat) (ctx : Option Nat) (n : Nat) : (s.tally e ctx n).sent = s.sent := rfl
@[simp] theorem State.tally_switching (s : State) (e : Nat) (ctx : Option Nat) (n : Nat) : (s.tally e ctx n).switching = s.switching := rfl

/-! ### updCtx -/

@[simp] theorem State.updCtx_pending (s : State) (cx : Nat) (f : Ctx → Ctx) : (s.updCtx cx f).pending = s.pending := rfl
@[simp] theorem State.updCtx_env (s : State) (cx : Nat) (f : Ctx → Ctx) : (s.updCtx cx f).env = s.env := rfl
@[simp] theorem State.updCtx_free (s : State) (cx : Nat) (f : Ctx → Ctx) : (s.updCtx cx f).free = s.free := rfl
@[simp] theorem State.updCtx_timebase (s : State) (cx : Nat) (f : Ctx → Ctx) : (s.updCtx cx f).timebase = s.timebase := rfl
@[simp] theorem State.updCtx_hub (s : State) (cx : Nat) (f : Ctx → Ctx) : (s.updCtx cx f).hub = s.hub := rfl
@[simp] theorem State.updCtx_moraine (s : State) (cx : Nat) (f : Ctx → Ctx) : (s.updCtx cx f).moraine = s.moraine := rfl
@[simp] theorem State.updCtx_mem (s : State) (cx : Nat) (f : Ctx → Ctx) : (s.updCtx cx f).mem = s.mem := rfl
@[simp] theorem State.updCtx_memsys (s : State) (cx : Nat) (f : Ctx → Ctx) : (s.updCtx cx f).memsys = s.memsys := rfl
@[simp] theorem State.updCtx_host (s : State) (cx : Nat) (f : Ctx → Ctx) : (s.updCtx cx f).host = s.host := rfl
@[simp] theorem State.updCtx_keys (s : State) (cx : Nat) (f : Ctx → Ctx) : (s.updCtx cx f).keys = s.keys := rfl
@[simp] theorem State.updCtx_clusters (s : State) (cx : Nat) (f : Ctx → Ctx) : (s.updCtx cx f).clusters = s.clusters := rfl
@[simp] theorem State.updCtx_descs (s : State) (cx : Nat) (f : Ctx → Ctx) : (s.updCtx cx f).descs = s.descs := rfl
@[simp] theorem State.updCtx_xls (s : State) (cx : Nat) (f : Ctx → Ctx) : (s.updCtx cx f).xls = s.xls := rfl
@[simp] theorem State.updCtx_reqs (s : State) (cx : Nat) (f : Ctx → Ctx) : (s.updCtx cx f).reqs = s.reqs := rfl
@[simp] theorem State.updCtx_invals (s : State) (cx : Nat) (f : Ctx → Ctx) : (s.updCtx cx f).invals = s.invals := rfl
@[simp] theorem State.updCtx_sync (s : State) (cx : Nat) (f : Ctx → Ctx) : (s.updCtx cx f).sync = s.sync := rfl
@[simp] theorem State.updCtx_sec (s : State) (cx : Nat) (f : Ctx → Ctx) : (s.updCtx cx f).sec = s.sec := rfl
@[simp] theorem State.updCtx_health (s : State) (cx : Nat) (f : Ctx → Ctx) : (s.updCtx cx f).health = s.health := rfl
@[simp] theorem State.updCtx_obs (s : State) (cx : Nat) (f : Ctx → Ctx) : (s.updCtx cx f).obs = s.obs := rfl
@[simp] theorem State.updCtx_sent (s : State) (cx : Nat) (f : Ctx → Ctx) : (s.updCtx cx f).sent = s.sent := rfl
@[simp] theorem State.updCtx_switching (s : State) (cx : Nat) (f : Ctx → Ctx) : (s.updCtx cx f).switching = s.switching := rfl

/-! ### updAdm -/

@[simp] theorem State.updAdm_pending (s : State) (d : DRef) (f : Adm → Adm) : (s.updAdm d f).pending = s.pending := rfl
@[simp] theorem State.updAdm_env (s : State) (d : DRef) (f : Adm → Adm) : (s.updAdm d f).env = s.env := rfl
@[simp] theorem State.updAdm_free (s : State) (d : DRef) (f : Adm → Adm) : (s.updAdm d f).free = s.free := rfl
@[simp] theorem State.updAdm_timebase (s : State) (d : DRef) (f : Adm → Adm) : (s.updAdm d f).timebase = s.timebase := rfl
@[simp] theorem State.updAdm_hub (s : State) (d : DRef) (f : Adm → Adm) : (s.updAdm d f).hub = s.hub := rfl
@[simp] theorem State.updAdm_moraine (s : State) (d : DRef) (f : Adm → Adm) : (s.updAdm d f).moraine = s.moraine := rfl
@[simp] theorem State.updAdm_mem (s : State) (d : DRef) (f : Adm → Adm) : (s.updAdm d f).mem = s.mem := rfl
@[simp] theorem State.updAdm_memsys (s : State) (d : DRef) (f : Adm → Adm) : (s.updAdm d f).memsys = s.memsys := rfl
@[simp] theorem State.updAdm_host (s : State) (d : DRef) (f : Adm → Adm) : (s.updAdm d f).host = s.host := rfl
@[simp] theorem State.updAdm_keys (s : State) (d : DRef) (f : Adm → Adm) : (s.updAdm d f).keys = s.keys := rfl
@[simp] theorem State.updAdm_clusters (s : State) (d : DRef) (f : Adm → Adm) : (s.updAdm d f).clusters = s.clusters := rfl
@[simp] theorem State.updAdm_ctxs (s : State) (d : DRef) (f : Adm → Adm) : (s.updAdm d f).ctxs = s.ctxs := rfl
@[simp] theorem State.updAdm_xls (s : State) (d : DRef) (f : Adm → Adm) : (s.updAdm d f).xls = s.xls := rfl
@[simp] theorem State.updAdm_reqs (s : State) (d : DRef) (f : Adm → Adm) : (s.updAdm d f).reqs = s.reqs := rfl
@[simp] theorem State.updAdm_invals (s : State) (d : DRef) (f : Adm → Adm) : (s.updAdm d f).invals = s.invals := rfl
@[simp] theorem State.updAdm_sync (s : State) (d : DRef) (f : Adm → Adm) : (s.updAdm d f).sync = s.sync := rfl
@[simp] theorem State.updAdm_sec (s : State) (d : DRef) (f : Adm → Adm) : (s.updAdm d f).sec = s.sec := rfl
@[simp] theorem State.updAdm_health (s : State) (d : DRef) (f : Adm → Adm) : (s.updAdm d f).health = s.health := rfl
@[simp] theorem State.updAdm_obs (s : State) (d : DRef) (f : Adm → Adm) : (s.updAdm d f).obs = s.obs := rfl
@[simp] theorem State.updAdm_sent (s : State) (d : DRef) (f : Adm → Adm) : (s.updAdm d f).sent = s.sent := rfl
@[simp] theorem State.updAdm_switching (s : State) (d : DRef) (f : Adm → Adm) : (s.updAdm d f).switching = s.switching := rfl

/-! ### setProg -/

@[simp] theorem State.setProg_pending (s : State) (d : DRef) (p : Progress) : (s.setProg d p).pending = s.pending := rfl
@[simp] theorem State.setProg_env (s : State) (d : DRef) (p : Progress) : (s.setProg d p).env = s.env := rfl
@[simp] theorem State.setProg_free (s : State) (d : DRef) (p : Progress) : (s.setProg d p).free = s.free := rfl
@[simp] theorem State.setProg_timebase (s : State) (d : DRef) (p : Progress) : (s.setProg d p).timebase = s.timebase := rfl
@[simp] theorem State.setProg_hub (s : State) (d : DRef) (p : Progress) : (s.setProg d p).hub = s.hub := rfl
@[simp] theorem State.setProg_moraine (s : State) (d : DRef) (p : Progress) : (s.setProg d p).moraine = s.moraine := rfl
@[simp] theorem State.setProg_mem (s : State) (d : DRef) (p : Progress) : (s.setProg d p).mem = s.mem := rfl
@[simp] theorem State.setProg_memsys (s : State) (d : DRef) (p : Progress) : (s.setProg d p).memsys = s.memsys := rfl
@[simp] theorem State.setProg_host (s : State) (d : DRef) (p : Progress) : (s.setProg d p).host = s.host := rfl
@[simp] theorem State.setProg_keys (s : State) (d : DRef) (p : Progress) : (s.setProg d p).keys = s.keys := rfl
@[simp] theorem State.setProg_clusters (s : State) (d : DRef) (p : Progress) : (s.setProg d p).clusters = s.clusters := rfl
@[simp] theorem State.setProg_ctxs (s : State) (d : DRef) (p : Progress) : (s.setProg d p).ctxs = s.ctxs := rfl
@[simp] theorem State.setProg_xls (s : State) (d : DRef) (p : Progress) : (s.setProg d p).xls = s.xls := rfl
@[simp] theorem State.setProg_reqs (s : State) (d : DRef) (p : Progress) : (s.setProg d p).reqs = s.reqs := rfl
@[simp] theorem State.setProg_invals (s : State) (d : DRef) (p : Progress) : (s.setProg d p).invals = s.invals := rfl
@[simp] theorem State.setProg_sync (s : State) (d : DRef) (p : Progress) : (s.setProg d p).sync = s.sync := rfl
@[simp] theorem State.setProg_sec (s : State) (d : DRef) (p : Progress) : (s.setProg d p).sec = s.sec := rfl
@[simp] theorem State.setProg_health (s : State) (d : DRef) (p : Progress) : (s.setProg d p).health = s.health := rfl
@[simp] theorem State.setProg_obs (s : State) (d : DRef) (p : Progress) : (s.setProg d p).obs = s.obs := rfl
@[simp] theorem State.setProg_sent (s : State) (d : DRef) (p : Progress) : (s.setProg d p).sent = s.sent := rfl
@[simp] theorem State.setProg_switching (s : State) (d : DRef) (p : Progress) : (s.setProg d p).switching = s.switching := rfl

/-! ### updRun -/

@[simp] theorem State.updRun_pending (s : State) (d : DRef) (f : Run → Run) : (s.updRun d f).pending = s.pending := rfl
@[simp] theorem State.updRun_env (s : State) (d : DRef) (f : Run → Run) : (s.updRun d f).env = s.env := rfl
@[simp] theorem State.updRun_free (s : State) (d : DRef) (f : Run → Run) : (s.updRun d f).free = s.free := rfl
@[simp] theorem State.updRun_timebase (s : State) (d : DRef) (f : Run → Run) : (s.updRun d f).timebase = s.timebase := rfl
@[simp] theorem State.updRun_hub (s : State) (d : DRef) (f : Run → Run) : (s.updRun d f).hub = s.hub := rfl
@[simp] theorem State.updRun_moraine (s : State) (d : DRef) (f : Run → Run) : (s.updRun d f).moraine = s.moraine := rfl
@[simp] theorem State.updRun_mem (s : State) (d : DRef) (f : Run → Run) : (s.updRun d f).mem = s.mem := rfl
@[simp] theorem State.updRun_memsys (s : State) (d : DRef) (f : Run → Run) : (s.updRun d f).memsys = s.memsys := rfl
@[simp] theorem State.updRun_host (s : State) (d : DRef) (f : Run → Run) : (s.updRun d f).host = s.host := rfl
@[simp] theorem State.updRun_keys (s : State) (d : DRef) (f : Run → Run) : (s.updRun d f).keys = s.keys := rfl
@[simp] theorem State.updRun_clusters (s : State) (d : DRef) (f : Run → Run) : (s.updRun d f).clusters = s.clusters := rfl
@[simp] theorem State.updRun_ctxs (s : State) (d : DRef) (f : Run → Run) : (s.updRun d f).ctxs = s.ctxs := rfl
@[simp] theorem State.updRun_xls (s : State) (d : DRef) (f : Run → Run) : (s.updRun d f).xls = s.xls := rfl
@[simp] theorem State.updRun_reqs (s : State) (d : DRef) (f : Run → Run) : (s.updRun d f).reqs = s.reqs := rfl
@[simp] theorem State.updRun_invals (s : State) (d : DRef) (f : Run → Run) : (s.updRun d f).invals = s.invals := rfl
@[simp] theorem State.updRun_sync (s : State) (d : DRef) (f : Run → Run) : (s.updRun d f).sync = s.sync := rfl
@[simp] theorem State.updRun_sec (s : State) (d : DRef) (f : Run → Run) : (s.updRun d f).sec = s.sec := rfl
@[simp] theorem State.updRun_health (s : State) (d : DRef) (f : Run → Run) : (s.updRun d f).health = s.health := rfl
@[simp] theorem State.updRun_obs (s : State) (d : DRef) (f : Run → Run) : (s.updRun d f).obs = s.obs := rfl
@[simp] theorem State.updRun_sent (s : State) (d : DRef) (f : Run → Run) : (s.updRun d f).sent = s.sent := rfl
@[simp] theorem State.updRun_switching (s : State) (d : DRef) (f : Run → Run) : (s.updRun d f).switching = s.switching := rfl

/-! ### markDegraded -/

@[simp] theorem State.markDegraded_pending (s : State) : s.markDegraded.pending = s.pending := rfl
@[simp] theorem State.markDegraded_env (s : State) : s.markDegraded.env = s.env := rfl
@[simp] theorem State.markDegraded_free (s : State) : s.markDegraded.free = s.free := rfl
@[simp] theorem State.markDegraded_timebase (s : State) : s.markDegraded.timebase = s.timebase := rfl
@[simp] theorem State.markDegraded_hub (s : State) : s.markDegraded.hub = s.hub := rfl
@[simp] theorem State.markDegraded_moraine (s : State) : s.markDegraded.moraine = s.moraine := rfl
@[simp] theorem State.markDegraded_mem (s : State) : s.markDegraded.mem = s.mem := rfl
@[simp] theorem State.markDegraded_memsys (s : State) : s.markDegraded.memsys = s.memsys := rfl
@[simp] theorem State.markDegraded_host (s : State) : s.markDegraded.host = s.host := rfl
@[simp] theorem State.markDegraded_keys (s : State) : s.markDegraded.keys = s.keys := rfl
@[simp] theorem State.markDegraded_clusters (s : State) : s.markDegraded.clusters = s.clusters := rfl
@[simp] theorem State.markDegraded_ctxs (s : State) : s.markDegraded.ctxs = s.ctxs := rfl
@[simp] theorem State.markDegraded_xls (s : State) : s.markDegraded.xls = s.xls := rfl
@[simp] theorem State.markDegraded_reqs (s : State) : s.markDegraded.reqs = s.reqs := rfl
@[simp] theorem State.markDegraded_invals (s : State) : s.markDegraded.invals = s.invals := rfl
@[simp] theorem State.markDegraded_sync (s : State) : s.markDegraded.sync = s.sync := rfl
@[simp] theorem State.markDegraded_sec (s : State) : s.markDegraded.sec = s.sec := rfl
@[simp] theorem State.markDegraded_health (s : State) : s.markDegraded.health = s.health := rfl
@[simp] theorem State.markDegraded_obs (s : State) : s.markDegraded.obs = s.obs := rfl
@[simp] theorem State.markDegraded_sent (s : State) : s.markDegraded.sent = s.sent := rfl
@[simp] theorem State.markDegraded_switching (s : State) : s.markDegraded.switching = s.switching := rfl

/-! ### hostWrite -/

@[simp] theorem State.hostWrite_pending (s : State) (sp : HostSpace) (a : Nat) (bs : List Byte) : (s.hostWrite sp a bs).pending = s.pending := rfl
@[simp] theorem State.hostWrite_env (s : State) (sp : HostSpace) (a : Nat) (bs : List Byte) : (s.hostWrite sp a bs).env = s.env := rfl
@[simp] theorem State.hostWrite_free (s : State) (sp : HostSpace) (a : Nat) (bs : List Byte) : (s.hostWrite sp a bs).free = s.free := rfl
@[simp] theorem State.hostWrite_timebase (s : State) (sp : HostSpace) (a : Nat) (bs : List Byte) : (s.hostWrite sp a bs).timebase = s.timebase := rfl
@[simp] theorem State.hostWrite_hub (s : State) (sp : HostSpace) (a : Nat) (bs : List Byte) : (s.hostWrite sp a bs).hub = s.hub := rfl
@[simp] theorem State.hostWrite_moraine (s : State) (sp : HostSpace) (a : Nat) (bs : List Byte) : (s.hostWrite sp a bs).moraine = s.moraine := rfl
@[simp] theorem State.hostWrite_mem (s : State) (sp : HostSpace) (a : Nat) (bs : List Byte) : (s.hostWrite sp a bs).mem = s.mem := rfl
@[simp] theorem State.hostWrite_memsys (s : State) (sp : HostSpace) (a : Nat) (bs : List Byte) : (s.hostWrite sp a bs).memsys = s.memsys := rfl
@[simp] theorem State.hostWrite_keys (s : State) (sp : HostSpace) (a : Nat) (bs : List Byte) : (s.hostWrite sp a bs).keys = s.keys := rfl
@[simp] theorem State.hostWrite_clusters (s : State) (sp : HostSpace) (a : Nat) (bs : List Byte) : (s.hostWrite sp a bs).clusters = s.clusters := rfl
@[simp] theorem State.hostWrite_ctxs (s : State) (sp : HostSpace) (a : Nat) (bs : List Byte) : (s.hostWrite sp a bs).ctxs = s.ctxs := rfl
@[simp] theorem State.hostWrite_descs (s : State) (sp : HostSpace) (a : Nat) (bs : List Byte) : (s.hostWrite sp a bs).descs = s.descs := rfl
@[simp] theorem State.hostWrite_xls (s : State) (sp : HostSpace) (a : Nat) (bs : List Byte) : (s.hostWrite sp a bs).xls = s.xls := rfl
@[simp] theorem State.hostWrite_reqs (s : State) (sp : HostSpace) (a : Nat) (bs : List Byte) : (s.hostWrite sp a bs).reqs = s.reqs := rfl
@[simp] theorem State.hostWrite_invals (s : State) (sp : HostSpace) (a : Nat) (bs : List Byte) : (s.hostWrite sp a bs).invals = s.invals := rfl
@[simp] theorem State.hostWrite_sync (s : State) (sp : HostSpace) (a : Nat) (bs : List Byte) : (s.hostWrite sp a bs).sync = s.sync := rfl
@[simp] theorem State.hostWrite_sec (s : State) (sp : HostSpace) (a : Nat) (bs : List Byte) : (s.hostWrite sp a bs).sec = s.sec := rfl
@[simp] theorem State.hostWrite_health (s : State) (sp : HostSpace) (a : Nat) (bs : List Byte) : (s.hostWrite sp a bs).health = s.health := rfl
@[simp] theorem State.hostWrite_obs (s : State) (sp : HostSpace) (a : Nat) (bs : List Byte) : (s.hostWrite sp a bs).obs = s.obs := rfl
@[simp] theorem State.hostWrite_sent (s : State) (sp : HostSpace) (a : Nat) (bs : List Byte) : (s.hostWrite sp a bs).sent = s.sent := rfl
@[simp] theorem State.hostWrite_switching (s : State) (sp : HostSpace) (a : Nat) (bs : List Byte) : (s.hostWrite sp a bs).switching = s.switching := rfl

/-! ### hostPut -/

@[simp] theorem State.hostPut_pending (s : State) (sp : HostSpace) (a n v : Nat) : (s.hostPut sp a n v).pending = s.pending := rfl
@[simp] theorem State.hostPut_env (s : State) (sp : HostSpace) (a n v : Nat) : (s.hostPut sp a n v).env = s.env := rfl
@[simp] theorem State.hostPut_free (s : State) (sp : HostSpace) (a n v : Nat) : (s.hostPut sp a n v).free = s.free := rfl
@[simp] theorem State.hostPut_timebase (s : State) (sp : HostSpace) (a n v : Nat) : (s.hostPut sp a n v).timebase = s.timebase := rfl
@[simp] theorem State.hostPut_hub (s : State) (sp : HostSpace) (a n v : Nat) : (s.hostPut sp a n v).hub = s.hub := rfl
@[simp] theorem State.hostPut_moraine (s : State) (sp : HostSpace) (a n v : Nat) : (s.hostPut sp a n v).moraine = s.moraine := rfl
@[simp] theorem State.hostPut_mem (s : State) (sp : HostSpace) (a n v : Nat) : (s.hostPut sp a n v).mem = s.mem := rfl
@[simp] theorem State.hostPut_memsys (s : State) (sp : HostSpace) (a n v : Nat) : (s.hostPut sp a n v).memsys = s.memsys := rfl
@[simp] theorem State.hostPut_keys (s : State) (sp : HostSpace) (a n v : Nat) : (s.hostPut sp a n v).keys = s.keys := rfl
@[simp] theorem State.hostPut_clusters (s : State) (sp : HostSpace) (a n v : Nat) : (s.hostPut sp a n v).clusters = s.clusters := rfl
@[simp] theorem State.hostPut_ctxs (s : State) (sp : HostSpace) (a n v : Nat) : (s.hostPut sp a n v).ctxs = s.ctxs := rfl
@[simp] theorem State.hostPut_descs (s : State) (sp : HostSpace) (a n v : Nat) : (s.hostPut sp a n v).descs = s.descs := rfl
@[simp] theorem State.hostPut_xls (s : State) (sp : HostSpace) (a n v : Nat) : (s.hostPut sp a n v).xls = s.xls := rfl
@[simp] theorem State.hostPut_reqs (s : State) (sp : HostSpace) (a n v : Nat) : (s.hostPut sp a n v).reqs = s.reqs := rfl
@[simp] theorem State.hostPut_invals (s : State) (sp : HostSpace) (a n v : Nat) : (s.hostPut sp a n v).invals = s.invals := rfl
@[simp] theorem State.hostPut_sync (s : State) (sp : HostSpace) (a n v : Nat) : (s.hostPut sp a n v).sync = s.sync := rfl
@[simp] theorem State.hostPut_sec (s : State) (sp : HostSpace) (a n v : Nat) : (s.hostPut sp a n v).sec = s.sec := rfl
@[simp] theorem State.hostPut_health (s : State) (sp : HostSpace) (a n v : Nat) : (s.hostPut sp a n v).health = s.health := rfl
@[simp] theorem State.hostPut_obs (s : State) (sp : HostSpace) (a n v : Nat) : (s.hostPut sp a n v).obs = s.obs := rfl
@[simp] theorem State.hostPut_sent (s : State) (sp : HostSpace) (a n v : Nat) : (s.hostPut sp a n v).sent = s.sent := rfl
@[simp] theorem State.hostPut_switching (s : State) (sp : HostSpace) (a n v : Nat) : (s.hostPut sp a n v).switching = s.switching := rfl

/-! ### send -/

@[simp] theorem State.send_pending (s : State) (m : Message) : (s.send m).pending = s.pending := rfl
@[simp] theorem State.send_env (s : State) (m : Message) : (s.send m).env = s.env := rfl
@[simp] theorem State.send_free (s : State) (m : Message) : (s.send m).free = s.free := rfl
@[simp] theorem State.send_timebase (s : State) (m : Message) : (s.send m).timebase = s.timebase := rfl
@[simp] theorem State.send_hub (s : State) (m : Message) : (s.send m).hub = s.hub := rfl
@[simp] theorem State.send_moraine (s : State) (m : Message) : (s.send m).moraine = s.moraine := rfl
@[simp] theorem State.send_mem (s : State) (m : Message) : (s.send m).mem = s.mem := rfl
@[simp] theorem State.send_memsys (s : State) (m : Message) : (s.send m).memsys = s.memsys := rfl
@[simp] theorem State.send_host (s : State) (m : Message) : (s.send m).host = s.host := rfl
@[simp] theorem State.send_keys (s : State) (m : Message) : (s.send m).keys = s.keys := rfl
@[simp] theorem State.send_clusters (s : State) (m : Message) : (s.send m).clusters = s.clusters := rfl
@[simp] theorem State.send_ctxs (s : State) (m : Message) : (s.send m).ctxs = s.ctxs := rfl
@[simp] theorem State.send_descs (s : State) (m : Message) : (s.send m).descs = s.descs := rfl
@[simp] theorem State.send_xls (s : State) (m : Message) : (s.send m).xls = s.xls := rfl
@[simp] theorem State.send_reqs (s : State) (m : Message) : (s.send m).reqs = s.reqs := rfl
@[simp] theorem State.send_invals (s : State) (m : Message) : (s.send m).invals = s.invals := rfl
@[simp] theorem State.send_sync (s : State) (m : Message) : (s.send m).sync = s.sync := rfl
@[simp] theorem State.send_sec (s : State) (m : Message) : (s.send m).sec = s.sec := rfl
@[simp] theorem State.send_health (s : State) (m : Message) : (s.send m).health = s.health := rfl
@[simp] theorem State.send_obs (s : State) (m : Message) : (s.send m).obs = s.obs := rfl
@[simp] theorem State.send_switching (s : State) (m : Message) : (s.send m).switching = s.switching := rfl

/-! ### grantXl -/

@[simp] theorem State.grantXl_pending (s : State) (p : BitVec 20) (va : Nat) (g : Granule) (w : Bool) : (s.grantXl p va g w).pending = s.pending := rfl
@[simp] theorem State.grantXl_env (s : State) (p : BitVec 20) (va : Nat) (g : Granule) (w : Bool) : (s.grantXl p va g w).env = s.env := rfl
@[simp] theorem State.grantXl_free (s : State) (p : BitVec 20) (va : Nat) (g : Granule) (w : Bool) : (s.grantXl p va g w).free = s.free := rfl
@[simp] theorem State.grantXl_timebase (s : State) (p : BitVec 20) (va : Nat) (g : Granule) (w : Bool) : (s.grantXl p va g w).timebase = s.timebase := rfl
@[simp] theorem State.grantXl_hub (s : State) (p : BitVec 20) (va : Nat) (g : Granule) (w : Bool) : (s.grantXl p va g w).hub = s.hub := rfl
@[simp] theorem State.grantXl_moraine (s : State) (p : BitVec 20) (va : Nat) (g : Granule) (w : Bool) : (s.grantXl p va g w).moraine = s.moraine := rfl
@[simp] theorem State.grantXl_mem (s : State) (p : BitVec 20) (va : Nat) (g : Granule) (w : Bool) : (s.grantXl p va g w).mem = s.mem := rfl
@[simp] theorem State.grantXl_memsys (s : State) (p : BitVec 20) (va : Nat) (g : Granule) (w : Bool) : (s.grantXl p va g w).memsys = s.memsys := rfl
@[simp] theorem State.grantXl_host (s : State) (p : BitVec 20) (va : Nat) (g : Granule) (w : Bool) : (s.grantXl p va g w).host = s.host := rfl
@[simp] theorem State.grantXl_keys (s : State) (p : BitVec 20) (va : Nat) (g : Granule) (w : Bool) : (s.grantXl p va g w).keys = s.keys := rfl
@[simp] theorem State.grantXl_clusters (s : State) (p : BitVec 20) (va : Nat) (g : Granule) (w : Bool) : (s.grantXl p va g w).clusters = s.clusters := rfl
@[simp] theorem State.grantXl_ctxs (s : State) (p : BitVec 20) (va : Nat) (g : Granule) (w : Bool) : (s.grantXl p va g w).ctxs = s.ctxs := rfl
@[simp] theorem State.grantXl_descs (s : State) (p : BitVec 20) (va : Nat) (g : Granule) (w : Bool) : (s.grantXl p va g w).descs = s.descs := rfl
@[simp] theorem State.grantXl_reqs (s : State) (p : BitVec 20) (va : Nat) (g : Granule) (w : Bool) : (s.grantXl p va g w).reqs = s.reqs := rfl
@[simp] theorem State.grantXl_invals (s : State) (p : BitVec 20) (va : Nat) (g : Granule) (w : Bool) : (s.grantXl p va g w).invals = s.invals := rfl
@[simp] theorem State.grantXl_sync (s : State) (p : BitVec 20) (va : Nat) (g : Granule) (w : Bool) : (s.grantXl p va g w).sync = s.sync := rfl
@[simp] theorem State.grantXl_sec (s : State) (p : BitVec 20) (va : Nat) (g : Granule) (w : Bool) : (s.grantXl p va g w).sec = s.sec := rfl
@[simp] theorem State.grantXl_health (s : State) (p : BitVec 20) (va : Nat) (g : Granule) (w : Bool) : (s.grantXl p va g w).health = s.health := rfl
@[simp] theorem State.grantXl_obs (s : State) (p : BitVec 20) (va : Nat) (g : Granule) (w : Bool) : (s.grantXl p va g w).obs = s.obs := rfl
@[simp] theorem State.grantXl_sent (s : State) (p : BitVec 20) (va : Nat) (g : Granule) (w : Bool) : (s.grantXl p va g w).sent = s.sent := rfl
@[simp] theorem State.grantXl_switching (s : State) (p : BitVec 20) (va : Nat) (g : Granule) (w : Bool) : (s.grantXl p va g w).switching = s.switching := rfl

/-! ### log -/

@[simp] theorem State.log_pending (s : State) (r : BitVec 512) : (s.log r).pending = s.pending := rfl
@[simp] theorem State.log_env (s : State) (r : BitVec 512) : (s.log r).env = s.env := rfl
@[simp] theorem State.log_free (s : State) (r : BitVec 512) : (s.log r).free = s.free := rfl
@[simp] theorem State.log_timebase (s : State) (r : BitVec 512) : (s.log r).timebase = s.timebase := rfl
@[simp] theorem State.log_hub (s : State) (r : BitVec 512) : (s.log r).hub = s.hub := rfl
@[simp] theorem State.log_mem (s : State) (r : BitVec 512) : (s.log r).mem = s.mem := rfl
@[simp] theorem State.log_memsys (s : State) (r : BitVec 512) : (s.log r).memsys = s.memsys := rfl
@[simp] theorem State.log_host (s : State) (r : BitVec 512) : (s.log r).host = s.host := rfl
@[simp] theorem State.log_keys (s : State) (r : BitVec 512) : (s.log r).keys = s.keys := rfl
@[simp] theorem State.log_clusters (s : State) (r : BitVec 512) : (s.log r).clusters = s.clusters := rfl
@[simp] theorem State.log_ctxs (s : State) (r : BitVec 512) : (s.log r).ctxs = s.ctxs := rfl
@[simp] theorem State.log_descs (s : State) (r : BitVec 512) : (s.log r).descs = s.descs := rfl
@[simp] theorem State.log_xls (s : State) (r : BitVec 512) : (s.log r).xls = s.xls := rfl
@[simp] theorem State.log_reqs (s : State) (r : BitVec 512) : (s.log r).reqs = s.reqs := rfl
@[simp] theorem State.log_invals (s : State) (r : BitVec 512) : (s.log r).invals = s.invals := rfl
@[simp] theorem State.log_sync (s : State) (r : BitVec 512) : (s.log r).sync = s.sync := rfl
@[simp] theorem State.log_sec (s : State) (r : BitVec 512) : (s.log r).sec = s.sec := rfl
@[simp] theorem State.log_health (s : State) (r : BitVec 512) : (s.log r).health = s.health := rfl
@[simp] theorem State.log_sent (s : State) (r : BitVec 512) : (s.log r).sent = s.sent := rfl
@[simp] theorem State.log_switching (s : State) (r : BitVec 512) : (s.log r).switching = s.switching := rfl

/-! ### record -/

@[simp] theorem State.record_pending (s : State) (k a b : Nat) : (s.record k a b).pending = s.pending := rfl
@[simp] theorem State.record_env (s : State) (k a b : Nat) : (s.record k a b).env = s.env := rfl
@[simp] theorem State.record_free (s : State) (k a b : Nat) : (s.record k a b).free = s.free := rfl
@[simp] theorem State.record_timebase (s : State) (k a b : Nat) : (s.record k a b).timebase = s.timebase := rfl
@[simp] theorem State.record_hub (s : State) (k a b : Nat) : (s.record k a b).hub = s.hub := rfl
@[simp] theorem State.record_mem (s : State) (k a b : Nat) : (s.record k a b).mem = s.mem := rfl
@[simp] theorem State.record_memsys (s : State) (k a b : Nat) : (s.record k a b).memsys = s.memsys := rfl
@[simp] theorem State.record_host (s : State) (k a b : Nat) : (s.record k a b).host = s.host := rfl
@[simp] theorem State.record_keys (s : State) (k a b : Nat) : (s.record k a b).keys = s.keys := rfl
@[simp] theorem State.record_clusters (s : State) (k a b : Nat) : (s.record k a b).clusters = s.clusters := rfl
@[simp] theorem State.record_ctxs (s : State) (k a b : Nat) : (s.record k a b).ctxs = s.ctxs := rfl
@[simp] theorem State.record_descs (s : State) (k a b : Nat) : (s.record k a b).descs = s.descs := rfl
@[simp] theorem State.record_xls (s : State) (k a b : Nat) : (s.record k a b).xls = s.xls := rfl
@[simp] theorem State.record_reqs (s : State) (k a b : Nat) : (s.record k a b).reqs = s.reqs := rfl
@[simp] theorem State.record_invals (s : State) (k a b : Nat) : (s.record k a b).invals = s.invals := rfl
@[simp] theorem State.record_sync (s : State) (k a b : Nat) : (s.record k a b).sync = s.sync := rfl
@[simp] theorem State.record_sec (s : State) (k a b : Nat) : (s.record k a b).sec = s.sec := rfl
@[simp] theorem State.record_health (s : State) (k a b : Nat) : (s.record k a b).health = s.health := rfl
@[simp] theorem State.record_sent (s : State) (k a b : Nat) : (s.record k a b).sent = s.sent := rfl
@[simp] theorem State.record_switching (s : State) (k a b : Nat) : (s.record k a b).switching = s.switching := rfl

/-! ### setEntry -/

@[simp] theorem State.setEntry_pending (s : State) (i : Nat) (e : Krt.Entry) : (s.setEntry i e).pending = s.pending := rfl
@[simp] theorem State.setEntry_env (s : State) (i : Nat) (e : Krt.Entry) : (s.setEntry i e).env = s.env := rfl
@[simp] theorem State.setEntry_free (s : State) (i : Nat) (e : Krt.Entry) : (s.setEntry i e).free = s.free := rfl
@[simp] theorem State.setEntry_timebase (s : State) (i : Nat) (e : Krt.Entry) : (s.setEntry i e).timebase = s.timebase := rfl
@[simp] theorem State.setEntry_hub (s : State) (i : Nat) (e : Krt.Entry) : (s.setEntry i e).hub = s.hub := rfl
@[simp] theorem State.setEntry_moraine (s : State) (i : Nat) (e : Krt.Entry) : (s.setEntry i e).moraine = s.moraine := rfl
@[simp] theorem State.setEntry_mem (s : State) (i : Nat) (e : Krt.Entry) : (s.setEntry i e).mem = s.mem := rfl
@[simp] theorem State.setEntry_memsys (s : State) (i : Nat) (e : Krt.Entry) : (s.setEntry i e).memsys = s.memsys := rfl
@[simp] theorem State.setEntry_host (s : State) (i : Nat) (e : Krt.Entry) : (s.setEntry i e).host = s.host := rfl
@[simp] theorem State.setEntry_clusters (s : State) (i : Nat) (e : Krt.Entry) : (s.setEntry i e).clusters = s.clusters := rfl
@[simp] theorem State.setEntry_ctxs (s : State) (i : Nat) (e : Krt.Entry) : (s.setEntry i e).ctxs = s.ctxs := rfl
@[simp] theorem State.setEntry_descs (s : State) (i : Nat) (e : Krt.Entry) : (s.setEntry i e).descs = s.descs := rfl
@[simp] theorem State.setEntry_xls (s : State) (i : Nat) (e : Krt.Entry) : (s.setEntry i e).xls = s.xls := rfl
@[simp] theorem State.setEntry_reqs (s : State) (i : Nat) (e : Krt.Entry) : (s.setEntry i e).reqs = s.reqs := rfl
@[simp] theorem State.setEntry_invals (s : State) (i : Nat) (e : Krt.Entry) : (s.setEntry i e).invals = s.invals := rfl
@[simp] theorem State.setEntry_sync (s : State) (i : Nat) (e : Krt.Entry) : (s.setEntry i e).sync = s.sync := rfl
@[simp] theorem State.setEntry_sec (s : State) (i : Nat) (e : Krt.Entry) : (s.setEntry i e).sec = s.sec := rfl
@[simp] theorem State.setEntry_health (s : State) (i : Nat) (e : Krt.Entry) : (s.setEntry i e).health = s.health := rfl
@[simp] theorem State.setEntry_obs (s : State) (i : Nat) (e : Krt.Entry) : (s.setEntry i e).obs = s.obs := rfl
@[simp] theorem State.setEntry_sent (s : State) (i : Nat) (e : Krt.Entry) : (s.setEntry i e).sent = s.sent := rfl
@[simp] theorem State.setEntry_switching (s : State) (i : Nat) (e : Krt.Entry) : (s.setEntry i e).switching = s.switching := rfl

/-! ### useInc -/

@[simp] theorem State.useInc_pending (s : State) (l : List Nat) : (s.useInc l).pending = s.pending := rfl
@[simp] theorem State.useInc_env (s : State) (l : List Nat) : (s.useInc l).env = s.env := rfl
@[simp] theorem State.useInc_free (s : State) (l : List Nat) : (s.useInc l).free = s.free := rfl
@[simp] theorem State.useInc_timebase (s : State) (l : List Nat) : (s.useInc l).timebase = s.timebase := rfl
@[simp] theorem State.useInc_hub (s : State) (l : List Nat) : (s.useInc l).hub = s.hub := rfl
@[simp] theorem State.useInc_moraine (s : State) (l : List Nat) : (s.useInc l).moraine = s.moraine := rfl
@[simp] theorem State.useInc_mem (s : State) (l : List Nat) : (s.useInc l).mem = s.mem := rfl
@[simp] theorem State.useInc_memsys (s : State) (l : List Nat) : (s.useInc l).memsys = s.memsys := rfl
@[simp] theorem State.useInc_host (s : State) (l : List Nat) : (s.useInc l).host = s.host := rfl
@[simp] theorem State.useInc_clusters (s : State) (l : List Nat) : (s.useInc l).clusters = s.clusters := rfl
@[simp] theorem State.useInc_ctxs (s : State) (l : List Nat) : (s.useInc l).ctxs = s.ctxs := rfl
@[simp] theorem State.useInc_descs (s : State) (l : List Nat) : (s.useInc l).descs = s.descs := rfl
@[simp] theorem State.useInc_xls (s : State) (l : List Nat) : (s.useInc l).xls = s.xls := rfl
@[simp] theorem State.useInc_reqs (s : State) (l : List Nat) : (s.useInc l).reqs = s.reqs := rfl
@[simp] theorem State.useInc_invals (s : State) (l : List Nat) : (s.useInc l).invals = s.invals := rfl
@[simp] theorem State.useInc_sync (s : State) (l : List Nat) : (s.useInc l).sync = s.sync := rfl
@[simp] theorem State.useInc_sec (s : State) (l : List Nat) : (s.useInc l).sec = s.sec := rfl
@[simp] theorem State.useInc_health (s : State) (l : List Nat) : (s.useInc l).health = s.health := rfl
@[simp] theorem State.useInc_obs (s : State) (l : List Nat) : (s.useInc l).obs = s.obs := rfl
@[simp] theorem State.useInc_sent (s : State) (l : List Nat) : (s.useInc l).sent = s.sent := rfl
@[simp] theorem State.useInc_switching (s : State) (l : List Nat) : (s.useInc l).switching = s.switching := rfl

/-! ### useDec -/

@[simp] theorem State.useDec_pending (s : State) (l : List Nat) : (s.useDec l).pending = s.pending := rfl
@[simp] theorem State.useDec_env (s : State) (l : List Nat) : (s.useDec l).env = s.env := rfl
@[simp] theorem State.useDec_free (s : State) (l : List Nat) : (s.useDec l).free = s.free := rfl
@[simp] theorem State.useDec_timebase (s : State) (l : List Nat) : (s.useDec l).timebase = s.timebase := rfl
@[simp] theorem State.useDec_hub (s : State) (l : List Nat) : (s.useDec l).hub = s.hub := rfl
@[simp] theorem State.useDec_moraine (s : State) (l : List Nat) : (s.useDec l).moraine = s.moraine := rfl
@[simp] theorem State.useDec_mem (s : State) (l : List Nat) : (s.useDec l).mem = s.mem := rfl
@[simp] theorem State.useDec_memsys (s : State) (l : List Nat) : (s.useDec l).memsys = s.memsys := rfl
@[simp] theorem State.useDec_host (s : State) (l : List Nat) : (s.useDec l).host = s.host := rfl
@[simp] theorem State.useDec_clusters (s : State) (l : List Nat) : (s.useDec l).clusters = s.clusters := rfl
@[simp] theorem State.useDec_ctxs (s : State) (l : List Nat) : (s.useDec l).ctxs = s.ctxs := rfl
@[simp] theorem State.useDec_descs (s : State) (l : List Nat) : (s.useDec l).descs = s.descs := rfl
@[simp] theorem State.useDec_xls (s : State) (l : List Nat) : (s.useDec l).xls = s.xls := rfl
@[simp] theorem State.useDec_reqs (s : State) (l : List Nat) : (s.useDec l).reqs = s.reqs := rfl
@[simp] theorem State.useDec_invals (s : State) (l : List Nat) : (s.useDec l).invals = s.invals := rfl
@[simp] theorem State.useDec_sync (s : State) (l : List Nat) : (s.useDec l).sync = s.sync := rfl
@[simp] theorem State.useDec_sec (s : State) (l : List Nat) : (s.useDec l).sec = s.sec := rfl
@[simp] theorem State.useDec_health (s : State) (l : List Nat) : (s.useDec l).health = s.health := rfl
@[simp] theorem State.useDec_obs (s : State) (l : List Nat) : (s.useDec l).obs = s.obs := rfl
@[simp] theorem State.useDec_sent (s : State) (l : List Nat) : (s.useDec l).sent = s.sent := rfl
@[simp] theorem State.useDec_switching (s : State) (l : List Nat) : (s.useDec l).switching = s.switching := rfl

/-! ### freeEntry -/

@[simp] theorem State.freeEntry_pending (s : State) (i gen : Nat) : (s.freeEntry i gen).pending = s.pending := rfl
@[simp] theorem State.freeEntry_env (s : State) (i gen : Nat) : (s.freeEntry i gen).env = s.env := rfl
@[simp] theorem State.freeEntry_free (s : State) (i gen : Nat) : (s.freeEntry i gen).free = s.free := rfl
@[simp] theorem State.freeEntry_timebase (s : State) (i gen : Nat) : (s.freeEntry i gen).timebase = s.timebase := rfl
@[simp] theorem State.freeEntry_hub (s : State) (i gen : Nat) : (s.freeEntry i gen).hub = s.hub := rfl
@[simp] theorem State.freeEntry_moraine (s : State) (i gen : Nat) : (s.freeEntry i gen).moraine = s.moraine := rfl
@[simp] theorem State.freeEntry_mem (s : State) (i gen : Nat) : (s.freeEntry i gen).mem = s.mem := rfl
@[simp] theorem State.freeEntry_host (s : State) (i gen : Nat) : (s.freeEntry i gen).host = s.host := rfl
@[simp] theorem State.freeEntry_clusters (s : State) (i gen : Nat) : (s.freeEntry i gen).clusters = s.clusters := rfl
@[simp] theorem State.freeEntry_descs (s : State) (i gen : Nat) : (s.freeEntry i gen).descs = s.descs := rfl
@[simp] theorem State.freeEntry_xls (s : State) (i gen : Nat) : (s.freeEntry i gen).xls = s.xls := rfl
@[simp] theorem State.freeEntry_reqs (s : State) (i gen : Nat) : (s.freeEntry i gen).reqs = s.reqs := rfl
@[simp] theorem State.freeEntry_invals (s : State) (i gen : Nat) : (s.freeEntry i gen).invals = s.invals := rfl
@[simp] theorem State.freeEntry_sync (s : State) (i gen : Nat) : (s.freeEntry i gen).sync = s.sync := rfl
@[simp] theorem State.freeEntry_health (s : State) (i gen : Nat) : (s.freeEntry i gen).health = s.health := rfl
@[simp] theorem State.freeEntry_obs (s : State) (i gen : Nat) : (s.freeEntry i gen).obs = s.obs := rfl
@[simp] theorem State.freeEntry_sent (s : State) (i gen : Nat) : (s.freeEntry i gen).sent = s.sent := rfl
@[simp] theorem State.freeEntry_switching (s : State) (i gen : Nat) : (s.freeEntry i gen).switching = s.switching := rfl

/-! ### unpost -/

@[simp] theorem State.unpost_pending (s : State) (p : MemWho → Bool) : (s.unpost p).pending = s.pending := rfl
@[simp] theorem State.unpost_env (s : State) (p : MemWho → Bool) : (s.unpost p).env = s.env := rfl
@[simp] theorem State.unpost_free (s : State) (p : MemWho → Bool) : (s.unpost p).free = s.free := rfl
@[simp] theorem State.unpost_timebase (s : State) (p : MemWho → Bool) : (s.unpost p).timebase = s.timebase := rfl
@[simp] theorem State.unpost_hub (s : State) (p : MemWho → Bool) : (s.unpost p).hub = s.hub := rfl
@[simp] theorem State.unpost_moraine (s : State) (p : MemWho → Bool) : (s.unpost p).moraine = s.moraine := rfl
@[simp] theorem State.unpost_mem (s : State) (p : MemWho → Bool) : (s.unpost p).mem = s.mem := rfl
@[simp] theorem State.unpost_host (s : State) (p : MemWho → Bool) : (s.unpost p).host = s.host := rfl
@[simp] theorem State.unpost_keys (s : State) (p : MemWho → Bool) : (s.unpost p).keys = s.keys := rfl
@[simp] theorem State.unpost_clusters (s : State) (p : MemWho → Bool) : (s.unpost p).clusters = s.clusters := rfl
@[simp] theorem State.unpost_ctxs (s : State) (p : MemWho → Bool) : (s.unpost p).ctxs = s.ctxs := rfl
@[simp] theorem State.unpost_descs (s : State) (p : MemWho → Bool) : (s.unpost p).descs = s.descs := rfl
@[simp] theorem State.unpost_xls (s : State) (p : MemWho → Bool) : (s.unpost p).xls = s.xls := rfl
@[simp] theorem State.unpost_reqs (s : State) (p : MemWho → Bool) : (s.unpost p).reqs = s.reqs := rfl
@[simp] theorem State.unpost_invals (s : State) (p : MemWho → Bool) : (s.unpost p).invals = s.invals := rfl
@[simp] theorem State.unpost_sync (s : State) (p : MemWho → Bool) : (s.unpost p).sync = s.sync := rfl
@[simp] theorem State.unpost_sec (s : State) (p : MemWho → Bool) : (s.unpost p).sec = s.sec := rfl
@[simp] theorem State.unpost_health (s : State) (p : MemWho → Bool) : (s.unpost p).health = s.health := rfl
@[simp] theorem State.unpost_obs (s : State) (p : MemWho → Bool) : (s.unpost p).obs = s.obs := rfl
@[simp] theorem State.unpost_sent (s : State) (p : MemWho → Bool) : (s.unpost p).sent = s.sent := rfl
@[simp] theorem State.unpost_switching (s : State) (p : MemWho → Bool) : (s.unpost p).switching = s.switching := rfl

/-! ### dropRebuild -/

@[simp] theorem State.dropRebuild_pending (s : State) (i : Nat) : (s.dropRebuild i).pending = s.pending := rfl
@[simp] theorem State.dropRebuild_env (s : State) (i : Nat) : (s.dropRebuild i).env = s.env := rfl
@[simp] theorem State.dropRebuild_free (s : State) (i : Nat) : (s.dropRebuild i).free = s.free := rfl
@[simp] theorem State.dropRebuild_timebase (s : State) (i : Nat) : (s.dropRebuild i).timebase = s.timebase := rfl
@[simp] theorem State.dropRebuild_hub (s : State) (i : Nat) : (s.dropRebuild i).hub = s.hub := rfl
@[simp] theorem State.dropRebuild_moraine (s : State) (i : Nat) : (s.dropRebuild i).moraine = s.moraine := rfl
@[simp] theorem State.dropRebuild_mem (s : State) (i : Nat) : (s.dropRebuild i).mem = s.mem := rfl
@[simp] theorem State.dropRebuild_host (s : State) (i : Nat) : (s.dropRebuild i).host = s.host := rfl
@[simp] theorem State.dropRebuild_clusters (s : State) (i : Nat) : (s.dropRebuild i).clusters = s.clusters := rfl
@[simp] theorem State.dropRebuild_ctxs (s : State) (i : Nat) : (s.dropRebuild i).ctxs = s.ctxs := rfl
@[simp] theorem State.dropRebuild_descs (s : State) (i : Nat) : (s.dropRebuild i).descs = s.descs := rfl
@[simp] theorem State.dropRebuild_xls (s : State) (i : Nat) : (s.dropRebuild i).xls = s.xls := rfl
@[simp] theorem State.dropRebuild_reqs (s : State) (i : Nat) : (s.dropRebuild i).reqs = s.reqs := rfl
@[simp] theorem State.dropRebuild_invals (s : State) (i : Nat) : (s.dropRebuild i).invals = s.invals := rfl
@[simp] theorem State.dropRebuild_sync (s : State) (i : Nat) : (s.dropRebuild i).sync = s.sync := rfl
@[simp] theorem State.dropRebuild_health (s : State) (i : Nat) : (s.dropRebuild i).health = s.health := rfl
@[simp] theorem State.dropRebuild_obs (s : State) (i : Nat) : (s.dropRebuild i).obs = s.obs := rfl
@[simp] theorem State.dropRebuild_sent (s : State) (i : Nat) : (s.dropRebuild i).sent = s.sent := rfl
@[simp] theorem State.dropRebuild_switching (s : State) (i : Nat) : (s.dropRebuild i).switching = s.switching := rfl

/-! ### putMem -/

@[simp] theorem State.putMem_pending (s : State) (x len : Nat) (m : Memory) : (s.putMem x len m).pending = s.pending := rfl
@[simp] theorem State.putMem_env (s : State) (x len : Nat) (m : Memory) : (s.putMem x len m).env = s.env := rfl
@[simp] theorem State.putMem_free (s : State) (x len : Nat) (m : Memory) : (s.putMem x len m).free = s.free := rfl
@[simp] theorem State.putMem_timebase (s : State) (x len : Nat) (m : Memory) : (s.putMem x len m).timebase = s.timebase := rfl
@[simp] theorem State.putMem_hub (s : State) (x len : Nat) (m : Memory) : (s.putMem x len m).hub = s.hub := rfl
@[simp] theorem State.putMem_moraine (s : State) (x len : Nat) (m : Memory) : (s.putMem x len m).moraine = s.moraine := rfl
@[simp] theorem State.putMem_host (s : State) (x len : Nat) (m : Memory) : (s.putMem x len m).host = s.host := rfl
@[simp] theorem State.putMem_keys (s : State) (x len : Nat) (m : Memory) : (s.putMem x len m).keys = s.keys := rfl
@[simp] theorem State.putMem_clusters (s : State) (x len : Nat) (m : Memory) : (s.putMem x len m).clusters = s.clusters := rfl
@[simp] theorem State.putMem_ctxs (s : State) (x len : Nat) (m : Memory) : (s.putMem x len m).ctxs = s.ctxs := rfl
@[simp] theorem State.putMem_descs (s : State) (x len : Nat) (m : Memory) : (s.putMem x len m).descs = s.descs := rfl
@[simp] theorem State.putMem_xls (s : State) (x len : Nat) (m : Memory) : (s.putMem x len m).xls = s.xls := rfl
@[simp] theorem State.putMem_reqs (s : State) (x len : Nat) (m : Memory) : (s.putMem x len m).reqs = s.reqs := rfl
@[simp] theorem State.putMem_invals (s : State) (x len : Nat) (m : Memory) : (s.putMem x len m).invals = s.invals := rfl
@[simp] theorem State.putMem_sync (s : State) (x len : Nat) (m : Memory) : (s.putMem x len m).sync = s.sync := rfl
@[simp] theorem State.putMem_sec (s : State) (x len : Nat) (m : Memory) : (s.putMem x len m).sec = s.sec := rfl
@[simp] theorem State.putMem_health (s : State) (x len : Nat) (m : Memory) : (s.putMem x len m).health = s.health := rfl
@[simp] theorem State.putMem_obs (s : State) (x len : Nat) (m : Memory) : (s.putMem x len m).obs = s.obs := rfl
@[simp] theorem State.putMem_sent (s : State) (x len : Nat) (m : Memory) : (s.putMem x len m).sent = s.sent := rfl
@[simp] theorem State.putMem_switching (s : State) (x len : Nat) (m : Memory) : (s.putMem x len m).switching = s.switching := rfl

/-! ### updCl -/

@[simp] theorem State.updCl_pending (s : State) (cl : Fin 64) (f : Cluster → Cluster) : (s.updCl cl f).pending = s.pending := rfl
@[simp] theorem State.updCl_env (s : State) (cl : Fin 64) (f : Cluster → Cluster) : (s.updCl cl f).env = s.env := rfl
@[simp] theorem State.updCl_free (s : State) (cl : Fin 64) (f : Cluster → Cluster) : (s.updCl cl f).free = s.free := rfl
@[simp] theorem State.updCl_timebase (s : State) (cl : Fin 64) (f : Cluster → Cluster) : (s.updCl cl f).timebase = s.timebase := rfl
@[simp] theorem State.updCl_hub (s : State) (cl : Fin 64) (f : Cluster → Cluster) : (s.updCl cl f).hub = s.hub := rfl
@[simp] theorem State.updCl_moraine (s : State) (cl : Fin 64) (f : Cluster → Cluster) : (s.updCl cl f).moraine = s.moraine := rfl
@[simp] theorem State.updCl_mem (s : State) (cl : Fin 64) (f : Cluster → Cluster) : (s.updCl cl f).mem = s.mem := rfl
@[simp] theorem State.updCl_memsys (s : State) (cl : Fin 64) (f : Cluster → Cluster) : (s.updCl cl f).memsys = s.memsys := rfl
@[simp] theorem State.updCl_host (s : State) (cl : Fin 64) (f : Cluster → Cluster) : (s.updCl cl f).host = s.host := rfl
@[simp] theorem State.updCl_keys (s : State) (cl : Fin 64) (f : Cluster → Cluster) : (s.updCl cl f).keys = s.keys := rfl
@[simp] theorem State.updCl_ctxs (s : State) (cl : Fin 64) (f : Cluster → Cluster) : (s.updCl cl f).ctxs = s.ctxs := rfl
@[simp] theorem State.updCl_descs (s : State) (cl : Fin 64) (f : Cluster → Cluster) : (s.updCl cl f).descs = s.descs := rfl
@[simp] theorem State.updCl_xls (s : State) (cl : Fin 64) (f : Cluster → Cluster) : (s.updCl cl f).xls = s.xls := rfl
@[simp] theorem State.updCl_reqs (s : State) (cl : Fin 64) (f : Cluster → Cluster) : (s.updCl cl f).reqs = s.reqs := rfl
@[simp] theorem State.updCl_invals (s : State) (cl : Fin 64) (f : Cluster → Cluster) : (s.updCl cl f).invals = s.invals := rfl
@[simp] theorem State.updCl_sync (s : State) (cl : Fin 64) (f : Cluster → Cluster) : (s.updCl cl f).sync = s.sync := rfl
@[simp] theorem State.updCl_sec (s : State) (cl : Fin 64) (f : Cluster → Cluster) : (s.updCl cl f).sec = s.sec := rfl
@[simp] theorem State.updCl_health (s : State) (cl : Fin 64) (f : Cluster → Cluster) : (s.updCl cl f).health = s.health := rfl
@[simp] theorem State.updCl_obs (s : State) (cl : Fin 64) (f : Cluster → Cluster) : (s.updCl cl f).obs = s.obs := rfl
@[simp] theorem State.updCl_sent (s : State) (cl : Fin 64) (f : Cluster → Cluster) : (s.updCl cl f).sent = s.sent := rfl
@[simp] theorem State.updCl_switching (s : State) (cl : Fin 64) (f : Cluster → Cluster) : (s.updCl cl f).switching = s.switching := rfl

/-! ### updEng -/

@[simp] theorem State.updEng_pending (s : State) (cl : Fin 64) (f : Eng → Eng) : (s.updEng cl f).pending = s.pending := rfl
@[simp] theorem State.updEng_env (s : State) (cl : Fin 64) (f : Eng → Eng) : (s.updEng cl f).env = s.env := rfl
@[simp] theorem State.updEng_free (s : State) (cl : Fin 64) (f : Eng → Eng) : (s.updEng cl f).free = s.free := rfl
@[simp] theorem State.updEng_timebase (s : State) (cl : Fin 64) (f : Eng → Eng) : (s.updEng cl f).timebase = s.timebase := rfl
@[simp] theorem State.updEng_hub (s : State) (cl : Fin 64) (f : Eng → Eng) : (s.updEng cl f).hub = s.hub := rfl
@[simp] theorem State.updEng_moraine (s : State) (cl : Fin 64) (f : Eng → Eng) : (s.updEng cl f).moraine = s.moraine := rfl
@[simp] theorem State.updEng_mem (s : State) (cl : Fin 64) (f : Eng → Eng) : (s.updEng cl f).mem = s.mem := rfl
@[simp] theorem State.updEng_memsys (s : State) (cl : Fin 64) (f : Eng → Eng) : (s.updEng cl f).memsys = s.memsys := rfl
@[simp] theorem State.updEng_host (s : State) (cl : Fin 64) (f : Eng → Eng) : (s.updEng cl f).host = s.host := rfl
@[simp] theorem State.updEng_keys (s : State) (cl : Fin 64) (f : Eng → Eng) : (s.updEng cl f).keys = s.keys := rfl
@[simp] theorem State.updEng_ctxs (s : State) (cl : Fin 64) (f : Eng → Eng) : (s.updEng cl f).ctxs = s.ctxs := rfl
@[simp] theorem State.updEng_descs (s : State) (cl : Fin 64) (f : Eng → Eng) : (s.updEng cl f).descs = s.descs := rfl
@[simp] theorem State.updEng_xls (s : State) (cl : Fin 64) (f : Eng → Eng) : (s.updEng cl f).xls = s.xls := rfl
@[simp] theorem State.updEng_reqs (s : State) (cl : Fin 64) (f : Eng → Eng) : (s.updEng cl f).reqs = s.reqs := rfl
@[simp] theorem State.updEng_invals (s : State) (cl : Fin 64) (f : Eng → Eng) : (s.updEng cl f).invals = s.invals := rfl
@[simp] theorem State.updEng_sync (s : State) (cl : Fin 64) (f : Eng → Eng) : (s.updEng cl f).sync = s.sync := rfl
@[simp] theorem State.updEng_sec (s : State) (cl : Fin 64) (f : Eng → Eng) : (s.updEng cl f).sec = s.sec := rfl
@[simp] theorem State.updEng_health (s : State) (cl : Fin 64) (f : Eng → Eng) : (s.updEng cl f).health = s.health := rfl
@[simp] theorem State.updEng_obs (s : State) (cl : Fin 64) (f : Eng → Eng) : (s.updEng cl f).obs = s.obs := rfl
@[simp] theorem State.updEng_sent (s : State) (cl : Fin 64) (f : Eng → Eng) : (s.updEng cl f).sent = s.sent := rfl
@[simp] theorem State.updEng_switching (s : State) (cl : Fin 64) (f : Eng → Eng) : (s.updEng cl f).switching = s.switching := rfl

/-! ### updQueue -/

@[simp] theorem State.updQueue_pending (s : State) (cl : Fin 64) (q : Fin 7) (f : Queue → Queue) : (s.updQueue cl q f).pending = s.pending := rfl
@[simp] theorem State.updQueue_env (s : State) (cl : Fin 64) (q : Fin 7) (f : Queue → Queue) : (s.updQueue cl q f).env = s.env := rfl
@[simp] theorem State.updQueue_free (s : State) (cl : Fin 64) (q : Fin 7) (f : Queue → Queue) : (s.updQueue cl q f).free = s.free := rfl
@[simp] theorem State.updQueue_timebase (s : State) (cl : Fin 64) (q : Fin 7) (f : Queue → Queue) : (s.updQueue cl q f).timebase = s.timebase := rfl
@[simp] theorem State.updQueue_hub (s : State) (cl : Fin 64) (q : Fin 7) (f : Queue → Queue) : (s.updQueue cl q f).hub = s.hub := rfl
@[simp] theorem State.updQueue_moraine (s : State) (cl : Fin 64) (q : Fin 7) (f : Queue → Queue) : (s.updQueue cl q f).moraine = s.moraine := rfl
@[simp] theorem State.updQueue_mem (s : State) (cl : Fin 64) (q : Fin 7) (f : Queue → Queue) : (s.updQueue cl q f).mem = s.mem := rfl
@[simp] theorem State.updQueue_memsys (s : State) (cl : Fin 64) (q : Fin 7) (f : Queue → Queue) : (s.updQueue cl q f).memsys = s.memsys := rfl
@[simp] theorem State.updQueue_host (s : State) (cl : Fin 64) (q : Fin 7) (f : Queue → Queue) : (s.updQueue cl q f).host = s.host := rfl
@[simp] theorem State.updQueue_keys (s : State) (cl : Fin 64) (q : Fin 7) (f : Queue → Queue) : (s.updQueue cl q f).keys = s.keys := rfl
@[simp] theorem State.updQueue_ctxs (s : State) (cl : Fin 64) (q : Fin 7) (f : Queue → Queue) : (s.updQueue cl q f).ctxs = s.ctxs := rfl
@[simp] theorem State.updQueue_descs (s : State) (cl : Fin 64) (q : Fin 7) (f : Queue → Queue) : (s.updQueue cl q f).descs = s.descs := rfl
@[simp] theorem State.updQueue_xls (s : State) (cl : Fin 64) (q : Fin 7) (f : Queue → Queue) : (s.updQueue cl q f).xls = s.xls := rfl
@[simp] theorem State.updQueue_reqs (s : State) (cl : Fin 64) (q : Fin 7) (f : Queue → Queue) : (s.updQueue cl q f).reqs = s.reqs := rfl
@[simp] theorem State.updQueue_invals (s : State) (cl : Fin 64) (q : Fin 7) (f : Queue → Queue) : (s.updQueue cl q f).invals = s.invals := rfl
@[simp] theorem State.updQueue_sync (s : State) (cl : Fin 64) (q : Fin 7) (f : Queue → Queue) : (s.updQueue cl q f).sync = s.sync := rfl
@[simp] theorem State.updQueue_sec (s : State) (cl : Fin 64) (q : Fin 7) (f : Queue → Queue) : (s.updQueue cl q f).sec = s.sec := rfl
@[simp] theorem State.updQueue_health (s : State) (cl : Fin 64) (q : Fin 7) (f : Queue → Queue) : (s.updQueue cl q f).health = s.health := rfl
@[simp] theorem State.updQueue_obs (s : State) (cl : Fin 64) (q : Fin 7) (f : Queue → Queue) : (s.updQueue cl q f).obs = s.obs := rfl
@[simp] theorem State.updQueue_sent (s : State) (cl : Fin 64) (q : Fin 7) (f : Queue → Queue) : (s.updQueue cl q f).sent = s.sent := rfl
@[simp] theorem State.updQueue_switching (s : State) (cl : Fin 64) (q : Fin 7) (f : Queue → Queue) : (s.updQueue cl q f).switching = s.switching := rfl

/-! ### updWork -/

@[simp] theorem State.updWork_pending (s : State) (cl : Fin 64) (q : Fin 7) (i : Nat) (f : Work → Work) : (s.updWork cl q i f).pending = s.pending := rfl
@[simp] theorem State.updWork_env (s : State) (cl : Fin 64) (q : Fin 7) (i : Nat) (f : Work → Work) : (s.updWork cl q i f).env = s.env := rfl
@[simp] theorem State.updWork_free (s : State) (cl : Fin 64) (q : Fin 7) (i : Nat) (f : Work → Work) : (s.updWork cl q i f).free = s.free := rfl
@[simp] theorem State.updWork_timebase (s : State) (cl : Fin 64) (q : Fin 7) (i : Nat) (f : Work → Work) : (s.updWork cl q i f).timebase = s.timebase := rfl
@[simp] theorem State.updWork_hub (s : State) (cl : Fin 64) (q : Fin 7) (i : Nat) (f : Work → Work) : (s.updWork cl q i f).hub = s.hub := rfl
@[simp] theorem State.updWork_moraine (s : State) (cl : Fin 64) (q : Fin 7) (i : Nat) (f : Work → Work) : (s.updWork cl q i f).moraine = s.moraine := rfl
@[simp] theorem State.updWork_mem (s : State) (cl : Fin 64) (q : Fin 7) (i : Nat) (f : Work → Work) : (s.updWork cl q i f).mem = s.mem := rfl
@[simp] theorem State.updWork_memsys (s : State) (cl : Fin 64) (q : Fin 7) (i : Nat) (f : Work → Work) : (s.updWork cl q i f).memsys = s.memsys := rfl
@[simp] theorem State.updWork_host (s : State) (cl : Fin 64) (q : Fin 7) (i : Nat) (f : Work → Work) : (s.updWork cl q i f).host = s.host := rfl
@[simp] theorem State.updWork_keys (s : State) (cl : Fin 64) (q : Fin 7) (i : Nat) (f : Work → Work) : (s.updWork cl q i f).keys = s.keys := rfl
@[simp] theorem State.updWork_ctxs (s : State) (cl : Fin 64) (q : Fin 7) (i : Nat) (f : Work → Work) : (s.updWork cl q i f).ctxs = s.ctxs := rfl
@[simp] theorem State.updWork_descs (s : State) (cl : Fin 64) (q : Fin 7) (i : Nat) (f : Work → Work) : (s.updWork cl q i f).descs = s.descs := rfl
@[simp] theorem State.updWork_xls (s : State) (cl : Fin 64) (q : Fin 7) (i : Nat) (f : Work → Work) : (s.updWork cl q i f).xls = s.xls := rfl
@[simp] theorem State.updWork_reqs (s : State) (cl : Fin 64) (q : Fin 7) (i : Nat) (f : Work → Work) : (s.updWork cl q i f).reqs = s.reqs := rfl
@[simp] theorem State.updWork_invals (s : State) (cl : Fin 64) (q : Fin 7) (i : Nat) (f : Work → Work) : (s.updWork cl q i f).invals = s.invals := rfl
@[simp] theorem State.updWork_sync (s : State) (cl : Fin 64) (q : Fin 7) (i : Nat) (f : Work → Work) : (s.updWork cl q i f).sync = s.sync := rfl
@[simp] theorem State.updWork_sec (s : State) (cl : Fin 64) (q : Fin 7) (i : Nat) (f : Work → Work) : (s.updWork cl q i f).sec = s.sec := rfl
@[simp] theorem State.updWork_health (s : State) (cl : Fin 64) (q : Fin 7) (i : Nat) (f : Work → Work) : (s.updWork cl q i f).health = s.health := rfl
@[simp] theorem State.updWork_obs (s : State) (cl : Fin 64) (q : Fin 7) (i : Nat) (f : Work → Work) : (s.updWork cl q i f).obs = s.obs := rfl
@[simp] theorem State.updWork_sent (s : State) (cl : Fin 64) (q : Fin 7) (i : Nat) (f : Work → Work) : (s.updWork cl q i f).sent = s.sent := rfl
@[simp] theorem State.updWork_switching (s : State) (cl : Fin 64) (q : Fin 7) (i : Nat) (f : Work → Work) : (s.updWork cl q i f).switching = s.switching := rfl

/-! ### withTask -/

@[simp] theorem State.withTask_pending (s : State) (cl : Fin 64) (p : Fin 8) (t : Task) (o : Obs) : (s.withTask cl p t o).pending = s.pending := rfl
@[simp] theorem State.withTask_env (s : State) (cl : Fin 64) (p : Fin 8) (t : Task) (o : Obs) : (s.withTask cl p t o).env = s.env := rfl
@[simp] theorem State.withTask_free (s : State) (cl : Fin 64) (p : Fin 8) (t : Task) (o : Obs) : (s.withTask cl p t o).free = s.free := rfl
@[simp] theorem State.withTask_timebase (s : State) (cl : Fin 64) (p : Fin 8) (t : Task) (o : Obs) : (s.withTask cl p t o).timebase = s.timebase := rfl
@[simp] theorem State.withTask_hub (s : State) (cl : Fin 64) (p : Fin 8) (t : Task) (o : Obs) : (s.withTask cl p t o).hub = s.hub := rfl
@[simp] theorem State.withTask_moraine (s : State) (cl : Fin 64) (p : Fin 8) (t : Task) (o : Obs) : (s.withTask cl p t o).moraine = s.moraine := rfl
@[simp] theorem State.withTask_mem (s : State) (cl : Fin 64) (p : Fin 8) (t : Task) (o : Obs) : (s.withTask cl p t o).mem = s.mem := rfl
@[simp] theorem State.withTask_memsys (s : State) (cl : Fin 64) (p : Fin 8) (t : Task) (o : Obs) : (s.withTask cl p t o).memsys = s.memsys := rfl
@[simp] theorem State.withTask_host (s : State) (cl : Fin 64) (p : Fin 8) (t : Task) (o : Obs) : (s.withTask cl p t o).host = s.host := rfl
@[simp] theorem State.withTask_keys (s : State) (cl : Fin 64) (p : Fin 8) (t : Task) (o : Obs) : (s.withTask cl p t o).keys = s.keys := rfl
@[simp] theorem State.withTask_ctxs (s : State) (cl : Fin 64) (p : Fin 8) (t : Task) (o : Obs) : (s.withTask cl p t o).ctxs = s.ctxs := rfl
@[simp] theorem State.withTask_descs (s : State) (cl : Fin 64) (p : Fin 8) (t : Task) (o : Obs) : (s.withTask cl p t o).descs = s.descs := rfl
@[simp] theorem State.withTask_xls (s : State) (cl : Fin 64) (p : Fin 8) (t : Task) (o : Obs) : (s.withTask cl p t o).xls = s.xls := rfl
@[simp] theorem State.withTask_reqs (s : State) (cl : Fin 64) (p : Fin 8) (t : Task) (o : Obs) : (s.withTask cl p t o).reqs = s.reqs := rfl
@[simp] theorem State.withTask_invals (s : State) (cl : Fin 64) (p : Fin 8) (t : Task) (o : Obs) : (s.withTask cl p t o).invals = s.invals := rfl
@[simp] theorem State.withTask_sync (s : State) (cl : Fin 64) (p : Fin 8) (t : Task) (o : Obs) : (s.withTask cl p t o).sync = s.sync := rfl
@[simp] theorem State.withTask_sec (s : State) (cl : Fin 64) (p : Fin 8) (t : Task) (o : Obs) : (s.withTask cl p t o).sec = s.sec := rfl
@[simp] theorem State.withTask_health (s : State) (cl : Fin 64) (p : Fin 8) (t : Task) (o : Obs) : (s.withTask cl p t o).health = s.health := rfl
@[simp] theorem State.withTask_sent (s : State) (cl : Fin 64) (p : Fin 8) (t : Task) (o : Obs) : (s.withTask cl p t o).sent = s.sent := rfl
@[simp] theorem State.withTask_switching (s : State) (cl : Fin 64) (p : Fin 8) (t : Task) (o : Obs) : (s.withTask cl p t o).switching = s.switching := rfl

/-! ### updSync -/

@[simp] theorem State.updSync_pending (s : State) (f : Sync → Sync) : (s.updSync f).pending = s.pending := rfl
@[simp] theorem State.updSync_env (s : State) (f : Sync → Sync) : (s.updSync f).env = s.env := rfl
@[simp] theorem State.updSync_free (s : State) (f : Sync → Sync) : (s.updSync f).free = s.free := rfl
@[simp] theorem State.updSync_timebase (s : State) (f : Sync → Sync) : (s.updSync f).timebase = s.timebase := rfl
@[simp] theorem State.updSync_hub (s : State) (f : Sync → Sync) : (s.updSync f).hub = s.hub := rfl
@[simp] theorem State.updSync_moraine (s : State) (f : Sync → Sync) : (s.updSync f).moraine = s.moraine := rfl
@[simp] theorem State.updSync_mem (s : State) (f : Sync → Sync) : (s.updSync f).mem = s.mem := rfl
@[simp] theorem State.updSync_memsys (s : State) (f : Sync → Sync) : (s.updSync f).memsys = s.memsys := rfl
@[simp] theorem State.updSync_host (s : State) (f : Sync → Sync) : (s.updSync f).host = s.host := rfl
@[simp] theorem State.updSync_keys (s : State) (f : Sync → Sync) : (s.updSync f).keys = s.keys := rfl
@[simp] theorem State.updSync_clusters (s : State) (f : Sync → Sync) : (s.updSync f).clusters = s.clusters := rfl
@[simp] theorem State.updSync_ctxs (s : State) (f : Sync → Sync) : (s.updSync f).ctxs = s.ctxs := rfl
@[simp] theorem State.updSync_descs (s : State) (f : Sync → Sync) : (s.updSync f).descs = s.descs := rfl
@[simp] theorem State.updSync_xls (s : State) (f : Sync → Sync) : (s.updSync f).xls = s.xls := rfl
@[simp] theorem State.updSync_reqs (s : State) (f : Sync → Sync) : (s.updSync f).reqs = s.reqs := rfl
@[simp] theorem State.updSync_invals (s : State) (f : Sync → Sync) : (s.updSync f).invals = s.invals := rfl
@[simp] theorem State.updSync_sec (s : State) (f : Sync → Sync) : (s.updSync f).sec = s.sec := rfl
@[simp] theorem State.updSync_health (s : State) (f : Sync → Sync) : (s.updSync f).health = s.health := rfl
@[simp] theorem State.updSync_obs (s : State) (f : Sync → Sync) : (s.updSync f).obs = s.obs := rfl
@[simp] theorem State.updSync_sent (s : State) (f : Sync → Sync) : (s.updSync f).sent = s.sent := rfl
@[simp] theorem State.updSync_switching (s : State) (f : Sync → Sync) : (s.updSync f).switching = s.switching := rfl

/-! ### updBar -/

@[simp] theorem State.updBar_pending (s : State) (i : Nat) (f : Barrier → Barrier) : (s.updBar i f).pending = s.pending := rfl
@[simp] theorem State.updBar_env (s : State) (i : Nat) (f : Barrier → Barrier) : (s.updBar i f).env = s.env := rfl
@[simp] theorem State.updBar_free (s : State) (i : Nat) (f : Barrier → Barrier) : (s.updBar i f).free = s.free := rfl
@[simp] theorem State.updBar_timebase (s : State) (i : Nat) (f : Barrier → Barrier) : (s.updBar i f).timebase = s.timebase := rfl
@[simp] theorem State.updBar_hub (s : State) (i : Nat) (f : Barrier → Barrier) : (s.updBar i f).hub = s.hub := rfl
@[simp] theorem State.updBar_moraine (s : State) (i : Nat) (f : Barrier → Barrier) : (s.updBar i f).moraine = s.moraine := rfl
@[simp] theorem State.updBar_mem (s : State) (i : Nat) (f : Barrier → Barrier) : (s.updBar i f).mem = s.mem := rfl
@[simp] theorem State.updBar_memsys (s : State) (i : Nat) (f : Barrier → Barrier) : (s.updBar i f).memsys = s.memsys := rfl
@[simp] theorem State.updBar_host (s : State) (i : Nat) (f : Barrier → Barrier) : (s.updBar i f).host = s.host := rfl
@[simp] theorem State.updBar_keys (s : State) (i : Nat) (f : Barrier → Barrier) : (s.updBar i f).keys = s.keys := rfl
@[simp] theorem State.updBar_clusters (s : State) (i : Nat) (f : Barrier → Barrier) : (s.updBar i f).clusters = s.clusters := rfl
@[simp] theorem State.updBar_ctxs (s : State) (i : Nat) (f : Barrier → Barrier) : (s.updBar i f).ctxs = s.ctxs := rfl
@[simp] theorem State.updBar_descs (s : State) (i : Nat) (f : Barrier → Barrier) : (s.updBar i f).descs = s.descs := rfl
@[simp] theorem State.updBar_xls (s : State) (i : Nat) (f : Barrier → Barrier) : (s.updBar i f).xls = s.xls := rfl
@[simp] theorem State.updBar_reqs (s : State) (i : Nat) (f : Barrier → Barrier) : (s.updBar i f).reqs = s.reqs := rfl
@[simp] theorem State.updBar_invals (s : State) (i : Nat) (f : Barrier → Barrier) : (s.updBar i f).invals = s.invals := rfl
@[simp] theorem State.updBar_sec (s : State) (i : Nat) (f : Barrier → Barrier) : (s.updBar i f).sec = s.sec := rfl
@[simp] theorem State.updBar_health (s : State) (i : Nat) (f : Barrier → Barrier) : (s.updBar i f).health = s.health := rfl
@[simp] theorem State.updBar_obs (s : State) (i : Nat) (f : Barrier → Barrier) : (s.updBar i f).obs = s.obs := rfl
@[simp] theorem State.updBar_sent (s : State) (i : Nat) (f : Barrier → Barrier) : (s.updBar i f).sent = s.sent := rfl
@[simp] theorem State.updBar_switching (s : State) (i : Nat) (f : Barrier → Barrier) : (s.updBar i f).switching = s.switching := rfl

/-! ### updChan -/

@[simp] theorem State.updChan_pending (s : State) (c : Fin 160) (f : Chan → Chan) : (s.updChan c f).pending = s.pending := rfl
@[simp] theorem State.updChan_env (s : State) (c : Fin 160) (f : Chan → Chan) : (s.updChan c f).env = s.env := rfl
@[simp] theorem State.updChan_free (s : State) (c : Fin 160) (f : Chan → Chan) : (s.updChan c f).free = s.free := rfl
@[simp] theorem State.updChan_timebase (s : State) (c : Fin 160) (f : Chan → Chan) : (s.updChan c f).timebase = s.timebase := rfl
@[simp] theorem State.updChan_hub (s : State) (c : Fin 160) (f : Chan → Chan) : (s.updChan c f).hub = s.hub := rfl
@[simp] theorem State.updChan_moraine (s : State) (c : Fin 160) (f : Chan → Chan) : (s.updChan c f).moraine = s.moraine := rfl
@[simp] theorem State.updChan_mem (s : State) (c : Fin 160) (f : Chan → Chan) : (s.updChan c f).mem = s.mem := rfl
@[simp] theorem State.updChan_host (s : State) (c : Fin 160) (f : Chan → Chan) : (s.updChan c f).host = s.host := rfl
@[simp] theorem State.updChan_keys (s : State) (c : Fin 160) (f : Chan → Chan) : (s.updChan c f).keys = s.keys := rfl
@[simp] theorem State.updChan_clusters (s : State) (c : Fin 160) (f : Chan → Chan) : (s.updChan c f).clusters = s.clusters := rfl
@[simp] theorem State.updChan_ctxs (s : State) (c : Fin 160) (f : Chan → Chan) : (s.updChan c f).ctxs = s.ctxs := rfl
@[simp] theorem State.updChan_descs (s : State) (c : Fin 160) (f : Chan → Chan) : (s.updChan c f).descs = s.descs := rfl
@[simp] theorem State.updChan_xls (s : State) (c : Fin 160) (f : Chan → Chan) : (s.updChan c f).xls = s.xls := rfl
@[simp] theorem State.updChan_reqs (s : State) (c : Fin 160) (f : Chan → Chan) : (s.updChan c f).reqs = s.reqs := rfl
@[simp] theorem State.updChan_invals (s : State) (c : Fin 160) (f : Chan → Chan) : (s.updChan c f).invals = s.invals := rfl
@[simp] theorem State.updChan_sync (s : State) (c : Fin 160) (f : Chan → Chan) : (s.updChan c f).sync = s.sync := rfl
@[simp] theorem State.updChan_sec (s : State) (c : Fin 160) (f : Chan → Chan) : (s.updChan c f).sec = s.sec := rfl
@[simp] theorem State.updChan_health (s : State) (c : Fin 160) (f : Chan → Chan) : (s.updChan c f).health = s.health := rfl
@[simp] theorem State.updChan_obs (s : State) (c : Fin 160) (f : Chan → Chan) : (s.updChan c f).obs = s.obs := rfl
@[simp] theorem State.updChan_sent (s : State) (c : Fin 160) (f : Chan → Chan) : (s.updChan c f).sent = s.sent := rfl
@[simp] theorem State.updChan_switching (s : State) (c : Fin 160) (f : Chan → Chan) : (s.updChan c f).switching = s.switching := rfl

/-! ### updPower -/

@[simp] theorem State.updPower_pending (s : State) (f : Power → Power) : (s.updPower f).pending = s.pending := rfl
@[simp] theorem State.updPower_free (s : State) (f : Power → Power) : (s.updPower f).free = s.free := rfl
@[simp] theorem State.updPower_timebase (s : State) (f : Power → Power) : (s.updPower f).timebase = s.timebase := rfl
@[simp] theorem State.updPower_hub (s : State) (f : Power → Power) : (s.updPower f).hub = s.hub := rfl
@[simp] theorem State.updPower_moraine (s : State) (f : Power → Power) : (s.updPower f).moraine = s.moraine := rfl
@[simp] theorem State.updPower_mem (s : State) (f : Power → Power) : (s.updPower f).mem = s.mem := rfl
@[simp] theorem State.updPower_memsys (s : State) (f : Power → Power) : (s.updPower f).memsys = s.memsys := rfl
@[simp] theorem State.updPower_host (s : State) (f : Power → Power) : (s.updPower f).host = s.host := rfl
@[simp] theorem State.updPower_keys (s : State) (f : Power → Power) : (s.updPower f).keys = s.keys := rfl
@[simp] theorem State.updPower_clusters (s : State) (f : Power → Power) : (s.updPower f).clusters = s.clusters := rfl
@[simp] theorem State.updPower_ctxs (s : State) (f : Power → Power) : (s.updPower f).ctxs = s.ctxs := rfl
@[simp] theorem State.updPower_descs (s : State) (f : Power → Power) : (s.updPower f).descs = s.descs := rfl
@[simp] theorem State.updPower_xls (s : State) (f : Power → Power) : (s.updPower f).xls = s.xls := rfl
@[simp] theorem State.updPower_reqs (s : State) (f : Power → Power) : (s.updPower f).reqs = s.reqs := rfl
@[simp] theorem State.updPower_invals (s : State) (f : Power → Power) : (s.updPower f).invals = s.invals := rfl
@[simp] theorem State.updPower_sync (s : State) (f : Power → Power) : (s.updPower f).sync = s.sync := rfl
@[simp] theorem State.updPower_sec (s : State) (f : Power → Power) : (s.updPower f).sec = s.sec := rfl
@[simp] theorem State.updPower_health (s : State) (f : Power → Power) : (s.updPower f).health = s.health := rfl
@[simp] theorem State.updPower_obs (s : State) (f : Power → Power) : (s.updPower f).obs = s.obs := rfl
@[simp] theorem State.updPower_sent (s : State) (f : Power → Power) : (s.updPower f).sent = s.sent := rfl
@[simp] theorem State.updPower_switching (s : State) (f : Power → Power) : (s.updPower f).switching = s.switching := rfl

/-! ### updShed -/

@[simp] theorem State.updShed_pending (s : State) (f : Shed → Shed) : (s.updShed f).pending = s.pending := rfl
@[simp] theorem State.updShed_free (s : State) (f : Shed → Shed) : (s.updShed f).free = s.free := rfl
@[simp] theorem State.updShed_timebase (s : State) (f : Shed → Shed) : (s.updShed f).timebase = s.timebase := rfl
@[simp] theorem State.updShed_hub (s : State) (f : Shed → Shed) : (s.updShed f).hub = s.hub := rfl
@[simp] theorem State.updShed_moraine (s : State) (f : Shed → Shed) : (s.updShed f).moraine = s.moraine := rfl
@[simp] theorem State.updShed_mem (s : State) (f : Shed → Shed) : (s.updShed f).mem = s.mem := rfl
@[simp] theorem State.updShed_memsys (s : State) (f : Shed → Shed) : (s.updShed f).memsys = s.memsys := rfl
@[simp] theorem State.updShed_host (s : State) (f : Shed → Shed) : (s.updShed f).host = s.host := rfl
@[simp] theorem State.updShed_keys (s : State) (f : Shed → Shed) : (s.updShed f).keys = s.keys := rfl
@[simp] theorem State.updShed_clusters (s : State) (f : Shed → Shed) : (s.updShed f).clusters = s.clusters := rfl
@[simp] theorem State.updShed_ctxs (s : State) (f : Shed → Shed) : (s.updShed f).ctxs = s.ctxs := rfl
@[simp] theorem State.updShed_descs (s : State) (f : Shed → Shed) : (s.updShed f).descs = s.descs := rfl
@[simp] theorem State.updShed_xls (s : State) (f : Shed → Shed) : (s.updShed f).xls = s.xls := rfl
@[simp] theorem State.updShed_reqs (s : State) (f : Shed → Shed) : (s.updShed f).reqs = s.reqs := rfl
@[simp] theorem State.updShed_invals (s : State) (f : Shed → Shed) : (s.updShed f).invals = s.invals := rfl
@[simp] theorem State.updShed_sync (s : State) (f : Shed → Shed) : (s.updShed f).sync = s.sync := rfl
@[simp] theorem State.updShed_sec (s : State) (f : Shed → Shed) : (s.updShed f).sec = s.sec := rfl
@[simp] theorem State.updShed_health (s : State) (f : Shed → Shed) : (s.updShed f).health = s.health := rfl
@[simp] theorem State.updShed_obs (s : State) (f : Shed → Shed) : (s.updShed f).obs = s.obs := rfl
@[simp] theorem State.updShed_sent (s : State) (f : Shed → Shed) : (s.updShed f).sent = s.sent := rfl
@[simp] theorem State.updShed_switching (s : State) (f : Shed → Shed) : (s.updShed f).switching = s.switching := rfl

/-! ### updSerac -/

@[simp] theorem State.updSerac_pending (s : State) (f : Serac → Serac) : (s.updSerac f).pending = s.pending := rfl
@[simp] theorem State.updSerac_free (s : State) (f : Serac → Serac) : (s.updSerac f).free = s.free := rfl
@[simp] theorem State.updSerac_timebase (s : State) (f : Serac → Serac) : (s.updSerac f).timebase = s.timebase := rfl
@[simp] theorem State.updSerac_hub (s : State) (f : Serac → Serac) : (s.updSerac f).hub = s.hub := rfl
@[simp] theorem State.updSerac_moraine (s : State) (f : Serac → Serac) : (s.updSerac f).moraine = s.moraine := rfl
@[simp] theorem State.updSerac_mem (s : State) (f : Serac → Serac) : (s.updSerac f).mem = s.mem := rfl
@[simp] theorem State.updSerac_memsys (s : State) (f : Serac → Serac) : (s.updSerac f).memsys = s.memsys := rfl
@[simp] theorem State.updSerac_host (s : State) (f : Serac → Serac) : (s.updSerac f).host = s.host := rfl
@[simp] theorem State.updSerac_keys (s : State) (f : Serac → Serac) : (s.updSerac f).keys = s.keys := rfl
@[simp] theorem State.updSerac_clusters (s : State) (f : Serac → Serac) : (s.updSerac f).clusters = s.clusters := rfl
@[simp] theorem State.updSerac_ctxs (s : State) (f : Serac → Serac) : (s.updSerac f).ctxs = s.ctxs := rfl
@[simp] theorem State.updSerac_descs (s : State) (f : Serac → Serac) : (s.updSerac f).descs = s.descs := rfl
@[simp] theorem State.updSerac_xls (s : State) (f : Serac → Serac) : (s.updSerac f).xls = s.xls := rfl
@[simp] theorem State.updSerac_reqs (s : State) (f : Serac → Serac) : (s.updSerac f).reqs = s.reqs := rfl
@[simp] theorem State.updSerac_invals (s : State) (f : Serac → Serac) : (s.updSerac f).invals = s.invals := rfl
@[simp] theorem State.updSerac_sync (s : State) (f : Serac → Serac) : (s.updSerac f).sync = s.sync := rfl
@[simp] theorem State.updSerac_sec (s : State) (f : Serac → Serac) : (s.updSerac f).sec = s.sec := rfl
@[simp] theorem State.updSerac_health (s : State) (f : Serac → Serac) : (s.updSerac f).health = s.health := rfl
@[simp] theorem State.updSerac_obs (s : State) (f : Serac → Serac) : (s.updSerac f).obs = s.obs := rfl
@[simp] theorem State.updSerac_sent (s : State) (f : Serac → Serac) : (s.updSerac f).sent = s.sent := rfl
@[simp] theorem State.updSerac_switching (s : State) (f : Serac → Serac) : (s.updSerac f).switching = s.switching := rfl

/-! ### updSetup -/

@[simp] theorem State.updSetup_pending (s : State) (f : Setup → Setup) : (s.updSetup f).pending = s.pending := rfl
@[simp] theorem State.updSetup_free (s : State) (f : Setup → Setup) : (s.updSetup f).free = s.free := rfl
@[simp] theorem State.updSetup_timebase (s : State) (f : Setup → Setup) : (s.updSetup f).timebase = s.timebase := rfl
@[simp] theorem State.updSetup_hub (s : State) (f : Setup → Setup) : (s.updSetup f).hub = s.hub := rfl
@[simp] theorem State.updSetup_moraine (s : State) (f : Setup → Setup) : (s.updSetup f).moraine = s.moraine := rfl
@[simp] theorem State.updSetup_mem (s : State) (f : Setup → Setup) : (s.updSetup f).mem = s.mem := rfl
@[simp] theorem State.updSetup_memsys (s : State) (f : Setup → Setup) : (s.updSetup f).memsys = s.memsys := rfl
@[simp] theorem State.updSetup_host (s : State) (f : Setup → Setup) : (s.updSetup f).host = s.host := rfl
@[simp] theorem State.updSetup_keys (s : State) (f : Setup → Setup) : (s.updSetup f).keys = s.keys := rfl
@[simp] theorem State.updSetup_clusters (s : State) (f : Setup → Setup) : (s.updSetup f).clusters = s.clusters := rfl
@[simp] theorem State.updSetup_ctxs (s : State) (f : Setup → Setup) : (s.updSetup f).ctxs = s.ctxs := rfl
@[simp] theorem State.updSetup_descs (s : State) (f : Setup → Setup) : (s.updSetup f).descs = s.descs := rfl
@[simp] theorem State.updSetup_xls (s : State) (f : Setup → Setup) : (s.updSetup f).xls = s.xls := rfl
@[simp] theorem State.updSetup_reqs (s : State) (f : Setup → Setup) : (s.updSetup f).reqs = s.reqs := rfl
@[simp] theorem State.updSetup_invals (s : State) (f : Setup → Setup) : (s.updSetup f).invals = s.invals := rfl
@[simp] theorem State.updSetup_sync (s : State) (f : Setup → Setup) : (s.updSetup f).sync = s.sync := rfl
@[simp] theorem State.updSetup_sec (s : State) (f : Setup → Setup) : (s.updSetup f).sec = s.sec := rfl
@[simp] theorem State.updSetup_health (s : State) (f : Setup → Setup) : (s.updSetup f).health = s.health := rfl
@[simp] theorem State.updSetup_obs (s : State) (f : Setup → Setup) : (s.updSetup f).obs = s.obs := rfl
@[simp] theorem State.updSetup_sent (s : State) (f : Setup → Setup) : (s.updSetup f).sent = s.sent := rfl
@[simp] theorem State.updSetup_switching (s : State) (f : Setup → Setup) : (s.updSetup f).switching = s.switching := rfl

/-! ### updBoard -/

@[simp] theorem State.updBoard_pending (s : State) (f : Board → Board) : (s.updBoard f).pending = s.pending := rfl
@[simp] theorem State.updBoard_free (s : State) (f : Board → Board) : (s.updBoard f).free = s.free := rfl
@[simp] theorem State.updBoard_timebase (s : State) (f : Board → Board) : (s.updBoard f).timebase = s.timebase := rfl
@[simp] theorem State.updBoard_hub (s : State) (f : Board → Board) : (s.updBoard f).hub = s.hub := rfl
@[simp] theorem State.updBoard_moraine (s : State) (f : Board → Board) : (s.updBoard f).moraine = s.moraine := rfl
@[simp] theorem State.updBoard_mem (s : State) (f : Board → Board) : (s.updBoard f).mem = s.mem := rfl
@[simp] theorem State.updBoard_memsys (s : State) (f : Board → Board) : (s.updBoard f).memsys = s.memsys := rfl
@[simp] theorem State.updBoard_host (s : State) (f : Board → Board) : (s.updBoard f).host = s.host := rfl
@[simp] theorem State.updBoard_keys (s : State) (f : Board → Board) : (s.updBoard f).keys = s.keys := rfl
@[simp] theorem State.updBoard_clusters (s : State) (f : Board → Board) : (s.updBoard f).clusters = s.clusters := rfl
@[simp] theorem State.updBoard_ctxs (s : State) (f : Board → Board) : (s.updBoard f).ctxs = s.ctxs := rfl
@[simp] theorem State.updBoard_descs (s : State) (f : Board → Board) : (s.updBoard f).descs = s.descs := rfl
@[simp] theorem State.updBoard_xls (s : State) (f : Board → Board) : (s.updBoard f).xls = s.xls := rfl
@[simp] theorem State.updBoard_reqs (s : State) (f : Board → Board) : (s.updBoard f).reqs = s.reqs := rfl
@[simp] theorem State.updBoard_invals (s : State) (f : Board → Board) : (s.updBoard f).invals = s.invals := rfl
@[simp] theorem State.updBoard_sync (s : State) (f : Board → Board) : (s.updBoard f).sync = s.sync := rfl
@[simp] theorem State.updBoard_sec (s : State) (f : Board → Board) : (s.updBoard f).sec = s.sec := rfl
@[simp] theorem State.updBoard_health (s : State) (f : Board → Board) : (s.updBoard f).health = s.health := rfl
@[simp] theorem State.updBoard_obs (s : State) (f : Board → Board) : (s.updBoard f).obs = s.obs := rfl
@[simp] theorem State.updBoard_sent (s : State) (f : Board → Board) : (s.updBoard f).sent = s.sent := rfl
@[simp] theorem State.updBoard_switching (s : State) (f : Board → Board) : (s.updBoard f).switching = s.switching := rfl

/-! ### What an update writes -/

@[simp] theorem State.withPending_pending (s : State) (q : List Instr) : (s.withPending q).pending = q := rfl
@[simp] theorem State.drawn_free (s : State) : s.drawn.free = s.free + 1 := rfl
@[simp] theorem State.updCtx_ctxs (s : State) (cx : Nat) (f : Ctx → Ctx) : (s.updCtx cx f).ctxs = s.ctxs.upd cx f := rfl
@[simp] theorem State.send_sent (s : State) (m : Message) : (s.send m).sent = m :: s.sent := rfl
@[simp] theorem State.updCl_clusters (s : State) (cl : Fin 64) (f : Cluster → Cluster) : (s.updCl cl f).clusters = vupd s.clusters cl f := rfl
@[simp] theorem State.updSync_sync (s : State) (f : Sync → Sync) : (s.updSync f).sync = f s.sync := rfl
@[simp] theorem State.updPower_power (s : State) (f : Power → Power) : (s.updPower f).env.power = f s.env.power := rfl
@[simp] theorem State.updShed_shed (s : State) (f : Shed → Shed) : (s.updShed f).env.power.shed = f s.env.power.shed := rfl
@[simp] theorem State.updSerac_serac (s : State) (f : Serac → Serac) : (s.updSerac f).env.serac = f s.env.serac := rfl
@[simp] theorem State.updSetup_setup (s : State) (f : Setup → Setup) : (s.updSetup f).env.setup = f s.env.setup := rfl
@[simp] theorem State.updBoard_board (s : State) (f : Board → Board) : (s.updBoard f).env.board = f s.env.board := rfl

/-! ### What an update of one part of management leaves of it -/

@[simp] theorem State.updPower_env_board (s : State) (f : Power → Power) : (s.updPower f).env.board = s.env.board := rfl
@[simp] theorem State.updPower_env_serac (s : State) (f : Power → Power) : (s.updPower f).env.serac = s.env.serac := rfl
@[simp] theorem State.updPower_env_setup (s : State) (f : Power → Power) : (s.updPower f).env.setup = s.env.setup := rfl
@[simp] theorem State.updPower_env_share (s : State) (f : Power → Power) : (s.updPower f).env.share = s.env.share := rfl
@[simp] theorem State.updPower_env_shareErr (s : State) (f : Power → Power) : (s.updPower f).env.shareErr = s.env.shareErr := rfl
@[simp] theorem State.updPower_env_meas (s : State) (f : Power → Power) : (s.updPower f).env.meas = s.env.meas := rfl
@[simp] theorem State.updShed_env_board (s : State) (f : Shed → Shed) : (s.updShed f).env.board = s.env.board := rfl
@[simp] theorem State.updShed_env_serac (s : State) (f : Shed → Shed) : (s.updShed f).env.serac = s.env.serac := rfl
@[simp] theorem State.updShed_env_setup (s : State) (f : Shed → Shed) : (s.updShed f).env.setup = s.env.setup := rfl
@[simp] theorem State.updShed_env_share (s : State) (f : Shed → Shed) : (s.updShed f).env.share = s.env.share := rfl
@[simp] theorem State.updShed_env_shareErr (s : State) (f : Shed → Shed) : (s.updShed f).env.shareErr = s.env.shareErr := rfl
@[simp] theorem State.updShed_env_meas (s : State) (f : Shed → Shed) : (s.updShed f).env.meas = s.env.meas := rfl
@[simp] theorem State.updSerac_env_board (s : State) (f : Serac → Serac) : (s.updSerac f).env.board = s.env.board := rfl
@[simp] theorem State.updSerac_env_power (s : State) (f : Serac → Serac) : (s.updSerac f).env.power = s.env.power := rfl
@[simp] theorem State.updSerac_env_setup (s : State) (f : Serac → Serac) : (s.updSerac f).env.setup = s.env.setup := rfl
@[simp] theorem State.updSerac_env_share (s : State) (f : Serac → Serac) : (s.updSerac f).env.share = s.env.share := rfl
@[simp] theorem State.updSerac_env_shareErr (s : State) (f : Serac → Serac) : (s.updSerac f).env.shareErr = s.env.shareErr := rfl
@[simp] theorem State.updSerac_env_meas (s : State) (f : Serac → Serac) : (s.updSerac f).env.meas = s.env.meas := rfl
@[simp] theorem State.updSetup_env_board (s : State) (f : Setup → Setup) : (s.updSetup f).env.board = s.env.board := rfl
@[simp] theorem State.updSetup_env_serac (s : State) (f : Setup → Setup) : (s.updSetup f).env.serac = s.env.serac := rfl
@[simp] theorem State.updSetup_env_power (s : State) (f : Setup → Setup) : (s.updSetup f).env.power = s.env.power := rfl
@[simp] theorem State.updSetup_env_share (s : State) (f : Setup → Setup) : (s.updSetup f).env.share = s.env.share := rfl
@[simp] theorem State.updSetup_env_shareErr (s : State) (f : Setup → Setup) : (s.updSetup f).env.shareErr = s.env.shareErr := rfl
@[simp] theorem State.updSetup_env_meas (s : State) (f : Setup → Setup) : (s.updSetup f).env.meas = s.env.meas := rfl
@[simp] theorem State.updBoard_env_serac (s : State) (f : Board → Board) : (s.updBoard f).env.serac = s.env.serac := rfl
@[simp] theorem State.updBoard_env_power (s : State) (f : Board → Board) : (s.updBoard f).env.power = s.env.power := rfl
@[simp] theorem State.updBoard_env_setup (s : State) (f : Board → Board) : (s.updBoard f).env.setup = s.env.setup := rfl
@[simp] theorem State.updBoard_env_share (s : State) (f : Board → Board) : (s.updBoard f).env.share = s.env.share := rfl
@[simp] theorem State.updBoard_env_shareErr (s : State) (f : Board → Board) : (s.updBoard f).env.shareErr = s.env.shareErr := rfl
@[simp] theorem State.updBoard_env_meas (s : State) (f : Board → Board) : (s.updBoard f).env.meas = s.env.meas := rfl

end Sys2Proof.Machine
end

