-- ==== Sys2Proof/Laws/Ops.lean ====
section
/-! SUPPORT. What the shared operations may change: the rings of the host side (events, completion records, trace) and the completion of a
descriptor each leave the rest of the module as it was. A later proof cites these frames and unfolds no operation. -/

namespace Sys2Proof.Machine

/-- What writing into the rings and buffers of the host side leaves as it was: everything but host memory, contexts, translation requests,
counters, the messages sent, and which records an ABORT still waits for; the same descriptors stay admitted. -/
structure RingFrame (s t : State) : Prop where
  pending : t.pending = s.pending
  env : t.env = s.env
  free : t.free = s.free
  timebase : t.timebase = s.timebase
  hub : t.hub = s.hub
  moraine : t.moraine = s.moraine
  mem : t.mem = s.mem
  memsys : t.memsys = s.memsys
  keys : t.keys = s.keys
  clusters : t.clusters = s.clusters
  names : t.descs.map (·.1) = s.descs.map (·.1)
  xls : t.xls = s.xls
  invals : t.invals = s.invals
  sync : t.sync = s.sync
  sec : t.sec = s.sec
  health : t.health = s.health
  switching : t.switching = s.switching

/-- What the completion of a descriptor leaves as it was: everything but the rings of the host side, the admitted descriptors, and
the keys with their directory, staging copies and rebuilds. -/
structure DoneFrame (s t : State) : Prop where
  pending : t.pending = s.pending
  env : t.env = s.env
  free : t.free = s.free
  timebase : t.timebase = s.timebase
  hub : t.hub = s.hub
  moraine : t.moraine = s.moraine
  clusters : t.clusters = s.clusters
  xls : t.xls = s.xls
  invals : t.invals = s.invals
  sync : t.sync = s.sync
  health : t.health = s.health
  switching : t.switching = s.switching

namespace RingFrame

theorem refl (s : State) : RingFrame s s := by constructor <;> rfl

theorem trans {s t u : State} (h : RingFrame s t) (k : RingFrame t u) : RingFrame s u := by
  constructor
  · exact k.pending.trans h.pending
  · exact k.env.trans h.env
  · exact k.free.trans h.free
  · exact k.timebase.trans h.timebase
  · exact k.hub.trans h.hub
  · exact k.moraine.trans h.moraine
  · exact k.mem.trans h.mem
  · exact k.memsys.trans h.memsys
  · exact k.keys.trans h.keys
  · exact k.clusters.trans h.clusters
  · exact k.names.trans h.names
  · exact k.xls.trans h.xls
  · exact k.invals.trans h.invals
  · exact k.sync.trans h.sync
  · exact k.sec.trans h.sec
  · exact k.health.trans h.health
  · exact k.switching.trans h.switching

theorem done {s t : State} (h : RingFrame s t) : DoneFrame s t :=
  ⟨h.pending, h.env, h.free, h.timebase, h.hub, h.moraine, h.clusters, h.xls, h.invals, h.sync, h.health, h.switching⟩

theorem updCtx (s : State) (cx : Nat) (f : Ctx → Ctx) : RingFrame s (s.updCtx cx f) := by constructor <;> rfl
theorem hostPut (s : State) (sp : HostSpace) (a n v : Nat) : RingFrame s (s.hostPut sp a n v) := by constructor <;> rfl
theorem send (s : State) (m : Message) : RingFrame s (s.send m) := by constructor <;> rfl
theorem tally (s : State) (e : Nat) (ctx : Option Nat) (n : Nat) : RingFrame s (s.tally e ctx n) := by constructor <;> rfl
theorem withObs (s : State) (o : Obs) : RingFrame s { s with obs := o } := by constructor <;> rfl
theorem withReqs (s : State) (l : List XlReq) : RingFrame s { s with reqs := l } := by constructor <;> rfl

theorem ite {s a b : State} {c : Prop} [Decidable c] (h : RingFrame s a) (k : RingFrame s b) : RingFrame s (if c then a else b) := by
  split <;> assumption

/-- A frame of each turn of a fold is one of the fold. -/
theorem foldl {α : Type} {f : State → α → State} (h : ∀ s a, RingFrame s (f s a)) : ∀ (l : List α) (s : State), RingFrame s (l.foldl f s)
  | [], s => refl s
  | a :: l, s => (h s a).trans (foldl h l (f s a))

theorem ask (s : State) (who : XlWho) (sp : HostSpace) (va len : Nat) (write : Bool) : RingFrame s (s.ask who sp va len write) := by
  unfold State.ask
  split
  · exact refl s
  · refine foldl (fun s a => ?_) _ s
    split
    · exact refl s
    · exact (withReqs s _).trans ((send _ _).trans (tally _ _ _ _))

theorem tracePut (s : State) (b : BitVec 256) : RingFrame s (s.tracePut b) :=
  (hostPut s _ _ _ _).trans ((withObs _ _).trans (hostPut _ _ _ _ _))

theorem traceDrop (s : State) : RingFrame s s.traceDrop := (withObs s _).trans (hostPut _ _ _ _ _)

theorem traceDue (s : State) : RingFrame s s.traceDue := by
  unfold State.traceDue
  split
  · exact ite (refl s) (ite ((withObs s _).trans (tracePut _ _)) ((withObs s _).trans (traceDrop _)))
  · exact refl s

theorem traceHold (s : State) : RingFrame s s.traceHold := withObs s _

theorem traceAny (s : State) (r : TraceRec) : RingFrame s (s.traceAny r) := by
  unfold State.traceAny
  exact ite (refl s) ((traceDue s).trans (ite (traceDrop _) (ite ((withObs _ _).trans (tracePut _ _)) (tracePut _ _))))

theorem trace (s : State) (level lv : Nat) (r : TraceRec) : RingFrame s (s.trace level lv r) := by
  unfold State.trace
  split
  · exact refl s
  · exact traceAny s r

theorem writeDb (s : State) (cx : Nat) : RingFrame s (s.writeDb cx) := by
  unfold State.writeDb
  split
  · exact refl s
  · dsimp only
    split
    · exact hostPut _ _ _ _ _
    · split
      · exact refl s
      · exact ask _ _ _ _ _ _

/-- Requests that end leave the host side a doorbell copy at most (R275). -/
theorem endReqs (s : State) (cx : Nat) (gone : XlReq → Bool) : RingFrame s (s.endReqs cx gone) := by
  unfold State.endReqs
  exact ite (withReqs s _) ((withReqs s _).trans ((updCtx _ _ _).trans (writeDb _ _)))

theorem interrupt (s : State) (cx : Nat) : RingFrame s (s.interrupt cx) := by
  unfold State.interrupt
  split
  · exact refl s
  · dsimp only
    split
    · exact refl s
    · split
      · exact send _ _
      · exact ask _ _ _ _ _ _

theorem putEvent (s : State) (cx : Nat) (bits : BitVec 256) : RingFrame s (s.putEvent cx bits) := by
  unfold State.putEvent
  split
  · exact refl s
  · dsimp only
    split
    · exact (updCtx _ _ _).trans (writeDb _ _)
    · split
      · split
        · exact refl s
        · exact (updCtx _ _ _).trans (ask _ _ _ _ _ _)
      · split
        · exact ((hostPut _ _ _ _ _).trans ((updCtx _ _ _).trans (writeDb _ _))).trans (interrupt _ _)
        · exact (hostPut _ _ _ _ _).trans ((updCtx _ _ _).trans (writeDb _ _))

theorem raise (s : State) (cx code about p0 p1 : Nat) : RingFrame s (s.raise cx code about p0 p1) := putEvent _ _ _

theorem faultCtx (s : State) (cx cause va : Nat) : RingFrame s (s.faultCtx cx cause va) := by
  unfold State.faultCtx
  dsimp only
  split
  · split
    · exact (updCtx _ _ _).trans ((updCtx _ _ _).trans ((writeDb _ _).trans (raise _ _ _ _ _ _)))
    · exact updCtx _ _ _
  · exact updCtx _ _ _

theorem dropRecord (s : State) (cx : Nat) : RingFrame s (s.dropRecord cx) := by
  unfold State.dropRecord
  split
  · exact refl s
  · split
    · exact (updCtx _ _ _).trans (raise _ _ _ _ _ _)
    · exact updCtx _ _ _

theorem recordOut (s : State) (d : DRef) : RingFrame s (s.recordOut d) := by
  constructor
  case names =>
    unfold State.recordOut
    simp only [List.map_map]
    refine List.map_congr_left fun p _ => ?_
    dsimp only [Function.comp]
    split <;> rfl
  all_goals rfl

theorem putRecord (s : State) (cx : Nat) (h : Held) : RingFrame s (s.putRecord cx h) := by
  unfold State.putRecord
  split
  · exact recordOut _ _
  · dsimp only
    split
    · exact updCtx _ _ _
    · split
      · exact (dropRecord _ _).trans (recordOut _ _)
      · split
        · exact (((hostPut _ _ _ _ _).trans ((updCtx _ _ _).trans (writeDb _ _))).trans (tally _ _ _ _)).trans (recordOut _ _)
        · exact (updCtx _ _ _).trans (ask _ _ _ _ _ _)

theorem flushHeld (cx : Nat) : ∀ (n : Nat) (s : State), RingFrame s (State.flushHeld n cx s)
  | 0, s => refl s
  | n + 1, s => by
    unfold State.flushHeld
    split
    · exact refl s
    · split
      · exact refl s
      · dsimp only
        split
        · exact refl s
        · exact ((updCtx _ _ _).trans (putRecord _ _ _)).trans ((updCtx _ _ _).trans (flushHeld cx n _))

theorem flushHeldEvt (cx : Nat) : ∀ (n : Nat) (s : State), RingFrame s (State.flushHeldEvt n cx s)
  | 0, s => refl s
  | n + 1, s => by
    unfold State.flushHeldEvt
    split
    · exact refl s
    · split
      · exact refl s
      · split
        · exact refl s
        · exact ((updCtx _ _ _).trans (putEvent _ _ _)).trans ((updCtx _ _ _).trans (flushHeldEvt cx n _))

theorem flushCtx (s : State) (cx : Nat) : RingFrame s (s.flushCtx cx) :=
  (flushHeld cx _ s).trans ((flushHeldEvt cx _ _).trans (writeDb _ _))

end RingFrame

namespace DoneFrame

theorem refl (s : State) : DoneFrame s s := (RingFrame.refl s).done

theorem trans {s t u : State} (h : DoneFrame s t) (k : DoneFrame t u) : DoneFrame s u := by
  constructor
  · exact k.pending.trans h.pending
  · exact k.env.trans h.env
  · exact k.free.trans h.free
  · exact k.timebase.trans h.timebase
  · exact k.hub.trans h.hub
  · exact k.moraine.trans h.moraine
  · exact k.clusters.trans h.clusters
  · exact k.xls.trans h.xls
  · exact k.invals.trans h.invals
  · exact k.sync.trans h.sync
  · exact k.health.trans h.health
  · exact k.switching.trans h.switching

theorem foldl {α : Type} {f : State → α → State} (h : ∀ s a, DoneFrame s (f s a)) : ∀ (l : List α) (s : State), DoneFrame s (l.foldl f s)
  | [], s => refl s
  | a :: l, s => (h s a).trans (foldl h l (f s a))

theorem withDescs (s : State) (l : List (DRef × Adm)) : DoneFrame s { s with descs := l } := by constructor <;> rfl
theorem withKeys (s : State) (k : Keys) : DoneFrame s { s with keys := k } := by constructor <;> rfl
theorem updAdm (s : State) (d : DRef) (f : Adm → Adm) : DoneFrame s (s.updAdm d f) := by constructor <;> rfl
theorem updRun (s : State) (d : DRef) (f : Run → Run) : DoneFrame s (s.updRun d f) := by constructor <;> rfl
theorem useDec (s : State) (l : List Nat) : DoneFrame s (s.useDec l) := by constructor <;> rfl
theorem setEntry (s : State) (i : Nat) (e : Krt.Entry) : DoneFrame s (s.setEntry i e) := by constructor <;> rfl
theorem withMemsys (s : State) (m : MemSys) : DoneFrame s { s with memsys := m } := by constructor <;> rfl
theorem post (s : State) (who : MemWho) (cls : MemClass) (write : Bool) (a len : Nat) : DoneFrame s (s.post who cls write a len) := withMemsys s _
theorem unpost (s : State) (p : MemWho → Bool) : DoneFrame s (s.unpost p) := withMemsys s _
theorem dropRebuild (s : State) (i : Nat) : DoneFrame s (s.dropRebuild i) := by constructor <;> rfl
theorem dropStaging (s : State) (i : Nat) : DoneFrame s (s.dropStaging i) := (withKeys s _).trans (unpost _ _)
theorem freeEntry (s : State) (i gen : Nat) : DoneFrame s (s.freeEntry i gen) :=
  (dropRebuild s i).trans ((dropStaging _ i).trans ((unpost _ _).trans ((setEntry _ _ _).trans ((withKeys _ _).trans (RingFrame.updCtx _ _ _).done))))

theorem writeSlot (s : State) (i : Nat) : DoneFrame s (s.writeSlot i) := by
  unfold State.writeSlot
  split
  · exact post _ _ _ _ _ _
  · exact refl s

theorem evict (s : State) (i : Nat) : DoneFrame s (s.evict i) := (setEntry s _ _).trans ((withKeys _ _).trans (writeSlot _ _))

theorem releaseKeys (s : State) : DoneFrame s s.releaseKeys := by
  refine foldl (fun s i => ?_) _ s
  dsimp only
  split
  · split
    · exact foldl (fun s j => freeEntry _ _ _) _ s
    · exact refl s
  · exact refl s

theorem evictNamed (s : State) : DoneFrame s s.evictNamed := by
  refine trans (foldl (fun s i => ?_) _ s) (withKeys _ _)
  split
  · exact refl s
  · exact evict _ _

theorem complete1 (s : State) (d : DRef) (st : Status) (result tag : Nat) (ev : Events) : DoneFrame s (s.complete1 d st result tag ev) := by
  unfold State.complete1
  split
  · exact refl s
  · split
    · exact refl s
    · dsimp only
      have tail (u : State) (cx lv l : Nat) (f : Ctx → Ctx) (q : XlReq → Bool) (r : TraceRec) (h : Held) : DoneFrame u
          ((((u.updCtx cx f).endReqs cx q).trace lv l r).putRecord cx h) :=
        ((RingFrame.updCtx _ _ _).trans ((RingFrame.endReqs _ _ _).trans ((RingFrame.trace _ _ _ _).trans (RingFrame.putRecord _ _ _)))).done
      split
      · exact (((withDescs s _).trans (useDec _ _)).trans (tail _ _ _ _ _ _ _ _)).trans (RingFrame.raise _ _ _ _ _ _).done
      · exact ((withDescs s _).trans (useDec _ _)).trans (tail _ _ _ _ _ _ _ _)

theorem settle : ∀ (n : Nat) (s : State), DoneFrame s (State.settle n s)
  | 0, s => (evictNamed s).trans (releaseKeys _)
  | n + 1, s => by
    have h := (evictNamed s).trans (releaseKeys _)
    unfold State.settle
    dsimp only
    split
    · exact h.trans ((complete1 _ _ _ _ _ _).trans (settle n _))
    · exact h

/-- A completion, with all that follows it, leaves everything but rings, admitted descriptors and keys as it was. -/
theorem complete (s : State) (d : DRef) (st : Status) (result tag : Nat) (ev : Events) : DoneFrame s (s.complete d st result tag ev) :=
  (complete1 _ _ _ _ _ _).trans (settle _ _)

end DoneFrame

/-- The timebase moves, and only it and the counters do. -/
theorem State.advance_frame (s : State) (t : Nat) : s.advance t = { s with timebase := (s.advance t).timebase, obs := (s.advance t).obs } := by
  unfold State.advance
  split <;> rfl

/-- The timebase never moves back (R436). -/
theorem State.advance_timebase (s : State) (t : Nat) : (s.advance t).timebase = max s.timebase t := by
  unfold State.advance
  split
  · exact (Nat.max_eq_left (by assumption)).symm
  · rename_i h
    exact (Nat.max_eq_right (Nat.le_of_lt (Nat.lt_of_not_le h))).symm

/-! ### Admitted descriptors -/

/-- A descriptor is admitted where its name is listed. -/
theorem State.adm_eq_none (s : State) (d : DRef) : s.adm d = none ↔ d ∉ s.descs.map (·.1) := by
  simp only [State.adm, Option.map_eq_none_iff, List.find?_eq_none, List.mem_map, beq_iff_eq]
  exact ⟨fun h ⟨p, hp, e⟩ => h p hp e, fun h p hp e => h ⟨p, hp, e⟩⟩

/-- A completed descriptor is admitted no longer (R10), while the hub has not stopped. -/
theorem State.complete1_adm {s : State} (h : s.env.serac.st ≠ .stopped) (d : DRef) (st : Status) (result tag : Nat) (ev : Events) :
    (s.complete1 d st result tag ev).adm d = none := by
  unfold State.complete1
  split
  · assumption
  · rw [if_neg h]
    dsimp only
    have tail (u : State) (cx lv l : Nat) (f : Ctx → Ctx) (q : XlReq → Bool) (r : TraceRec) (k : Held) : RingFrame u
        ((((u.updCtx cx f).endReqs cx q).trace lv l r).putRecord cx k) :=
      (RingFrame.updCtx _ _ _).trans ((RingFrame.endReqs _ _ _).trans ((RingFrame.trace _ _ _ _).trans (RingFrame.putRecord _ _ _)))
    have gone (u v : State) (k : u.descs = s.descs.filter fun (p : DRef × Adm) => p.1 != d) (hf : RingFrame u v) : v.adm d = none := by
      rw [State.adm_eq_none, hf.names, k]
      simp
    split
    · exact gone _ _ rfl ((tail _ _ _ _ _ _ _ _).trans (RingFrame.raise _ _ _ _ _ _))
    · exact gone _ _ rfl (tail _ _ _ _ _ _ _ _)

end Sys2Proof.Machine
end

