-- ==== Sys2Proof/Tests/Slice0.lean ====
section
/-! SUPPORT. Tests of one command each on small states: ill-formed commands are refused, and every statement of the obligations has
states that meet its hypotheses, one for each of its clauses. -/

namespace Sys2Proof.Tests

open Sys2Proof Sys2Proof.Machine

set_option Elab.async false

/-! ### Ill-formed commands are refused -/

theorem test_wf_stage : (Instr.startupStageEnd (.pass [0, 1, 2, 3, 4] [])).wf = true
    ∧ (Instr.startupStageEnd (.pass [0, 1, 2, 3, 4, 5] [])).wf = false
    ∧ (Instr.startupStageEnd (.fail 1)).wf = true ∧ (Instr.startupStageEnd (.fail 0)).wf = false
    ∧ (Instr.startupStageEnd (.fail 7)).wf = false := by decide

/-- Off is a multiple of the access width; a narrow value is of 32 bits. -/
theorem test_wf_window : (Instr.smbWindowRead { off := 8 } true).wf = true ∧ (Instr.smbWindowRead { off := 4 } true).wf = false
    ∧ (Instr.rcFieldRead 4 false).wf = true ∧ (Instr.rcFieldRead 2 false).wf = false
    ∧ (Instr.smbWindowWrite { off := 4 } true 0).wf = false ∧ (Instr.smbWindowWrite { off := 4 } false 0x100000000).wf = false
    ∧ (Instr.registerWrite 4 false 0xFFFFFFFF).wf = true ∧ (Instr.registerWrite 2 false 0).wf = false
    ∧ (Instr.registerWrite 0 true 0x100000000).wf = true := by decide

theorem test_wf_block : (Instr.memReadComplete 0 12582911 0 {} .hub).wf = true
    ∧ (Instr.memReadComplete 0 12582912 0 {} .hub).wf = false
    ∧ (Instr.scrubBurst 0 12582911 0 {}).wf = true ∧ (Instr.scrubBurst 0 12582912 0 {}).wf = false := by decide

theorem test_wf_sensor : (Instr.sensorSample .temp 63 0).wf = true ∧ (Instr.sensorSample .volt 23 0).wf = true
    ∧ (Instr.sensorSample .volt 24 0).wf = false ∧ (Instr.sensorSample .curr 7 0).wf = true
    ∧ (Instr.sensorSample .curr 8 0).wf = false
    ∧ (Instr.governorDecision [0, 0, 0, 0]).wf = true ∧ (Instr.governorDecision [0, 0, 0]).wf = false
    ∧ (Instr.shedRise 5).wf = true ∧ (Instr.shedRise 0).wf = false := by decide

/-- The last unit of a kind, the first number after it, and a kind that Table 15-4 lacks. -/
theorem test_wf_unit : (Instr.watchdogStall 0x083F).wf = true ∧ (Instr.watchdogStall 0x0840).wf = false
    ∧ (Instr.latentTestDue 0x509F).wf = true ∧ (Instr.latentTestDue 0x50A0).wf = false
    ∧ (Instr.latentTestStart 0x0000).wf = false ∧ (Instr.latentTestEnd 0xF800 ⟨true, {}, {}⟩).wf = false := by decide

theorem test_wf_lists : (Instr.flagRequestSnoop 0 0 0 1).wf = true ∧ (Instr.flagRequestSnoop 0 0 0 0).wf = false
    ∧ (Instr.linkReadCompletion .phys 0 [0]).wf = true ∧ (Instr.linkReadCompletion .phys 0 []).wf = false
    ∧ (Instr.peerWriteReceive 0 0 0 [0] none).wf = true ∧ (Instr.peerWriteReceive 0 0 0 [] none).wf = false := by decide
/-- Fields of a record at their lowest bits. -/
def bitsOf (l : List (Nat × Nat)) : Nat := l.foldl (fun n (p : Nat × Nat) => n + p.2 * 2 ^ p.1) 0

/-- A module that runs, in a state of SRC_STATE. -/
def tAt (st : SrcState) : State :=
  { State.reset with
    env := { State.reset.env with serac := { State.reset.env.serac with st := st }, board := { State.reset.env.board with running := true, pg48v := true } }
    hub := { State.reset.hub with fclUp := true } }

/-- Table 11-2: one partition, rings of classes CLEAR, ENC_NATIVE, ENC_JASIL and GATE, a window of 32 MiB from 32 MiB. -/
def tCtx : Ctx where
  desc := BitVec.ofNat 2048 (bitsOf [(0, 0x4354584B), (32, 1), (104, 1), (112, 10), (141, 1), (144, 1), (148, 2), (152, 3), (156, 4), (192, 100), (224, 1), (232, 1),
    (320, 16), (352, 16), (512, 0x10000), (576, 0x20000), (640, 0x30000), (704, 0x40000), (768, 0x50000), (832, 0x60000), (896, 0x70000),
    (1088, 0x80000), (1152, 0x90000)])

def tD : DRef := ⟨1, 0, 0⟩
def tAdm (bits : Nat) (cls : QClass := .encNative) (prog : Progress := .fresh) : Adm := { bits := BitVec.ofNat 512 bits, admitted := 0, cls, modes := {}, desc := tCtx.desc, prog }

/-- A module in READY with context 1 on cluster 0, every host page of it translated, and its descriptor 0 of ring 0 admitted. -/
def tRings (a : Adm) (e : Eng := {}) : State :=
  { tAt .ready with
    ctxs := [(1, tCtx)], descs := [(tD, a)], xls := [⟨0, 0, 2 ^ 40, true⟩]
    clusters := vupd State.reset.clusters 0 fun _ => { eng := e, ctx := some 1 } }

/-- The state that a command answers. -/
def tNext (c : Instr) (s : State) : State := match exec c s with
  | .next t => t
  | _ => s

/-! ### Steps -/

theorem test_step_takes_front : ∃ (c : Instr) (q : List Instr) (s : State), s.pending = c :: q := ⟨.go, [], { State.reset with pending := [.go] }, rfl⟩
theorem test_step_idles : ∃ s : State, s.pending = [] := ⟨State.reset, rfl⟩
theorem test_legal_step : ∃ s t : State, s.Legal ∧ step s = .next t := ⟨State.reset, _, by decide +kernel, rfl⟩
theorem test_engine_command : ∃ (c : Instr) (s t : State), exec c s = .next t ∧ changesEnv c = false := ⟨.firnEpoch, State.reset, _, rfl, rfl⟩

/-- A context with a descriptor of ring 0 read and not admitted. -/
def tWaits (bits : Nat) : State := { tAt .ready with ctxs := [(1, { tCtx with waiting := [⟨0, 0, BitVec.ofNat 512 bits⟩] })], xls := [⟨0, 0, 2 ^ 40, true⟩] }
theorem test_hub_difference : ∃ (s : State) (cx : Fin 4096) (r : Fin 4) (c : Ctx) (w : Waiting),
    s.ready = true ∧ s.ctxs.find cx = some c ∧ w ∈ c.waiting ∧ w.ring = r :=
  ⟨tWaits 0x74, 1, 0, { tCtx with waiting := [⟨0, 0, 0x74⟩] }, ⟨0, 0, 0x74⟩, by decide +kernel⟩
theorem test_stopped : ∃ (c : Instr) (s t : State), s.Legal ∧ s.env.serac.st = .stopped ∧ exec c s = .next t ∧ c ≠ .moduleReset ∧ c ≠ .powerOff :=
  ⟨.go, tAt .stopped, _, by decide +kernel, rfl, rfl, by decide, by decide⟩

/-! ### Reset, start-up and pins -/

theorem test_power_goes : ∃ s : State, s.env.serac.st ≠ .off := ⟨tAt .ready, by decide +kernel⟩
/-- Held in reset with PG_48V asserted. -/
def tHeld : State := { State.reset with env := { State.reset.env with board := { State.reset.env.board with pg48v := true } } }
/-- R403: a bank marked for trial whose images pass, and one whose images fail. -/
def tMarked : State := tHeld.updSerac fun c => { c with flash := { c.flash with mark := some true } }
theorem test_held_in_reset : ∀ p ∈ [true, false], ∃ (s : State) (ok : BanksOk), s.env.board.running = false ∧ s.env.board.pg48v = true ∧
    s.env.serac.flash.tries < 2 ∧ s.env.serac.flash.mark = some true ∧ (s.env.serac.flash.bank true).rollback.toNat ≥ s.env.serac.rollback.toNat ∧ ok.b = p :=
  fun p _ => ⟨tMarked, { b := p }, rfl, rfl, by decide, rfl, Nat.le_refl _, rfl⟩
theorem test_strap_held : ∃ (c : Instr) (s t : State), exec c s = .next t ∧ s.env.board.running = true ∧ c ≠ .moduleReset ∧ c ≠ .powerOff :=
  ⟨.go, tAt .ready, _, rfl, rfl, by decide, by decide⟩
theorem test_context_status : ∃ (s : State) (cx : Nat) (c : Ctx), s.ctxs.find cx = some c := ⟨tRings (tAdm 0), 1, tCtx, by decide +kernel⟩

theorem test_startup_stages : ∀ st ∈ [SrcState.serac, .firmware, .rails, .memory, .test], ∃ s : State,
    s.env.serac.awaiting = false ∧ s.env.serac.st = st ∧ s.hub.fenceCl = 0 ∧ s.env.serac.trial = false := fun st _ => ⟨tAt st, rfl, rfl, rfl, rfl⟩
def tLocked : State := (tAt .setup).updSerac fun c => { c with locked := true }
theorem test_setup_stage : ∃ s : State, s.env.serac.awaiting = false ∧ s.env.serac.st = .setup ∧ s.env.serac.locked = true := ⟨tLocked, by decide +kernel⟩
theorem test_stage_fails : ∃ (s : State) (k : Fin 8), s.env.serac.awaiting = false ∧ s.env.serac.trial = false ∧ 1 ≤ k.val ∧ k.val ≤ 6 ∧
    s.env.serac.st ∈ [SrcState.serac, .firmware, .rails, .memory, .test] := ⟨tAt .test, 6, by decide +kernel⟩

def tTrial : State := (tAt .rails).updSerac fun c => { c with trial := true, bank := true }
theorem test_trial_bank : ∃ (s : State) (c : Instr), s.env.board.running = true ∧ s.env.serac.trial = true ∧ s.env.serac.awaiting = false ∧
    s.env.board.bootSel = 0 ∧ (c = .trialBootTimeout ∧ s.env.serac.st ∈ [SrcState.serac, .firmware, .rails, .memory, .test] ∨
      (c = .startupStageEnd (.fail 1) ∨ c = .startupStageEnd (.fail 2)) ∧ s.env.serac.st ∈ [SrcState.serac, .firmware, .rails, .memory, .test]) ∧
    (s.env.serac.flash.bank s.env.serac.flash.committed).rollback.toNat ≥ s.env.serac.rollback.toNat ∧
    (if s.env.serac.flash.committed then s.env.serac.banksOk.b else s.env.serac.banksOk.a) = true :=
  ⟨tTrial, .trialBootTimeout, rfl, rfl, rfl, rfl, .inl ⟨rfl, by decide +kernel⟩, Nat.le_refl _, by decide +kernel⟩
theorem test_trial_check_fails : (tTrial.env.serac.trial = true ∧ tTrial.env.serac.st ∈ [SrcState.serac, .firmware, .rails, .memory, .test]) := by decide +kernel
theorem test_image_awaited : ∃ s : State, s.env.serac.awaiting = true := ⟨(tAt .serac).updSerac fun c => { c with awaiting := true }, rfl⟩
theorem test_clock_states : (tAt .rails).env.serac.st ∈ [SrcState.serac, .firmware, .rails] ∧
    (tAt .ready).env.serac.st ∈ [SrcState.memory, .test, .setup, .ready] ∧ (tAt .ready).env.board.pg48v = true := by decide +kernel

/-! ### The set-up window -/

theorem test_window_reads : ∃ (s : State) (off : BitVec 32) (wide : Bool) (r : Reg) (c : Instr), regAt off.toNat = some (r, wide) ∧
    (c = .rcFieldRead off wide ∧ s.hub.fclUp = true ∨ c = .smbWindowRead { off, target := s.smbAddr } wide ∧ s.env.serac.st ≠ .off) :=
  ⟨tAt .ready, 0x13C, false, .faultCnt, .rcFieldRead 0x13C false, by decide +kernel, .inl ⟨rfl, rfl⟩⟩
theorem test_window_hole : ∃ (s : State) (off : BitVec 32) (wide : Bool), s.hub.fclUp = true ∧ ∀ r, regAt off.toNat ≠ some (r, wide) :=
  ⟨tAt .ready, 0x13C, true, rfl, fun r h => by
    have h' : regAt (0x13C : BitVec 32).toNat = some (.faultCnt, false) := by decide +kernel
    cases h'.symm.trans h⟩

theorem test_wide_registers : ∀ p ∈ [((0x20 : Nat), Reg.keyPool), (0x40, .ctx0Desc), (0x4_01E0, .fwAddr), (0x10_1118, .tgRange 0), (0x6_0010, .snapAddr),
    (0x18, .statePool), (0x6_0020, .traceBase), (0x6_0028, .traceCb)], regAt p.1 = some (p.2, true) := by decide +kernel
theorem test_register_states : (tAt .setup).setupOpen = true ∧ (tAt .ready).ready = true ∧ (tAt .ready).setupOrReady = true ∧ (tAt .ready).tgWritable = true ∧
    regAt 0x13C = some (.faultCnt, false) ∧ regAt 0x4_01E0 = some (.fwAddr, true) ∧ Reg.faultCnt ∉ [Reg.powerCap, .fwAddr, .fwCtrl] ∧
    (tAt .ready).setupOpen = false ∧ (tAt .memory).ready = false ∧ (tAt .memory).setupOrReady = false ∧ (tAt .ready).obs.traceOn = false ∧
    (tAt .rails).tgWritable = false := by decide +kernel
/-- R438: the module answers at 0x58 + MGMT_ADDR, with a right packet error code only. -/
theorem test_management_bus : ∃ (s : State) (o : SmbOff), regAt o.off.toNat = some (.fwAddr, true) ∧ s.env.serac.st ≠ .off ∧ o.pecOk = true ∧
    o.target = s.smbAddr ∧ s.setupOrReady = true ∧ o.target = 0x5B :=
  ⟨(tAt .ready).updBoard fun b => { b with mgmtAddr := 3 }, { off := 0x4_01E0, target := 0x5B }, by decide +kernel⟩

/-- Set-up with a key pool of 128 units, one key pool too small, and one that takes in the test region. -/
def tPool (base size : Nat) : State := (tAt .setup).updSetup fun u => { u with keyPool := BitVec.ofNat 64 (base + 2 ^ 32 * size) }
theorem test_go_refused : ∃ s : State, s.setupOpen = true ∧
    (keyRangeBad s.env.setup.keyPool || keyTestBad s.env.setup.keyPool || statePoolBad s.env.setup.statePool s.env.setup.keyPool) = true :=
  ⟨tPool 0 127, by decide +kernel⟩
theorem test_go_accepted : ∃ s : State, s.setupOpen = true ∧ keyRangeBad s.env.setup.keyPool = false ∧ keyTestBad s.env.setup.keyPool = false ∧
    statePoolBad s.env.setup.statePool s.env.setup.keyPool = false := ⟨tPool 0 128, by decide +kernel⟩
theorem test_go_ignored : ∃ s : State, s.setupOpen = false := ⟨tAt .ready, by decide +kernel⟩
/-- R423: the directory lies in the last 64 units of the pool. -/
theorem test_go_directory : (tNext (.startupStageEnd (.pass [0] [])) (tNext .go (tPool 0 128))).env.setup.keyDir.toNat = 64 * 2 ^ 21 ∧
    (tNext .go (tPool 0 128)).env.setup.keyDir = 0 ∧ (tNext .go (tPool 0 128)).env.serac.locked = true ∧
    (tNext .go (tPool 0 127)).env.setup.setupErr = 0b01001 := by decide +kernel

theorem test_state_pool : (tPool 0 128).setupOpen = true ∧ (tRings (tAdm 0)).ready = true ∧ (tRings (tAdm 0)).ctxs.any (·.1 != 0) = true ∧
    (tAt .ready).ctxs.any (·.1 != 0) = false ∧ statePoolBad (BitVec.ofNat 64 ((2 ^ 32) % 2 ^ 48)) ((tPool 0 128).env.setup.keyPool) = true ∧
    statePoolBad 0 0 = false := by decide +kernel
theorem test_share_and_cap : shareOk 4 4 2 = true ∧ shareOk 3 4 2 = false ∧ shareOk 30 30 4 = true ∧ shareOk 30 30 5 = false ∧ (tAt .setup).setupOrReady = true ∧
    (tNext (.powerCapWrite 700) (tAt .ready)).env.power.cap = 700 ∧ (tNext (.powerCapWrite 699) (tAt .ready)).env.power.capErr = true ∧
    (tNext (.powerCapWrite 2001) (tAt .ready)).env.power.cap = 2000 := by decide +kernel

theorem test_generator : ∃ (s : State) (ch : Fin 160) (v : BitVec 32), s.tgWritable = true ∧ s.tgRefuses ch (v ||| 0x80000000#32).toNat = false :=
  ⟨tAt .memory, 159, 0, by decide +kernel⟩
theorem test_generator_refused : ∃ (s : State) (ch : Fin 160) (v : BitVec 32), s.tgWritable = true ∧ s.tgRefuses ch (v ||| 0x80000000#32).toNat = true :=
  ⟨tAt .memory, 0, 5 * 2 ^ 24, by decide +kernel⟩
/-- A run that only reads, of one block: served whole, and stopped before its first burst. -/
theorem test_generator_runs : ∀ p ∈ [(2, false), (0, true)], ∃ (s : State) (ch : Fin 160), s.memsys.chans[ch].tgBusy = true ∧
    (s.memsys.chans[ch].tgStopping = true ∨ s.memsys.chans[ch].tgRun.bursts ≤ s.memsys.chans[ch].tgRun.served) ∧ s.memsys.chans[ch].tgRun.op = 1 := by
  intro p h
  exact ⟨(tAt .ready).updChan 3 fun h => { h with tgBusy := true, tgStopping := p.2, tgRun := { ctrl := 2 ^ 22, first := 5, last := 5, served := p.1 } }, 3,
    by revert p; decide +kernel⟩

def tStaging (micro : Bool) : State := (tAt .ready).updSerac fun c => { c with fwBusy := some ⟨3, micro⟩ }
theorem test_stage : ∃ (s : State) (slot : BitVec 8) (m : Bool), s.setupOrReady = true ∧ (m = false ∨ slot.toNat ≤ 31) ∧ s.env.serac.fwBusy = none :=
  ⟨tAt .ready, 31, true, by decide +kernel⟩
theorem test_stage_ends : ∀ m, ∃ (s : State) (f : FwCmd), s.env.serac.fwBusy = some f ∧ f.micro = m ∧ s.shed < 5 ∧ (f.micro = true → s.slotNamed f.slot.toNat = false) :=
  fun m => match m with
    | false => ⟨tStaging false, ⟨3, false⟩, by decide +kernel⟩
    | true => ⟨tStaging true, ⟨3, true⟩, by decide +kernel⟩
theorem test_activate : ∃ s : State, s.setupOrReady = true ∧ s.env.serac.fwBusy = none ∧ s.env.serac.otherBank.staged = true ∧ s.shed < 5 :=
  ⟨(tAt .ready).updSerac fun c => { c with flash := { c.flash with bankB := { staged := true } } }, by decide +kernel⟩
theorem test_commit : ∃ s : State, s.setupOrReady = true ∧ s.env.serac.trial = true := ⟨(tAt .ready).updSerac fun c => { c with trial := true, bank := true }, by decide +kernel⟩
theorem test_firmware_results : (tNext (.fwStage 0 false) (tStaging true)).env.serac.fwResult = 5 ∧ (tNext .fwCommit (tAt .ready)).env.serac.fwResult = 5 ∧
    (tNext (.fwStageDone 3 ⟨0, 0, 0⟩) (tStaging true)).env.serac.fwResult = 3 := by decide +kernel

theorem test_observation : ∃ s : State, s.setupOrReady = true ∧ s.obs.freeze = false ∧ s.obs.snapBusy = none := ⟨tAt .setup, by decide +kernel⟩
theorem test_frozen : ∃ s : State, s.setupOrReady = true ∧ s.obs.freeze = true ∧ s.obs.snapBusy.isSome = true :=
  ⟨{ tAt .ready with obs := { freeze := true, snapBusy := some [] } }, by decide +kernel⟩
/-- A trace record waits while the driver disables tracing; the next one, with none that waits, enables it. -/
theorem test_trace_waits : ∃ s : State, s.setupOrReady = true ∧ s.obs.due ≠ none := ⟨{ tAt .ready with obs := { traceOn := true, due := some 0 } }, by decide +kernel⟩
/-- R410: F = 1,000·⌈t / 1,000⌉ + 1,000 ns at t = 1,001. -/
theorem test_freeze_instant : (tNext .freezeSet { tAt .ready with timebase := 1001 }).obs.holdAt = 3000 ∧
    (tNext .freezeSet { tAt .ready with timebase := 1000 }).obs.freezeTime = 2000 := by decide +kernel

/-! ### Sensors, the governor and shedding -/

theorem test_sample : ∃ (s : State) (i : Fin 64), s.env.serac.st ≠ .off ∧ i.val < 24 ∧ i.val < 8 := ⟨tAt .ready, 7, by decide +kernel⟩
theorem test_stack_sample : ∃ (s : State) (k : Fin 20) (i : Fin 64), s.env.serac.st ≠ .off ∧ s.memsys.stackRegs[k].level ≤ 4 ∧ i.val = 32 + k.val :=
  ⟨tAt .ready, 19, 51, by decide +kernel⟩
/-- R263: one sample at 85 °C changes no level, the second does. -/
theorem test_two_samples : (tNext (.stackTempSample 2 (16 * 85)) (tAt .ready)).memsys.stackRegs[2].level = 0 ∧
    (tNext (.stackTempSample 2 (16 * 85)) (tNext (.stackTempSample 2 (16 * 85)) (tAt .ready))).memsys.stackRegs[2].level = 1 := by decide +kernel
theorem test_governor : ∃ s : State, s.channelsRun = true ∧ s.env.power.samples ≠ 0 ∧ ({ s.env.power with capNow := s.env.power.cap } : Power).above 100 = true :=
  ⟨(tAt .ready).updPower fun p => { p with samples := 1, sum := 2001 * 10 ^ 7 }, by decide +kernel⟩
theorem test_voltage_and_trip : ∃ (s : State) (k : Fin 4) (v : BitVec 12) (u : Nat), s.env.power.dies[k].pending = some v ∧ s.env.power.overSince = some u :=
  ⟨(tAt .ready).updPower fun p => { p with overSince := some 5, dies := vupd p.dies 3 fun d => { d with pending := some 700 } }, 3, 700, 5, by decide +kernel⟩
theorem test_shed_rise : ∃ (s : State) (lvl : Fin 6) (d : Nat), s.env.board.running = true ∧ s.shed < lvl.val ∧ s.env.power.shed.riseDue lvl.val s.timebase = some d :=
  ⟨(tAt .ready).updShed fun h => { h with thermal := 5 }, 5, 0, by decide +kernel⟩
theorem test_shed_fall : ∃ (s : State) (u : Nat), s.env.board.running = true ∧ s.env.power.shed.level ≤ 5 ∧ s.env.power.shed.leaveSince = some u ∧
    s.env.power.shed.supplyAt (max u s.env.power.shed.changedAt + (sagRow (Fin.ofNat 5 (s.shed - 1))).leave) < s.shed :=
  ⟨(tAt .ready).updShed fun h => { h with level := 1 }, 0, by decide +kernel⟩
theorem test_contract_window : ∃ (s : State) (cx : Fin 4096) (c : Ctx), s.ctxs.find cx = some c ∧ (s.steerOf cx).isContract = true ∧ c.gov.noWrite = false ∧
    650 ≤ c.gov.ask ∧ c.gov.ask ≤ 850 ∧ s.windowPage cx (s.steerOf cx) = none :=
  ⟨{ tRings (tAdm 0) with descs := [], ctxs := [(1, { tCtx with gov := { last := { contract := 64, valid := true } } })] }, 1,
    { tCtx with gov := { last := { contract := 64, valid := true } } }, by decide +kernel⟩
/-! ### The Quill -/

def tRun : Run := { set := [0], list := [0], started := true }
def tTask : Task := { run := tD, slot := 0, st := .running, pc := 0, regs := Vector.ofFn fun i => BitVec.ofNat 64 (8 * i.val), landed := true, argBytes := 0 }
/-- Cluster 0 before instruction word w, of a program of two; register i holds 8i. -/
def tEng (w : Nat) (t : Task := tTask) : Eng :=
  { store := Memory.writeNat ([] : Memory) (4 * t.pc) 4 w, progs := [(0, ⟨2, 0⟩)], tasks := vupd (Vector.replicate 8 none) 0 fun _ => some t, cur := some 0, last := 0 }
def tQuill (w : Nat) (t : Task := tTask) : State := tRings (tAdm 0x79 .encNative (.qrun tRun)) (tEng w t)
def tQ : QCtl := ⟨0, .none⟩
/-- Formats A and B of R210. -/
def fmtA (op d a b : Nat) : Nat := bitsOf [(26, op), (21, d), (16, a), (11, b)]
def fmtB (op d a imm : Nat) : Nat := bitsOf [(26, op), (21, d), (16, a), (0, imm)]
def tNow (w : Nat) (t : Task := tTask) : QNow := ⟨0, 0, t, BitVec.ofNat 32 w⟩
/-- Register d of the task of place 0 of cluster 0 after a command. -/
def tReg (c : Instr) (s : State) (d : Nat) : Option (BitVec 64) := (tNext c s).clusters[(0 : Fin 64)].eng.tasks[(0 : Fin 8)].map fun t => t.reg d

theorem test_register_form : ∀ op ∈ [0x01, 0x02, 0x03, 0x04, 0x05, 0x06, 0x07, 0x08, 0x09, 0x0A, 0x0B, 0x0C], ∃ (s : State) (q : QCtl) (n : QNow),
    s.quillNow q.cl = some n ∧ fld n.w 31 26 = op ∧ q.differ = .none ∧ n.t.pc + 1 < s.progLength n := by
  intro op h
  exact ⟨tQuill (fmtA op 3 1 2), tQ, tNow (fmtA op 3 1 2), by revert op; decide +kernel⟩
theorem test_immediate_form : ∀ op ∈ [0x10, 0x11, 0x12, 0x13, 0x14, 0x15, 0x1C, 0x2A, 0x2C, 0x2D, 0x2E], ∃ (s : State) (q : QCtl) (n : QNow),
    s.quillNow q.cl = some n ∧ fld n.w 31 26 = op ∧ q.differ = .none ∧ n.t.pc + 1 < s.progLength n := by
  intro op h
  exact ⟨tQuill (fmtB op 3 1 0x8000), tQ, tNow (fmtB op 3 1 0x8000), by revert op; decide +kernel⟩
/-- Table 8-6 by hand: 8 + 16; 8 − 16; 8 << 16; 8 · 16; −8 shifted right by 16 with its sign; q0 stays 0. -/
theorem test_arithmetic : tReg (.add tQ) (tQuill (fmtA 0x01 3 1 2)) 3 = some 24 ∧ tReg (.sub tQ) (tQuill (fmtA 0x02 3 1 2)) 3 = some (-8) ∧
    tReg (.shl tQ) (tQuill (fmtA 0x06 3 1 2)) 3 = some 0x80000 ∧ tReg (.mul tQ) (tQuill (fmtA 0x09 3 1 2)) 3 = some 128 ∧
    tReg (.sra tQ) (tQuill (fmtA 0x08 3 4 2) (tTask.setReg 4 (-8))) 3 = some (-1) ∧ tReg (.shr tQ) (tQuill (fmtA 0x07 3 4 2) (tTask.setReg 4 (-8))) 3 = some 0xFFFFFFFFFFFF ∧
    tReg (.add tQ) (tQuill (fmtA 0x01 0 1 2)) 0 = some 0 ∧ tReg (.minu tQ) (tQuill (fmtA 0x0A 3 1 2)) 3 = some 8 ∧
    tReg (.maxu tQ) (tQuill (fmtA 0x0B 3 1 2)) 3 = some 16 ∧ tReg (.sltu tQ) (tQuill (fmtA 0x0C 3 1 2)) 3 = some 1 := by decide +kernel
theorem test_immediates : tReg (.addi tQ) (tQuill (fmtB 0x10 3 1 0xFFFF)) 3 = some 7 ∧ tReg (.andi tQ) (tQuill (fmtB 0x11 3 1 0xFFFF)) 3 = some 8 ∧
    tReg (.ori tQ) (tQuill (fmtB 0x12 3 1 0x8001)) 3 = some 0x8009 ∧ tReg (.shli tQ) (tQuill (fmtB 0x13 3 1 65)) 3 = some 16 ∧
    tReg (.shori tQ) (tQuill (fmtB 0x15 3 1 0x8001)) 3 = some 0x88001 := by decide +kernel

theorem test_load_and_store : ∀ p ∈ [(0x18, 8, 8184), (0x19, 4, 8188), (0x1A, 8, 8184), (0x1B, 4, 8188)], ∃ (s : State) (q : QCtl) (n : QNow) (a : Nat),
    s.quillNow q.cl = some n ∧ fld n.w 31 26 = p.1 ∧ q.differ = .none ∧ n.t.pc + 1 < s.progLength n ∧
    a = (n.t.reg (fld n.w 20 16) + (BitVec.ofNat 16 (fld n.w 15 0)).signExtend 64).toNat ∧ a + p.2.1 ≤ 8192 ∧ a % p.2.1 = 0 ∧ n.t.unlanded a p.2.1 = false ∧
    s.clusters[q.cl].eng.dmem.wf = true ∧ a = p.2.2 := by
  intro p h
  exact ⟨tQuill (fmtB p.1 3 1 (p.2.2 - 8)), tQ, tNow (fmtB p.1 3 1 (p.2.2 - 8)), p.2.2, by revert p; decide +kernel⟩
/-- A part of the argument block that has not landed, at its last bytes. -/
def tUnlanded : Task := { tTask with landed := false, argBytes := 8 }
theorem test_load_waits : ∃ (s : State) (q : QCtl) (n : QNow), s.quillAt q 0x18 n ∧ n.t.pc + 1 < s.progLength n ∧ n.t.unlanded n.addr 8 = true ∧
    n.addr + 8 ≤ 8192 ∧ n.addr % 8 = 0 :=
  ⟨tQuill (fmtB 0x18 3 1 0x18) tUnlanded, tQ, tNow (fmtB 0x18 3 1 0x18) tUnlanded, ⟨by decide +kernel, by decide +kernel, rfl⟩, by decide +kernel⟩

def tAtPc (pc : Nat) : Task := { tTask with pc }
theorem test_branches : ∀ op ∈ [0x20, 0x21, 0x22, 0x23, 0x24, 0x25, 0x26], ∀ p ∈ [((0 : Nat), (0 : Nat)), (0, 1), (1, 0xFFFF)],
    ∃ (s : State) (q : QCtl) (n : QNow) (pc : Nat), s.quillNow q.cl = some n ∧ fld n.w 31 26 = op ∧ q.differ = .none ∧
      (pc : Int) = n.t.pc + (BitVec.ofNat 16 (fld n.w 15 0)).toInt ∧ pc < s.progLength n := by
  intro op h p hp
  exact ⟨tQuill (fmtB op 1 1 p.2) (tAtPc p.1), tQ, tNow (fmtB op 1 1 p.2) (tAtPc p.1), if p.2 = 1 then 1 else 0, by revert op p; decide +kernel⟩
/-- Offsets count from the branch, its operands are [25:21] and [20:16]; JAL leaves the next index. -/
def tPc (c : Instr) (s : State) : Option Nat := (tNext c s).clusters[(0 : Fin 64)].eng.tasks[(0 : Fin 8)].map (Task.pc ·)
theorem test_branch_targets : tPc (.beq tQ) (tQuill (fmtB 0x20 1 1 0xFFFF) (tAtPc 1)) = some 0 ∧ tPc (.bne tQ) (tQuill (fmtB 0x21 1 1 0xFFFF) (tAtPc 0)) = some 1 ∧
    tPc (.bltu tQ) (tQuill (fmtB 0x22 1 2 0) (tAtPc 1)) = some 1 ∧ tPc (.bge tQ) (tQuill (fmtB 0x25 1 2 5) (tAtPc 0)) = some 1 ∧
    tReg (.jal tQ) (tQuill (fmtB 0x26 3 0 0) (tAtPc 1)) 3 = some 2 ∧ tPc (.jr tQ) (tQuill (fmtB 0x27 0 0 0) (tAtPc 1)) = some 0 := by decide +kernel
theorem test_jr : ∃ (s : State) (q : QCtl) (n : QNow), s.quillAt q 0x27 n ∧ (n.t.reg (fld n.w 20 16)).toNat < s.progLength n :=
  ⟨tQuill (fmtB 0x27 0 0 0), tQ, tNow (fmtB 0x27 0 0 0), ⟨by decide +kernel, by decide +kernel, rfl⟩, by decide +kernel⟩

/-- What the run-time errors of R211 share. -/
theorem test_error_runs : ∀ w ∈ [fmtB 0x18 3 1 8185, fmtB 0x18 3 1 1, fmtB 0x19 3 1 8186, fmtB 0x1A 3 1 0x8000, fmtB 0x1B 3 1 2, fmtB 0x28 3 1 7, fmtA 0x01 3 1 2, fmtB 0x27 0 1 0],
    ∃ (s : State) (q : QCtl) (n : QNow) (r : Run), s.quillNow q.cl = some n ∧ q.differ = .none ∧ s.clusters[q.cl].ctx = some n.t.run.ctx ∧ s.run n.t.run = some r ∧
      r.failed = false ∧ q.cl ∈ r.set ∧ r.set.Nodup ∧
      (fld n.w 31 26 = 0x18 ∧ windowOk n.addr 8 8 = false ∨ fld n.w 31 26 = 0x19 ∧ windowOk n.addr 4 4 = false ∨ fld n.w 31 26 = 0x1A ∧ windowOk n.addr 8 8 = false ∨
        fld n.w 31 26 = 0x1B ∧ windowOk n.addr 4 4 = false ∨ fld n.w 31 26 = 0x28 ∧ fld n.w 2 0 = 7 ∨ fld n.w 31 26 = 0x01 ∧ s.progLength n ≤ n.t.pc + 1 ∨
        fld n.w 31 26 = 0x27 ∧ s.progLength n ≤ (n.t.reg (fld n.w 20 16)).toNat) := by
  intro w h
  exact ⟨tQuill w (tAtPc 1), tQ, tNow w (tAtPc 1), tRun, by revert w; decide +kernel⟩
theorem test_lockstep_difference : ∀ op ∈ [0x01, 0x18, 0x1A, 0x20, 0x28, 0x29, 0x2A, 0x2C, 0x2D, 0x2E], ∃ (s : State) (q : QCtl) (n : QNow) (r : Run),
    q.differ ≠ .none ∧ s.quillNow q.cl = some n ∧ fld n.w 31 26 = op ∧ s.clusters[q.cl].ctx = some n.t.run.ctx ∧ s.run n.t.run = some r ∧ r.failed = false ∧
    q.cl ∈ r.set ∧ r.set.Nodup ∧ ∀ (p : Fin 8) (x : Task), s.clusters[q.cl].eng.tasks[p] = some x → x.run = n.t.run := by
  intro op h
  have k : ∀ op ∈ [0x01, 0x18, 0x1A, 0x20, 0x28, 0x29, 0x2A, 0x2C, 0x2D, 0x2E], (tQuill (fmtB op 3 1 0)).quillNow 0 = some (tNow (fmtB op 3 1 0)) ∧
      fld (tNow (fmtB op 3 1 0)).w 31 26 = op ∧ (tQuill (fmtB op 3 1 0)).run tD = some tRun ∧
      ∀ p : Fin 8, (tQuill (fmtB op 3 1 0)).clusters[(0 : Fin 64)].eng.tasks[p].all (fun x => x.run == tD) = true := by decide +kernel
  exact ⟨tQuill (fmtB op 3 1 0), ⟨0, .lockstep⟩, tNow (fmtB op 3 1 0), tRun, nofun, (k op h).1, (k op h).2.1, rfl, (k op h).2.2.1, rfl, by decide, by decide,
    fun p x hx => by have := (k op h).2.2.2 p; rw [hx] at this; exact eq_of_beq this⟩
theorem test_push : ∀ k ∈ [(0 : Fin 7), 6], ∃ (s : State) (q : QCtl) (n : QNow) (a : Nat), s.quillNow q.cl = some n ∧ fld n.w 31 26 = 0x28 ∧ q.differ = .none ∧
    fld n.w 2 0 = k.val ∧ n.t.pc + 1 < s.progLength n ∧ a = (n.t.reg (fld n.w 20 16) + BitVec.ofNat 64 (8 * fld n.w 15 3)).toNat ∧
    windowOk a (bodyBytes k) (bodyBytes k) = true ∧ n.t.unlanded a (bodyBytes k) = false ∧ s.clusters[q.cl].eng.room k = true ∧
    s.clusters[q.cl].eng.mayPlace k = true := by
  intro k h
  exact ⟨tQuill (fmtB 0x28 3 0 (64 + k.val)), tQ, tNow (fmtB 0x28 3 0 (64 + k.val)), 64, by revert k; decide +kernel⟩
/-- R218: the tag is sub_id, cluster and push sequence; the placed count comes back. -/
theorem test_push_tag : tReg (.push tQ) (tQuill (fmtB 0x28 3 0 64)) 3 = some 1 ∧
    ((tNext (.push tQ) (tQuill (fmtB 0x28 3 0 64) { tTask with seq := 1025 })).queue 0 0).waiting.map (·.tag) = [1] := by decide +kernel

/-- A nest record at 0x100 of the task's window: queue 0, one level counting 0 to 1, one template at 0x200. -/
def tNestMem : Memory := Memory.writeNat ([] : Memory) 0x100 32 (bitsOf [(4, 1), (48, 0x200), (160, 1)])
def tNestEng (op : Nat) : Eng := { tEng (fmtB op 3 1 0xF8) with dmem := tNestMem }
def tNestState (op : Nat) : State := tRings (tAdm 0x79 .encNative (.qrun tRun)) (tNestEng op)
theorem test_pushn : ∃ (s : State) (q : QCtl) (n : QNow) (h : NestHead) (i : Fin 2), s.quillAt q 0x29 n ∧ n.t.pc + 1 < s.progLength n ∧ windowOk n.addr 32 8 = true ∧
    h = NestHead.of (BitVec.ofNat 256 (s.taskNat n n.addr 32)) ∧ h.ok = true ∧ windowOk n.addr (32 + 8 * (h.npatch + h.nedge)) 8 = true ∧ n.t.landed = true ∧
    (words8 s.clusters[q.cl].eng.dmem (8192 * n.p.val + n.addr + 32) h.npatch).all (patchOk false h.levels h.nbody (bodyBytes h.queue)) = true ∧
    (words8 s.clusters[q.cl].eng.dmem (8192 * n.p.val + n.addr + 32 + 8 * h.npatch) h.nedge).all (patchOk true h.levels h.nbody (bodyBytes h.queue)) = true ∧
    s.clusters[q.cl].eng.nests[i] = none ∧ (∀ j : Fin 2, j < i → s.clusters[q.cl].eng.nests[j].isSome) ∧ s.clusters[q.cl].eng.mayPlace h.queue = true :=
  ⟨tNestState 0x29, tQ, tNow (fmtB 0x29 3 1 0xF8), _, 0, ⟨by decide +kernel, by decide +kernel, rfl⟩, by decide +kernel, by decide +kernel, rfl, by decide +kernel⟩
theorem test_pushn_count : tReg (.pushn tQ) (tNestState 0x29) 3 = some 2 := by decide +kernel

def tClw : State := tQuill (fmtA 0x2A 3 8 1) (tTask.setReg 8 (BitVec.ofNat 64 (2 ^ 25)))
theorem test_clw : ∃ (s : State) (q : QCtl) (n : QNow) (c : Ctx), s.quillAt q 0x2A n ∧ n.t.pc + 1 < s.progLength n ∧ n.t.streamDone = false ∧
    n.t.reg (fld n.w 15 11) ≠ 0 ∧ (n.t.reg (fld n.w 20 16)).toNat % 64 = 0 ∧ s.ctxs.find n.t.run.ctx = some c ∧
    c.inWindow (n.t.reg (fld n.w 20 16)).toNat 16 = true ∧ s.clusters[q.cl].eng.mayStream (streamQueues s.mem (n.t.reg (fld n.w 15 11)).toNat (n.t.reg (fld n.w 20 16)).toNat 0) = true :=
  ⟨tClw, tQ, tNow (fmtA 0x2A 3 8 1) (tTask.setReg 8 (BitVec.ofNat 64 (2 ^ 25))), tCtx, ⟨by decide +kernel, by decide +kernel, rfl⟩, by decide +kernel⟩
theorem test_clw_of_none : ∃ (s : State) (q : QCtl) (n : QNow), s.quillAt q 0x2A n ∧ n.t.pc + 1 < s.progLength n ∧ n.t.reg (fld n.w 15 11) = 0 :=
  ⟨tQuill (fmtA 0x2A 3 8 0), tQ, tNow (fmtA 0x2A 3 8 0), ⟨by decide +kernel, by decide +kernel, rfl⟩, by decide +kernel⟩

def tNest : Nest := { queue := 6, counts := [1], nbody := 0, patches := [], edges := [], templates := [0x11], tag := 5, run := tD }
def tIssuer : State := tRings (tAdm 0x79 .encNative (.qrun tRun)) { tEng 0 with nests := vupd (Vector.replicate 2 none) 1 fun _ => some tNest }
theorem test_issuer : ∃ (s : State) (cl : Fin 64) (i : Fin 2) (n : Nest) (k : Fin 7), s.inService cl = true ∧ s.unitOut 1 cl = false ∧
    s.clusters[cl].eng.nests[i] = some n ∧ n.queue = k.val ∧ s.clusters[cl].eng.room k = true := ⟨tIssuer, 0, 1, tNest, 6, by decide +kernel⟩
theorem test_nest_fault : ∃ f : QFault, f ≠ .none := ⟨.memory, nofun⟩
theorem test_nest_body : ((tNext (.nestIssueBody ⟨0, .none⟩ 1) tIssuer).queue 0 6).waiting.map (fun b => (b.tag, b.bits)) = [(5, fillTag 6 0x11 5)] := by decide +kernel

/-- A long word of mask 0x41 at the head of a stream of one. -/
def tLong : State :=
  { tRings (tAdm 0x79 .encNative (.qrun tRun)) { tEng 0 { tTask with st := .waiting .stream } with streams := [(0, { addr := 2 ^ 25, left := 1, queues := 0x41, run := tD })] } with
    mem := Memory.writeNat ([] : Memory) (2 ^ 25) 16 0x41 }
theorem test_long_word : ∃ (s : State) (cl : Fin 64) (p : Fin 8) (st : Stream) (x : Task) (c : Ctx) (mask size : Nat), s.inService cl = true ∧ s.unitOut 1 cl = false ∧
    s.clusters[cl].eng.streams = [(p.val, st)] ∧ s.clusters[cl].eng.tasks[p] = some x ∧ s.ctxs.find x.run.ctx = some c ∧
    mask = fld (BitVec.ofNat 128 (s.mem.readNat st.addr 16)) 6 0 ∧ mask ≠ 0 ∧ fld (BitVec.ofNat 128 (s.mem.readNat st.addr 16)) 127 7 = 0 ∧
    size = (longSlots mask).2 ∧ c.inWindow st.addr size = true ∧ s.hub.fenceCh = 0 ∧ s.memWaits (.stream cl p.val) = false ∧
    s.memFenced st.addr 16 = false ∧ s.memFenced st.addr size = false ∧ (s.clusters[cl].eng.streams.find? fun y => y.1 == p.val) = some (p.val, st) ∧
    ∀ k : Fin 7, mask.testBit k.val = true → s.clusters[cl].eng.room k = true ∧ s.clusters[cl].eng.mayWord p.val k.val = true :=
  ⟨tLong, 0, 0, { addr := 2 ^ 25, left := 1, queues := 0x41, run := tD }, { tTask with st := .waiting .stream }, tCtx, 0x41, 64, by decide +kernel⟩
theorem test_long_word_places : (((tNext (.longWordPlace ⟨0, .none⟩ 0) tLong).queue 0 0).waiting.length, ((tNext (.longWordPlace ⟨0, .none⟩ 0) tLong).queue 0 6).waiting.length,
    ((tNext (.longWordPlace ⟨0, .none⟩ 0) tLong).queue 0 3).waiting.length) = (1, 1, 0) := by decide +kernel

theorem test_wait : ∃ (s : State) (q : QCtl) (n : QNow) (k : Fin 7), s.quillAt q 0x2C n ∧ fld n.w 2 0 = k.val ∧ n.t.pc + 1 < s.progLength n ∧
    ((s.queue q.cl k).retired - BitVec.ofNat 32 (n.t.reg (fld n.w 20 16)).toNat).toInt < 0 :=
  ⟨tQuill (fmtB 0x2C 0 1 6), tQ, tNow (fmtB 0x2C 0 1 6), 6, ⟨by decide +kernel, by decide +kernel, rfl⟩, by decide +kernel⟩
theorem test_wait_reached : ∃ (s : State) (q : QCtl) (n : QNow) (k : Fin 7), s.quillAt q 0x2C n ∧ fld n.w 2 0 = k.val ∧ n.t.pc + 1 < s.progLength n ∧
    0 ≤ ((s.queue q.cl k).retired - BitVec.ofNat 32 (n.t.reg (fld n.w 20 16)).toNat).toInt :=
  ⟨tQuill (fmtB 0x2C 0 0 6), tQ, tNow (fmtB 0x2C 0 0 6), 6, ⟨by decide +kernel, by decide +kernel, rfl⟩, by decide +kernel⟩
theorem test_yield : ∃ (s : State) (q : QCtl) (n : QNow), s.quillAt q 0x2D n ∧ n.t.pc + 1 < s.progLength n ∧ ∀ r, s.run n.t.run = some r → r.failed = false :=
  ⟨tQuill (fmtB 0x2D 0 0 0), tQ, tNow (fmtB 0x2D 0 0 0), ⟨by decide +kernel, by decide +kernel, rfl⟩, by decide +kernel, fun r h => by
    have k : (tQuill (fmtB 0x2D 0 0 0)).run tD = some tRun := by decide +kernel
    rw [show (tNow (fmtB 0x2D 0 0 0)).t.run = tD from rfl, k] at h; cases h; rfl⟩
/-- Two tasks: the one that runs has run 256 instructions, the other is READY. -/
def tSlice : State := tRings (tAdm 0x79 .encNative (.qrun tRun))
  { tEng 0 { tTask with since := 256 } with tasks := vupd (vupd (Vector.replicate 8 none) 0 fun _ => some { tTask with since := 256 }) 7 fun _ => some { tTask with st := .ready } }
theorem test_time_slice : ∃ (s : State) (cl : Fin 64) (p : Fin 8) (x : Task), s.inService cl = true ∧ s.unitOut 1 cl = false ∧ s.clusters[cl].eng.cur = some p ∧
    s.clusters[cl].eng.tasks[p] = some x ∧ x.st = .running ∧ s.clusters[cl].eng.sliceDue x = true ∧ s.clusters[cl].eng.last = p :=
  ⟨tSlice, 0, 0, { tTask with since := 256 }, by decide +kernel⟩
theorem test_time_slice_ends : (tNext (.taskTimeslice 0) tSlice).clusters[(0 : Fin 64)].eng.cur = some 7 := by decide +kernel

/-- R221: counts 1 and 2, two templates: 2 · 3 · 2 bodies. -/
theorem test_nest_later : ((Nest.later 11 { tNest with counts := [1, 2], nbody := 1 }).map fun n => (n.iter, n.body)) = some (5, 1) ∧
    Nest.later 12 { tNest with counts := [1, 2], nbody := 1 } = none := by decide +kernel
theorem test_nest_start : ∃ n : Nest, n.iter = 0 ∧ n.body = 0 := ⟨tNest, rfl, rfl⟩

/-! ### Keys and sweeps -/

theorem test_completion : ∃ (s : State) (d : DRef) (a : Adm) (c : Ctx), s.adm d = some a ∧ s.env.serac.st ≠ .stopped ∧ s.ctxs.find d.ctx = some c :=
  ⟨tRings (tAdm 0x74), tD, tAdm 0x74, tCtx, by decide +kernel⟩
/-- A LUTSET header of one record (Table 3-2), with tenant and digest. -/
def tHeader (tenant digest : Nat) : BitVec 4096 :=
  BitVec.ofNat 4096 (bitsOf [(0, 0x4B484452), (32, 2), (48, 1), (56, kindLUT), (64, 512), (128, tenant), (320, digest), (832, 1)])
/-- An allocating KEY_LOAD of a LUTSET whose header lies at host address 0x1000. -/
def tLoadAdm : Adm := tAdm (bitsOf [(0, 0x70), (128, 0x1000), (192, 0xFFFFFFFF), (225, kindLUT)])
/-- The fingerprint of the tenant (1, 2), and the header of a key of that tenant in memory. -/
def tTenant : Nat := 0x53d90593a55018ad6586e1ec8ebc8577
def tHeaderMem : Memory := [(0x1000, 0x52), (0x1001, 0x44), (0x1002, 0x48), (0x1003, 0x4b), (0x1004, 0x2), (0x1006, 0x1), (0x1007, 0x4), (0x1009, 0x2), (0x1010, 0x77), (0x1011, 0x85), (0x1012, 0xbc), (0x1013, 0x8e), (0x1014, 0xec), (0x1015, 0xe1), (0x1016, 0x86), (0x1017, 0x65), (0x1018, 0xad), (0x1019, 0x18), (0x101a, 0x50), (0x101b, 0xa5), (0x101c, 0x93), (0x101d, 0x5), (0x101e, 0xd9), (0x101f, 0x53), (0x1068, 0x1)]
def tOwner : Ctx := { tCtx with ids := vupd (Vector.replicate 8 none) 0 fun _ => some (1, 2) }
def tLoad : State :=
  { tRings tLoadAdm with host := [(1, tHeaderMem)], ctxs := [(1, tOwner)], env := ((tAt .ready).updSetup fun u => { u with keyPool := BitVec.ofNat 64 (2 ^ 32 * 128) }).env }
theorem test_key_load : ∃ (s : State) (d : DRef) (a : Adm) (c : Ctx) (i base x y : Nat) (h : BitVec 4096), s.adm d = some a ∧ a.opcode = 0x70 ∧ a.prog = .fresh ∧
    s.shed < 5 ∧ a.keyBody.allocates = true ∧ s.loadCauses d.ctx a = [] ∧ s.findEntry (a.keyBody.kind != kindLUT) = some i ∧ s.ctxs.find d.ctx = some c ∧
    s.xlOk (s.spaceOf d.ctx) a.keyBody.addr 512 false = true ∧ h = BitVec.ofNat 4096 (s.hostNat (s.spaceOf d.ctx) a.keyBody.addr 512) ∧
    headerCauses h a.keyBody.kind none = [] ∧ c.identity (fld h 255 128) = some (x, y) ∧
    s.allocRows (divUp (max 1 (divUp (fld h 127 64) 4096)) 20) = some base ∧ c.keyUse + max 1 (divUp (fld h 127 64) 4096) ≤ fld a.desc 223 192 ∧
    s.pkeFenced = false ∧ a.keyBody.pin = false ∧ max 1 (divUp (fld h 127 64) 4096) < 2 ^ 20 ∧ s.keys.nextStack < 20 ∧ base < 2 ^ 24 :=
  ⟨tLoad, tD, tLoadAdm, tOwner, 0, 0, 1, 2, tHeader tTenant 0, by decide +kernel⟩
def dig64 : Nat := 6756433270247411179955344271290860428196519276306619770861134681094926084110998387270479862864333985199987953846750880615535480720605515890594991962974587
/-- A KRT entry (Table 3-7): state, kind, owner 1, generation 3, one unit, staged or not, pinned or not. -/
def tEntry (st kind : Nat) (firn pin : Nat := 0) : BitVec 256 :=
  BitVec.ofNat 256 (bitsOf [(35, firn), (37, pin), (38, st), (41, kind), (44, 1), (52, 1), (64, 3), (108, 1)])
def tHandle : Nat := 3 * 2 ^ 17
/-- The state of `tRings` with entry 0 of the KRT as given in both copies. -/
def tKey (a : Adm) (e : BitVec 256) : State := { tRings a with keys := { State.reset.keys with a := [(0, e)], b := [(0, e)] } }

theorem test_only {s : State} {a : Adm} {Q : DRef × Adm → Prop} (h : s.descs = [(tD, a)]) (q : Q (tD, a)) : ∀ p ∈ s.descs, Q p :=
  fun _ m => List.mem_singleton.mp (h ▸ m) ▸ q
theorem test_not_freed {s : State} {a : Adm} {i : Nat} (h : s.descs = [(tD, a)]) (q : ∀ l, a.prog ≠ .keyFree l) (z : s.keys.doomed = []) : s.notFreed i :=
  ⟨test_only (Q := fun p => ∀ l, p.2.prog = .keyFree l → i ∉ l) h fun l e => absurd e (q l), z ▸ List.not_mem_nil⟩
theorem test_no_frees {s : State} {a : Adm} (h : s.descs = [(tD, a)]) (q : a.opcode ≠ 0x71 ∧ ∀ l, a.prog ≠ .keyFree l) (z : s.keys.doomed = []) : s.noFrees :=
  ⟨test_only (Q := fun p => p.2.opcode ≠ 0x71 ∧ ∀ l, p.2.prog ≠ .keyFree l) h q, z⟩
theorem test_no_pin {s : State} {a : Adm} (h : s.descs = [(tD, a)]) (q : ∀ l w, a.prog ≠ .keyPin l w) : ∀ p ∈ s.descs, ∀ l w, p.2.prog ≠ .keyPin l w :=
  test_only (Q := fun p => ∀ l w, p.2.prog ≠ .keyPin l w) h q

theorem test_digest : (Crypto.digest (List.replicate 64 0)).toNat =
    6756433270247411179955344271290860428196519276306619770861134681094926084110998387270479862864333985199987953846750880615535480720605515890594991962974587 := by decide +kernel
/-- A key load whose signature has verified; its key is 64 bytes of zeros. -/
def tCopyAdm : Adm := tAdm (bitsOf [(0, 0x70), (128, 0x1000), (192, 0xFFFFFFFF), (225, kindBSK)])
def tCopy : KeyLoad := { idx := 0, pair := true, started := true, sigDone := true, sigOk := true, units := 1, header := BitVec.ofNat 4096 (bitsOf [(48, 1), (64, 64), (320, dig64)]) }
theorem test_key_load_ends : ∃ (s : State) (d : DRef) (a : Adm) (k : KeyLoad) (data : List Byte), s.adm d = some { a with prog := .keyLoad k } ∧ k.started = true ∧
    k.copyDone = false ∧ k.sigDone = true ∧ k.causes = [] ∧ s.shed < 5 ∧ s.hub.fenceCh = 0 ∧ s.env.serac.st ≠ .stopped ∧ s.noFrees ∧ s.memWaits (.keyLoad d) = false ∧
    s.rebuilding k.idx = false ∧ a.keyBody.kind ≠ kindLUT ∧ a.keyBody.pin = false ∧ Krt.state (s.entry k.idx) = stLOADING ∧ (Family.ofId (fld k.header 55 48)).isSome ∧
    s.xlOk (s.spaceOf d.ctx) (a.keyBody.addr + 512) (fld k.header 127 64) false = true ∧
    data = s.hostRead (s.spaceOf d.ctx) (a.keyBody.addr + 512) (fld k.header 127 64) ∧ (Crypto.digest data).toNat = fld k.header 831 320 :=
  ⟨tKey { tCopyAdm with prog := .keyLoad tCopy } (tEntry stLOADING kindBSK), tD, tCopyAdm, tCopy, List.replicate 64 0, by decide +kernel, rfl, rfl, rfl, rfl, by decide +kernel,
    rfl, by decide +kernel, test_no_frees rfl ⟨by decide +kernel, fun _ => nofun⟩ rfl, by decide +kernel, by decide +kernel, by decide +kernel, by decide +kernel, by decide +kernel,
    by decide +kernel, by decide +kernel, by decide +kernel, test_digest.trans (by decide +kernel)⟩

def tQuery : State := tKey (tAdm (bitsOf [(0, 0x74), (128, 0x2000), (192, tHandle)])) (tEntry stRESIDENT kindBSK)
theorem test_key_query : ∃ (s : State) (d : DRef) (a : Adm), s.fresh d 0x74 = some a ∧ s.rebuilding (handleIdx a.keyBody.handle) = false ∧ a.keyBody.reserved = false ∧
    a.keyBody.select = 0 ∧ a.keyBody.kind = 0 ∧ a.keyBody.pin = false ∧ a.keyBody.addr % 64 = 0 ∧ a.cls.keyOps = true ∧ s.deadPart d.ctx = false ∧
    s.keyCauses d.ctx a.keyBody.handle (handleIdx a.keyBody.handle) [kindBSK, kindGBSK, kindKSK, kindLUT] = [] ∧
    s.xlOk (s.spaceOf d.ctx) a.keyBody.addr 32 true = true ∧ s.env.serac.st ≠ .stopped :=
  ⟨tQuery, tD, tAdm (bitsOf [(0, 0x74), (128, 0x2000), (192, tHandle)]), by decide +kernel⟩
theorem test_key_query_answer : (tNext (.keyQuery tD) tQuery).hostNat (.pasid 0) 0x2000 32 = (tEntry stRESIDENT kindBSK).toNat := by decide +kernel
/-- A free entry; a generation that differs; another owner; QUARANTINED with each q_cause; each state that is not RESIDENT; a kind that is not taken. -/
theorem test_key_states : (tKey (tAdm 0) 0).krtFenced = false ∧ Krt.state ((tKey (tAdm 0) 0).entry 0) = stFREE ∧
    Krt.gen ((tKey (tAdm 0) (tEntry stRESIDENT kindBSK)).entry 0) ≠ handleGen 0 ∧
    (∀ st ∈ [stLOADING, stVERIFYING, stRESIDENT, stEVICTING, stQUARANTINED], Krt.state ((tKey (tAdm 0) (tEntry st kindBSK)).entry 0) = st ∧
      Krt.gen ((tKey (tAdm 0) (tEntry st kindBSK)).entry 0) = handleGen (BitVec.ofNat 32 tHandle) ∧ Krt.owner ((tKey (tAdm 0) (tEntry st kindBSK)).entry 0) = 1) ∧
    Krt.qCause (putFld (tEntry stQUARANTINED kindBSK) 34 34 1) = 1 ∧ Krt.kind (tEntry stRESIDENT kindBSK) ∉ [kindKSK] := by decide +kernel

/-- An operation on the LUTSET of entry 0. -/
def tLutAdm (op : Nat) : Adm := tAdm (bitsOf [(0, op), (192, tHandle)])
def tLut (op : Nat) : State := tKey (tLutAdm op) (tEntry stRESIDENT kindLUT)
theorem test_lutset_operations : ∀ op ∈ [0x71, 0x72, 0x73], ∃ (s : State) (d : DRef) (a : Adm) (i : Nat), i = handleIdx a.keyBody.handle ∧ s.rebuilding i = false ∧
    s.krtFenced = false ∧ s.deadPart d.ctx = false ∧ a.cls.keyOps = true ∧ a.keyBody.reserved = false ∧ a.keyBody.select = 0 ∧ a.keyBody.kind = 0 ∧ a.keyBody.pin = false ∧ a.keyBody.addr = 0 ∧
    Krt.kind (s.entry i) = kindLUT ∧ Krt.state (s.entry i) = stRESIDENT ∧ Krt.gen (s.entry i) = handleGen a.keyBody.handle ∧
    Krt.owner (s.entry i) = d.ctx.val ∧ s.env.serac.st ≠ .stopped ∧ s.notFreed i ∧ s.fresh d op = some a ∧ s.useOf i = 0 ∧ s.swept i = false ∧
    a.pinAllowed = true ∧ s.firnOff = false ∧ s.pinOk ([i].filter fun j => !Krt.pin (s.entry j)) 0 0 = true ∧
    (∀ p ∈ s.descs, ∀ l w, p.2.prog ≠ .keyPin l w) := by
  intro op h
  refine ⟨tLut op, tD, tLutAdm op, 0, ?_, ?_, ?_, ?_, ?_, ?_, ?_, ?_, ?_, ?_, ?_, ?_, ?_, ?_, ?_, test_not_freed rfl (fun _ => nofun) rfl, ?_, ?_, ?_,
    ?_, ?_, ?_, test_no_pin rfl fun _ _ => nofun⟩ <;> (revert op; decide +kernel)
/-- Of a pin: the table in order, and no key staged or pinned. -/
theorem test_pin_alone : Table.ordered (tLut 0x72).keys.a ∧ ∀ p ∈ (tLut 0x72).keys.a, Krt.firn p.2 = 0 ∧ Krt.pin p.2 = false := by
  unfold Table.ordered; decide +kernel
theorem test_key_free_in_use : 0 < ({ tLut 0x71 with keys := { (tLut 0x71).keys with use := [(0, 2)] } } : State).useOf 0 ∧
    ∀ p ∈ (tLut 0x71).descs, 0 ∉ p.2.uses := by decide +kernel
theorem test_pin_of_staged : Krt.firn ((tKey (tLutAdm 0x72) (tEntry stRESIDENT kindLUT 2)).entry 0) = 2 ∧ Krt.firn ((tLut 0x72).entry 0) ≠ 2 := by decide +kernel
theorem test_key_free : Krt.state ((tNext (.keyFree tD) (tLut 0x71)).entry 0) = stFREE ∧ Krt.gen ((tNext (.keyFree tD) (tLut 0x71)).entry 0) = 3 := by decide +kernel

def tSlot : DirSlot := { header := BitVec.ofNat 4096 (bitsOf [(48, 1), (56, kindBSK)]), first := 7, base := 9, length := 2, owner := 1, gen := 3, kind := kindBSK, pin := false, evicting := false }
/-- A rebuild of the entry of the slot, which was RESIDENT or QUARANTINED before. -/
def tRb (was : Nat × Nat) : Rebuild := { since := 0, verified := true, was }
def tRebuild (was : Nat × Nat) : State :=
  { tRings (tAdm 0x74) with
    keys := { State.reset.keys with rebuilds := [(5, tRb was)], dir := [(5, tSlot)] }
    mem := Memory.write ([] : Memory) ((tRings (tAdm 0x74)).slotAddr 5) tSlot.bytes }
theorem test_rebuild : ∀ was ∈ [(stRESIDENT, 0), (stQUARANTINED, 1)], ∃ (s : State) (i : Fin 131072) (r : Rebuild) (x : DirSlot), s.keys.rebuilds.find i = some r ∧
    s.keys.dir.find i = some x ∧ s.memWaits (.rebuild i) = false ∧ r.was.1 ≠ stEVICTING ∧ r.verified = true ∧ r.failed = false ∧ s.slotOk i = true ∧ s.memFenced (s.slotAddr i) 1024 = false ∧ x.evicting = false ∧
    s.env.serac.st ≠ .stopped ∧ s.notFreed i ∧ r.was = was ∧ r.was.2 < 2 ∧ x.gen < 2 ^ 15 ∧ x.owner < 4096 ∧ x.length < 2 ^ 20 ∧ x.base < 2 ^ 24 ∧ x.first < 32 := by
  intro was h
  refine ⟨tRebuild was, 5, tRb was, tSlot, ?_, ?_, ?_, ?_, rfl, rfl, ?_, ?_, rfl, ?_, test_not_freed rfl (fun _ => nofun) rfl, rfl, ?_⟩ <;> (revert was; decide +kernel)

/-- A KEY_LOAD of the entry under rebuild, and a KEY_FREE by its handle, are parked. -/
theorem test_rebuild_parked : (∃ (s : State) (d : DRef) (a : Adm) (k : KeyLoad), s.adm d = some a ∧ a.prog = .keyLoad k ∧ k.idx = 5 ∧ s.rebuilding 5 = true) ∧
    ∃ (s : State) (d : DRef) (a : Adm), s.fresh d 0x71 = some a ∧ 5 ∈ s.handleMembers (handleIdx a.keyBody.handle) ∧ s.rebuilding 5 = true :=
  let at5 (a : Adm) : State := { tRings a with keys := { State.reset.keys with rebuilds := [(5, tRb (stLOADING, 0))], dir := [(5, tSlot)] } }
  let a : Adm := { tCopyAdm with prog := .keyLoad { tCopy with idx := 5 } }
  let b : Adm := tAdm (bitsOf [(0, 0x71), (192, tHandle + 4)])
  ⟨⟨at5 a, tD, a, { tCopy with idx := 5 }, by decide +kernel⟩, at5 b, tD, b, by decide +kernel⟩

def tStaged : State := tKey (tAdm 0x74) (tEntry stRESIDENT kindBSK 1 1)
theorem test_epoch : Table.ordered tStaged.keys.a := by unfold Table.ordered; decide +kernel
theorem test_epoch_keys : (tStaged.keys.a.find 0 = some (tEntry stRESIDENT kindBSK 1 1) ∧ tStaged.firnOff = false) ∧ Krt.pin (tEntry stRESIDENT kindBSK 1 1) = true ∧
    Krt.firn (tEntry stRESIDENT kindBSK 1 1) ≠ 0 := by decide +kernel
theorem test_staging : ∃ (s : State) (i : Fin 131072), Krt.firn (s.entry i) = 1 ∧ s.firnOff = false ∧ s.swept i = false ∧ s.stageWaits i = false ∧
    (∀ p ∈ s.descs, ∀ l w, p.2.prog ≠ .keyPin l w) :=
  ⟨tStaged, 0, by decide +kernel, by decide +kernel, by decide +kernel, by decide +kernel, test_no_pin rfl fun _ _ => nofun⟩

def tSub : Sub := { cl := 0, engine := 0, gsub := 0, ctx := 1, run := tD, batch := 4, arrived := 0 }
def tSubbed : State := { tRings (tAdm 0x79 .encNative (.qrun tRun)) with keys := { State.reset.keys with a := [(0, tEntry stRESIDENT kindBSK)], b := [(0, tEntry stRESIDENT kindBSK)], subs := [(0, [tSub])] } }
theorem test_sweep_start : ∃ (s : State) (i : Fin 131072) (slot : Fin 8), s.keys.sweeps[slot] = none ∧ (∀ j : Fin 8, j < slot → s.keys.sweeps[j].isSome) ∧
    s.firstReady i = true ∧ s.glacierOut = false ∧ s.krtOut = false ∧ s.rebuilding i = false ∧ s.krtFenced = false ∧ s.sweepsOff = false ∧ Krt.state (s.entry i) = stRESIDENT ∧ s.keys.subs.get [] i = [tSub] :=
  ⟨tSubbed, 0, 0, by decide +kernel⟩
def tSweepOf (unit : Nat) (staged : Bool) : Sweep := { idx := 0, entry := tEntry stRESIDENT kindBSK, unit, subs := [{ sub := tSub }], startedAt := 0, staged }
def tSweep (unit : Nat) (staged : Bool := true) : State := { tSubbed with keys := { tSubbed.keys with sweeps := vupd State.reset.keys.sweeps 2 fun _ => some (tSweepOf unit staged) } }
/-- A unit of a staged key, one that a Glacier reads, and no unit left. -/
theorem test_fragment : ∀ b ∈ [true, false], ∃ (s : State) (slot : Fin 8) (w : Sweep), s.keys.sweeps[slot] = some w ∧ s.unitReady w ∧ w.staged = b := by
  intro b h
  exact ⟨tSweep 0 b, 2, tSweepOf 0 b, by revert b; decide +kernel, by revert b; unfold State.unitReady; decide +kernel, rfl⟩
theorem test_fragment_last : ∃ (s : State) (slot : Fin 8) (w : Sweep), s.keys.sweeps[slot] = some w ∧ ¬ s.unitReady w :=
  ⟨tSweep 1, 2, tSweepOf 1 true, by decide +kernel, by unfold State.unitReady; decide +kernel⟩
theorem test_fragment_credit : ((tNext (.fragmentIssue 2) (tSweep 0)).keys.sweeps[(2 : Fin 8)].map fun w => (w.unit, w.subs.map (·.credit))) = some (1, [63]) := by decide +kernel
theorem test_sweep_waits : ∃ (s : State) (i : Fin 131072) (x : Sub) (r : List Sub), s.keys.subs.get [] i = x :: r := ⟨tSubbed, 0, tSub, [], by decide +kernel⟩

/-! ### Flags, barriers and peers -/

def tBody (bits : Nat) : Body := { bits := BitVec.ofNat 512 bits, tag := 0, no := 0, ord := 0, run := tD }
/-- The body of tBody at the head of a queue of cluster 0. -/
def tHead (q : Fin 7) (bits : Nat) (cls : QClass := .encNative) (run : Run := tRun) : State :=
  tRings (tAdm 0x79 cls (.qrun run)) { queues := vupd (Vector.replicate 7 {}) q fun _ => { items := [.body (tBody bits)], placed := 1 }, nextOrd := 1 }
def tQAdm : Adm := tAdm 0x79 .encNative (.qrun tRun)
def tBar (count : Nat) : Barrier := { owner := 1, expected := 3, configured := true, count := BitVec.ofNat 16 count }
/-- Context 1 holds device block 5 as its block 0, with flag 2 set, and barrier 7 with one arrival of three or two. -/
def tSyncs (s : State) (count : Nat := 1) : State :=
  { s with ctxs := [(1, { tCtx with blocks := [(0, 5)] })], sync := { s.sync with flags := 1 <<< 322, blocks := [(5, (1, 0))], bars := [(7, tBar count)] } }
def tSyncHead (bits : Nat) (count : Nat := 1) : State := tSyncs (tHead 6 bits) count
/-- A body of Table 12-3: in order (src 7), on an index. -/
def tSyncBits (op index : Nat) (more : Nat := 0) : Nat := bitsOf [(0, op), (32, index), (45, 7)] + more

theorem test_flag_set_body : ∀ op ∈ [0x11, 0x12], ∃ (s : State) (cl : Fin 64) (b : Body) (a : Adm) (c : SyncBody) (g : Nat), s.syncHead cl op b a c ∧
    c.op = op ∧ c.host = false ∧ s.devFlag b.run.ctx c.index = some g ∧ s.flagWaiters b.run.ctx false c.index = [] := by
  intro op h
  exact ⟨tSyncHead (tSyncBits op 3), 0, tBody (tSyncBits op 3), tQAdm, _, 323, ⟨by revert op; decide +kernel, rfl, by revert op; decide +kernel, by revert op; decide +kernel,
    by revert op; decide +kernel⟩, by revert op; decide +kernel⟩
/-- A wait on the set flag 2, and one on the clear flag 3. -/
theorem test_flag_wait_body : ∀ k ∈ [2, 3], ∃ (s : State) (cl : Fin 64) (b : Body) (a : Adm) (c : SyncBody) (g : Nat), s.syncHead cl 0x13 b a c ∧ c.op = 0x13 ∧
    c.host = false ∧ s.devFlag b.run.ctx c.index = some g ∧ s.flagWaiters b.run.ctx false c.index = [] ∧ s.clusters[cl].ctx = some b.run.ctx ∧
    s.sync.flags.getLsbD g = (k == 2) := by
  intro k h
  exact ⟨tSyncHead (tSyncBits 0x13 k), 0, tBody (tSyncBits 0x13 k), tQAdm, _, 320 + k, ⟨by revert k; decide +kernel, rfl, by revert k; decide +kernel, by revert k; decide +kernel,
    by revert k; decide +kernel⟩, by revert k; decide +kernel⟩
/-- An arrival short of the count, waiting or not; and the last one. -/
theorem test_arrive_body : ∀ w ∈ [0, 2 ^ 9], ∃ (s : State) (cl : Fin 64) (b : Body) (a : Adm) (c : SyncBody) (x : Barrier), s.syncHead cl 0x14 b a c ∧ c.op = 0x14 ∧
    s.bar b.run.ctx c.index = some x ∧ x.root = 0 ∧ x.count + 1 ≠ BitVec.ofNat 16 x.expected ∧ x.expected < 2 ^ 16 ∧ c.wait = (w != 0) := by
  intro w h
  exact ⟨tSyncHead (tSyncBits 0x14 7 w), 0, tBody (tSyncBits 0x14 7 w), tQAdm, _, tBar 1, ⟨by revert w; decide +kernel, rfl, by revert w; decide +kernel,
    by revert w; decide +kernel, by revert w; decide +kernel⟩, by revert w; decide +kernel⟩
theorem test_last_arrival : ∃ (s : State) (cl : Fin 64) (b : Body) (a : Adm) (c : SyncBody) (x : Barrier), s.syncHead cl 0x14 b a c ∧ c.op = 0x14 ∧
    s.bar b.run.ctx c.index = some x ∧ x.root = 0 ∧ x.count + 1 = BitVec.ofNat 16 x.expected ∧ x.expected < 2 ^ 16 ∧ x.relValid = false ∧
    s.clusters[cl].ctx = some b.run.ctx :=
  ⟨tSyncHead (tSyncBits 0x14 7) 2, 0, tBody (tSyncBits 0x14 7), tQAdm, _, tBar 2, ⟨by decide +kernel, rfl, by decide +kernel, by decide +kernel, by decide +kernel⟩, by decide +kernel⟩
def tHeldWork : Work := { b := tBody (tSyncBits 0x13 3), issuedAt := 0, cls := .encNative, kind := .held (some 9000) 0 false }
def tHeldBody : State := tSyncs (tRings tQAdm { queues := vupd (Vector.replicate 7 {}) 6 fun _ => { works := [tHeldWork], placed := 1 } })
theorem test_sync_timeout : ∃ (s : State) (cl : Fin 64) (i : Nat) (w : Work) (u : Nat) (ph : BitVec 16) (k : Bool), s.work? cl 6 i = some w ∧ w.done = false ∧
    w.kind = .held (some u) ph k := ⟨tHeldBody, 0, 0, tHeldWork, 9000, 0, false, by decide +kernel⟩
/-- R299: a set ends the wait that it satisfies. -/
theorem test_flag_set : (tNext (.flagSet 0 {}) (tSyncHead (tSyncBits 0x11 3))).sync.flags = 3 <<< 322 ∧
    (tNext (.flagClear 0 {}) (tSyncHead (tSyncBits 0x12 2))).sync.flags = 0 := by decide +kernel

/-- QGATE: target 1, source 0, count 1: shut; count 0: open; target 6: refused. -/
def tGateBits (t count : Nat) : Nat := bitsOf [(0, 0x10), (8, t), (64, count)]
theorem test_gate : ∀ n ∈ [0, 1], ∃ (s : State) (cl : Fin 64) (b : Body) (a : Adm), s.headOp cl 6 0x10 = some (b, a) ∧ s.work? cl 6 b.no = none ∧ gateOk b.bits = true ∧
    fld b.bits 63 16 = 0 ∧ s.clusters[cl].eng.gateOpen (fld b.bits 15 12) (BitVec.ofNat 32 (fld b.bits 95 64)) = (n == 0) := by
  intro n h
  exact ⟨tHead 6 (tGateBits 1 n), 0, tBody (tGateBits 1 n), tQAdm, by revert n; decide +kernel⟩
/-- The mark of the gate stands in its target's queue. -/
def tGated : State := tRings tQAdm { queues := vupd (vupd (Vector.replicate 7 {}) 6 fun _ => { items := [.body (tBody (tGateBits 1 1))], placed := 1 }) 1 fun _ => { items := [.mark 0 0 1] } }
theorem test_gate_mark : tGated.headOp 0 6 0x10 = some (tBody (tGateBits 1 1), tQAdm) ∧ .mark 0 0 1 ∈ (tGated.queue 0 1).items := by decide +kernel
theorem test_gate_refused : ∃ (s : State) (cl : Fin 64) (b : Body) (a : Adm), s.headOp cl 6 0x10 = some (b, a) ∧ s.work? cl 6 b.no = none ∧ gateOk b.bits = false :=
  ⟨tHead 6 (tGateBits 6 1), 0, tBody (tGateBits 6 1), tQAdm, by decide +kernel⟩
/-- R212: a count has been reached by the sign of its difference modulo 2^32. -/
theorem test_reached : reached 0 0xFFFFFFFF = true ∧ reached 0xFFFFFFFF 0 = false ∧ reached 0x80000000 0 = false ∧ reached 0x7FFFFFFF 0 = true := by decide

/-- A ring operation of Table 12-6, its body's fields as given. -/
def tSyncAdm (op : Nat) (l : List (Nat × Nat)) : Adm := tAdm (bitsOf ((0, op) :: l.map fun (p : Nat × Nat) => (128 + p.1, p.2))) (if op = 0x98 ∨ op = 0x99 then .admin else .encNative)
def tSyncRing (op : Nat) (l : List (Nat × Nat)) : State := tSyncs (tRings (tSyncAdm op l))
theorem test_sync_alloc : ∃ (s : State) (d : DRef) (c : SyncOp) (x : Ctx) (i b : Nat), s.syncFresh d 0x90 c ∧ c.bar = false ∧ s.env.serac.st ≠ .stopped ∧
    s.ctxs.find d.ctx = some x ∧ ((upTo 64).find? fun i => (x.blocks.find i).isNone) = some i ∧ ((upTo 512).find? fun i => (s.sync.blocks.find i).isNone) = some b :=
  ⟨tSyncRing 0x90 [], tD, _, { tCtx with blocks := [(0, 5)] }, 1, 0, ⟨tSyncAdm 0x90 [], by decide +kernel, rfl, by decide +kernel⟩, by decide +kernel⟩
theorem test_sync_free : ∃ (s : State) (d : DRef) (c : SyncOp) (x : Barrier), s.syncFresh d 0x91 c ∧ c.bar = true ∧ c.index ≤ 255 ∧ s.env.serac.st ≠ .stopped ∧
    s.bar d.ctx c.index = some x :=
  ⟨tSyncRing 0x91 [(0, 7), (72, 1)], tD, _, tBar 1, ⟨tSyncAdm 0x91 [(0, 7), (72, 1)], by decide +kernel, rfl, by decide +kernel⟩, by decide +kernel⟩
theorem test_sync_barrier : ∃ (s : State) (d : DRef) (c : SyncOp) (i : Nat), s.syncFresh d 0x90 c ∧ c.bar = true ∧ s.env.serac.st ≠ .stopped ∧
    ((upTo 256).find? fun i => (s.sync.bars.find i).isNone) = some i :=
  ⟨tSyncRing 0x90 [(72, 1)], tD, _, 0, ⟨tSyncAdm 0x90 [(72, 1)], by decide +kernel, rfl, by decide +kernel⟩, by decide +kernel⟩
theorem test_sync_free_block : ∃ (s : State) (d : DRef) (c : SyncOp) (b : Nat), s.syncFresh d 0x91 c ∧ c.bar = false ∧ c.index ≤ 63 ∧ s.env.serac.st ≠ .stopped ∧
    s.blockOf d.ctx c.index = some b ∧ ∀ x, s.ctxs.find d.ctx = some x → Table.ordered x.blocks :=
  ⟨tSyncRing 0x91 [(0, 0)], tD, _, 5, ⟨tSyncAdm 0x91 [(0, 0)], by decide +kernel, rfl, by decide +kernel⟩, by decide +kernel, by decide +kernel, by decide +kernel, by decide +kernel,
    fun x h => by
      have e : x = { tCtx with blocks := [(0, 5)] } := (Option.some.inj h).symm
      exact e ▸ (by unfold Table.ordered; decide)⟩
/-- FLAG_OP 0 on flag 3; op 2, a wait, on the set flag 2 and on the clear flag 3. -/
theorem test_flag_op : ∀ p ∈ [(0, 3), (2, 2), (2, 3)], ∃ (s : State) (d : DRef) (c : SyncOp) (g : Nat), s.syncFresh d 0x92 c ∧ c.host = false ∧
    s.devFlag d.ctx c.index = some g ∧ s.flagWaiters d.ctx false c.index = [] ∧ s.env.serac.st ≠ .stopped ∧ c.op = p.1 ∧ s.sync.flags.getLsbD g = (p.2 == 2) := by
  intro p h
  exact ⟨tSyncRing 0x92 [(0, p.2), (74, p.1)], tD, _, 320 + p.2, ⟨tSyncAdm 0x92 [(0, p.2), (74, p.1)], by revert p; decide +kernel, rfl, by revert p; decide +kernel⟩,
    by revert p; decide +kernel⟩
theorem test_bar_config : ∃ (s : State) (d : DRef) (c : SyncOp) (x : Barrier), s.syncFresh d 0x93 c ∧ c.index ≤ 255 ∧ c.root = 0 ∧ c.expected ≠ 0 ∧ c.relValid = false ∧
    s.env.serac.st ≠ .stopped ∧ s.bar d.ctx c.index = some x :=
  ⟨tSyncRing 0x93 [(0, 7), (144, 4)], tD, _, tBar 1, ⟨tSyncAdm 0x93 [(0, 7), (144, 4)], by decide +kernel, rfl, by decide +kernel⟩, by decide +kernel⟩
theorem test_arrive_ring : ∃ (s : State) (d : DRef) (c : SyncOp) (x : Barrier), s.syncFresh d 0x94 c ∧ c.index ≤ 255 ∧ c.op = 0 ∧ s.env.serac.st ≠ .stopped ∧
    s.bar d.ctx c.index = some x ∧ x.configured = true ∧ x.root = 0 ∧ x.count + 1 ≠ BitVec.ofNat 16 x.expected ∧ x.expected < 2 ^ 16 :=
  ⟨tSyncRing 0x94 [(0, 7)], tD, _, tBar 1, ⟨tSyncAdm 0x94 [(0, 7)], by decide +kernel, rfl, by decide +kernel⟩, by decide +kernel⟩
/-- An arrival that waits, and the last one, told to wait or not. -/
theorem test_arrive_ring_waits : ∀ p ∈ [(2, 1), (0, 2), (2, 2)], ∃ (s : State) (d : DRef) (c : SyncOp) (x : Barrier) (a : Adm), s.syncFresh d 0x94 c ∧ s.adm d = some a ∧
    c.index ≤ 255 ∧ c.op = p.1 ∧ s.env.serac.st ≠ .stopped ∧ s.bar d.ctx c.index = some x ∧ x.configured = true ∧ x.root = 0 ∧
    (x.count + 1 = BitVec.ofNat 16 x.expected ↔ p.2 = 2) ∧ x.expected < 2 ^ 16 ∧ x.relValid = false := by
  intro p h
  exact ⟨tSyncs (tRings (tSyncAdm 0x94 [(0, 7), (74, p.1)])) p.2, tD, _, tBar p.2, tSyncAdm 0x94 [(0, 7), (74, p.1)],
    ⟨tSyncAdm 0x94 [(0, 7), (74, p.1)], by revert p; decide +kernel, rfl, by revert p; decide +kernel⟩, by revert p; decide +kernel⟩
theorem test_flag_page_word : ∃ (s : State) (cx : Fin 4096) (w k : Fin 64) (set clr : BitVec 64) (c : Ctx) (g : Nat), s.ready = true ∧ s.ctxs.find cx = some c ∧
    s.xlOk (s.spaceOf cx) (c.flagPage + 0x400) 0x400 true = true ∧ c.blocks.find w = some g ∧ g < 512 ∧ set ≠ 0 ∧ clr = 0 ∧
    (s.hostMem (s.spaceOf cx)).wf = true ∧ s.hostNat (s.spaceOf cx) (c.flagPage + 0x400 + 8 * w.val) 8 = 0 ∧
    s.hostNat (s.spaceOf cx) (c.flagPage + 0x600 + 8 * w.val) 8 = 0 ∧
    (∀ j : Fin 64, s.flagWaiters cx false (64 * w + j) = []) ∧ set.getLsbD k = true ∧ set.getLsbD 0 = false :=
  ⟨tSyncRing 0x74 [], 1, 0, 63, 2 ^ 63, 0, { tCtx with blocks := [(0, 5)] }, 5, by decide +kernel⟩
/-- A ring wait on host flag 9. -/
def tHostWait : State := tSyncs (tRings (tAdm 0x92 .encNative (.flagWait true 9 false none)))
theorem test_host_wait_page : ∀ j : Nat, ∀ x ∈ tHostWait.flagWaiters 1 true j, tHostWait.waitPage x.1 = tCtx.flagPage := by
  intro j x h
  have b : tHostWait.heldBodies 1 = [] := by decide +kernel
  have e : x.1 = .desc tD := by
    rw [State.flagWaiters, b] at h
    simp only [List.filterMap_nil, List.nil_append, List.mem_filterMap] at h
    obtain ⟨y, m, h⟩ := h
    rw [List.mem_singleton.mp m] at h
    simp only [tAdm] at h
    split at h
    · exact (Option.some.inj h) ▸ rfl
    · cases h
  rw [e]; decide +kernel
/-- The host writes 0, and a value other than 0. -/
theorem test_host_flag : ∀ v ∈ [(0 : BitVec 32), 0x80000000], ∃ (s : State) (cx : Fin 4096) (page : Nat) (hf : Fin 256) (d : DRef) (k : Bool),
    s.flagWaiters cx true hf = [(.desc d, k)] ∧ (∀ j : Nat, ∀ x ∈ s.flagWaiters cx true j, s.waitPage x.1 = page) ∧ s.hostFlagReady cx page hf = true ∧
    (s.hostMem (s.spaceOf cx)).wf = true ∧ s.env.serac.st ≠ .stopped :=
  fun _ _ => ⟨tHostWait, 1, tCtx.flagPage, 9, tD, false, by decide +kernel, test_host_wait_page, by decide +kernel⟩

/-- PEER_CONFIG of no port, of each one, and of both. -/
theorem test_peer_config : ∀ n ∈ [0, 1, 2, 3], ∃ (s : State) (d : DRef) (c : SyncOp), s.syncFresh d 0x98 c ∧ c.moduleId ≠ 0 ∧ c.portEn = n ∧ s.env.serac.st ≠ .stopped ∧
    ∀ p : Fin 2, c.portEn / 2 ^ p.val % 2 = 1 → s.portFenced p = false := by
  intro n h
  exact ⟨tSyncRing 0x98 [(78, n), (80, 0x1234)], tD, _, ⟨tSyncAdm 0x98 [(78, n), (80, 0x1234)], by revert n; decide +kernel, rfl, by revert n; decide +kernel⟩,
    by revert n; decide +kernel⟩
def tAttesting (k : Bool) : State := (tSyncRing 0x74 []).updSync fun y => { y with ports := vupd y.ports 1 fun q => { q with attesting := k, enabled := !k } }
/-- An exchange in progress, and a port that is enabled already. -/
theorem test_peer_message : ∀ k ∈ [true, false], ∃ (s : State) (p : Fin 2), s.sync.ports[p].attesting = k ∧ s.sync.ports[p].report = none ∧
    s.sync.ports[p].enabled = !k ∧ s.pkeFenced = false := by
  intro k h
  exact ⟨tAttesting k, 1, by revert k; decide +kernel⟩
theorem test_peer_records : ((tNext (.peerAttestMessage ⟨1, .records ⟨0, 0, 0, 2⟩⟩) (tAttesting true)).sec.waiting,
    (tNext (.peerAttestMessage ⟨1, .report 0⟩) (tAttesting true)).sec.waiting) = ([.peerReport 1], []) := by decide +kernel
theorem test_peer_bind : ∃ (s : State) (d : DRef) (c : SyncOp), s.syncFresh d 0x99 c ∧ c.timeout ≠ 0 ∧ s.portFenced c.port = false ∧ (s.ctxs.find c.ctx).isSome ∧
    s.binding c.ctx c.port = none :=
  ⟨tSyncRing 0x99 [(96, 1), (108, 2), (133, 1), (160, 50)], tD, _, ⟨tSyncAdm 0x99 [(96, 1), (108, 2), (133, 1), (160, 50)], by decide +kernel, rfl, by decide +kernel⟩, by decide +kernel⟩
def tBindWaits : State := tRings { tSyncAdm 0x99 [(96, 1)] with prog := .peerBind 50000 }
/-- A binding that may be made, and one whose context has a binding on the port. -/
theorem test_peer_bind_waits : ∀ q ∈ [true, false], ∃ (s : State) (d : DRef) (a : Adm) (u : Nat), s.adm d = some a ∧ a.prog = .peerBind u ∧ s.env.serac.st ≠ .stopped ∧
    ((∃ x, s.ctxs.find (SyncOp.of a.body).ctx = some x ∧ x.st = .active) ∧ s.portFenced (SyncOp.of a.body).port = false ∧
      s.binding (SyncOp.of a.body).ctx (SyncOp.of a.body).port = none ↔ q = true) := by
  intro q h
  refine ⟨if q then tBindWaits else tBindWaits.updSync fun y => { y with bindings := [⟨0, 1, 2, 16⟩] }, tD, { tSyncAdm 0x99 [(96, 1)] with prog := .peerBind 50000 }, 50000, ?_, ?_, ?_, ?_⟩
  · revert q; decide +kernel
  · rfl
  · revert q; decide +kernel
  · cases q
    · exact ⟨fun ⟨_, _, z⟩ => absurd z (by decide +kernel), nofun⟩
    · exact ⟨fun _ => rfl, fun _ => ⟨⟨tCtx, by decide +kernel⟩, by decide +kernel⟩⟩

/-- Context 1 bound at port 1, to context 2 of the partner. -/
def tBound : State := (tSyncRing 0x74 []).updSync fun y => { y with bindings := [⟨1, 1, 2, 16⟩] }
theorem test_peer_arrival : ∃ (s : State) (p : Fin 2) (cx : Fin 4096) (i : Fin 256) (x : Barrier), s.bar cx i = some x ∧ (s.binding cx p).isSome ∧ x.configured = true ∧
    x.root = 0 ∧ s.portFenced p = false ∧ x.count + 1 ≠ BitVec.ofNat 16 x.expected ∧ x.expected < 2 ^ 16 := ⟨tBound, 1, 1, 7, tBar 1, by decide +kernel⟩
def tRooted : Barrier := { owner := 1, expected := 3, configured := true, root := 2, rootBar := 4 }
theorem test_peer_release : ∃ (s : State) (p : Fin 2) (root : Fin 256) (i : Nat) (x : Barrier), s.sync.bars = [(i, x)] ∧ x.configured = true ∧ x.root = p.val + 1 ∧
    x.rootBar = root.val ∧ x.relValid = false := ⟨tBound.updSync fun y => { y with bars := [(7, tRooted)] }, 1, 4, 7, tRooted, by decide +kernel⟩
/-- Its local waiter, forwarded. -/
theorem test_peer_release_waiter : ∃ (s : State) (p : Fin 2) (root : Fin 256) (i : Nat) (x : Barrier) (d : DRef) (a : Adm) (dl : Option Nat),
    s.sync.bars = [(i, x)] ∧ x.rootBar = root.val ∧ s.sync.forwarded = [⟨p, root.val, i, some (.desc d)⟩] ∧ s.adm d = some a ∧ a.prog = .barWait i x.phase dl ∧
    d.ctx = x.owner ∧ s.env.serac.st ≠ .stopped :=
  ⟨{ tRings (tAdm 0x94 .encNative (.barWait 7 0 none)) with sync := { State.reset.sync with bars := [(7, tRooted)], forwarded := [⟨1, 4, 7, some (.desc tD)⟩] } },
    1, 4, 7, tRooted, tD, tAdm 0x94 .encNative (.barWait 7 0 none), none, by decide +kernel⟩
/-- The last bytes of the window, and one byte more. -/
theorem test_peer_write : ∀ n ∈ [0, 1], ∃ (s : State) (p : Fin 2) (cx : Fin 4096) (off : BitVec 64) (data : List Byte) (c : Ctx), s.ctxs.find cx = some c ∧ (s.binding cx p).isSome ∧
    s.portFenced p = false ∧ data ≠ [] ∧ s.memFenced (2 ^ 21 * c.f 339 320 + off.toNat) data.length = false ∧ off.toNat + data.length = 2 ^ 21 * c.f 371 352 + n := by
  intro n h
  exact ⟨tBound, 1, 1, BitVec.ofNat 64 (2 ^ 25 - 2 + n), [0xAA, 0xBB], { tCtx with blocks := [(0, 5)] }, by revert n; decide +kernel⟩
/-- A channel with one request whose last burst it serves next. -/
def tServing (ch : Fin 160) (q : MemReq) (s : State) : State := s.updChan ch fun h => { h with reqs := [q] }
/-- A partner's write of two bytes at the end of the window of context 1, whose flag is 3; channel 31 holds them. -/
def tArrival : Arrival := ⟨9, 1, 2 ^ 26 - 2, [0xAA, 0xBB], some 3, false⟩
def tPeerReq : MemReq := { who := .peer 9, cls := .bulk, write := true, addr := 2 ^ 26 - 2, len := 2, first := 819, last := 819, left := 1 }
def tArrives : State := tServing 31 tPeerReq (tBound.updSync fun y => { y with arrivals := [tArrival], nextArrival := 10 })
theorem test_peer_served : ∃ (s : State) (ch : Fin 160) (q : MemReq) (no : Nat) (x : Arrival), s.servesLast ch q ∧ q.who = .peer no ∧
    s.sync.arrivals.find? (·.no == no) = some x ∧ x.failed = false ∧ s.mem.wf = true ∧ (∀ c : Fin 160, c ≠ ch → ∀ r ∈ s.memsys.chans[c].reqs, r.who ≠ .peer no) ∧
    x.flag = some 3 ∧ s.devFlag x.ctx 3 = some 323 ∧ s.flagWaiters x.ctx false 3 = [] :=
  ⟨tArrives, 31, tPeerReq, 9, tArrival, by unfold State.servesLast; decide +kernel, rfl, by decide +kernel⟩
theorem test_peer_write_lands : (tNext (.memRoundStart ⟨31, []⟩) tArrives).mem = [(2 ^ 26 - 2, 0xAA), (2 ^ 26 - 1, 0xBB)] ∧
    (tNext (.memRoundStart ⟨31, []⟩) tArrives).sync.flags = 3 <<< 322 ∧ inChan 31 (2 ^ 26 - 2) = true := by decide +kernel
theorem test_port_fails : ∃ (s : State) (p : Fin 2), s.portFenced p = false := ⟨tBound, 1, by decide +kernel⟩
theorem test_peer_confirm : ∃ (s : State) (p : Fin 2) (d : DRef) (a : Adm) (c : SyncOp) (x : Barrier), s.adm d = some a ∧ a.prog = .barConfirm ∧ c = SyncOp.of a.body ∧
    c.root = p.val + 1 ∧ s.env.serac.st ≠ .stopped ∧ s.bar d.ctx c.index = some x :=
  ⟨tSyncs (tRings { tSyncAdm 0x93 [(0, 7), (134, 2)] with prog := .barConfirm }), 1, tD, { tSyncAdm 0x93 [(0, 7), (134, 2)] with prog := .barConfirm }, _, tBar 1,
    by decide +kernel, rfl, rfl, by decide +kernel⟩
/-! ### Rings, translations and contexts -/

def tRun1 : State := tRings (tAdm 0x74)
/-- Two descriptors ahead of the head of ring 0, whose size is 64. -/
theorem test_doorbell : ∃ (s : State) (cx : Fin 4096) (c : Ctx) (r : Fin 4) (v : BitVec 32), s.ready = true ∧ s.ctxs.find cx = some c ∧ c.st = .active ∧
    (c.ringClass r).isSome = true ∧ 0 ≤ (v - c.sqTail[r]).toInt ∧ (v - c.sqHead[r]).toNat ≤ c.sqSize r ∧ s.xlOk (s.spaceOf cx) (c.dbPage + 0x180) 0x20 true = true ∧
    (∀ k, k < c.sqSize r → s.xlOk (s.spaceOf cx) (c.sqBase r + 64 * k) 64 false = true) :=
  ⟨tRun1, 1, tCtx, 0, 2, by decide +kernel, by decide +kernel, by decide +kernel, by decide +kernel, by decide +kernel, by decide +kernel, by decide +kernel, fun k h => by
    have e : tCtx.sqSize (0 : Fin 4) = 64 := by decide +kernel
    exact (by decide +kernel : ∀ k, k < 64 → tRun1.xlOk (tRun1.spaceOf 1) (tCtx.sqBase 0 + 64 * k) 64 false = true) k (e ▸ h)⟩
theorem test_doorbell_back : ∃ (s : State) (cx : Fin 4096) (c : Ctx) (r : Fin 4) (v : BitVec 32), s.ready = true ∧ s.ctxs.find cx = some c ∧ c.st = .active ∧
    (c.ringClass r).isSome = true ∧ (v - c.sqTail[r]).toInt < 0 ∧ cx ≠ 0 := ⟨tRun1, 1, tCtx, 0, 0xFFFFFFFF, by decide +kernel⟩
theorem test_doorbell_far : ∃ (s : State) (cx : Fin 4096) (c : Ctx) (r : Fin 4) (v : BitVec 32), s.ready = true ∧ s.ctxs.find cx = some c ∧ c.st = .active ∧
    (c.ringClass r).isSome = true ∧ c.sqSize r < (v - c.sqHead[r]).toNat ∧ cx ≠ 0 := ⟨tRun1, 1, tCtx, 0, 65, by decide +kernel⟩
/-- Context 1 with changes. -/
def tCtxWith (f : Ctx → Ctx) (a : Adm := tAdm 0x74) : State := { tRings a with ctxs := [(1, f tCtx)] }
/-- Three descriptors in the ring, the ring full: R275's largest legal advance. -/
theorem test_doorbell_reads : (((tNext (.doorbellSnoop 1 (.sqTail 0) 2) tRun1).ctxs.find 1).map fun c => (c.sqHead[(0 : Fin 4)].toNat, c.waiting.map (·.idx.toNat))) = some (2, [0, 1]) := by
  decide +kernel
def tHeldCtx (c : Ctx) : Ctx := { c with held := [⟨0, tD⟩], cqPosted := 64 }
theorem test_credit : ∃ (s : State) (cx : Fin 4096) (c : Ctx) (v : BitVec 32) (h : Held), s.ready = true ∧ s.ctxs.find cx = some c ∧ c.held = [h] ∧ c.heldEvt = [] ∧
    (c.cqPosted - v).toNat < c.cqSize ∧
    (∀ x ∈ s.descs, x.1.ctx = cx → (∀ l n, x.2.prog ≠ .aborting l n) ∧ ∀ l, x.2.prog ≠ .keyFree l) ∧ s.xlOk (s.spaceOf cx) (c.cqBase + 32 * (c.cqPosted.toNat % c.cqSize)) 32 true = true :=
  ⟨tCtxWith tHeldCtx, 1, tHeldCtx tCtx, 1, ⟨0, tD⟩, by decide +kernel, by decide +kernel, rfl, rfl, by decide +kernel,
    test_only (Q := fun x => x.1.ctx = 1 → (∀ l n, x.2.prog ≠ .aborting l n) ∧ ∀ l, x.2.prog ≠ .keyFree l) (a := tAdm 0x74) rfl fun _ => ⟨fun _ _ => nofun, fun _ => nofun⟩,
    by decide +kernel⟩
theorem test_no_held : tRun1.ready = true ∧ tRun1.ctxs.find 1 = some tCtx ∧ tCtx.held = [] ∧ tCtx.heldEvt = [] := by decide +kernel
def tLost (c : Ctx) : Ctx := { c with lostAt := some 5, dropped := 3 }
theorem test_record_lost : ∃ (s : State) (cx : Fin 4096) (c : Ctx) (u : Nat), s.ctxs.find cx = some c ∧ cx ≠ 0 ∧ c.lostAt = some u ∧ c.dropped ≠ 0 :=
  ⟨tCtxWith tLost, 1, tLost tCtx, 5, by decide +kernel⟩
theorem test_host_read : ∃ (s : State) (sp : HostSpace), (s.hostMem sp).wf = true := ⟨tRun1, .pasid 0, by decide +kernel⟩

/-- Context 1 with descriptor 1 of ring 0 read; descriptor 0 is admitted. -/
def tWaiting (bits : Nat) (c : Ctx) : Ctx := { c with waiting := [⟨0, 1, BitVec.ofNat 512 bits⟩] }
def tMay (bits : Nat) : State := tCtxWith (tWaiting bits)
/-- KEY_QUERY may be admitted; so may the undefined opcode 0x7F; with the exclusive bit 8 nothing may while another runs. -/
theorem test_admission : ∀ p ∈ [(0x74, true, true), (0x7F, true, false), (0x174, false, true)], ∃ (s : State) (cx : Fin 4096) (c : Ctx) (r : Fin 4) (w : Waiting),
    s.ctxs.find cx = some c ∧ (∀ x ∈ c.waiting, x.ring = r → fld x.bits 7 0 ≠ 0x7E) ∧ (c.waiting.find? fun x => x.ring == r) = some w ∧ s.mayAdmit cx c w = p.2.1 ∧
    ringOpcode (fld w.bits 7 0) = p.2.2 ∧ fld w.bits 63 11 = 0 ∧ s.adm ⟨cx, r, w.idx⟩ = none ∧ s.ready = true := by
  intro p h
  exact ⟨tMay p.1, 1, tWaiting p.1 tCtx, 0, ⟨0, 1, BitVec.ofNat 512 p.1⟩, by revert p; decide +kernel⟩
/-- An ABORT of rings 0 and 1 waits in ring 0; descriptor 0 of ring 0 has not begun. -/
def tAbort : Nat := bitsOf [(0, 0x7E), (204, 3)]
theorem test_abort : ∃ (s : State) (d : DRef) (c : Ctx) (w : Waiting) (p : CtxOp), s.ready = true ∧ s.ctxs.find d.ctx = some c ∧ c.st = .active ∧ s.adm d = none ∧
    c.waiting = [w] ∧ w.ring = d.ring ∧ w.idx = d.idx ∧ fld w.bits 7 0 = 0x7E ∧ fld w.bits 63 11 = 0 ∧ p = CtxOp.of (BitVec.ofNat 384 (fld w.bits 511 128)) ∧
    p.addr = 0 ∧ p.ctx = 0 ∧ p.reserved = false ∧ s.unitOut 14 0 = false ∧ (∀ x ∈ s.descs, x.1.ctx = d.ctx → p.rings / 2 ^ x.1.ring.val % 2 = 1 →
      x.2.prog = .fresh ∧ x.2.ctxOp = false ∧ s.pkeOver x.1 = false) ∧ p.rings / 2 ^ 0 % 2 = 1 :=
  ⟨tMay tAbort, ⟨1, 0, 1⟩, tWaiting tAbort tCtx, ⟨0, 1, BitVec.ofNat 512 tAbort⟩, _, by decide +kernel, by decide +kernel, rfl, by decide +kernel, rfl, rfl, rfl,
    by decide +kernel, by decide +kernel, rfl, by decide +kernel⟩
theorem test_abort_ends : (tNext (.abort ⟨1, 0, 1⟩) (tMay tAbort)).descs = [] := by decide +kernel

/-- A page asked for by descriptor 0; its context waits fault_timeout of 100 µs, or not at all. -/
def tReq (paged : Bool) (who : XlWho := .work 1 (.desc tD)) : XlReq := { pasid := 0, va := 0x7000, write := false, who, paged, deadline := if paged then some 100000 else none }
def tTimed (t : Nat) (c : Ctx) : Ctx := { c with desc := c.desc ||| BitVec.ofNat 2048 (t * 2 ^ 240) }
def tTimedAdm (t : Nat) : Adm := { tAdm 0x74 with desc := (tTimed t tCtx).desc }
def tPage (q : XlReq) (t : Nat) : State := { tCtxWith (tTimed t) (tTimedAdm t) with reqs := [q], xls := [] }
theorem test_grant : ∃ (s : State) (p : BitVec 20) (va : BitVec 64), (∃ q ∈ s.reqs, q.pasid = p ∧ q.va = va.toNat / 4096 * 4096) ∧
    (∀ q ∈ s.reqs, q.pasid = p → q.va = va.toNat / 4096 * 4096 → q.paged = false ∧ ∃ cx w, q.who = .work cx w) :=
  ⟨tPage (tReq false) 0, 0, 0x7FFF, ⟨tReq false, by decide +kernel⟩, fun q h _ _ => by
    have e : q = tReq false := List.mem_singleton.mp h
    exact e ▸ ⟨rfl, 1, .desc tD, rfl⟩⟩
theorem test_page : ∀ p ∈ [(false, 0), (false, 100), (true, 100)], ∃ (s : State) (q : XlReq) (va : BitVec 64) (d : DRef) (a : Adm) (c : Ctx), s.reqs = [q] ∧
    q.va = va.toNat / 4096 * 4096 ∧ q.who = .work d.ctx (.desc d) ∧ s.ctxs.find d.ctx = some c ∧ s.adm d = some a ∧ a.prog = .fresh ∧ a.ctxOp = false ∧
    s.env.serac.st ≠ .stopped ∧ q.paged = p.1 ∧ (a.view c).faultTimeout = p.2 ∧ (q.deadline = some 100000 ∨ q.paged = false) := by
  intro p h
  exact ⟨tPage (tReq p.1) p.2, tReq p.1, 0x7123, tD, tTimedAdm p.2, tTimed p.2 tCtx, by revert p; decide +kernel⟩
theorem test_area_fault : ∀ k ∈ [1, 2, 3, 4], ∃ (s : State) (q : XlReq) (va : BitVec 64) (cx : Fin 4096) (c : Ctx), s.reqs = [q] ∧ q.va = va.toNat / 4096 * 4096 ∧
    q.who = .area cx k ∧ 1 ≤ k ∧ k ≤ 4 ∧ q.paged = false ∧ s.ctxs.find cx = some c ∧ c.st = .active ∧ c.faultTimeout = 0 := by
  intro k h
  exact ⟨tPage (tReq false (.area 1 k)) 0, tReq false (.area 1 k), 0x7000, 1, tTimed 0 tCtx, by revert k; decide +kernel⟩
/-- A transfer reads host memory at 0x9000. -/
def tUses : State := tRings tQAdm { xfers := [{ owner := none, run := tD, src := some ⟨2, 1, 0x9000⟩, dst := [⟨0, 0, 0⟩], len := 64 }] }
theorem test_invalidation : ∃ (s : State) (p : BitVec 20) (va len : BitVec 64), s.invals = [] ∧ s.usersOf p va.toNat len.toNat = [] := ⟨tUses, 0, 0xA000, 4096, by decide +kernel⟩
theorem test_invalidation_waits : ∃ (s : State) (p : BitVec 20) (va len : BitVec 64), s.invals = [] ∧ s.usersOf p va.toNat len.toNat ≠ [] := ⟨tUses, 0, 0x9000, 4096, by decide +kernel⟩

/-- A module with pools, a context descriptor at host address 0x4000 and a context operation on context 2. -/
def tDescMem : Memory := [(0x4000, 75), (0x4001, 88), (0x4002, 84), (0x4003, 67), (0x4004, 1), (0x400D, 1), (0x400E, 10), (0x4011, 32), (0x4012, 33), (0x4013, 67), (0x4018, 100),
  (0x401C, 1), (0x401D, 1), (0x4028, 16), (0x402C, 16),  (0x4031, 6), (0x4032, 1), (0x4042, 1), (0x404A, 2), (0x4052, 3), (0x405A, 4), (0x4062, 5), (0x406A, 6), (0x4072, 7),
  (0x408A, 8), (0x4092, 9)]
def tMade : BitVec 2048 := BitVec.ofNat 2048 (tDescMem.readNat 0x4000 256)
def tOpAdm (op cx : Nat) : Adm := tAdm (bitsOf [(0, op), (128, if op = 0xA2 then 0 else 0x4000), (192, cx)]) .admin
def tPools (s : State) : State := s.updSetup fun u => { u with
  keyPool := BitVec.ofNat 64 (1024 + 2 ^ 32 * 128), statePool := BitVec.ofNat 64 (65536 + 2 ^ 24 * 4000), ctx0Desc := 0x4000 }
def tOp (op : Nat) (m : Memory := tDescMem) (l : Table Ctx := []) : State := tPools { tRings (tOpAdm op 2) with host := [(0, m)], ctxs := (1, {}) :: l }
theorem test_create : ∃ (s : State) (d : DRef) (a : Adm) (c : CtxOp) (b : BitVec 2048), s.adm d = some a ∧ a.prog = .fresh ∧ a.cls = .admin ∧ c = CtxOp.of a.body ∧
    c.reserved = false ∧ c.rings = 0 ∧ s.env.serac.st ≠ .stopped ∧ b = BitVec.ofNat 2048 (s.hostNat .phys c.addr 256) ∧ a.opcode = 0xA0 ∧ c.addr % 256 = 0 ∧ c.ctx ≠ 0 ∧
    s.ctxs.find c.ctx = none ∧ s.ctxCauses b c.ctx = [] ∧ fld b 1279 1216 = 0 ∧ (∀ x ∈ ringAreas b, s.xlOk (.pasid (BitVec.ofNat 20 (fld b 83 64))) x.1 x.2.1 x.2.2 = true) :=
  ⟨tOp 0xA0, tD, tOpAdm 0xA0 2, _, tMade, by decide +kernel, rfl, rfl, rfl, by decide +kernel⟩
theorem test_create_bad : ∃ (s : State) (d : DRef) (a : Adm) (c : CtxOp) (b : BitVec 2048), s.adm d = some a ∧ a.prog = .fresh ∧ a.cls = .admin ∧ c = CtxOp.of a.body ∧
    c.reserved = false ∧ c.rings = 0 ∧ s.env.serac.st ≠ .stopped ∧ b = BitVec.ofNat 2048 (s.hostNat .phys c.addr 256) ∧ a.opcode = 0xA0 ∧ c.addr % 256 = 0 ∧ c.ctx ≠ 0 ∧
    s.ctxs.find c.ctx = none ∧ s.ctxCauses b c.ctx ≠ [] := ⟨tOp 0xA0 [], tD, tOpAdm 0xA0 2, _, 0, by decide +kernel, rfl, rfl, rfl, by decide +kernel⟩
/-- An update that changes nothing, and one of a context with another fixed part. -/
def tUpdate (x : BitVec 2048) : State := { tOp 0xA1 with ctxs := [(2, { desc := x })], xls := [⟨BitVec.ofNat 20 (fld x 83 64), 0, 2 ^ 40, true⟩] }
theorem test_update : ∃ (s : State) (d : DRef) (a : Adm) (c : CtxOp) (b : BitVec 2048) (y : Ctx), s.adm d = some a ∧ a.prog = .fresh ∧ a.cls = .admin ∧
    c = CtxOp.of a.body ∧ c.reserved = false ∧ c.rings = 0 ∧ s.env.serac.st ≠ .stopped ∧ b = BitVec.ofNat 2048 (s.hostNat .phys c.addr 256) ∧ a.opcode = 0xA1 ∧
    c.addr % 256 = 0 ∧ s.ctxs.find c.ctx = some y ∧ y.st = .active ∧ s.xlOk (s.spaceOf c.ctx) (y.dbPage + 0x180) 0x20 true = true ∧ fixedPart b = fixedPart y.desc ∧ y.keyUse ≤ fld b 223 192 ∧ s.ctxCauses b c.ctx = [] ∧
    fld b 1279 1216 = 0 := ⟨tUpdate tMade, tD, tOpAdm 0xA1 2, _, tMade, { desc := tMade }, by decide +kernel, rfl, rfl, rfl, by decide +kernel⟩
theorem test_update_bad : ∃ (s : State) (d : DRef) (a : Adm) (c : CtxOp) (b : BitVec 2048) (y : Ctx), s.adm d = some a ∧ a.prog = .fresh ∧ a.cls = .admin ∧
    c = CtxOp.of a.body ∧ c.reserved = false ∧ c.rings = 0 ∧ s.env.serac.st ≠ .stopped ∧ b = BitVec.ofNat 2048 (s.hostNat .phys c.addr 256) ∧ a.opcode = 0xA1 ∧
    c.addr % 256 = 0 ∧ s.ctxs.find c.ctx = some y ∧ fixedPart b ≠ fixedPart y.desc :=
  ⟨tUpdate 0, tD, tOpAdm 0xA1 2, _, tMade, { desc := 0 }, by decide +kernel, rfl, rfl, rfl, by decide +kernel⟩
theorem test_teardown : ∃ (s : State) (d : DRef) (a : Adm) (c : CtxOp) (x : Ctx), s.adm d = some a ∧ a.prog = .fresh ∧ a.cls = .admin ∧ c = CtxOp.of a.body ∧
    c.reserved = false ∧ c.rings = 0 ∧ s.env.serac.st ≠ .stopped ∧ a.opcode = 0xA2 ∧ c.addr = 0 ∧ c.ctx ≠ 0 ∧ c.ctx ≠ d.ctx ∧ s.ctxs.find c.ctx = some x ∧ x.st ≠ .teardown :=
  ⟨tOp 0xA2 [] [(2, tCtx)], tD, tOpAdm 0xA2 2, _, tCtx, by decide +kernel, rfl, rfl, rfl, by decide +kernel⟩
/-- Context 2 in TEARDOWN with nothing left. -/
def tTorn : State := { tRings (tOpAdm 0xA2 2 ) with ctxs := [(1, tCtx), (2, { tCtx with st := .teardown, tearing := [tD] })] }
theorem test_teardown_complete : ∃ (s : State) (cx : Fin 4096) (c : Ctx), s.ctxs.find cx = some c ∧ c.st = .teardown ∧ (∀ x ∈ s.descs, x.1.ctx ≠ cx) ∧ s.sec.running = none ∧
    s.switching.find c.part = none ∧ Table.ordered s.ctxs ∧ s.env.serac.st ≠ .stopped :=
  ⟨tTorn, 2, { tCtx with st := .teardown, tearing := [tD] }, by decide +kernel, by decide +kernel, by decide +kernel, by decide +kernel, by decide +kernel,
    by unfold Table.ordered; decide +kernel, by decide +kernel⟩
/-- A descriptor of context 0: one ADMIN ring. -/
def tDescMem0 : Memory := [(0x4000, 75), (0x4001, 88), (0x4002, 84), (0x4003, 67), (0x4004, 1), (0x400D, 1), (0x400E, 10), (0x4012, 6), (0x401C, 1), (0x401D, 1), (0x4042, 1), (0x4062, 5),
  (0x406A, 6), (0x4072, 7)]
theorem test_context_0 : ∀ m ∈ [tDescMem0, tDescMem], ∃ (s : State) (b : BitVec 2048), s.ready = true ∧ s.ctxs.find 0 = none ∧
    b = BitVec.ofNat 2048 (s.hostNat .phys s.env.setup.ctx0Desc.toNat 256) ∧ ((s.ctxCauses b 0).isEmpty = (m == tDescMem0)) := by
  intro m h
  exact ⟨tOp 0x74 m, _, by revert m; decide +kernel, by revert m; decide +kernel, rfl, by revert m; decide +kernel⟩
/-- HUB_CTX0_CTRL by its address. -/
theorem test_context_0_register : ∃ (s : State) (off : BitVec 32), regAt off.toNat = some (.ctx0Ctrl, false) ∧ s.hub.fclUp = true :=
  ⟨tOp 0x74, 0x48, by decide +kernel, rfl⟩

/-! ### Programs and QRUNs -/

/-- A program of one END at host address 0x3000 (Table 8-1), with a CRC. -/
def tImage (crc : Nat) : Memory := Memory.writeNat ([] : Memory) 0x3000 68 (bitsOf [(0, 0x4C4C5551), (32, 1), (48, 1), (96, crc), (512, 0xB8000000)])
def tProgAdm : Adm := tAdm (bitsOf [(0, 0x78), (128, 0x3000), (192, 2)])
/-- Every cluster of the partition runs context 1. -/
def tWhole (s : State) : State := { s with clusters := Vector.replicate 64 { ctx := some 1 } }
def tProg (crc : Nat) : State := tWhole { tRings tProgAdm with host := [(1, tImage crc)] }
def tWords : List Byte := [0, 0, 0, 0xB8]
theorem test_program_load : ∀ crc ∈ [0xE4FEE4A2, 7], ∃ (s : State) (d : DRef) (a : Adm) (c : Ctx) (addr slot : Nat) (p : Prog) (words : List Byte), s.fresh d 0x78 = some a ∧
    s.ctxs.find d.ctx = some c ∧ addr = fld a.body 63 0 ∧ slot = fld a.body 67 64 ∧ fld a.body 383 68 = 0 ∧ addr % 64 = 0 ∧ a.cls.runs = true ∧ s.deadPart d.ctx = false ∧ s.env.serac.st ≠ .stopped ∧
    s.xlOk (s.spaceOf d.ctx) addr 64 false = true ∧ progHeader (s.hostNat (s.spaceOf d.ctx) addr 64) slot = some p ∧ s.runsNow d.ctx = true ∧
    s.loadWaits d c.part slot (progSlots p.length) = false ∧ s.xlOk (s.spaceOf d.ctx) (addr + 64) (4 * p.length) false = true ∧
    words = s.hostRead (s.spaceOf d.ctx) (addr + 64) (4 * p.length) ∧
    (∀ i, i < p.length → quillOpcode ((Memory.write ([] : Memory) 0 words).readNat (4 * i) 4 / 2 ^ 26) = true) ∧
    (Crypto.crc32 words = fld (BitVec.ofNat 512 (s.hostNat (s.spaceOf d.ctx) addr 64)) 127 96 ↔ crc = 0xE4FEE4A2) := by
  intro crc h
  exact ⟨tProg crc, tD, tProgAdm, tCtx, 0x3000, 2, ⟨1, 0⟩, tWords, by revert crc; decide +kernel⟩

/-- A QRUN of program 2 on clusters 1 and 2, with an argument block of 32 bytes at 0x6000 and a plan of plan length 8·n. -/
def tRunAdm (n arg : Nat) (r : Run) : Adm :=
  tAdm (bitsOf [(0, 0x79), (390, n), (402, 2), (406, 1), (412, 2), (419, arg), (448, if arg = 0 then 0 else 0x6000)]) .encNative (.qrun r)
def tTwo : Run := { set := [], list := [0, 1, 2, 3] }
theorem test_qrun : ∃ (s : State) (d : DRef) (a : Adm) (r : Run) (c : Ctx), s.adm d = some a ∧ a.prog = .qrun r ∧ s.ctxs.find d.ctx = some c ∧ r.checked = false ∧
    s.qrunCauses a r = [] ∧ a.qrunBody.planLen = 0 := ⟨tRings (tRunAdm 0 32 tTwo), tD, tRunAdm 0 32 tTwo, tTwo, tCtx, by decide +kernel⟩
/-- A plan of no entries. -/
def tPlanMem : Memory := [(0x6000, 0x50), (0x6001, 0x4C), (0x6002, 0x41), (0x6003, 0x4E)]
def tPlan : State := { tRings (tRunAdm 4 32 tTwo) with host := [(1, tPlanMem)] }
def tArgs : List Byte := [0x50, 0x4C, 0x41, 0x4E] ++ List.replicate 28 0
theorem test_good {o : PlanOutcome} {p : Run → Bool} (h : (match o with
    | .good r _ => p r
    | _ => false) = true) : ∃ r e, o = .good r e ∧ p r = true := by
  cases o with
  | good r e => exact ⟨r, e, rfl, h⟩
  | need => cases h
  | parked => cases h
  | bad => cases h
theorem test_qrun_plan : ∃ (s : State) (d : DRef) (a : Adm) (r : Run) (c : Ctx) (off : Nat) (args : List Byte), s.adm d = some a ∧ a.prog = .qrun r ∧ s.ctxs.find d.ctx = some c ∧
    r.checked = false ∧ s.qrunCauses a r = [] ∧ a.qrunBody.planLen ≠ 0 ∧ r.badRange a.qrunBody.argAddr a.qrunBody.argBytes = false ∧
    s.xlOk (s.spaceOf d.ctx) a.qrunBody.argAddr a.qrunBody.argBytes false = true ∧ args = s.hostRead (s.spaceOf d.ctx) a.qrunBody.argAddr a.qrunBody.argBytes ∧
    off = a.qrunBody.argBytes - 8 * a.qrunBody.planLen ∧ (Plan.T.of (args.drop off)).ok = true ∧ s.planReads c (Plan.T.of (args.drop off)) = [] ∧
    s.memWaits (.plan d) = false ∧ s.krtOut = false ∧ ∃ r' effs, s.planCheck d a c { r with set := (r.list.drop a.qrunBody.first).take a.qrunBody.ncl } (Plan.T.of (args.drop off)) = .good r' effs ∧
      (decide r'.names.Nodup && r'.names.all fun i => !s.rebuilding i) = true :=
  ⟨tPlan, tD, tRunAdm 4 32 tTwo, tTwo, tCtx, 0, tArgs, by decide +kernel, rfl, by decide +kernel, rfl, by decide +kernel, by decide +kernel, by decide +kernel, by decide +kernel,
    (by decide +kernel), by decide +kernel, by decide +kernel, by decide +kernel, by decide +kernel, rfl, test_good (by decide +kernel)⟩
/-- A plan of one input, whose descriptor lies at 32 MiB. -/
def tPlanIn : State := { tRings (tRunAdm 8 64 tTwo) with host := [(1, Memory.writeNat ([] : Memory) 0x6000 64 (bitsOf [(0, 0x4E414C50), (32, 1), (256, 2 ^ 25)]))] }
theorem test_qrun_reads : ∃ (s : State) (d : DRef) (a : Adm) (r : Run) (c : Ctx) (off : Nat) (args : List Byte), s.adm d = some a ∧ a.prog = .qrun r ∧ s.ctxs.find d.ctx = some c ∧
    r.checked = false ∧ s.qrunCauses a r = [] ∧ a.qrunBody.planLen ≠ 0 ∧ r.badRange a.qrunBody.argAddr a.qrunBody.argBytes = false ∧
    s.xlOk (s.spaceOf d.ctx) a.qrunBody.argAddr a.qrunBody.argBytes false = true ∧ args = s.hostRead (s.spaceOf d.ctx) a.qrunBody.argAddr a.qrunBody.argBytes ∧
    off = a.qrunBody.argBytes - 8 * a.qrunBody.planLen ∧ (Plan.T.of (args.drop off)).ok = true ∧ s.planReads c (Plan.T.of (args.drop off)) = [2 ^ 25] ∧ r.descsAsked = false :=
  ⟨tPlanIn, tD, tRunAdm 8 64 tTwo, tTwo, tCtx, 0, _, by decide +kernel, rfl, by decide +kernel, rfl, by decide +kernel, by decide +kernel, by decide +kernel, by decide +kernel, rfl,
    by decide +kernel⟩
/-- One ciphertext of P1 to be refreshed into 32 MiB + 64 KiB. -/
def tTensor : Tensor := { f := .P1, kset := BitVec.ofNat 32 tHandle, layout := .ms, count := 1, width := 2, msg := 1, noise := 0, carry := 1, addr := 2 ^ 25, stride := 1280 }
def tInsert : Run := { tTwo with checked := true, set := [1, 2], fps := [(0, BitVec.ofNat 128 (Krt.fp (tEntry stRESIDENT kindGBSK))), (1, BitVec.ofNat 128 (Krt.fp (tEntry stRESIDENT kindKSK)))], inserts := [{ t := tTensor, host := false, addr := 2 ^ 25, into := 2 ^ 25 + 65536 }] }
/-- Entries 0 to 2 of the KRT: the key set of P1 and a LUTSET. -/
def tSet (s : State) : State :=
  { s with keys := { s.keys with
      a := [(0, tEntry stRESIDENT kindGBSK), (1, tEntry stRESIDENT kindKSK), (2, tEntry stRESIDENT kindLUT)]
      b := [(0, tEntry stRESIDENT kindGBSK), (1, tEntry stRESIDENT kindKSK), (2, tEntry stRESIDENT kindLUT)]
      dir := [(2, { tSlot with header := BitVec.ofNat 4096 (bitsOf [(832, 1)]) })] } }
theorem test_insertion : ∃ (s : State) (d : DRef) (a : Adm) (r : Run), s.adm d = some a ∧ a.prog = .qrun r ∧ r.checked = true ∧ r.started = false ∧ r.inserted = false ∧
    r.inserts ≠ [] ∧ s.runsNow d.ctx = true ∧ (∀ c ∈ r.set, s.clFenced c.val = false) ∧ s.shed < 5 ∧ s.sweepsOff = false ∧ s.krtFenced = false ∧
    s.freeSlot.isSome = true ∧ s.glacierOut = false ∧ (∀ c ∈ r.set, (s.serves c 0).isSome = true) ∧
    (∀ i ∈ r.inserts, ∀ n, n < 2 → s.rebuilding (handleIdx i.t.kset + n) = false ∧ s.passKey r i.t.kset n = .ok) ∧
    (∀ i ∈ r.inserts, i.host = true → s.xlOk (s.spaceOf d.ctx) i.addr (i.t.count * i.t.stride) false = true) ∧ s.mem.wf = true :=
  ⟨tSet (tWhole (tRings (tRunAdm 0 32 tInsert))), tD, tRunAdm 0 32 tInsert, tInsert, by decide +kernel⟩
def tStart : Run := { tTwo with checked := true, set := [1, 2] }
def tStarts : State := { tRings (tRunAdm 0 32 tStart) with clusters := Vector.replicate 64 { ctx := some 1, eng := { progs := [(2, ⟨1, 0⟩)] } } }
theorem test_task_start : ∃ (s : State) (d : DRef) (a : Adm) (r : Run) (p : Prog), s.adm d = some a ∧ a.prog = .qrun r ∧ r.checked = true ∧ r.started = false ∧
    (r.inserts = [] ∨ r.inserted = true) ∧ s.runsNow d.ctx = true ∧ s.startWaits d a.qrunBody.slot (s.progSpan (r.set.headD 0) a.qrunBody.slot) = false ∧ (∀ c ∈ r.set, s.clFenced c.val = false) ∧
    s.clusters[r.set.headD 0].eng.progs.find a.qrunBody.slot = some p ∧ r.set.Nodup ∧ ∀ c ∈ r.set, s.clusters[c].eng.freePlace.isSome = true ∧ s.unitOut 1 c.val = false :=
  ⟨tStarts, tD, tRunAdm 0 32 tStart, tStart, ⟨1, 0⟩, by decide +kernel⟩
/-- R206: q1 to q4 of the second task. -/
theorem test_start_registers : ((tNext (.qrunTaskStart tD) tStarts).clusters[(2 : Fin 64)].eng.tasks[(0 : Fin 8)].map fun t => (upTo 6).map fun i => (t.reg i).toNat) = some [0, 1, 2, 2, 0, 0] := by
  decide +kernel
def tLanding : State := tRings (tRunAdm 0 32 { tStart with started := true, set := [0] }) { tasks := vupd (Vector.replicate 8 none) 0 fun _ => some { tTask with landed := false, argBytes := 32 } }
theorem test_arguments : ∃ (s : State) (d : DRef) (a : Adm) (r : Run) (args : List Byte) (cl : Fin 64) (pl : Fin 8) (x : Task), s.adm d = some a ∧ a.prog = .qrun r ∧ r.started = true ∧
    r.failed = false ∧ a.qrunBody.argBytes ≠ 0 ∧ s.xlOk (s.spaceOf d.ctx) a.qrunBody.argAddr a.qrunBody.argBytes false = true ∧
    args = (if r.argsRead then r.args else s.hostRead (s.spaceOf d.ctx) a.qrunBody.argAddr a.qrunBody.argBytes) ∧ args.length ≤ 4064 ∧ cl ∈ r.set ∧
    s.clusters[cl].eng.tasks[pl] = some x ∧ x.run = d ∧ x.landed = false ∧ s.clusters[cl].eng.dmem.wf = true :=
  ⟨tLanding, tD, tRunAdm 0 32 { tStart with started := true, set := [0] }, { tStart with started := true, set := [0] }, List.replicate 32 0, 0, 0,
    { tTask with landed := false, argBytes := 32 }, by decide +kernel⟩
/-! ### Subscriptions and the Thaw -/

/-- A run whose plan names family P1, the key set of entry 0 and the LUTSET of entry 2. -/
def tPlanned : Run := { tRun with
  fps := [(0, BitVec.ofNat 128 (Krt.fp (tEntry stRESIDENT kindGBSK))), (1, BitVec.ofNat 128 (Krt.fp (tEntry stRESIDENT kindKSK)))], families := [.P1], ksets := [BitVec.ofNat 32 tHandle], luts := [BitVec.ofNat 32 (tHandle + 2)] }
def tGsubBits : Nat := bitsOf [(0, 0x30), (8, 1), (16, 2), (64, tHandle)]
def tGsub : State := tSet (tHead 5 tGsubBits .encNative tPlanned)
def tPAdm (cls : QClass) : Adm := tAdm 0x79 cls (.qrun tPlanned)
theorem test_gsub : ∃ (s : State) (cl : Fin 64) (b : Body) (a : Adm) (g : GsubBody), s.headOp cl 5 0x30 = some (b, a) ∧ g = GsubBody.of b.bits ∧ g.formBad = false ∧ s.krtOut = false ∧
    s.planKset b.run g.handle = true ∧ s.shed < 5 ∧ s.sweepsOff = false ∧ s.rebuilding g.idx = false ∧
    (if g.select = 1 then s.bskCauses b.run.ctx g.handle else s.kskCauses b.run.ctx g.handle) = [] ∧ Krt.classOk (s.entry g.idx) a.cls = true :=
  ⟨tGsub, 0, tBody tGsubBits, tPAdm .encNative, _, by decide +kernel, rfl, by decide +kernel⟩

/-- A GSUB of the set, issued and not presented. -/
def tGsubWork (sel : Nat := 1) (e : Nat := 0) : Work := { b := tBody tGsubBits, issuedAt := 0, cls := .encNative, kind := .gsub e (BitVec.ofNat 32 tHandle) sel 2 false }
def tThaw (step landed : Nat) : ThawWork := { f := .P1, engine := 0, dual := false, step, rots := [], theta := 1, landed, gsub := 0 }
def tThawWork (step landed : Nat) : Work := { b := tBody (bitsOf [(0, 0x40), (192, tHandle)]), issuedAt := 0, cls := .encNative, kind := .thaw (tThaw step landed) }
/-- A Thaw command paired with the GSUB. -/
def tPaired (step landed : Nat) : State := tSet (tRings (tPAdm .encNative)
  { queues := vupd (vupd (Vector.replicate 7 {}) 1 fun _ => { works := [tThawWork step landed], placed := 1 }) 5 fun _ => { works := [tGsubWork], placed := 1 } })
theorem test_present : ∃ (s : State) (cl : Fin 64) (e : Fin 3) (q : Fin 7) (w gw : Work) (g n sel batch : Nat) (h : BitVec 32), s.inService cl = true ∧ s.subscribed cl e.val = false ∧
    s.onEngine cl e = [(q, w)] ∧
    w.gsub? = some g ∧ w.midRun = false ∧ s.work? cl 5 g = some gw ∧ gw.kind = .gsub n h sel batch false ∧ s.sweepsOff = false :=
  ⟨tPaired 0 0, 0, 0, 1, tThawWork 0 0, tGsubWork, 0, 0, 1, 2, BitVec.ofNat 32 tHandle, by decide +kernel⟩
def tKswWork : Work := { b := tBody (bitsOf [(0, 0x2A), (192, tHandle)]), issuedAt := 0, cls := .encNative, kind := .ksw { f := .P1, accs := [], gsub := 0 } }
def tKeySweep (e : BitVec 256) : Sweep := { idx := 1, entry := e, unit := 1, subs := [{ sub := { tSub with engine := 2 }, flight := [0] }], startedAt := 0, staged := false }
/-- A KSK of two units. -/
def tTwoUnits : BitVec 256 := putFld (tEntry stRESIDENT kindKSK) 127 108 2
/-- The first fragment of a sweep of the KSK on its way to a key switch. -/
def tFragment : State := let s := tSet (tRings (tPAdm .encNative)
    { queues := vupd (vupd (Vector.replicate 7 {}) 0 fun _ => { works := [tKswWork], placed := 1 }) 5 fun _ => { works := [tGsubWork 2 2], placed := 1 } })
  { s with keys := { s.keys with sweeps := vupd s.keys.sweeps 3 fun _ => some (tKeySweep tTwoUnits) } }
theorem test_fragment_arrives : ∃ (s : State) (slot : Fin 8) (cl : Fin 64) (e : Fin 3) (sw : Sweep) (x : Subscriber) (u : Nat) (rest : List Nat) (q : Fin 7) (w : Work) (k : KswWork),
    s.keys.sweeps[slot] = some sw ∧ (sw.subs.find? fun x => x.sub.cl == cl && x.sub.engine == e.val) = some x ∧ x.flight = u :: rest ∧ x.first = none ∧
    s.pairedWork cl x.sub.gsub = some (q, w) ∧ s.memWaits (.fragment slot u) = false ∧ w.kind = .ksw k ∧ s.firstOk w e (fragTag sw slot u) = true ∧ u + 1 < Krt.length sw.entry ∧
    s.firstOk w e 0 = false :=
  ⟨tFragment, 3, 0, 2, tKeySweep tTwoUnits, { sub := { tSub with engine := 2 }, flight := [0] }, 0, [], 0, tKswWork, { f := .P1, accs := [], gsub := 0 }, by decide +kernel⟩
theorem test_key_mismatch : (((tNext (.fragmentArrive 3 0 2 (some 0)) tFragment).queue 0 0).works.map (·.causes)) = [[.keyMismatch]] := by decide +kernel

/-- A refresh of one ciphertext of P1 by the first table, and gate 0; outputs at 8 MiB, inputs at 12 MiB. -/
def tThawBits (op : Nat) : Nat :=
  bitsOf ([(0, op), (8, 1), (30, 2), (26, 1), (36, 1), (56, 1032), (72, 1280), (88, 12 * 2 ^ 20), (112, 8 * 2 ^ 20), (192, tHandle)] ++
    if op = 0x40 then [(160, tHandle + 2)] else [(160, 0xFFFFFFFF)])
def tThawHead (op : Nat) (cls : QClass) : State := tSet (tRings (tPAdm cls)
  { queues := vupd (vupd (Vector.replicate 7 {}) 1 fun _ => { items := [.body { tBody (tThawBits op) with ord := 1 }], placed := 1 }) 5 fun _ => { works := [{ tGsubWork with kind := .gsub 0 (BitVec.ofNat 32 tHandle) 1 1 false }], placed := 1 }, nextOrd := 2 })
theorem test_is_gsub {p : Pairing} {w : Work} (h : (match p with
    | .gsub x => decide (x = w)
    | _ => false) = true) : p = .gsub w := by
  cases p with
  | gsub x => exact congrArg Pairing.gsub (of_decide_eq_true h)
  | wait => cases h
  | none => cases h
/-- A command paired with its GSUB, for the checks of its issue. -/
theorem test_thaw_issue : ∀ p ∈ [(0x40, QClass.encNative), (0x41, QClass.gate)], ∃ (s : State) (cl : Fin 64) (q : Fin 2) (b : Body) (a : Adm) (c : ThawCmd) (e : Nat) (f : Family) (w : Work),
    s.headOp cl (if q = 0 then 1 else 2) p.1 = some (b, a) ∧ s.serves cl q.val = some e ∧ c = ThawCmd.of b.bits ∧ s.thawHeadWaits cl e b a = false ∧
    s.thawAfter cl e q b = false ∧ s.rebuilding (handleIdx c.kset) = false ∧ s.rebuilding (handleIdx c.kset + 1) = false ∧
    s.rebuilding (handleIdx c.lut) = false ∧ s.pairing cl e b.ord = .gsub w ∧ Family.ofId c.family = some f ∧ s.thawCauses c b a (.gsub w) = [] := by
  intro p h
  exact ⟨tThawHead p.1 p.2, 0, 0, { tBody (tThawBits p.1) with ord := 1 }, tPAdm p.2, _, 0, .P1, { tGsubWork with kind := .gsub 0 (BitVec.ofNat 32 tHandle) 1 1 false },
    by revert p; decide +kernel, by revert p; decide +kernel, rfl, by revert p; decide +kernel, by revert p; decide +kernel, by revert p; decide +kernel,
    by revert p; decide +kernel, by revert p; decide +kernel, test_is_gsub (by revert p; decide +kernel), by revert p; decide +kernel, by revert p; decide +kernel⟩
/-- The first step with its key, and the last of 315 steps. -/
theorem test_thaw_step : ∀ k ∈ [0, 314], ∃ (s : State) (cl : Fin 64) (e : Fin 2) (q : Fin 7) (w : Work) (x : ThawWork), s.thawRunning cl e = some (q, w, x) ∧ s.inService cl = true ∧
    s.underTest 3 (2 * cl + e) = false ∧ s.banksTest cl = false ∧
    (x.step + 1) * x.f.stepBytes ≤ x.landed ∧ x.sweepsLeft = 1 ∧ (x.step + 1 < x.f.steps ∨ x.step + 1 = x.f.steps) ∧ x.step = k ∧ (s.ink cl).wf = true := by
  intro k h
  exact ⟨tPaired k (196608 * 315), 0, 0, 1, tThawWork k (196608 * 315), tThaw k (196608 * 315), by revert k; decide +kernel⟩
/-! ### The Nib and the Brush -/

/-- A body at the head of queue 0, the Nib as given. -/
def tNib (bits : Nat) (n : NibState := {}) (cls : QClass := .encNative) : State :=
  tSet (tRings (tPAdm cls) { nib := n, queues := vupd (Vector.replicate 7 {}) 0 fun _ => { items := [.body (tBody bits)], placed := 1 } })
/-- Fields of Table 5-4: opcode, then the fields given. -/
def tNibBits (op : Nat) (l : List (Nat × Nat)) : Nat := bitsOf ((0, op) :: l)
theorem test_nib_load : ∀ p ∈ [(0x20, [(21, 6), (54, 8), (62, 8), (90, 3), (116, 8)]), (0x21, [(8, 1), (21, 0xC), (43, 1), (90, 1023)]), (0x22, [(8, 1), (21, 0xC), (43, 64), (90, 1023)])],
    ∃ (s : State) (cl : Fin 64) (b : Body) (a : Adm) (c : NibCmd), s.headOp cl 0 p.1 = some (b, a) ∧ c = NibCmd.of b.bits ∧ s.nibCauses c a b.run = [] ∧ c.shapeOk (s.nib cl) = true := by
  intro p h
  exact ⟨tNib (tNibBits p.1 p.2), 0, tBody (tNibBits p.1 p.2), tPAdm .encNative, _, by revert p; decide +kernel, rfl, by revert p; decide +kernel, by revert p; decide +kernel⟩
def tLoads : Work := { b := tBody (tNibBits 0x22 [(8, 1), (21, 0xC), (43, 2), (90, 1023)]), issuedAt := 0, cls := .encNative, kind := .load }
def tLoadState : State := tRings (tPAdm .encNative) { queues := vupd (Vector.replicate 7 {}) 0 fun _ => { works := [tLoads], placed := 1 } }
theorem test_nib_load_end : ∃ (s : State) (cl : Fin 64) (w : Work) (c : NibCmd), ((s.queue cl 0).works.find? fun w => w.kind == .load) = some w ∧ s.inService cl = true ∧
    s.underTest 6 cl = false ∧ s.banksTest cl = false ∧ c = NibCmd.of w.b.bits ∧ (c.opcode = 0x20 ∨ c.opcode = 0x21 ∨ c.opcode = 0x22) := ⟨tLoadState, 0, tLoads, _, by decide +kernel, by decide +kernel, by decide +kernel, by decide +kernel, rfl, by decide +kernel⟩
/-- Valid slots: a fragment of format 6 with 8 rows of 8 at 3, one of 8 rows of 32 at 10 and one of 32 rows of 8, by columns, at 20; vectors at 30. -/
def tTags : NibState :=
  ((((({} : NibState).setTags 3 (NibCmd.fragTags 6 8 8 0 SlotTag.valid)).setTags 10 (NibCmd.fragTags 9 8 32 0 SlotTag.valid)).setTags 20 (NibCmd.fragTags 9 32 8 1 SlotTag.valid)).setTags 30
    (List.replicate 8 (NibCmd.vecTag SlotTag.valid)))
theorem test_nib_store : ∀ p ∈ [(0x23, [(21, 6), (54, 8), (62, 8), (90, 3), (116, 8)]), (0x24, [(21, 0xC), (43, 2), (90, 30), (116, 64)])],
    ∃ (s : State) (cl : Fin 64) (b : Body) (a : Adm) (c : NibCmd), s.headOp cl 0 p.1 = some (b, a) ∧ c = NibCmd.of b.bits ∧ s.nibCauses c a b.run = [] ∧
    s.loadsInto cl c.reads = false ∧ c.shapeOk (s.nib cl) = true ∧ (s.ink cl).wf = true := by
  intro p h
  exact ⟨tNib (tNibBits p.1 p.2) tTags, 0, tBody (tNibBits p.1 p.2), tPAdm .encNative, _, by revert p; decide +kernel, rfl, by revert p; decide +kernel, by revert p; decide +kernel,
    by revert p; decide +kernel, by revert p; decide +kernel⟩
theorem test_nib_inv : ∃ (s : State) (cl : Fin 64) (b : Body) (a : Adm) (c : NibCmd), s.headOp cl 0 0x25 = some (b, a) ∧ c = NibCmd.of b.bits ∧ s.nibCauses c a b.run = [] ∧
    s.loadsInto cl c.writes = false :=
  ⟨tNib (tNibBits 0x25 [(43, 2), (90, 30)]) tTags, 0, tBody (tNibBits 0x25 [(43, 2), (90, 30)]), tPAdm .encNative, _, by decide +kernel, rfl, by decide +kernel, by decide +kernel⟩
/-- A product of 8 by 32 by 8 in format 9, started and finished; a ciphertext product of 8 by 8. -/
theorem test_nib_chain : ∀ p ∈ [(0x28, QClass.clear, [(17, 9), (21, 9), (25, 1), (26, 1), (27, 32), (43, 32), (54, 8), (62, 8), (80, 20), (90, 10), (116, 8)]),
      (0x29, QClass.encNative, [(8, 1), (21, 6), (25, 1), (26, 1), (27, 8), (43, 8), (62, 8), (80, 30), (90, 3), (116, 1025)])],
    ∃ (s : State) (cl : Fin 64) (b : Body) (a : Adm) (c : NibCmd), s.headOp cl 0 p.1 = some (b, a) ∧ c = NibCmd.of b.bits ∧ s.nibCauses c a b.run = [] ∧
    s.loadsInto cl c.reads = false ∧ c.shapeOk (s.nib cl) = true ∧ (c.start = true → s.halvesUsed cl < 2) := by
  intro p h
  exact ⟨tNib (tNibBits p.1 p.2.2) tTags p.2.1, 0, tBody (tNibBits p.1 p.2.2), tPAdm p.2.1, _, by revert p; decide +kernel, rfl, by revert p; decide +kernel, by revert p; decide +kernel,
    by revert p; decide +kernel, by revert p; decide +kernel⟩
def tMmaBits (entry : Nat) : BitVec 512 := BitVec.ofNat 512 (tNibBits 0x28 [(17, 9), (21, 9), (25, 1), (26, 1), (27, 32), (43, 32), (54, 8), (62, 8), (80, 20), (90, 10), (116, 8), (192, entry)])
def tChain : NibChain := { lin := false, m := 8, n := 8, aFmt := 9, bFmt := 9, kTotal := 32, sel := 0, family := 0, sum := 32, parts := [], limbs := [], bodies := [], flush := false }
def tPlain (bits : BitVec 512) : Work := { b := { bits, tag := 0, no := 0, ord := 0, run := tD }, issuedAt := 0, cls := .clear, kind := .plain }
def tNibWorks (n : NibState) (w : Work) (chains : Table ChainRec := []) : State :=
  tRings (tPAdm w.cls) { nib := n, chains, queues := vupd (Vector.replicate 7 {}) 0 fun _ => { works := [w], placed := 1 } }
/-- A finished chain of a NIB_MMA that drains to the Inkwell, or to an epilogue. -/
theorem test_nib_drain : ∀ k ∈ [0, 1], ∃ (s : State) (cl : Fin 64) (i : Nat) (bits : BitVec 512) (h : NibChain) (rest : List (Nat × BitVec 512 × NibChain)) (w : Work) (a : Adm) (c : NibCmd),
    (s.nib cl).drains = (i, bits, h) :: rest ∧ s.work? cl 0 i = some w ∧ s.adm w.b.run = some a ∧ c = NibCmd.of bits ∧
    h.m = c.m ∧ h.n = c.n ∧ h.family = c.family ∧ h.lin = (c.opcode == 0x29) ∧ h.bodies.length ≤ c.m ∧ (c.sel ≠ 1 → h.bodies = []) ∧ (s.ink cl).wf = true ∧
    c.epilogue = (k == 1) ∧ h.lin = false := by
  intro k h
  exact ⟨tNibWorks { drains := [(0, tMmaBits k, tChain)] } (tPlain (tMmaBits k)), 0, 0, tMmaBits k, tChain, [], tPlain (tMmaBits k), tPAdm .clear, _, by revert k; decide +kernel,
    by revert k; decide +kernel, by revert k; decide +kernel, rfl, by revert k; decide +kernel⟩
/-- A key switch of one ciphertext of P1 (R134): input at 12 MiB, output at 8 MiB, work region at 4 MiB. -/
def tKswBits : Nat := tNibBits 0x2A [(8, 1), (62, 1), (100, 632), (116, 1032), (132, 1024), (144, 12 * 2 ^ 20), (168, 8 * 2 ^ 20), (192, tHandle)]
def tKswPair : Work := { tGsubWork with kind := .gsub 2 (BitVec.ofNat 32 tHandle) 2 1 false }
def tKswHead : State := tSet (tRings (tPAdm .encNative)
  { queues := vupd (vupd (Vector.replicate 7 {}) 0 fun _ => { items := [.body { tBody tKswBits with ord := 1 }], placed := 1 }) 5 fun _ => { works := [tKswPair], placed := 1 } })
theorem test_nib_ksw : ∃ (s : State) (cl : Fin 64) (b : Body) (a : Adm) (c : NibCmd) (w : Work) (f : Family), s.headOp cl 0 0x2A = some (b, a) ∧ c = NibCmd.of b.bits ∧
    s.pairing cl 2 b.ord = .gsub w ∧ s.rebuilding (handleIdx (BitVec.ofNat 32 c.handle)) = false ∧ s.rebuilding (handleIdx (BitVec.ofNat 32 c.handle) + 1) = false ∧
    s.nibCauses c a b.run = [] ∧ c.shapeOk (s.nib cl) = true ∧ s.kswCauses c b b.run.ctx (.gsub w) = [] ∧ s.halvesUsed cl = 0 ∧ Family.ofId c.family = some f :=
  ⟨tKswHead, 0, { tBody tKswBits with ord := 1 }, tPAdm .encNative, _, tKswPair, .P1, by decide +kernel, rfl, test_is_gsub (by decide +kernel), by decide +kernel⟩
/-- The key switch before its first block and before its last one, its key landed. -/
def tKsw (blk : Nat) : KswWork := { f := .P1, blk, accs := [List.replicate 631 0], landed := 20676608, gsub := 0 }
def tKswRuns (blk : Nat) : Work := { b := tBody tKswBits, issuedAt := 0, cls := .encNative, kind := .ksw (tKsw blk) }
theorem test_nib_ksw_block : ∀ blk ∈ [0, 639], ∃ (s : State) (cl : Fin 64) (w : Work) (k : KswWork) (c : NibCmd), s.kswRunning cl = some (w, k) ∧ s.inService cl = true ∧ c = NibCmd.of w.b.bits ∧
    s.underTest 2 cl = false ∧ s.underTest 6 cl = false ∧ s.banksTest cl = false ∧
    Ksw.offset k.f k.blk + Ksw.blockBytes k.f k.blk ≤ k.landed ∧ (∀ x ∈ k.accs, x.length = k.f.lweDim + 1) ∧ k.accs.length = c.m ∧ (s.ink cl).wf = true ∧ k.blk = blk := by
  intro blk h
  exact ⟨tNibWorks {} (tKswRuns blk), 0, tKswRuns blk, tKsw blk, _, by revert blk; decide +kernel, by revert blk; decide +kernel, rfl, by revert blk; decide +kernel⟩
/-- A slot range that ends past slot 1023. -/
theorem test_nib_malformed : ∀ op ∈ [0x20, 0x21, 0x22, 0x23, 0x24, 0x25, 0x28, 0x29], ∃ (s : State) (cl : Fin 64) (b : Body) (a : Adm), s.headOp cl 0 op = some (b, a) ∧
    (NibCmd.of b.bits).wellFormed = false := by
  intro op h
  exact ⟨tNib (tNibBits op [(43, 8), (54, 8), (62, 8), (90, 1023)]), 0, tBody (tNibBits op [(43, 8), (54, 8), (62, 8), (90, 1023)]), tPAdm .encNative, by revert op; decide +kernel⟩
/-- Brush commands on one row of 8 elements of FP32 (format 0x0B), by Table 7-3: opcode, class, and the fields given. -/
def tBrBits (op : Nat) (l : List (Nat × Nat)) : Nat := bitsOf ([(0, op), (436, 64), (456, 4096), (260, 8), (276, 1)] ++ l)
/-- A chain of one step, ROUND to FP32 (R185), for outputs from 4096 on, its record in entry 1 and at Inkwell address 0. -/
def tRec : ChainRec := BitVec.ofNat 2048 (bitsOf [(145, 1), (154, 0xB), (159, 0xB), (232, 4096), (512 + 50, 0xB), (512 + 58, 7)])
def tBrush (bits : Nat) (cls : QClass) : State :=
  tRings (tPAdm cls) { chains := [(1, tRec)], queues := vupd (Vector.replicate 7 {}) 3 fun _ => { items := [.body (tBody bits)], placed := 1 } }
def tBrRows : List (Nat × QClass × List (Nat × Nat)) :=
  [(0x50, .clear, [(392, 64), (210, 0xB), (215, 0xB)]), (0x51, .clear, [(392, 64), (210, 0xB), (215, 0xB), (205, 0xB), (348, 64), (368, 8192)]),
   (0x52, .clear, [(392, 64), (210, 0xB), (205, 0xB), (348, 64), (368, 8192)]), (0x53, .clear, [(392, 64), (210, 0xB), (215, 0xB), (205, 0xB), (348, 64), (368, 8192), (202, 3), (186, 4)])] ++
  [(0x55, .clear, [(392, 64), (210, 0xB), (215, 0xB), (368, 8192)]), (0x57, .clear, [(392, 64), (412, 4096), (210, 0x10), (205, 0xB), (348, 64), (368, 8192)]),
   (0x56, .clear, [(186, 1), (215, 0xB), (368, 8192)]), (0x58, .encNative, [(220, 1), (210, 0xB), (392, 64)])]
/-- BR_RED writes no rows by a stride. -/
def tRedBits : Nat := bitsOf [(0, 0x54), (456, 4096), (260, 8), (276, 1), (392, 64), (210, 0xB), (215, 0xB)]
/-- Leveled operations on one CT_BIG ciphertext of P1, BR_MSW on a CT_SMALL one. -/
def tCtBits (op : Nat) : Nat := bitsOf ([(0, op), (276, 1), (456, 65536), (163, 1), (392, 8256)] ++
  (if op = 0x65 then [(260, 631), (436, 1280), (178, 2)] else [(260, 1025), (436, 8256), (178, 1)]) ++ (if op < 0x62 then [(348, 8256), (368, 131072)] else []) ++
  (if op = 0x63 ∨ op = 0x64 then [(178, 192), (205, 0xE), (292, 3)] else []) ++ (if op = 0x63 then [(157, 2)] else []))
def tBrAll : List (Nat × QClass × Nat) := (tBrRows.map fun p => (p.1, p.2.1, tBrBits p.1 p.2.2)) ++ [(0x54, .clear, tRedBits)] ++
  ([0x60, 0x61, 0x62, 0x63, 0x64, 0x65].map fun op => (op, .encNative, tCtBits op))
theorem test_brush : ∀ p ∈ tBrAll, ∃ (s : State) (cl : Fin 64) (b : Body) (a : Adm) (c : BrCmd) (r : ChainRec), s.headOp cl 3 p.1 = some (b, a) ∧ c = BrCmd.of b.bits ∧
    r = (s.clusters[cl].eng.chains.find c.chain).getD 0 ∧ s.brCauses cl c b a (s.clusters[cl].eng.chains.find c.chain) = [] ∧ (p.1 = 0x58 → Chain.recOk r (s.brEnv a) = true) ∧
    (s.ink cl).wf = true := by
  intro p h
  exact ⟨tBrush p.2.2 p.2.1, 0, tBody p.2.2, tPAdm p.2.1, _, _, by revert p; decide +kernel, rfl, rfl, by revert p; decide +kernel⟩
/-- The same with a reserved bit set. -/
theorem test_brush_refused : ∀ p ∈ tBrAll, ∃ (s : State) (cl : Fin 64) (b : Body) (a : Adm) (c : BrCmd), s.headOp cl 3 p.1 = some (b, a) ∧ c = BrCmd.of b.bits ∧
    s.brCauses cl c b a (s.clusters[cl].eng.chains.find c.chain) ≠ [] := by
  intro p h
  exact ⟨tBrush (p.2.2 + 2 ^ 150) p.2.1, 0, tBody (p.2.2 + 2 ^ 150), tPAdm p.2.1, _, by revert p; decide +kernel, rfl, by revert p; decide +kernel⟩
/-- The last coefficient of the row. -/
theorem test_leveled : ∀ op ∈ [0x60, 0x61, 0x62, 0x64, 0x65], ∃ (s : State) (cl : Fin 64) (b : Body) (a : Adm) (c : BrCmd) (f : Family) (l : Layout) (i k : Nat),
    s.headOp cl 3 op = some (b, a) ∧ c = BrCmd.of b.bits ∧ Family.ofId c.family = some f ∧ c.ctLayout = some l ∧
    s.brCauses cl c b a (s.clusters[cl].eng.chains.find c.chain) = [] ∧ (s.ink cl).wf = true ∧ i < c.rows ∧ k < c.cols ∧ k + 1 = c.cols := by
  intro op h
  exact ⟨tBrush (tCtBits op) .encNative, 0, tBody (tCtBits op), tPAdm .encNative, _, .P1, if op = 0x65 then .small else .big, 0, if op = 0x65 then 630 else 1024,
    by revert op; decide +kernel, rfl, by revert op; decide +kernel⟩
/-- BR_CHAIN_LOAD of the record, and of one of zeros. -/
def tLoadBits : Nat := bitsOf [(0, 0x59), (220, 1), (412, 0)]
def tChainLoad (m : Memory) : State := { tBrush tLoadBits .clear with clusters := vupd (tBrush tLoadBits .clear).clusters 0 fun k => { k with ink := m } }
def tRecMem : Memory := Memory.writeNat ([] : Memory) 0 72 (tRec.toNat)
/-- A ciphertext record of a family that no table has (R2). -/
def tOddRec : Memory := Memory.writeNat ([] : Memory) 0 32 (bitsOf [(62, 9), (159, 0xC)])
theorem test_chain_family : Chain.familyOk (BitVec.ofNat 2048 (Memory.readNat tOddRec 0 256)) = false ∧
    ((tNext (.brChainLoad 0) (tChainLoad tOddRec)).queue 0 3).works.map (·.causes) = [[.paramUnsupported, .malformed]] := by decide +kernel
theorem test_chain_load : ∀ m ∈ [tRecMem, []], ∃ (s : State) (cl : Fin 64) (b : Body) (a : Adm) (c : BrCmd) (r : ChainRec), s.headOp cl 3 0x59 = some (b, a) ∧ c = BrCmd.of b.bits ∧
    s.brCauses cl c b a none = [] ∧ r = BitVec.ofNat 2048 ((s.ink cl).readNat c.srcA 256) ∧ Chain.familyOk r = true ∧ Chain.recOk r (s.brEnv a) = !m.isEmpty := by
  intro m h
  exact ⟨tChainLoad m, 0, tBody tLoadBits, tPAdm .clear, _, _, by revert m; decide +kernel, rfl, by revert m; decide +kernel, rfl, by revert m; decide +kernel⟩
/-- A tile of 8 by 8 zeros that waits for entry 1. -/
def tTile : List (List Pair) := List.replicate 8 (List.replicate 8 (Pair.ofFp32 (FVal.zero false)))
def tEpiBits : BitVec 512 := BitVec.ofNat 512 (tNibBits 0x28 [(17, 9), (21, 9), (25, 1), (26, 1), (27, 32), (43, 32), (54, 8), (62, 8), (80, 20), (90, 10), (116, 8), (168, 4096), (192, 1)])
def tOver : List (List Bool) := List.replicate 8 (List.replicate 8 false)
def tEpi (chains : Table ChainRec) : State := tNibWorks { tiles := [(0, tEpiBits, tTile, tOver)] } (tPlain tEpiBits) chains
/-- The same record, but for its one step: SEND. -/
def tSendRec : ChainRec := BitVec.ofNat 2048 (bitsOf [(145, 1), (154, 0xB), (159, 0xB), (232, 4096), (512 + 58, 0x18)])
def tShed5 (s : State) : State := s.updShed fun h => { h with level := 5 }
theorem test_epilogue_waits : ∀ l ∈ ([[], [(1, tRec)], [(1, tSendRec)]] : List (Table ChainRec)), ∃ (s : State) (cl : Fin 64) (i : Nat) (bits : BitVec 512) (tile : List (List Pair)) (ovf : List (List Bool))
    (rest : List (Nat × BitVec 512 × List (List Pair) × List (List Bool))) (w : Work) (a : Adm) (c : NibCmd), (s.nib cl).tiles = (i, bits, tile, ovf) :: rest ∧
    s.work? cl 0 i = some w ∧ s.adm w.b.run = some a ∧ s.inService cl = true ∧ s.unitOut 4 cl = false ∧ c = NibCmd.of bits ∧ s.clusters[cl].eng.chains.find c.handle = l.find 1 ∧
    tile.length = c.m ∧ (∀ row ∈ tile, row.length = c.n) ∧ (s.ink cl).wf = true := by
  intro l h
  exact ⟨tEpi l, 0, 0, tEpiBits, tTile, tOver, [], tPlain tEpiBits, tPAdm .clear, _, rfl, by revert l; decide +kernel, by revert l; decide +kernel,
    by revert l; decide +kernel, by revert l; decide +kernel, rfl, by revert l; decide +kernel⟩
/-- The chain that runs, and the one that would send. -/
theorem test_epilogue_chain : ∃ (c : NibCmd) (v : Chain.Inv), c = NibCmd.of tEpiBits ∧ v = ⟨c.addr, 8 * c.stride, c.m, c.n⟩ ∧
    (tShed5 (tEpi [(1, tSendRec)])).clusters = (tEpi [(1, tSendRec)]).clusters ∧ Chain.recOk tRec ((tEpi []).brEnv (tPAdm .clear)) = true ∧
    Chain.isCt tRec = false ∧ v.originOk tRec = true ∧ v.rangeOk tRec (fmtBits (Chain.outFmt tRec)) = true ∧ v.shapeOk tRec = true ∧ Chain.sends tRec = false ∧
    Chain.isCt tSendRec = false ∧ v.originOk tSendRec = true ∧ v.rangeOk tSendRec (fmtBits (Chain.outFmt tSendRec)) = true ∧ Chain.sends tSendRec = true ∧
    (tShed5 (tEpi [(1, tSendRec)])).shed ≥ 5 := ⟨_, _, rfl, rfl, rfl, by decide +kernel⟩
/-! ### The data mover, the end of commands, memory and switches -/

/-- Bodies of Table 9-3: one run of 64 bytes unless the fields say otherwise; module memory is at 32 MiB. -/
def tDmBits (op : Nat) (l : List (Nat × Nat)) : Nat := bitsOf ([(0, op), (108, 1)] ++ l)
def tDmRows : List (Nat × QClass × List (Nat × Nat)) :=
  [(0x80, .encNative, [(105, 1), (124, 1), (140, 64), (416, 2 ^ 25)]), (0x81, .encNative, [(91, 0xB), (105, 1), (124, 64), (140, 256), (192, 256), (256, 256), (416, 2 ^ 25)]),
   (0x82, .encNative, [(105, 1), (124, 1), (140, 64), (224, 1), (288, 32768), (416, 2 ^ 25)]), (0x83, .clear, [(91, 0xB), (105, 1), (124, 1), (140, 64), (160, 1), (288, 32768), (416, 2 ^ 25)])] ++
  [(0x84, .encNative, [(124, 1), (140, 64), (288, 0x1122)]), (0x85, .encNative, [(124, 1), (140, 64), (352, 4096)]),
   (0x88, .encNative, [(81, 1), (102, 1), (105, 1), (124, 1), (140, 64), (416, 2 ^ 25)])]
def tDm (bits : Nat) (cls : QClass) : State := (tHead 4 bits cls tTwo).updSync fun y => { y with bindings := [⟨1, 1, 2, 16⟩] }
theorem test_mover : ∀ p ∈ tDmRows, ∃ (s : State) (cl : Fin 64) (b : Body) (a : Adm) (c : DmCmd) (r : Run) (x : Ctx), s.headOp cl 4 p.1 = some (b, a) ∧ c = DmCmd.of b.bits ∧
    s.run b.run = some r ∧ s.ctxs.find b.run.ctx = some x ∧ s.dmCauses cl c b a r x = [] := by
  intro p h
  exact ⟨tDm (tDmBits p.1 p.2.2) p.2.1, 0, tBody (tDmBits p.1 p.2.2), tAdm 0x79 p.2.1 (.qrun tTwo), _, tTwo, tCtx, by revert p; decide +kernel, rfl, by revert p; decide +kernel⟩
/-- The same at shedding level 0 with a length of 0. -/
theorem test_mover_refused : ∀ p ∈ tDmRows, ∃ (s : State) (cl : Fin 64) (b : Body) (a : Adm) (c : DmCmd) (r : Run) (x : Ctx), s.headOp cl 4 p.1 = some (b, a) ∧ c = DmCmd.of b.bits ∧
    s.run b.run = some r ∧ s.ctxs.find b.run.ctx = some x ∧ s.dmCauses cl c b a r x ≠ [] := by
  intro p h
  exact ⟨tDm (tDmBits p.1 []) p.2.1, 0, tBody (tDmBits p.1 []), tAdm 0x79 p.2.1 (.qrun tTwo), _, tTwo, tCtx, by revert p; decide +kernel, rfl, by revert p; decide +kernel⟩
/-- R238: a run of 8,200 bytes from 4,088 on has transfers of 8, 4,096 and 4,096 bytes. -/
theorem test_cuts : cutRun 4088 8200 = [(0, 8), (8, 4096), (4104, 4096)] := by decide +kernel
theorem test_one {o : Option (Fin 4096)} {x : Fin 4096} {P : Fin 4096 → Prop} (h : o = some x) (q : P x) : ∀ cx, o = some cx → P cx :=
  fun _ e => by cases h.symm.trans e; exact q
def tSend : Xfer := { owner := none, run := tD, src := none, dst := [modPlace (2 ^ 25)], len := 8, data := [1, 2, 3, 4, 5, 6, 7, 8] }
/-- A cluster whose mover may issue a transfer. -/
def tIssues (s : State) (cl : Fin 64) (x : Xfer) : Prop := s.inService cl = true ∧ s.unitOut 7 cl = false ∧ s.bankOut cl = false ∧ s.pathOut cl x = false ∧ s.shed < 5 ∧
  s.clusters[cl].eng.xfers.length < 256 ∧ (∀ y ∈ s.clusters[cl].eng.xfers, y.no ≠ s.clusters[cl].eng.nextXfer) ∧ ∀ cx, s.clusters[cl].ctx = some cx → s.clParked cx cl = false
theorem test_issues {s : State} {cl : Fin 64} {x : Xfer} (h : s.inService cl = true ∧ s.unitOut 7 cl = false ∧ s.bankOut cl = false ∧ s.pathOut cl x = false ∧ s.shed < 5 ∧
    s.clusters[cl].eng.xfers.length < 256 ∧ (∀ y ∈ s.clusters[cl].eng.xfers, y.no ≠ s.clusters[cl].eng.nextXfer) ∧ s.clusters[cl].ctx = some 1 ∧ s.clParked 1 cl = false) : tIssues s cl x :=
  let ⟨a, b, c, d, e, g, i, j, k⟩ := h
  ⟨a, b, c, d, e, g, i, test_one (P := fun cx => s.clParked cx cl = false) j k⟩
theorem test_send_part : ∃ (s : State) (cl : Fin 64) (x : Xfer) (rest : List Xfer), tIssues s cl x ∧ s.clusters[cl].eng.sends = x :: rest ∧ x.src = none ∧
    ∀ p ∈ x.dst, p.space = 1 → s.memFenced p.addr x.len = false :=
  ⟨tRings tQAdm { sends := [tSend] }, 0, tSend, [], test_issues (by decide +kernel), by decide +kernel⟩
def tXfer : Xfer := { owner := some 0, run := tD, src := some (modPlace (2 ^ 25)), dst := [inkPlace 0 0], len := 64 }
def tMoves (todo xs : List Xfer) : Work := { b := tBody (tDmBits 0x80 (xs.map fun _ => (124, 0))), issuedAt := 0, cls := .encNative, kind := .mover todo }
def tMoving (todo xs : List Xfer) : State := tRings tQAdm { xfers := xs, queues := vupd (Vector.replicate 7 {}) 4 fun _ => { works := [tMoves todo xs], placed := 1 } }
/-- A source in module memory, in the Inkwell of another cluster, and in that of its own. -/
theorem test_transfer_issue : ∀ p ∈ [modPlace (2 ^ 25), inkPlace 1 0, inkPlace 0 512], ∃ (s : State) (cl : Fin 64) (x : Xfer) (w : Work) (rest : List Xfer) (sp : HostSpace),
    tIssues s cl x ∧ s.clusters[cl].eng.sends = [] ∧ nextTodo s.clusters[cl].eng.queues[4].works = some (w, x, rest) ∧ x.src = some p ∧ sp = s.spaceOf w.b.run.ctx ∧
    s.placeReady sp p x.len false = true ∧ (∀ y ∈ x.dst, s.placeReady sp y x.len true = true) ∧ 1 ≤ x.len ∧ s.hub.fenceCh = 0 ∧
    x.farSource cl = (p == inkPlace 1 0) := by
  intro p h
  exact ⟨tMoving [{ tXfer with src := some p }] [], 0, { tXfer with src := some p }, tMoves [{ tXfer with src := some p }] [], [], _, test_issues (by revert p; decide +kernel), by revert p; decide +kernel,
    by revert p; decide +kernel, rfl, rfl, by revert p; decide +kernel⟩
/-- Module memory at 32 MiB, 16 bytes of it, as a channel of it serves a read or a write of transfer 0. -/
def tModReq (write : Bool) : MemReq := { who := .xfer 0 0, cls := .bulk, write, addr := 2 ^ 25, len := 16, first := 409, last := 409, left := 1 }
def tModXfer (write : Bool) : Xfer := { tXfer with
  src := some (if write then inkPlace 0 0 else modPlace (2 ^ 25)), dst := [if write then modPlace (2 ^ 25) else inkPlace 0 0]
  len := 16, data := List.replicate 16 (if write then 7 else 0), loaded := write }
def tServed (write : Bool) : State := tServing 96 (tModReq write) { tMoving [] [tModXfer write] with mem := [(2 ^ 25 + 3, 9)] }
theorem test_transfer_served : ∀ k ∈ [false, true], ∃ (s : State) (ch : Fin 160) (q : MemReq) (cl : Fin 64) (no : Nat) (x : Xfer) (j : Nat), s.servesLast ch q ∧ q.who = .xfer cl no ∧
    (s.clusters[cl].eng.xfers.find? fun x => x.no == no) = some x ∧ q.write = k ∧ x.src.isSome = true ∧ (∀ c : Fin 160, c ≠ ch → ∀ r ∈ s.memsys.chans[c].reqs, r.who ≠ .xfer cl no) ∧
    x.turned = none ∧ q.len = x.data.length ∧ s.mem.wf = true ∧ x.owner = some j ∧ (s.work? cl 4 j).isSome = true ∧ q.holds ch (2 ^ 25 + 8) = true := by
  intro k h
  exact ⟨tServed k, 96, tModReq k, 0, 0, tModXfer k, 0, by revert k; unfold State.servesLast; decide +kernel, rfl, by revert k; decide +kernel⟩
/-- The same with bytes that another channel has still to read; a SEND part. -/
theorem test_transfer_waits : ∃ (s : State) (ch c : Fin 160) (q : MemReq), s.servesLast ch q ∧ c ≠ ch ∧ ∃ r ∈ s.memsys.chans[c].reqs, r.who = q.who :=
  ⟨tServing 97 (tModReq false) (tServed false), 96, 97, tModReq false, by unfold State.servesLast; decide +kernel, by decide, tModReq false, by decide +kernel, rfl⟩
theorem test_send_served : ∃ (s : State) (ch : Fin 160) (q : MemReq) (cl : Fin 64) (no : Nat) (x : Xfer), s.servesLast ch q ∧ q.who = .xfer cl no ∧ q.write = true ∧
    (s.clusters[cl].eng.xfers.find? fun x => x.no == no) = some x ∧ x.turned = none ∧ q.len = x.data.length ∧ s.mem.wf = true ∧ x.owner = none ∧ (s.run x.run).isSome = true ∧
    q.holds ch (2 ^ 25 + 8) = true :=
  ⟨tServing 96 (tModReq true) (tMoving [] [{ tModXfer true with owner := none }]), 96, tModReq true, 0, 0, { tModXfer true with owner := none }, by unfold State.servesLast; decide +kernel, rfl,
    by decide +kernel⟩
/-- R261: the bytes that stand there as the channel serves the read. -/
theorem test_read_served : ((tNext (.memRoundStart ⟨96, []⟩) (tServed false)).clusters[(0 : Fin 64)].eng.xfers.map fun x => (x.loaded, x.data.take 5)) = [(true, [0, 0, 0, 9, 0])] := by decide +kernel
/-- R257: a word that fails SECDED is not written, and its command fails; the word before it is written. -/
theorem test_bad_word : (let t := tNext (.memRoundStart ⟨96, [(.xfer 0 0, 2 ^ 22 + 1)]⟩) (tServed true)
    (t.mem.get (2 ^ 25 + 7), t.mem.get (2 ^ 25 + 8), (t.queue 0 4).works.map (·.causes))) = (7, 0, [[.faultDetected]]) := by decide +kernel
/-- Ends of a transfer into the Inkwell, and into module memory; a check of it that fails. -/
theorem test_transfer_end : ∀ p ∈ [inkPlace 0 0, modPlace (2 ^ 25)], ∃ (s : State) (cl : Fin 64) (i j : Nat) (x : Xfer) (w : Work) (f : CheckFail),
    (s.clusters[cl].eng.xfers.find? fun x => x.no == i) = some x ∧ x.owner = some j ∧ s.work? cl 4 j = some w ∧ w.b.run = x.run ∧ s.clusters[cl].ctx = some x.run.ctx ∧
    (∀ r, s.run x.run = some r → cl ∈ r.set) ∧ fld w.b.bits 7 0 ≠ 0x81 ∧ fld w.b.bits 7 0 ≠ 0x83 ∧ x.turned = none ∧ x.loaded = true ∧ x.remote = [] ∧ s.memWaits (.xfer cl i) = false ∧
    x.dst = [p] ∧ p.space < 2 ∧ x.mayFail cl (s.xferCmd cl x) f = true := by
  intro p h
  have k : ∀ p ∈ [inkPlace 0 0, modPlace (2 ^ 25)], (tMoving [] [{ tXfer with dst := [p], loaded := true }]).run tD = some tRun := by decide +kernel
  exact ⟨tMoving [] [{ tXfer with dst := [p], loaded := true }], 0, 0, 0, { tXfer with dst := [p], loaded := true }, tMoves [] [{ tXfer with dst := [p], loaded := true }], ⟨9, .inkwell, 0, 0⟩,
    by revert p; decide +kernel, rfl, by revert p; decide +kernel, by revert p; decide +kernel, rfl, fun r e => by cases (k p h).symm.trans e; decide, by revert p; decide +kernel⟩
/-- A remote source and a remote destination at cluster 1 of a transfer of cluster 0. -/
def tRemote (x : Xfer) : State := { tMoving [] [x] with clusters := vupd (tMoving [] [x]).clusters 1 fun _ => { ctx := some 1 } }
def tFar : Xfer := { tXfer with src := some (inkPlace 1 0), remote := [1] }
def tInto : Xfer := { tXfer with dst := [inkPlace 1 0], remote := [1], loaded := true }
theorem test_remote : ∀ x ∈ [tFar, tInto], ∃ (s : State) (g cl : Fin 64) (i : Nat), (s.clusters[cl].eng.xfers.find? fun x => x.no == i) = some x ∧ g ∈ x.remote ∧
    s.clusters[g].ctx = some x.run.ctx ∧ s.clFenced g = false ∧ s.unitOut 7 g = false ∧ s.bankOut g = false ∧ g ≠ cl := by
  intro x h
  exact ⟨tRemote x, 1, 0, 0, by revert x; decide +kernel⟩
theorem test_remote_ends : (∃ p, tFar.src = some p ∧ p.space = 0 ∧ p.id = (1 : Fin 64).val ∧ tFar.loaded = false) ∧
    ∃ p, tInto.loaded = true ∧ (tInto.dst.filter fun y => y.space == 0 && y.id == (1 : Fin 64).val) = [p] := ⟨⟨inkPlace 1 0, by decide +kernel⟩, inkPlace 1 0, by decide +kernel⟩
/-- A command of the Brush whose work is done, without a cause and with one; a body that queue 0 does not take. -/
def tEnds (l : List Status) : Work := { tPlain 0 with causes := l }
def tEnd (l : List Status) : State := tRings tQAdm { queues := vupd (Vector.replicate 7 {}) 3 fun _ => { works := [tEnds l], placed := 1 } }
theorem test_command_end : ∀ l ∈ [[], [Status.malformed]], ∃ (s : State) (cl : Fin 64) (q : Fin 7) (i : Nat) (w : Work) (r : Run), s.work? cl q i = some w ∧ w.done = false ∧
    s.endReady cl q w = true ∧ s.pauses cl q w = false ∧ w.causes = l ∧ s.run w.b.run = some r ∧ r.failed = false := by
  intro l h
  exact ⟨tEnd l, 0, 3, 0, tEnds l, tRun, by revert l; decide +kernel⟩
theorem test_wrong_queue : ∃ (s : State) (cl : Fin 64) (q : Fin 7) (i : Nat) (b : Body) (a : Adm) (r : Run), s.work? cl q i = none ∧ s.issueHead cl q = some (b, a) ∧ b.no = i ∧
    queueTakes q b.opcode = false ∧ s.run b.run = some r ∧ r.failed = false := ⟨tHead 0 0x50, 0, 0, 0, tBody 0x50, tQAdm, tRun, by decide +kernel⟩
/-- R368: two checks of one command that fail end it; the record of one is written at once, that of the other waits for the test of its unit. -/
theorem test_command_fails : (tNext (.engineCommandEnd 0 3 0 [] false) (tEnd [.malformed])).descs = [] ∧
    (tNext (.engineCommandEnd 0 3 0 [⟨5, .inkwell, 0, 0⟩, ⟨9, .inkwell, 0, 0⟩] false) (tEnd [])).descs = [] ∧
    (tNext (.engineCommandEnd 0 3 0 [⟨5, .inkwell, 0, 0⟩, ⟨9, .inkwell, 0, 0⟩] false) (tEnd [])).hub.faultCnt = 1 ∧
    ((tNext (.engineCommandEnd 0 3 0 [⟨5, .inkwell, 0, 0⟩, ⟨9, .inkwell, 0, 0⟩] false) (tEnd [])).testOf 8192).faults.length = 1 := by decide +kernel

/-- A round with a request that it cannot serve whole, and one in which the patrol is due. -/
theorem test_round : ∃ (s : State) (ch : Fin 160), s.channelsRun = true ∧ s.shed < 5 ∧ s.chFenced ch = false ∧ (s.testOf (unitNo 10 ch)).faults = [] ∧
    s.timebase < s.memsys.chans[ch].patrolAt ∧ s.memsys.chans[ch].reqs ≠ [] ∧ ∀ q ∈ s.memsys.chans[ch].reqs, 64 < q.left :=
  ⟨tServing 159 ⟨.keyLoad tD, .bulk, true, 2 ^ 25, 2 ^ 25, 400, 600, 65⟩ (tAt .ready), 159, by decide +kernel⟩
theorem test_patrol : ∃ (s : State) (ch : Fin 160), s.channelsRun = true ∧ s.shed < 5 ∧ s.chFenced ch = false ∧ (s.testOf (unitNo 10 ch)).faults = [] ∧
    s.memsys.chans[ch].patrolAt ≤ s.timebase ∧ s.memsys.chans[ch].reqs = [] := ⟨{ tAt .ready with timebase := 3400000 }, 159, by decide +kernel⟩
/-- The directory slot of entry 2, at 6 GiB, whose write channel 0 serves. -/
def tSlotWrite : State := tServing 0 ⟨.slot 2, .lc, true, 6 * 2 ^ 30 + 2048, 1024, 0, 0, 1⟩ { tAt .ready with
  keys := { State.reset.keys with dir := [(2, tSlot)] }, env := ((tAt .ready).updSetup fun u => { u with keyDir := BitVec.ofNat 64 (6 * 2 ^ 30) }).env }
theorem test_slot_write : ∃ (s : State) (ch : Fin 160) (q : MemReq) (i : Nat) (x : DirSlot), s.servesLast ch q ∧ q.who = .slot i ∧ s.keys.dir.find i = some x ∧ x.bytes.length = 1024 ∧ s.mem.wf = true :=
  ⟨tSlotWrite, 0, ⟨.slot 2, .lc, true, 6 * 2 ^ 30 + 2048, 1024, 0, 0, 1⟩, 2, tSlot, by unfold State.servesLast; decide +kernel, rfl, by decide +kernel⟩
/-- The patrol's burst of block 7, served: nothing met, one symbol in error in its ninth beat, two there; and where it is not the channel's turn. -/
def tPatrol (left : Nat) : State := (tServing 159 ⟨.scrub, .bulk, false, blockAddr 159 7 + 256, 256, 7, 7, left⟩ (tAt .ready)).updChan 159 fun h => { h with patrol := 15 }
def tNinth (o : ReadObs) : List ReadObs := [{}, {}, {}, {}, {}, {}, {}, {}, o]
theorem test_scrub : ∀ p ∈ [(({} : ReadObs), Syndrome.zero), ({ err := 9 }, .corrected 0), ({ err := 2 ^ 8 + 1 }, .uncorrectable)],
    ∃ (s : State) (ch : Fin 160) (l : BitVec 24) (half : Fin 2) (o : List ReadObs) (k : Nat), s.channelsRun = true ∧ s.chFenced ch = false ∧ s.shed < 5 ∧
    s.memsys.chans[ch].patrol = 2 * l.toNat + half ∧ (∃ q ∈ s.memsys.chans[ch].reqs, q.who = .scrub ∧ q.left = 0) ∧ k < 16 ∧
    (∀ j, j < 16 → j ≠ k → s.readBeat ch l.toNat (16 * half + j) (o.getD j {}) = .zero) ∧ s.readBeat ch l.toNat (16 * half.val + k) (o.getD k {}) = p.2 ∧
    (∀ x ∈ o, x.wrong = none) ∧ s.memsys.flips = [] := by
  intro p h
  exact ⟨tPatrol 0, 159, 7, 1, tNinth p.1, 8, by decide +kernel, by decide +kernel, by decide +kernel, by decide +kernel, ⟨_, List.mem_singleton.mpr rfl, by decide⟩, by decide,
    by revert p; decide +kernel⟩
theorem test_scrub_waits : ∀ n ∈ [0, 1], ∃ (s : State) (ch : Fin 160) (l : BitVec 24) (half : Fin 2), s.channelsRun = true ∧ s.chFenced ch = false ∧ s.shed < 5 ∧
    (s.memsys.chans[ch].patrol ≠ 2 * l.toNat + half ∨ ∀ q ∈ s.memsys.chans[ch].reqs, q.who = .scrub → q.left ≠ 0) := by
  intro n h
  exact ⟨tPatrol n, 159, if n = 0 then 8 else 7, 1, by revert n; decide +kernel⟩
/-- R255: what is injected into the last and the first symbol of a beat. -/
theorem test_symbols : ∃ (data block beat w : Nat) (i j : Fin 19) (u v : Nat), data < 2 ^ 128 ∧ w = Rs.encode data block beat ∧ 1 ≤ u ∧ u < 256 ∧ j ≠ i ∧ 1 ≤ v ∧ v < 256 :=
  ⟨2 ^ 127 + 5, 12582911, 31, _, 18, 0, 255, 1, by decide, rfl, by decide⟩
theorem test_symbol_code : Rs.decode (Nat.xor (Rs.encode (2 ^ 127 + 5) 12582911 31) (255 * 2 ^ 144)) 12582911 31 = (.corrected 18, 2 ^ 127 + 5) ∧
    Rs.decode (Rs.encode (2 ^ 127 + 5) 12582911 31) 12582911 31 = (.zero, 2 ^ 127 + 5) := by decide +kernel
/-- Two bursts of LC to blocks 4 and 5 and one of BULK to block 9, in a round with room for two. -/
def tWants : List MemReq := [⟨.stage 0 3, .bulk, false, 0, 0, 9, 9, 1⟩, ⟨.xfer 0 1, .lc, false, 0, 0, 4, 5, 2⟩]
theorem test_round_service : ∃ (g : Grants) (n : Nat) (l : List MemReq), (∀ q ∈ l, 1 ≤ q.left ∧ q.cls ≠ .test ∧ q.who ≠ .scrub) ∧ g.lc ≤ n ∧
    l.Pairwise (fun x y => x.clash y = false ∧ y.clash x = false) := ⟨{ lc := 2 }, 2, tWants, by decide +kernel⟩
theorem test_round_served : (roundServe { lc := 2 } 2 tWants).reqs = [⟨.stage 0 3, .bulk, false, 0, 0, 9, 9, 1⟩] := by decide +kernel
/-- A beat that reads as it is, with one symbol in error, and from the wrong place. -/
theorem test_memory_read : ∀ p ∈ [(({} : ReadObs), Syndrome.zero), ({ err := 9 }, .corrected 0), ({ recompute := true }, .uncorrectable), ({ err := 2 ^ 8 + 1 }, .uncorrectable)],
    ∃ (s : State) (ch : Fin 160) (l : BitVec 24) (beat : Fin 32) (o : ReadObs), s.channelsRun = true ∧ s.chFenced ch = false ∧ s.shed < 5 ∧ l.toNat ≤ 12582911 ∧
    s.readBeat ch l.toNat beat o = p.2 := by
  intro p h
  exact ⟨tAt .ready, 159, 12582911, 31, p.1, by revert p; decide +kernel⟩
/-- An uncorrectable read of a sweep of a RESIDENT key (R73). -/
def tSweptKey : Sweep := { idx := 0, entry := tEntry stRESIDENT kindBSK, unit := 0, subs := [{ sub := tSub }], startedAt := 0, staged := false }
def tSwept : State := { tSubbed with keys := { tSubbed.keys with sweeps := vupd State.reset.keys.sweeps 2 fun _ => some tSweptKey } }
theorem test_sweep_read : ∃ (s : State) (ch : Fin 160) (l : BitVec 24) (beat : Fin 32) (o : ReadObs) (slot : Fin 8) (w : Sweep), s.channelsRun = true ∧ s.chFenced ch = false ∧
    s.shed < 5 ∧ l.toNat ≤ 12582911 ∧ s.readBeat ch l.toNat beat o = .uncorrectable ∧ s.keys.sweeps[slot] = some w ∧ w.staged = false ∧ Krt.state (s.entry w.idx) = stRESIDENT :=
  ⟨tSwept, 0, 0, 0, { recompute := true }, 2, tSweptKey, by decide +kernel⟩
/-- R260, Tables 10-4 and 10-7: 60 slots under 4× refresh; the guarantees at reset fit. -/
def tHot : State := { tAt .ready with memsys := { State.reset.memsys with stackRegs := vupd State.reset.memsys.stackRegs 0 fun k => { k with level := 2 } } }
theorem test_round_starts : (let h := (tNext (.memRoundStart ⟨0, []⟩) tHot).memsys.chans[(0 : Fin 160)]
    (h.slots, h.lc, h.ks, h.bulk)) = (60, 16, 32, 8) := by decide +kernel

/-- Context 2 with work waits for the partition where context 1 runs without any. -/
def tTwoCtx : State := { tWhole (tRings (tAdm 0x74)) with ctxs := [(1, { tCtx with inSince := some 0 }), (2, tCtx)], descs := [(⟨2, 0, 0⟩, tAdm 0x74)] }
theorem test_switch : ∃ (s : State) (p : Fin 64) (cx : Fin 4096), s.switchTo p = some cx ∧ Table.ordered s.ctxs ∧ ∀ e ∈ s.ctxs, e.1 < 4096 :=
  ⟨tTwoCtx, 0, 2, by decide +kernel, by unfold Table.ordered; decide +kernel, by decide +kernel⟩
theorem test_no_switch : ∃ (s : State) (p : Fin 64), s.switchTo p = none := ⟨tTwoCtx, 1, by decide +kernel⟩
def tParked : Ctx := { tCtx with inSince := some 0, parkedAt := some 7 }
theorem test_quantum : ∃ (s : State) (p : Fin 64) (cx : Fin 4096) (c : Ctx) (u v : Nat), s.runningIn p = some cx ∧ s.ctxs.find cx = some c ∧ c.inSince = some u ∧ c.parkedAt = some v :=
  ⟨tWhole (tCtxWith fun _ => tParked), 0, 1, tParked, 0, 7, by decide +kernel⟩
/-- R290: context 1 has no work; has run longer and its quantum has ended; has been parked for 10 µs. -/
def tBusy (c : Ctx) (now : Nat) : State := { tTwoCtx with timebase := now, ctxs := [(1, c), (2, tCtx)], descs := [(⟨1, 0, 0⟩, tAdm 0x74), (⟨2, 0, 0⟩, tAdm 0x74)] }
theorem test_switch_when : ∀ p ∈ [(tTwoCtx, { tCtx with inSince := some 0 }), (tBusy { tCtx with inSince := some 0, runTime := 5 } (10 ^ 12), { tCtx with inSince := some 0, runTime := 5 }),
      (tBusy { tCtx with inSince := some 0, parkedAt := some 7 } 10007, { tCtx with inSince := some 0, parkedAt := some 7 })],
    ∃ (s : State) (p' : Fin 64) (cx o : Fin 4096) (c : Ctx), s = p.1 ∧ c = p.2 ∧ s.runningIn p' = some cx ∧ s.ctxs.find cx = some c ∧ p'.val < s.parts ∧ s.switching.find p' = none ∧ s.shed < 5 ∧
    s.leastRun ((s.candidates p').filter (· != cx.val)) = some o.val ∧
    (s.hasWork cx = false ∨ (s.lessRun o cx = true ∧ (c.inSince.map fun u => decide (u + 1000 * (s.steerOf cx).quantum ≤ s.timebase)) = some true) ∨
      (c.parkedAt.map fun u => decide (u + 10000 ≤ s.timebase)) = some true) := by
  intro p h
  exact ⟨p.1, 0, 1, 2, p.2, rfl, rfl, by revert p; decide +kernel⟩
/-- A quantum and 10 µs of parking that end with a switch, and without one. -/
theorem test_instants : ∀ p ∈ [(true, true), (true, false), (false, true), (false, false)], ∃ (s : State) (p' : Fin 64) (cx : Fin 4096) (c : Ctx) (u v : Nat), s.runningIn p' = some cx ∧
    s.ctxs.find cx = some c ∧ (if p.1 then c.inSince = some u ∧ v = u + 1000 * (s.steerOf cx).quantum else c.parkedAt = some u ∧ v = u + 10000) ∧
    (s.advance v).switchTo p' = (if p.2 then some 2 else none) ∧ ∀ e ∈ s.ctxs, e.1 < 4096 := by
  intro p h
  refine ⟨if p.2 then tBusy { tParked with runTime := 5 } 0 else tWhole (tCtxWith fun _ => tParked), 0, 1, if p.2 then { tParked with runTime := 5 } else tParked, if p.1 then 0 else 7,
    if p.1 then 1000 * ((tTwoCtx).steerOf 1).quantum else 10007, ?_⟩
  revert p; decide +kernel
theorem test_instants_order (c : Ctx) (t : Nat) : Table.ordered (tBusy c t).ctxs := by
  unfold Table.ordered
  exact List.Pairwise.cons (fun y m => by rw [List.mem_singleton.mp m]; exact (by decide : (1 : Nat) < 2)) (List.pairwise_singleton _ _)
/-- The switch from context 1 to context 2, nothing running, in a partition of one cluster. -/
def tSwitch : State := { tTwoCtx with
  descs := [], switching := [(0, (some 2, 0))], env := ((tAt .ready).updSetup fun u => { u with partCode := 5 }).env
  clusters := vupd State.reset.clusters 0 fun _ => { ctx := some 1 } }
theorem test_switch_complete : ∃ (s : State) (p : Fin 64) (cx o : Fin 4096) (ci co : Ctx) (u : Nat), s.switching.find p = some (some cx, u) ∧ s.shed < 5 ∧
    (∀ k ∈ s.clustersOf p, s.settled k = true ∧ s.clusters[k].ctx = some o) ∧ s.memWaits (.switch p) = false ∧ s.clustersOf p ≠ [] ∧ o ≠ cx ∧ s.ctxs.find cx = some ci ∧ s.ctxs.find o = some co ∧
    (∀ k ∈ s.clustersOf p, (ci.saved.get {} (s.placeOf k)).queues[6].works = []) ∧ ci.saved = [] ∧ ci.ran = [] ∧ s.descs = [] ∧ s.mem.wf = true ∧ (∀ k : Fin 64, (s.ink k).wf = true) :=
  ⟨tSwitch, 0, 2, 1, tCtx, { tCtx with inSince := some 0 }, 0, by decide +kernel⟩
/-- The same, context 2 having run there: the task of its QRUN waits in what was saved. -/
def tAway : DRef := ⟨2, 0, 0⟩
def tBack : Ctx := { tCtx with saved := [(0, { tasks := vupd (Vector.replicate 8 none) 3 fun _ => some { tTask with run := tAway, pc := 1 } })], ran := [0] }
def tSwitchBack : State := { tSwitch with ctxs := [(1, { tCtx with inSince := some 0 }), (2, tBack)], descs := [(tAway, tQAdm)] }
theorem test_switch_back : ∃ (s : State) (p : Fin 64) (cx o : Fin 4096) (ci co : Ctx) (u : Nat), s.switching.find p = some (some cx, u) ∧ s.shed < 5 ∧
    (∀ k ∈ s.clustersOf p, s.settled k = true ∧ s.clusters[k].ctx = some o) ∧ s.memWaits (.switch p) = false ∧ s.clustersOf p ≠ [] ∧ o ≠ cx ∧ s.ctxs.find cx = some ci ∧ s.ctxs.find o = some co ∧
    (∀ k ∈ s.clustersOf p, (ci.saved.get {} (s.placeOf k)).queues[6].works = [] ∧ s.placeOf k ∈ ci.ran) ∧ s.mem.wf = true ∧ (∀ k : Fin 64, (s.ink k).wf = true) :=
  ⟨tSwitchBack, 0, 2, 1, tBack, { tCtx with inSince := some 0 }, 0, by decide +kernel⟩
theorem test_run_kept : ∀ x ∈ tSwitchBack.descs, ∀ r, x.2.prog = .qrun r → tSwitchBack.runKept x.1 r (tSwitchBack.clustersOf (0 : Fin 64)) 2 1 := by
  intro x m r e
  cases List.mem_singleton.mp m
  cases e
  exact .inr ⟨0, by decide, fun _ => by decide +kernel, 3, { tTask with run := tAway, pc := 1 }, by decide +kernel, rfl⟩
/-! ### Tests of units and the public-key engine -/

/-- A Brush command holds unit 4:0. -/
theorem test_watchdog : ∃ (s : State) (u : BitVec 16), s.holders u.toNat ≠ [] ∧ s.isFenced u.toNat = false ∧ (s.testOf u.toNat).testing = false := ⟨tEnd [], 8192, by decide +kernel⟩
/-- A body that holds the Brush, and a QRUN whose task holds the Quill. -/
theorem test_holders : .body 0 3 0 ∈ (tEnd []).holders 8192 ∧ .desc tD ∈ (tQuill 0).holders 2048 ∧ ((tQuill 0).run tD).isSome = true ∧ (tQuill 0).sec.running = none ∧
    (tQuill 0).isFenced 2048 = false ∧ ((tQuill 0).testOf 2048).testing = false ∧ isUnit 8192 = true := by decide +kernel
/-- The hub's controllers with two detections in 24 hours, held by a command; the public-key engine, held by a rebuild alone. -/
def tPair : State := { tTwoCtx with health := { State.reset.health with transients := [(28672, [5, 9])] } }
theorem test_watchdog_pair : ∃ (s : State) (u : BitVec 16), u.toNat = unitNo 0x0E 0 ∧ (s.holders u.toNat ≠ [] ∨ s.holdsOwn u.toNat = true) ∧ s.isFenced u.toNat = false ∧
    (s.testOf u.toNat).testing = false ∧ s.env.serac.hubRuns = true ∧ 2 ≤ (s.recent u.toNat).length + (s.testOf u.toNat).faults.length := ⟨tPair, 28672, by decide +kernel⟩
def tChecks : State := { tAt .ready with
  sec := { State.reset.sec with running := some { op := .rebuild 5, ends := 420000, status := .ok, out := [] } }
  keys := { State.reset.keys with rebuilds := [(5, { since := 0 })] } }
theorem test_watchdog_rebuild : ∃ (s : State) (u : BitVec 16) (r : PkeRun) (i : Nat) (x : Rebuild), u.toNat = unitNo 13 0 ∧ s.holdsOwn u.toNat = true ∧ s.holders u.toNat = [] ∧
    s.isFenced u.toNat = false ∧ (s.testOf u.toNat).testing = false ∧ (s.recent u.toNat).length + (s.testOf u.toNat).faults.length < 2 ∧ s.sec.running = some r ∧ r.op = .rebuild i ∧
    r.ended = false ∧ s.keys.rebuilds.find i = some x :=
  ⟨tChecks, 26624, { op := .rebuild 5, ends := 420000, status := .ok, out := [] }, 5, { since := 0 }, by decide +kernel⟩
/-- A Nib at rest, its test due, running, and under way with a fault that waits; a unit of the hub. -/
def tUnit (u : Nat) (x : UnitTest) : State := { tAt .ready with health := { State.reset.health with tests := [(u, x)] } }
theorem test_unit_rests : ∃ (s : State) (u : BitVec 16), isUnit u.toNat = true ∧ s.isFenced u.toNat = false ∧ (s.testOf u.toNat).testing = false ∧ (s.testOf u.toNat).due = false ∧
    s.env.serac.st = .ready := ⟨tAt .ready, 4096, by decide +kernel⟩
theorem test_unit_due : ∃ (s : State) (u : BitVec 16), isUnit u.toNat = true ∧ s.isFenced u.toNat = false ∧ s.testMayStart u.toNat = true := ⟨tUnit 4096 { due := true }, 4096, by decide +kernel⟩
theorem test_engine_due : ∃ (s : State) (u : BitVec 16), isUnit u.toNat = true ∧ s.isFenced u.toNat = false ∧ s.testMayStart u.toNat = true ∧ u.toNat / 2048 = 13 :=
  ⟨tUnit 26624 { due := true }, 26624, by decide +kernel⟩
theorem test_unit_tests : ∀ u ∈ [4096, 20480, 28672], ∃ (s : State) (v : BitVec 16), v.toNat = u ∧ isUnit v.toNat = true ∧ s.isFenced v.toNat = false ∧ (s.testOf v.toNat).testing = true ∧
    ((v.toNat = unitNo 0x0E 0) = (u = 28672)) ∧ s.env.serac.hubRuns = true ∧ s.mem.wf = true := by
  intro u h
  exact ⟨tUnit u { testing := true, faults := [⟨1, 0, 0, 0⟩] }, BitVec.ofNat 16 u, by revert u; decide +kernel, by revert u; decide +kernel, by revert u; decide +kernel, by revert u; decide +kernel,
    congrArg (· = 28672) (by revert u; decide +kernel), by revert u; decide +kernel⟩
/-- The two ends of a test, the Nib's. -/
theorem test_unit_ends (p : Bool) : (if (4096#16).toNat / 2048 = 10 then ((tUnit 4096 {}).channelTest (Fin.ofNat 160 ((4096#16).toNat % 2048)) {} {}).1 else p) = p := if_neg (by decide)
def tTesting : State := { tRings (tAdm 0x74) with sec := { State.reset.sec with testing := true, waiting := [.rebuild 5] } }
theorem test_rebuild_between : ∃ (s : State) (i : Nat), s.sec.testing = true ∧ s.sec.running = none ∧ s.sec.wiping = none ∧ s.shed < 5 ∧ s.pkeFenced = false ∧
    s.sec.waiting = [.rebuild i] ∧ s.sec.owner = none := ⟨tTesting, 5, by decide +kernel⟩
theorem test_flash : ∃ s : State, s.env.serac.st ≠ .off := ⟨tAt .ready, by decide +kernel⟩

/-- An operation of Table 13-4 on blocks of module memory at 32 MiB and 48 MiB, by its opcode and fields. -/
def tPke (op : Nat) (l : List (Nat × Nat)) : Adm := tAdm (bitsOf ((0, op) :: l.map fun (p : Nat × Nat) => (128 + p.1, p.2))) (if op ≤ 0xB5 then .pke else .encNative)
def tIn : Nat × Nat := (320, 2 ^ 25)
def tOut : Nat × Nat := (256, 3 * 2 ^ 24)
def tPkeRows : List (Nat × List (Nat × Nat)) :=
  [(0xB0, [(4, 1), (18, 1), tIn, tOut]), (0xB1, [(4, 1), (18, 1), tIn]), (0xB2, [(4, 3), (18, 1), tIn, tOut]), (0xB3, [(4, 2), (18, 1), tOut]), (0xB4, [(4, 2), (18, 1), (216, 64), tIn, tOut]),
   (0xB5, [(0, 4), (8, 64), (18, 1), tIn, tOut])] ++
  [(0xB8, [(18, 1), tIn, tOut]), (0xB9, [(18, 1), tIn, tOut]), (0xBA, [(18, 1), tIn, tOut]), (0xBB, [(0, 7)]), (0xBC, [(18, 1), tOut])]
theorem test_pke : ∀ p ∈ tPkeRows, ∃ (s : State) (d : DRef) (a : Adm), s.fresh d p.1 = some a ∧ s.pkeCauses d.ctx a = [] := by
  intro p h
  exact ⟨tRings (tPke p.1 p.2), tD, tPke p.1 p.2, by revert p; decide +kernel⟩
/-- The same with a reserved bit. -/
theorem test_pke_refused : ∀ p ∈ tPkeRows, ∃ (s : State) (d : DRef) (a : Adm), s.fresh d p.1 = some a ∧ Status.pick (s.pkeCauses d.ctx a) ≠ .ok ∧ s.env.serac.st ≠ .stopped := by
  intro p h
  exact ⟨tRings (tPke p.1 ((30, 1) :: p.2)), tD, tPke p.1 ((30, 1) :: p.2), by revert p; decide +kernel⟩
/-- A hash of no bytes waits for the engine, whose last owner is none, or the module. -/
def tHash : Adm := { tPke 0xB4 [(4, 2), (18, 1), tIn, tOut] with prog := .pke }
def tEngine (o : Option PkeOwner) : State := { tRings tHash with sec := { State.reset.sec with waiting := [.context tD], owner := o } }
theorem test_pke_start : ∀ o ∈ [none, some PkeOwner.module], ∃ (s : State) (p : PkeOp), s.sec.testing = false ∧ s.unitOut 13 0 = false ∧ s.sec.running = none ∧ s.sec.wiping = none ∧
    s.pkeNext false = some p ∧ (s.pkeRunOf p).isSome ∧ (s.sec.owner = none ∨ s.sec.owner.isSome = true ∧ s.sec.owner ≠ some (s.pkeOwner p)) := by
  intro o h
  exact ⟨tEngine o, .context tD, by revert o; decide +kernel⟩
def tPkeRun (out : List Byte) : PkeRun := { op := .context tD, ends := 2000, status := .ok, out }
def tRunning : State := { tRings tHash with sec := { State.reset.sec with running := some (tPkeRun []), owner := some (.context 1) } }
theorem test_pke_end : ∃ (s : State) (r : PkeRun), s.sec.running = some r ∧ r.ended = false ∧ s.sec.entropyFail = false ∧
    (∀ o, (s.advance r.ends).pkeNext (s.unitOut 13 0) = some o → s.sec.owner ≠ some (s.pkeOwner o)) :=
  ⟨tRunning, tPkeRun [], by decide +kernel, rfl, rfl, fun o h => by
    have k : (tRunning.advance 2000).pkeNext (tRunning.unitOut 13 0) = none := by decide +kernel
    exact absurd (k.symm.trans h) nofun⟩
/-- The wipe after a hash, whose result is 64 bytes; and after a SESSION_OPEN. -/
def tWipe (a : Adm) (r : PkeRun) : State := { tRings a with sec := { State.reset.sec with running := some r, wiping := some 4000, owner := some (.context 1) } }
def tOpen : Adm := { tPke 0xB9 [(18, 1), tIn, tOut] with prog := .pke }
theorem test_pke_wipe : ∀ p ∈ [(tHash, tPkeRun (List.replicate 64 7)), (tOpen, { tPkeRun (List.replicate 1024 7) with session := some 9 })], ∃ (s : State) (r : PkeRun) (u : Nat) (d : DRef) (a : Adm),
    s.sec.wiping = some u ∧ s.sec.running = some r ∧ r.op = .context d ∧ s.adm d = some a ∧ r.status = .ok ∧ a.pkeBody.space = 1 ∧ r.out.length = a.pkeBody.outLen a.opcode ∧
    s.mem.wf = true ∧ s.env.serac.st ≠ .stopped ∧ (a.opcode = 0xB9 → r.session = some 9 ∧ r.register = none ∧ (s.ctxs.find d.ctx).isSome) := by
  intro p h
  exact ⟨tWipe p.1 p.2, p.2, 4000, tD, p.1, rfl, rfl, by revert p; decide +kernel⟩
theorem test_pke_no_frees : (tWipe tHash (tPkeRun (List.replicate 64 7))).noFrees ∧ (tWipe tOpen (tPkeRun (List.replicate 1024 7))).noFrees :=
  ⟨test_no_frees rfl ⟨by decide +kernel, fun _ => nofun⟩ rfl, test_no_frees rfl ⟨by decide +kernel, fun _ => nofun⟩ rfl⟩
theorem test_entropy : ∃ s : State, s.sec.entropyFail = false := ⟨tAt .ready, rfl⟩
def tSession (c : Ctx) : Ctx := { c with session := some (9, 60000) }
theorem test_session : ∃ (s : State) (cx : Fin 4096) (c : Ctx) (dig : BitVec 512) (u : Nat), s.ctxs.find cx = some c ∧ c.session = some (dig, u) :=
  ⟨tCtxWith tSession, 1, tSession tCtx, 9, 60000, by decide +kernel⟩
/-- R337 by hand: 5 cubed is 10 modulo 23. -/
theorem test_modular : (modOp (PkeBody.of (BitVec.ofNat 384 (4 + 2 ^ 8))) (leBytes 8 23 ++ leBytes 8 5 ++ leBytes 8 3)).out = leBytes 8 10 := by decide +kernel

end Sys2Proof.Tests
end

/-! SUPPORT. What the end of a verified key load needs: bit fields of a KRT entry, requests that wait at the channels, and what completions and
releases leave of an entry that is not EVICTING. -/

namespace Sys2Proof.Machine

/-! ### Bit fields -/

theorem testBit_fld {n : Nat} (b : BitVec n) (hi lo j : Nat) : (fld b hi lo).testBit j = (decide (j < hi + 1 - lo) && b.getLsbD (lo + j)) := by
  simp [fld, Nat.testBit_mod_two_pow, Nat.testBit_div_two_pow, BitVec.getLsbD, Nat.add_comm]

/-- A word is what stands above a field of it, the field, and what stands below. -/
theorem toNat_eq_fld {n : Nat} (b : BitVec n) {hi lo : Nat} (h : lo ≤ hi) :
    b.toNat = 2 ^ lo * (2 ^ (hi + 1 - lo) * (b.toNat / 2 ^ (hi + 1)) + fld b hi lo) + b.toNat % 2 ^ lo := by
  have above : b.toNat / 2 ^ (hi + 1) = b.toNat / 2 ^ lo / 2 ^ (hi + 1 - lo) := by
    rw [Nat.div_div_eq_div_mul, ← pow_add, Nat.add_sub_cancel' (by omega)]
  rw [above, fld, Nat.div_add_mod, Nat.div_add_mod]

/-- What `putFld` makes of a word leaves what stands above and below the field. -/
theorem putFld_eq {n : Nat} (b : BitVec n) {hi lo : Nat} (v : Nat) (h : lo ≤ hi) :
    putFld b hi lo v = BitVec.ofNat n (2 ^ lo * (2 ^ (hi + 1 - lo) * (b.toNat / 2 ^ (hi + 1)) + v % 2 ^ (hi + 1 - lo)) + b.toNat % 2 ^ lo) := by
  have whole := toNat_eq_fld b h
  rw [Nat.mul_add] at whole
  rw [putFld, Nat.mul_add, Nat.mul_comm (fld b hi lo), Nat.mul_comm (v % _)]
  congr 1
  omega

theorem getLsbD_putFld {n : Nat} (b : BitVec n) {hi lo : Nat} (v j : Nat) (h : lo ≤ hi) :
    (putFld b hi lo v).getLsbD j = if lo ≤ j ∧ j ≤ hi then decide (j < n) && v.testBit (j - lo) else b.getLsbD j := by
  have inside : b.getLsbD j = (decide (j < n) && b.toNat.testBit j) := by
    rw [← BitVec.getLsbD_ofNat, BitVec.ofNat_toNat, BitVec.setWidth_eq]
  rw [putFld_eq b v h, BitVec.getLsbD_ofNat, Nat.testBit_two_pow_mul_add _ (Nat.mod_lt _ (Nat.two_pow_pos lo)), inside]
  by_cases below : j < lo
  · rw [if_pos below, if_neg (by omega), Nat.testBit_mod_two_pow, decide_eq_true below, Bool.true_and]
  · rw [if_neg below, Nat.testBit_two_pow_mul_add _ (Nat.mod_lt _ (Nat.two_pow_pos _))]
    by_cases field : j ≤ hi
    · rw [if_pos (by omega), if_pos (by omega), Nat.testBit_mod_two_pow, decide_eq_true (show j - lo < hi + 1 - lo by omega), Bool.true_and]
    · rw [if_neg (by omega), if_neg (by omega), Nat.testBit_div_two_pow, show j - lo - (hi + 1 - lo) + (hi + 1) = j by omega]

/-- A field reads as what was put into it. -/
theorem fld_putFld_same {n : Nat} (b : BitVec n) {hi lo : Nat} (v : Nat) (h : lo ≤ hi) (hn : hi < n) :
    fld (putFld b hi lo v) hi lo = v % 2 ^ (hi + 1 - lo) := by
  refine Nat.eq_of_testBit_eq fun j => ?_
  rw [testBit_fld, getLsbD_putFld b v _ h, Nat.testBit_mod_two_pow]
  by_cases hj : j < hi + 1 - lo
  · simp [hj, show lo + j ≤ hi by omega, show lo + j < n by omega]
  · simp [hj]

/-- A field that lies apart from another reads as before. -/
theorem fld_putFld_apart {n : Nat} (b : BitVec n) {hi lo hi' lo' : Nat} (v : Nat) (h : lo ≤ hi) (apart : hi' < lo ∨ hi < lo') :
    fld (putFld b hi lo v) hi' lo' = fld b hi' lo' := by
  refine Nat.eq_of_testBit_eq fun j => ?_
  rw [testBit_fld, testBit_fld, getLsbD_putFld b v _ h]
  by_cases hj : j < hi' + 1 - lo'
  · rw [if_neg (by omega)]
  · simp [hj]

/-! ### Tables -/

/-- What an erasure does not name is found as before. -/
theorem Table.find_erase_of_ne {α : Type} {x y : Nat} {v : α} (h : y ≠ x) : ∀ {t : Table α}, t.find y = some v → (t.erase x).find y = some v
  | [], f => nomatch f
  | (a, w) :: r, f => by
    unfold Table.find at f
    unfold Table.erase
    by_cases hx : x = a
    · rw [if_pos hx]
      rw [if_neg (hx ▸ h)] at f
      split at f
      · cases f
      · exact f
    · rw [if_neg hx]
      split
      · exact f
      · unfold Table.find
        split at f
        · rwa [if_pos (by assumption)]
        · rw [if_neg (by assumption)]
          split at f
          · cases f
          · rw [if_neg (by assumption)]
            exact find_erase_of_ne h f

/-! ### Requests at the channels (R259) -/

/-- The channel that holds an address (R253), as `burstsOf` counts them. -/
def chanOf (a : Nat) : Fin 160 := ⟨8 * (a / 4096 % 20) + a % 4096 / 512, by omega⟩

/-- The lines of a stack in which a channel holds bursts of a range in the half h of its blocks. -/
def burstLines (ch : Fin 160) (a len h : Nat) : Nat × Nat :=
  let p := 2 * (ch.val % 8) + h
  if (a + len - 1) / 256 < p then (0, 0) else linesOf (ch.val / 8) (divUp (a / 256 - p) 16) (((a + len - 1) / 256 - p) / 16)

/-- A channel holds bursts of a range where a half of its blocks does. -/
theorem burstsOf_isSome (ch : Fin 160) {a len : Nat} (h : 0 < len) :
    (burstsOf ch a len).isSome ↔ (burstLines ch a len 0).2 ≠ 0 ∨ (burstLines ch a len 1).2 ≠ 0 := by
  unfold burstsOf
  rw [if_neg (Nat.ne_of_gt h)]
  show (if (burstLines ch a len 0).2 + (burstLines ch a len 1).2 = 0 then none else some _).isSome = true ↔ _
  split
  · exact ⟨nofun, fun _ => by omega⟩
  · exact ⟨fun _ => by omega, fun _ => rfl⟩

/-- A line of the stack itself is the first of its lines from there on. -/
theorem linesOf_self (lo hi : Nat) (h : lo ≤ hi) : (linesOf (lo % 20) lo hi).2 ≠ 0 := by
  unfold linesOf
  dsimp only
  rw [if_neg (by omega)]
  omega

/-- The half of its block in which an address lies holds bursts of a range from there on. -/
theorem burstLines_chanOf {a len : Nat} (h : 0 < len) : (burstLines (chanOf a) a len (a / 256 % 2)).2 ≠ 0 := by
  have half : 2 * ((chanOf a).val % 8) + a / 256 % 2 = a / 256 % 16 := by simp only [chanOf]; omega
  have stack : (chanOf a).val / 8 = a / 4096 % 20 := by simp only [chanOf]; omega
  have line : divUp (a / 256 - a / 256 % 16) 16 = a / 4096 := by unfold divUp; omega
  unfold burstLines
  dsimp only
  rw [half, stack, line, if_neg (by omega)]
  exact linesOf_self _ _ (by omega)

/-- The channel that holds the first address of a range has bursts of it. -/
theorem burstsOf_chanOf {a len : Nat} (h : 0 < len) : (burstsOf (chanOf a) a len).isSome := by
  rw [burstsOf_isSome _ h]
  have here := burstLines_chanOf (a := a) h
  rcases Nat.mod_two_eq_zero_or_one (a / 256) with half | half
  · exact .inl (half ▸ here)
  · exact .inr (half ▸ here)

/-- Something waits where the queue of some channel holds it. -/
theorem State.memWaits_eq_true {s : State} {who : MemWho} : s.memWaits who = true ↔ ∃ c : Fin 160, ∃ q ∈ s.memsys.chans[c].reqs, q.who = who := by
  simp only [State.memWaits, List.any_eq_true, Vector.mem_toList_iff, Vector.mem_iff_getElem, beq_iff_eq]
  exact ⟨fun ⟨_, ⟨i, hi, e⟩, hq⟩ => ⟨⟨i, hi⟩, e ▸ hq⟩, fun ⟨c, hq⟩ => ⟨_, ⟨c, c.isLt, rfl⟩, hq⟩⟩

/-- With no channel fenced, a request of a range waits (R259). -/
theorem State.memWaits_post {s : State} (who : MemWho) (cls : MemClass) (write : Bool) (a : Nat) {len : Nat} (channels : s.hub.fenceCh = 0) (h : 0 < len) :
    (s.post who cls write a len).memWaits who = true := by
  obtain ⟨⟨first, last, left⟩, bursts⟩ := Option.isSome_iff_exists.1 (burstsOf_chanOf (a := a) h)
  refine State.memWaits_eq_true.2 ⟨chanOf a, ⟨who, cls, write, a, len, first, last, left⟩, ?_, rfl⟩
  have posted : (s.post who cls write a len).memsys.chans[chanOf a] = s.memsys.chans[chanOf a].post (chanOf a) who cls write a len := by
    simp [State.post, State.chFenced, channels]
  rw [posted, Chan.post, bursts]
  simp

/-- What other requests' withdrawal leaves waiting. -/
theorem State.memWaits_unpost {s : State} {p : MemWho → Bool} {who : MemWho} (h : p who = false) (w : s.memWaits who = true) :
    (s.unpost p).memWaits who = true := by
  obtain ⟨c, q, hq, rfl⟩ := State.memWaits_eq_true.1 w
  refine State.memWaits_eq_true.2 ⟨c, q, ?_, rfl⟩
  simpa [State.unpost, h] using hq

/-! ### Descriptors stay as they are while records and events are written -/

@[simp] theorem State.ask_descs (s : State) (who : XlWho) (sp : HostSpace) (va len : Nat) (write : Bool) : (s.ask who sp va len write).descs = s.descs := by
  unfold State.ask
  split
  · rfl
  · dsimp only
    refine List.foldlRecOn _ _ (motive := fun t : State => t.descs = s.descs) rfl fun t h a _ => ?_
    split
    · exact h
    · exact h

@[simp] theorem State.tracePut_descs (s : State) (b : BitVec 256) : (s.tracePut b).descs = s.descs := rfl
@[simp] theorem State.traceDrop_descs (s : State) : s.traceDrop.descs = s.descs := rfl

@[simp] theorem State.traceDue_descs (s : State) : s.traceDue.descs = s.descs := by
  unfold State.traceDue
  split
  · split
    · rfl
    · dsimp only
      split <;> rfl
  · rfl

@[simp] theorem State.traceAny_descs (s : State) (r : TraceRec) : (s.traceAny r).descs = s.descs := by
  unfold State.traceAny
  split
  · rfl
  · dsimp only
    split
    · simp
    · split <;> simp

@[simp] theorem State.trace_descs (s : State) (level lv : Nat) (r : TraceRec) : (s.trace level lv r).descs = s.descs := by
  unfold State.trace
  split <;> simp

@[simp] theorem State.writeDb_descs (s : State) (cx : Nat) : (s.writeDb cx).descs = s.descs := by
  unfold State.writeDb
  split
  · rfl
  · dsimp only
    split
    · rfl
    · split <;> simp

@[simp] theorem State.endReqs_descs (s : State) (cx : Nat) (gone : XlReq → Bool) : (s.endReqs cx gone).descs = s.descs := by
  unfold State.endReqs
  dsimp only
  split <;> simp

@[simp] theorem State.interrupt_descs (s : State) (cx : Nat) : (s.interrupt cx).descs = s.descs := by
  unfold State.interrupt
  split
  · rfl
  · dsimp only
    split
    · rfl
    · split <;> simp

@[simp] theorem State.putEvent_descs (s : State) (cx : Nat) (bits : BitVec 256) : (s.putEvent cx bits).descs = s.descs := by
  unfold State.putEvent
  split
  · rfl
  · dsimp only
    split
    · simp
    · split
      · split <;> simp
      · split <;> simp

@[simp] theorem State.raise_descs (s : State) (cx code about p0 p1 : Nat) : (s.raise cx code about p0 p1).descs = s.descs := State.putEvent_descs _ _ _

@[simp] theorem State.dropRecord_descs (s : State) (cx : Nat) : (s.dropRecord cx).descs = s.descs := by
  unfold State.dropRecord
  split
  · rfl
  · split <;> simp

/-! ### No KEY_FREE comes up -/

theorem State.noFrees.of_descs {s t : State} (n : s.noFrees) (h : t.descs = s.descs) (k : t.keys.doomed = s.keys.doomed) : t.noFrees := by
  unfold State.noFrees
  rw [h, k]
  exact n

/-- It is enough that what is new among the descriptors is an old operation, further on in work that is no KEY_FREE. -/
theorem State.noFrees.of_forall {s t : State} (n : s.noFrees) (k : t.keys.doomed = s.keys.doomed)
    (h : ∀ p ∈ t.descs, p ∈ s.descs ∨ (∃ q ∈ s.descs, p.2.opcode = q.2.opcode) ∧ ∀ l, p.2.prog ≠ .keyFree l) : t.noFrees := by
  refine ⟨fun p hp => ?_, k.trans n.2⟩
  obtain old | ⟨⟨q, hq, e⟩, free⟩ := h p hp
  · exact n.1 p old
  · exact ⟨e ▸ (n.1 q hq).1, free⟩

/-- Rings written, and no KEY_FREE that comes up with them. -/
structure QuietFrame (s t : State) : Prop where
  ring : RingFrame s t
  frees : s.noFrees → t.noFrees

namespace QuietFrame

theorem trans {s t u : State} (h : QuietFrame s t) (k : QuietFrame t u) : QuietFrame s u := ⟨h.ring.trans k.ring, k.frees ∘ h.frees⟩

theorem of_descs {s t : State} (h : RingFrame s t) (e : t.descs = s.descs) : QuietFrame s t :=
  ⟨h, fun n => n.of_descs e (congrArg Keys.doomed h.keys)⟩

theorem updCtx (s : State) (cx : Nat) (f : Ctx → Ctx) : QuietFrame s (s.updCtx cx f) := of_descs (.updCtx _ _ _) rfl
theorem writeDb (s : State) (cx : Nat) : QuietFrame s (s.writeDb cx) := of_descs (.writeDb _ _) (State.writeDb_descs _ _)
theorem endReqs (s : State) (cx : Nat) (gone : XlReq → Bool) : QuietFrame s (s.endReqs cx gone) := of_descs (.endReqs _ _ _) (State.endReqs_descs _ _ _)
theorem trace (s : State) (level lv : Nat) (r : TraceRec) : QuietFrame s (s.trace level lv r) := of_descs (.trace _ _ _ _) (State.trace_descs _ _ _ _)
theorem dropRecord (s : State) (cx : Nat) : QuietFrame s (s.dropRecord cx) := of_descs (.dropRecord _ _) (State.dropRecord_descs _ _)
theorem raise (s : State) (cx code about p0 p1 : Nat) : QuietFrame s (s.raise cx code about p0 p1) :=
  of_descs (.raise _ _ _ _ _ _) (State.raise_descs _ _ _ _ _ _)

/-- A record that is out changes what an ABORT waits for, and no KEY_FREE. -/
theorem recordOut (s : State) (d : DRef) : QuietFrame s (s.recordOut d) := by
  refine ⟨.recordOut s d, fun n => n.of_forall rfl fun p hp => ?_⟩
  obtain ⟨q, hq, rfl⟩ := List.mem_map.1 hp
  split
  · exact .inr ⟨⟨q, hq, rfl⟩, nofun⟩
  · exact .inl hq

theorem putRecord (s : State) (cx : Nat) (h : Held) : QuietFrame s (s.putRecord cx h) := by
  unfold State.putRecord
  split
  · exact recordOut _ _
  · dsimp only
    split
    · exact updCtx _ _ _
    · split
      · exact (dropRecord _ _).trans (recordOut _ _)
      · split
        · have put (u : State) (e : RingFrame s u) (k : u.descs = s.descs) : QuietFrame s ((u.writeDb cx).tally 0xC01 (some cx)) :=
            (of_descs e k).trans ((writeDb _ _).trans (of_descs (.tally _ _ _ _) rfl))
          exact (put _ ((RingFrame.hostPut _ _ _ _ _).trans (.updCtx _ _ _)) rfl).trans (recordOut _ _)
        · exact (updCtx _ _ _).trans (of_descs (.ask _ _ _ _ _ _) (State.ask_descs _ _ _ _ _ _))

end QuietFrame

/-- A descriptor is admitted no longer, and the uses of keys that it counted end. -/
def State.dropDesc (s : State) (d : DRef) (uses : List Nat) : State :=
  ({ s with descs := s.descs.filter fun (p : DRef × Adm) => p.1 != d } : State).useDec uses

/-- What a completion does: nothing where there is none to make, else the descriptor goes and rings are written. -/
theorem State.complete1_cases (s : State) (d : DRef) (st : Status) (result tag : Nat) (ev : Events) :
    s.complete1 d st result tag ev = s ∨ ∃ uses, QuietFrame (s.dropDesc d uses) (s.complete1 d st result tag ev) := by
  unfold State.complete1
  split
  · exact .inl rfl
  · rename_i a _
    split
    · exact .inl rfl
    · refine .inr ⟨a.uses, ?_⟩
      dsimp only
      have out (u : State) (cx lv l : Nat) (f : Ctx → Ctx) (q : XlReq → Bool) (r : TraceRec) (h : Held) :
          QuietFrame u ((((u.updCtx cx f).endReqs cx q).trace lv l r).putRecord cx h) :=
        (QuietFrame.updCtx _ _ _).trans ((QuietFrame.endReqs _ _ _).trans ((QuietFrame.trace _ _ _ _).trans (QuietFrame.putRecord _ _ _)))
      split
      · exact (out (s.dropDesc d a.uses) _ _ _ _ _ _ _).trans (QuietFrame.raise _ _ _ _ _ _)
      · exact out (s.dropDesc d a.uses) _ _ _ _ _ _ _

/-- With no KEY_FREE admitted or aborted nothing goes into EVICTING (R68). -/
theorem State.evictNamed_of_noFrees {s : State} (n : s.noFrees) : s.evictNamed = s := by
  obtain ⟨free, doomed⟩ := n
  unfold State.evictNamed
  dsimp only
  rw [List.flatMap_eq_nil_iff.2 fun p hp => ?_, doomed]
  · simp only [List.filter_nil, List.append_nil, List.foldl_nil]
    rw [doomed, List.filter_nil, ← doomed]
  · split
    · exact absurd (by assumption) ((free p hp).2 _)
    · rfl

/-! ### What the release of an entry writes (R68) -/

@[simp] theorem State.freeEntry_keys_a (s : State) (j gen : Nat) : (s.freeEntry j gen).keys.a = s.keys.a.set j (putFld 0 78 64 gen) := rfl
@[simp] theorem State.freeEntry_keys_b (s : State) (j gen : Nat) : (s.freeEntry j gen).keys.b = s.keys.b.set j (putFld 0 78 64 gen) := rfl
@[simp] theorem State.freeEntry_keys_dir (s : State) (j gen : Nat) : (s.freeEntry j gen).keys.dir = s.keys.dir.erase j := rfl
@[simp] theorem State.freeEntry_keys_doomed (s : State) (j gen : Nat) : (s.freeEntry j gen).keys.doomed = s.keys.doomed := rfl

/-- The write of another entry's slot waits on. -/
theorem State.memWaits_freeEntry {s : State} {i j : Nat} (h : i ≠ j) (gen : Nat) (w : s.memWaits (.slot i) = true) :
    (s.freeEntry j gen).memWaits (.slot i) = true := by
  have other : (MemWho.slot i == MemWho.slot j) = false := by simpa using h
  have rebuild : (s.dropRebuild j).memWaits (.slot i) = true := State.memWaits_unpost rfl w
  have staging : ((s.dropRebuild j).dropStaging j).memWaits (.slot i) = true := State.memWaits_unpost rfl rebuild
  have slot : (((s.dropRebuild j).dropStaging j).unpost (· == .slot j)).memWaits (.slot i) = true := State.memWaits_unpost other staging
  exact slot

/-! ### What releases and completions leave of an entry that is not EVICTING -/

/-- An entry with its directory slot and the write of it stays as it is, with module memory; no descriptor and no KEY_FREE comes up. -/
structure LiveFrame (i : Nat) (s t : State) : Prop where
  entry : t.entry i = s.entry i
  copy : t.keys.b.get 0 i = s.keys.b.get 0 i
  slot : ∀ x, s.keys.dir.find i = some x → t.keys.dir.find i = some x
  waits : s.memWaits (.slot i) = true → t.memWaits (.slot i) = true
  mem : t.mem = s.mem
  names : ∀ d ∈ t.descs.map (·.1), d ∈ s.descs.map (·.1)
  frees : s.noFrees → t.noFrees

namespace LiveFrame
variable {i : Nat}

theorem refl (s : State) : LiveFrame i s s := ⟨rfl, rfl, fun _ => id, id, rfl, fun _ => id, id⟩

theorem trans {s t u : State} (h : LiveFrame i s t) (k : LiveFrame i t u) : LiveFrame i s u where
  entry := k.entry.trans h.entry
  copy := k.copy.trans h.copy
  slot x f := k.slot x (h.slot x f)
  waits := k.waits ∘ h.waits
  mem := k.mem.trans h.mem
  names d m := h.names d (k.names d m)
  frees := k.frees ∘ h.frees

theorem adm {s t : State} (h : LiveFrame i s t) {d : DRef} (gone : s.adm d = none) : t.adm d = none :=
  (State.adm_eq_none t d).2 fun m => (State.adm_eq_none s d).1 gone (h.names d m)

theorem of_quiet {s t : State} (h : QuietFrame s t) : LiveFrame i s t where
  entry := by rw [State.entry, State.entry, h.ring.keys]
  copy := by rw [h.ring.keys]
  slot x f := by rwa [h.ring.keys]
  waits w := by rwa [State.memWaits, h.ring.memsys]
  mem := h.ring.mem
  names d m := h.ring.names ▸ m
  frees := h.frees

theorem dropDesc (s : State) (d : DRef) (uses : List Nat) : LiveFrame i s (s.dropDesc d uses) where
  entry := rfl
  copy := rfl
  slot _ := id
  waits := id
  mem := rfl
  names _ m := (List.filter_sublist.map _).subset m
  frees n := n.of_forall rfl fun _ hp => .inl (List.mem_of_mem_filter hp)

theorem complete1 (s : State) (d : DRef) (st : Status) (result tag : Nat) (ev : Events) : LiveFrame i s (s.complete1 d st result tag ev) := by
  obtain same | ⟨uses, quiet⟩ := s.complete1_cases d st result tag ev
  · rw [same]
    exact refl s
  · exact (dropDesc s d uses).trans (of_quiet quiet)

/-- The release of another entry. -/
theorem freeEntry (s : State) {j : Nat} (h : i ≠ j) (gen : Nat) : LiveFrame i s (s.freeEntry j gen) where
  entry := by rw [State.entry, State.freeEntry_keys_a, Table.get_set, if_neg h, State.entry]
  copy := by rw [State.freeEntry_keys_b, Table.get_set, if_neg h]
  slot x f := by
    rw [State.freeEntry_keys_dir]
    exact Table.find_erase_of_ne h f
  waits := State.memWaits_freeEntry h gen
  mem := State.freeEntry_mem s j gen
  names d m := by rwa [State.freeEntry_descs] at m
  frees n := n.of_descs (State.freeEntry_descs s j gen) (State.freeEntry_keys_doomed s j gen)

/-- Entries of a list, in which this one does not stand, are released together. -/
theorem freeEntries (l : List Nat) (s : State) (h : i ∉ l) : LiveFrame i s (l.foldl (fun s j => s.freeEntry j (Krt.gen (s.entry j))) s) :=
  List.foldlRecOn l _ (motive := LiveFrame i s) (refl s) fun t k _ hj => k.trans (freeEntry t (ne_of_mem_of_not_mem hj h).symm _)

end LiveFrame

/-- What is freed with an EVICTING entry is EVICTING (R68). -/
theorem State.evicting_of_mem_groupOf {s : State} {i j : Nat} (h : Krt.state (s.entry j) = stEVICTING) (m : i ∈ s.groupOf j) :
    Krt.state (s.entry i) = stEVICTING := by
  unfold State.groupOf at m
  split at m
  · rwa [List.mem_singleton.1 m]
  · simpa using (List.mem_filter.1 m).2

namespace LiveFrame
variable {i : Nat}

theorem releaseKeys {s : State} (live : Krt.state (s.entry i) ≠ stEVICTING) : LiveFrame i s s.releaseKeys := by
  unfold State.releaseKeys
  refine List.foldlRecOn _ _ (motive := LiveFrame i s) (refl s) fun t h j _ => ?_
  split
  · rename_i evicting
    dsimp only
    split
    · refine h.trans (freeEntries _ t fun m => live ?_)
      rw [← h.entry]
      exact State.evicting_of_mem_groupOf evicting m
    · exact h
  · exact h

theorem settle : ∀ (n : Nat) {s : State}, s.noFrees → Krt.state (s.entry i) ≠ stEVICTING → LiveFrame i s (State.settle n s)
  | 0, s, free, live => by
    rw [State.settle, State.evictNamed_of_noFrees free]
    exact releaseKeys live
  | n + 1, s, free, live => by
    rw [State.settle, State.evictNamed_of_noFrees free]
    have released := releaseKeys live
    split
    · rename_i d r _
      have done := released.trans (complete1 _ d .ok r 0 {})
      exact done.trans (settle n (done.frees free) (done.entry ▸ live))
    · exact released

/-- What follows a completion. -/
theorem completed {s : State} (free : s.noFrees) (live : Krt.state (s.entry i) ≠ stEVICTING) (d : DRef) (st : Status) (result tag : Nat) (ev : Events) :
    LiveFrame i (s.complete1 d st result tag ev) (s.complete d st result tag ev) := by
  have done := complete1 (i := i) s d st result tag ev
  exact settle _ (done.frees free) (done.entry ▸ live)

/-- A completion, with all that follows it. -/
theorem complete {s : State} (free : s.noFrees) (live : Krt.state (s.entry i) ≠ stEVICTING) (d : DRef) (st : Status) (result tag : Nat) (ev : Events) :
    LiveFrame i s (s.complete d st result tag ev) :=
  (complete1 s d st result tag ev).trans (completed free live d st result tag ev)

end LiveFrame

/-! ### A key load's progress -/

theorem State.adm_updAdm (s : State) (d : DRef) (f : Adm → Adm) : (s.updAdm d f).adm d = (s.adm d).map f := by
  have same : ((fun p : DRef × Adm => p.1 == d) ∘ fun (e, a) => if e = d then (e, f a) else (e, a)) = fun p => p.1 == d := by
    funext ⟨e, a⟩
    dsimp only [Function.comp]
    split <;> rfl
  simp only [State.adm, State.updAdm, List.find?_map, same, Option.map_map]
  cases found : s.descs.find? fun p => p.1 == d with
  | none => rfl
  | some p =>
    have name : p.1 = d := by simpa using List.find?_some found
    simp [name]

/-- A load's descriptor keeps everything but its progress. -/
theorem State.adm_updLoad {s : State} {d : DRef} {a : Adm} {k : KeyLoad} (h : s.adm d = some { a with prog := .keyLoad k }) (f : KeyLoad → KeyLoad) :
    (s.updLoad d f).adm d = some { a with prog := .keyLoad (f k) } := by
  rw [State.updLoad, State.adm_updAdm, h]
  rfl

theorem State.noFrees.updLoad {s : State} (n : s.noFrees) (d : DRef) (f : KeyLoad → KeyLoad) : (s.updLoad d f).noFrees := by
  refine n.of_forall rfl fun p hp => ?_
  obtain ⟨q, hq, rfl⟩ := List.mem_map.1 hp
  dsimp only
  split
  · split
    · exact .inr ⟨⟨q, hq, rfl⟩, nofun⟩
    · exact .inl hq
  · exact .inl hq

@[simp] theorem State.keyPlace_hub (s : State) (n first base : Nat) (bs : List Byte) : (s.keyPlace n first base bs).hub = s.hub := rfl
@[simp] theorem State.keyPlace_entry (s : State) (n first base : Nat) (bs : List Byte) (i : Nat) : (s.keyPlace n first base bs).entry i = s.entry i := rfl

theorem State.entry_setEntry (s : State) (i : Nat) (e : Krt.Entry) : (s.setEntry i e).entry i = e := by
  simp [State.entry, State.setEntry, Table.get_set]

/-- The state after a copy that ends with the header's digest: the stripes hold the key, and the entry is VERIFYING (R60 steps 5 and 6). -/
def State.keyCopied (s : State) (d : DRef) (k : KeyLoad) (data : List Byte) : State :=
  ((s.keyPlace k.units k.first k.base data).setEntry k.idx (Krt.setState (s.entry k.idx) stVERIFYING)).updLoad d fun k => { k with copyDone := true }

/-- A copy of a key that is no LUTSET and ends with the header's digest adds no cause. -/
theorem State.keyCopyDone_of_digest {s : State} {d : DRef} {a : Adm} {k : KeyLoad} (adm : s.adm d = some { a with prog := .keyLoad k })
    (started : k.started = true) (copying : k.copyDone = false) (shed : s.shed < 5) (channels : s.hub.fenceCh = 0) (served : s.memWaits (.keyLoad d) = false)
    (rebuilding : s.rebuilding k.idx = false) (kind : a.keyBody.kind ≠ kindLUT) (family : (Family.ofId (fld k.header 55 48)).isSome)
    (xl : s.xlOk (s.spaceOf d.ctx) (a.keyBody.addr + 512) (fld k.header 127 64) false = true)
    (digest : (Crypto.digest (s.hostRead (s.spaceOf d.ctx) (a.keyBody.addr + 512) (fld k.header 127 64))).toNat = fld k.header 831 320) :
    s.keyCopyDone d none = (s.keyCopied d k (s.hostRead (s.spaceOf d.ctx) (a.keyBody.addr + 512) (fld k.header 127 64))).loadSettle d := by
  obtain ⟨f, family⟩ := Option.isSome_iff_exists.1 family
  have body : Adm.keyBody { a with prog := .keyLoad k } = a.keyBody := rfl
  have shed : ¬ s.shed ≥ 5 := Nat.not_le.2 shed
  unfold State.keyCopyDone
  simp [adm, body, started, copying, shed, rebuilding, served, xl, digest, family, kind, channels, causesOf, State.keyCopied]

/-- A load of a key whose copy and verification have ended without a cause is finished (R60 step 7). -/
theorem State.loadSettle_of_done {s : State} {d : DRef} {a : Adm} {k : KeyLoad} (adm : s.adm d = some { a with prog := .keyLoad k })
    (copied : k.copyDone = true) (verified : k.sigDone = true) (causes : k.causes = []) (rebuilding : s.rebuilding k.idx = false) :
    s.loadSettle d = s.loadFinish d { a with prog := .keyLoad k } k := by
  have ok : Status.pick [] = .ok := rfl
  simp [State.loadSettle, adm, rebuilding, causes, ok, copied, verified]

/-- The entry of a loaded key (R56, R60 step 7). -/
def Krt.loaded (e : Krt.Entry) (header : BitVec 4096) : Krt.Entry :=
  putFld (putFld (Krt.setState e stRESIDENT) 255 128 (fld header 447 320)) 37 37 0

/-- The directory slot of a loaded key that is not pinned (R65). -/
def KeyLoad.slot (k : KeyLoad) (d : DRef) (kind gen : Nat) : DirSlot where
  header := k.header
  first := k.first
  base := k.base
  length := k.units
  owner := d.ctx.val
  gen
  kind
  pin := false
  evicting := false
  key := (k.qx, k.qy)

/-- An entry in both copies and its directory slot, whose write goes to the channels. -/
def State.install (s : State) (i : Nat) (e : Krt.Entry) (x : DirSlot) : State :=
  ({ s.setEntry i e with keys := { (s.setEntry i e).keys with dir := s.keys.dir.set i x } } : State).writeSlot i

/-- A load that pins nothing installs its entry and its slot, and completes. -/
theorem State.loadFinish_of_unpinned (s : State) (d : DRef) {a : Adm} (k : KeyLoad) (unpinned : a.keyBody.pin = false) :
    s.loadFinish d a k = (s.install k.idx (Krt.loaded (s.entry k.idx) k.header) (k.slot d a.keyBody.kind (Krt.gen (s.entry k.idx)))).complete d .ok
      (if a.keyBody.allocates then mkHandle k.idx (Krt.gen (Krt.loaded (s.entry k.idx) k.header)) else 0) := by
  unfold State.loadFinish
  simp only [unpinned, boolNat]
  rfl

/-! ### The entry and the slot of a loaded key -/

theorem Krt.state_loaded (e : Krt.Entry) (header : BitVec 4096) : Krt.state (Krt.loaded e header) = stRESIDENT := by
  rw [Krt.state, Krt.loaded, fld_putFld_apart _ _ (by omega) (by omega), fld_putFld_apart _ _ (by omega) (by omega), Krt.setState,
    fld_putFld_same _ _ (by omega) (by omega)]
  rfl

/-- The fingerprint is bytes 0 to 15 of the digest (R56). -/
theorem Krt.fp_loaded (e : Krt.Entry) (header : BitVec 4096) : Krt.fp (Krt.loaded e header) = fld header 447 320 := by
  rw [Krt.fp, Krt.loaded, fld_putFld_apart _ _ (by omega) (by omega), fld_putFld_same _ _ (by omega) (by omega)]
  exact Nat.mod_eq_of_lt (Nat.mod_lt _ (Nat.two_pow_pos _))

/-- A field that is neither the fingerprint, the state nor the pin stays as the load's start wrote it. -/
theorem fld_loaded (e : Krt.Entry) (header : BitVec 4096) {hi lo : Nat} (low : hi < 128) (high : 40 < lo) : fld (Krt.loaded e header) hi lo = fld e hi lo := by
  rw [Krt.loaded, fld_putFld_apart _ _ (by omega) (by omega), fld_putFld_apart _ _ (by omega) (by omega), Krt.setState,
    fld_putFld_apart _ _ (by omega) (by omega)]

theorem fld_setState (e : Krt.Entry) (st : Nat) {hi lo : Nat} (high : 40 < lo) : fld (Krt.setState e st) hi lo = fld e hi lo :=
  fld_putFld_apart _ _ (by omega) (by omega)

theorem State.install_eq (s : State) (i : Nat) (e : Krt.Entry) (x : DirSlot) : s.install i e x =
    ({ s.setEntry i e with keys := { (s.setEntry i e).keys with dir := s.keys.dir.set i x } } : State).post (.slot i) .lc true (s.slotAddr i) 1024 := by
  unfold State.install State.writeSlot
  rw [if_pos (by simp)]
  rfl

theorem State.install_keys (s : State) (i : Nat) (e : Krt.Entry) (x : DirSlot) :
    (s.install i e x).keys = { (s.setEntry i e).keys with dir := s.keys.dir.set i x } := by
  rw [State.install_eq, State.post_frame]

theorem State.install_entry (s : State) (i : Nat) (e : Krt.Entry) (x : DirSlot) : (s.install i e x).entry i = e := by
  rw [State.entry, State.install_keys]
  exact State.entry_setEntry s i e

theorem State.install_copy (s : State) (i : Nat) (e : Krt.Entry) (x : DirSlot) : (s.install i e x).keys.b.get 0 i = e := by
  rw [State.install_keys]
  simp [State.setEntry, Table.get_set]

theorem State.install_slot (s : State) (i : Nat) (e : Krt.Entry) (x : DirSlot) : (s.install i e x).keys.dir.find i = some x := by
  rw [State.install_keys]
  exact Table.find_set_same _ _ _

/-- With no channel fenced the write of the slot waits (R65, R259). -/
theorem State.install_waits {s : State} (channels : s.hub.fenceCh = 0) (i : Nat) (e : Krt.Entry) (x : DirSlot) :
    (s.install i e x).memWaits (.slot i) = true := by
  rw [State.install_eq]
  exact State.memWaits_post _ _ _ _ channels (by decide)

theorem State.install_mem (s : State) (i : Nat) (e : Krt.Entry) (x : DirSlot) : (s.install i e x).mem = s.mem := by
  rw [State.install_eq, State.post_frame, State.setEntry_mem]

theorem State.install_env (s : State) (i : Nat) (e : Krt.Entry) (x : DirSlot) : (s.install i e x).env = s.env := by
  rw [State.install_eq, State.post_frame, State.setEntry_env]

theorem State.noFrees.install {s : State} (n : s.noFrees) (i : Nat) (e : Krt.Entry) (x : DirSlot) : (s.install i e x).noFrees := by
  refine n.of_descs ?_ ?_
  · rw [State.install_eq, State.post_frame, State.setEntry_descs]
  · rw [State.install_keys, State.setEntry]

/-! ### The state after the copy -/

theorem State.keyCopied_entry (s : State) (d : DRef) (k : KeyLoad) (data : List Byte) :
    (s.keyCopied d k data).entry k.idx = Krt.setState (s.entry k.idx) stVERIFYING := State.entry_setEntry _ _ _

theorem State.keyCopied_adm {s : State} {d : DRef} {a : Adm} {k : KeyLoad} (adm : s.adm d = some { a with prog := .keyLoad k }) (data : List Byte) :
    (s.keyCopied d k data).adm d = some { a with prog := .keyLoad { k with copyDone := true } } := State.adm_updLoad adm _

theorem State.noFrees.keyCopied {s : State} (n : s.noFrees) (d : DRef) (k : KeyLoad) (data : List Byte) : (s.keyCopied d k data).noFrees :=
  (n.of_descs rfl rfl).updLoad d _

/-- Work of keys leaves of an entry what its effect leaves. -/
theorem LiveFrame.work {i : Nat} (s : State) (f : State → State) : LiveFrame i (f s) (s.work f) :=
  ⟨rfl, rfl, fun _ => id, id, rfl, fun _ => id, id⟩

/-- A load of a key whose signature has verified installs the key's entry and slot as its copy ends, and completes (R60 step 7). -/
theorem State.loadSettle_keyCopied {s : State} {d : DRef} {a : Adm} {k : KeyLoad} (data : List Byte) (adm : s.adm d = some { a with prog := .keyLoad k })
    (verified : k.sigDone = true) (causes : k.causes = []) (rebuilding : s.rebuilding k.idx = false) (unpinned : a.keyBody.pin = false) : ∃ result,
    (s.keyCopied d k data).loadSettle d = ((s.keyCopied d k data).install k.idx (Krt.loaded (Krt.setState (s.entry k.idx) stVERIFYING) k.header)
      (k.slot d a.keyBody.kind (Krt.gen (s.entry k.idx)))).complete d .ok result := by
  have gen : Krt.gen (Krt.setState (s.entry k.idx) stVERIFYING) = Krt.gen (s.entry k.idx) := fld_setState _ _ (by omega)
  have settled := State.loadSettle_of_done (State.keyCopied_adm adm data) rfl verified causes rebuilding
  rw [State.loadFinish_of_unpinned (a := { a with prog := .keyLoad { k with copyDone := true } }) _ _ _ unpinned, State.keyCopied_entry, gen] at settled
  exact ⟨_, settled⟩

/-! ### The end of the load (R60 step 7) -/

/-- Settles O37: the copy's end installs the key's entry and its directory slot and completes the load; what the completion releases is EVICTING, which
a RESIDENT entry is not. -/
theorem keyLoadEndsResident : Obligations.KeyLoadEndsResident := by
  unfold Obligations.KeyLoadEndsResident
  intro s d a k data adm started copying verified causes shed channels run free served rebuilding kind unpinned _ family xl read digest
  subst read
  have copied := State.keyCopyDone_of_digest adm started copying shed channels served rebuilding kind family xl digest
  obtain ⟨result, finished⟩ := State.loadSettle_keyCopied _ adm verified causes rebuilding unpinned
  rw [finished] at copied
  generalize s.hostRead (s.spaceOf d.ctx) (a.keyBody.addr + 512) (fld k.header 127 64) = data at *
  set e := Krt.loaded (Krt.setState (s.entry k.idx) stVERIFYING) k.header with loaded
  set x := k.slot d a.keyBody.kind (Krt.gen (s.entry k.idx))
  set u := (s.keyCopied d k data).install k.idx e x with installed
  have entry : u.entry k.idx = e := State.install_entry _ _ _ _
  have resident : Krt.state e = stRESIDENT := Krt.state_loaded _ _
  have live : Krt.state (u.entry k.idx) ≠ stEVICTING := by rw [entry, resident]; decide
  have free : u.noFrees := (free.keyCopied d k data).install _ _ _
  have run : u.env.serac.st ≠ .stopped := by rwa [installed, State.install_env]
  have work : LiveFrame k.idx (u.complete d .ok result) (s.work fun s => s.keyCopyDone d none) := by
    rw [← copied]
    exact LiveFrame.work s fun s => s.keyCopyDone d none
  have gone : (u.complete d .ok result).adm d = none :=
    (LiveFrame.completed free live d .ok result 0 {}).adm (State.complete1_adm run d .ok result 0 {})
  have kept := (LiveFrame.complete free live d .ok result 0 {}).trans work
  have field {hi lo : Nat} (low : hi < 128) (high : 40 < lo) : fld e hi lo = fld (s.entry k.idx) hi lo := by
    rw [loaded, fld_loaded _ _ low high, fld_setState _ _ high]
  refine ⟨_, rfl, work.adm gone, ?_, ?_, ?_, ?_, ?_, x, kept.slot x (State.install_slot _ _ _ _), rfl, rfl, rfl, kept.waits ?_, ?_⟩
  · rw [kept.entry, entry, resident]
  · rw [kept.entry, entry, loaded, Krt.fp_loaded]
  · rw [kept.copy, kept.entry, entry]
    exact State.install_copy _ _ _ _
  · rw [kept.entry, entry, Krt.gen, field (by omega) (by omega), Krt.gen]
  · rw [kept.entry, entry, Krt.owner, field (by omega) (by omega), Krt.owner]
  · exact State.install_waits (s := s.keyCopied d k data) channels _ _ _
  · rw [kept.mem, installed, State.install_mem]
    rfl

end Sys2Proof.Machine

/-! SUPPORT. What commands leave of the pins: work of engines and memory leaves management as it was, management writes leave the pins' board as it
was, and what moves the board leaves the sample of JCOMPAT_N (R346); and the fields of a packed word. -/

namespace Sys2Proof.Machine

/-! ### Fields of a packed word -/

/-- The first field of a packed word stands in its lowest bits. -/
theorem testBit_packNat_head {w j : Nat} (h : j < w) (v : Nat) (r : List (Nat × Nat)) : (packNat ((w, v) :: r)).testBit j = v.testBit j := by
  rw [packNat, Nat.add_comm, Nat.testBit_two_pow_mul_add _ (Nat.mod_lt _ (Nat.two_pow_pos w)), if_pos h, Nat.testBit_mod_two_pow,
    decide_eq_true h, Bool.true_and]

/-- The other fields of a packed word stand above its first. -/
theorem testBit_packNat_tail (w v j : Nat) (r : List (Nat × Nat)) : (packNat ((w, v) :: r)).testBit (w + j) = (packNat r).testBit j := by
  rw [packNat, Nat.add_comm, Nat.testBit_two_pow_mul_add _ (Nat.mod_lt _ (Nat.two_pow_pos w)), if_neg (by omega), Nat.add_sub_cancel_left]

theorem boolNat_testBit_zero (b : Bool) : (boolNat b).testBit 0 = b := by cases b <;> rfl

/-! ### Jasil compatibility (R346, Table 11-9) -/

theorem State.jasilEff_iff (s : State) (c : Ctx) :
    s.jasilEff c = true ↔ c.f 134 133 = 2 ∨ (c.f 134 133 = 0 ∧ s.env.board.jcompatN = false) := by
  simp [State.jasilEff]

/-- jasil_eff is bit 2 of ctx_status. -/
theorem State.ctxStatus_jasilEff {s : State} {cx : Nat} {c : Ctx} (found : s.ctxs.find cx = some c) :
    (s.ctxStatus cx).getLsbD 2 = s.jasilEff c := by
  simp only [State.ctxStatus, found, BitVec.getLsbD_ofNat, show 2 < 32 by decide, decide_true, Bool.true_and]
  exact (testBit_packNat_tail 2 _ 0 _).trans ((testBit_packNat_head (by decide) _ _).trans (boolNat_testBit_zero _))

/-! ### Operations that leave management as it was -/

@[simp] theorem State.advance_env (s : State) (t : Nat) : (s.advance t).env = s.env := by rw [State.advance_frame]

@[simp] theorem State.logFault_env (s : State) (r : FaultRec) (action : Nat) : (s.logFault r action).env = s.env := (RingFrame.trace _ _ _ _).env

theorem State.logFaults_env (action : Nat) : ∀ (l : List FaultRec) (s : State), (l.foldl (fun (s : State) r => s.logFault r action) s).env = s.env
  | [], _ => rfl
  | r :: l, s => (logFaults_env action l _).trans (s.logFault_env r action)

theorem State.tgCtrlWrite_env (s : State) (c : Fin 160) (v : Nat) : (s.tgCtrlWrite c v).env = s.env := by
  unfold State.tgCtrlWrite
  split
  · rfl
  · exact State.updChan_env _ _ _

theorem State.tgRunEnd_env (s : State) (c : Fin 160) (o : TgObs) : (s.tgRunEnd c o).env = s.env := by
  unfold State.tgRunEnd
  dsimp only
  split <;> rfl

theorem State.ctrSelWrite_env (s : State) (n v : Nat) : (s.ctrSelWrite n v).env = s.env := by
  unfold State.ctrSelWrite
  split <;> rfl

theorem State.obsGlobalWrite_env (s : State) (v : Nat) : (s.obsGlobalWrite v).env = s.env := by
  unfold State.obsGlobalWrite
  dsimp only
  split <;> split <;> rfl

theorem State.traceCtrlWrite_env (s : State) (v : Nat) : (s.traceCtrlWrite v).env = s.env := by
  unfold State.traceCtrlWrite
  split
  · rfl
  · have dropped (p : Prop) [Decidable p] := RingFrame.ite (c := p)
      ((RingFrame.traceDue s).trans ((RingFrame.withObs _ { s.traceDue.obs with due := none }).trans (RingFrame.traceDrop _))) (RingFrame.traceDue s)
    exact (RingFrame.ite (((dropped _).trans (RingFrame.withObs _ _)).trans (RingFrame.traceHold _)) ((dropped _).trans (RingFrame.withObs _ _))).env

@[simp] theorem State.thermal_env (s : State) (sensor : Nat) (v : BitVec 16) (old new : Nat) : (s.thermal sensor v old new).env = s.env := by
  unfold State.thermal
  split <;> rfl

/-! ### Operations that leave the board as it was -/

theorem State.ite_board {s a b : State} {p : Prop} [Decidable p] (ha : a.env.board = s.env.board) (hb : b.env.board = s.env.board) :
    (if p then a else b).env.board = s.env.board := by
  split <;> assumption

theorem State.advance_board (s : State) (t : Nat) : (s.advance t).env.board = s.env.board := congrArg Env.board (s.advance_env t)

theorem State.partCfgWrite_board (s : State) (v : Nat) : (s.partCfgWrite v).env.board = s.env.board := ite_board rfl rfl
theorem State.keyPoolWrite_board (s : State) (v : Nat) : (s.keyPoolWrite v).env.board = s.env.board := ite_board rfl rfl

theorem State.statePoolWrite_board (s : State) (v : Nat) : (s.statePoolWrite v).env.board = s.env.board :=
  ite_board rfl (ite_board (ite_board rfl (ite_board rfl rfl)) rfl)

theorem State.goWrite_board (s : State) : s.goWrite.env.board = s.env.board := ite_board rfl (ite_board rfl rfl)

theorem State.shareWrite_board (s : State) (v : Nat) : (s.shareWrite v).env.board = s.env.board := by
  unfold State.shareWrite
  split <;> exact ite_board rfl (ite_board rfl rfl)

theorem State.powerCapWrite_board (s : State) (v : Nat) : (s.powerCapWrite v).env.board = s.env.board := by
  unfold State.powerCapWrite
  split <;> exact ite_board rfl (ite_board rfl rfl)

theorem State.fwEnd_board (s : State) (cmd slot version result : Nat) : (s.fwEnd cmd slot version result).env.board = s.env.board := rfl

theorem State.fwStage_board (s : State) (slot : BitVec 8) (micro : Bool) : (s.fwStage slot micro).env.board = s.env.board :=
  ite_board rfl (ite_board rfl rfl)

theorem State.fwStageDone_board (s : State) (result : Fin 6) (img : ImageInfo) : (s.fwStageDone result img).env.board = s.env.board := by
  unfold State.fwStageDone
  split
  · rfl
  · refine ite_board rfl ?_
    rw [State.fwEnd_board]
    exact ite_board rfl (ite_board rfl rfl)

theorem State.fwActivate_board (s : State) : s.fwActivate.env.board = s.env.board := ite_board rfl (ite_board rfl rfl)
theorem State.fwCommit_board (s : State) : s.fwCommit.env.board = s.env.board := ite_board rfl (ite_board rfl rfl)

theorem State.fwCtrlWrite_board (s : State) (v : Nat) : (s.fwCtrlWrite v).env.board = s.env.board := by
  unfold State.fwCtrlWrite
  refine ite_board rfl ?_
  split
  · exact State.fwStage_board _ _ _
  · exact State.fwActivate_board _
  · exact State.fwCommit_board _
  · rfl

theorem State.regWrite_board (s : State) (r : Reg) (v : Nat) : (s.regWrite r v).env.board = s.env.board := by
  cases r
  case partCfg => exact s.partCfgWrite_board v
  case statePool => exact s.statePoolWrite_board v
  case keyPool => exact s.keyPoolWrite_board v
  case powerCap => exact s.powerCapWrite_board v
  case go => exact ite_board s.goWrite_board rfl
  case fwCtrl => exact s.fwCtrlWrite_board v
  case classShare => exact s.shareWrite_board v
  case tgCtrl c => exact congrArg Env.board (s.tgCtrlWrite_env c v)
  case obsGlobal => exact congrArg Env.board (s.obsGlobalWrite_env v)
  case traceCtrl => exact congrArg Env.board (s.traceCtrlWrite_env v)
  case ctrSel n => exact congrArg Env.board (s.ctrSelWrite_env n v)
  case setupErr | ctx0Desc | ctx0Ctrl | fwAddr | fwStatus | tgSeed | tgRange | tgStatus | snapAddr | traceBase | traceCb => exact ite_board rfl rfl
  all_goals rfl

theorem State.windowWrite_board (s : State) (off : Nat) (wide : Bool) (v : Nat) (allow : Reg → Bool) :
    (s.windowWrite off wide v allow).env.board = s.env.board := by
  unfold State.windowWrite
  split
  · exact ite_board (State.regWrite_board _ _ _) rfl
  · rfl

theorem State.regClear_board (s : State) (r : Reg) : (s.regClear r).env.board = s.env.board := by
  cases r
  case temp | volt | curr | power | dieRate | shed => exact State.updPower_env_board _ _
  case eccCe | eccUe | eccLast | tgCodec | tgErrs => exact congrArg Env.board (State.updChan_env _ _ _)
  all_goals rfl

theorem State.ctx0Create_board (s : State) (readable : Bool) : (s.ctx0Create readable).env.board = s.env.board :=
  ite_board rfl (ite_board rfl rfl)

theorem State.setLevel_board (s : State) (lvl : Nat) : (s.setLevel lvl).env.board = s.env.board := ite_board rfl rfl

theorem State.shedRise_board (s : State) (lvl : Nat) : (s.shedRise lvl).env.board = s.env.board := by
  unfold State.shedRise
  refine ite_board rfl ?_
  split
  · rfl
  · exact ite_board ((State.setLevel_board _ _).trans (s.advance_board _)) (s.advance_board _)

theorem State.shedFall_board (s : State) : s.shedFall.env.board = s.env.board := by
  unfold State.shedFall
  dsimp only
  split
  · rfl
  · exact ite_board rfl ((State.setLevel_board _ _).trans ((State.updShed_env_board _ _).trans (s.advance_board _)))

theorem State.capDie_board (s : State) (k : Fin 4) : (s.capDie k).env.board = s.env.board := ite_board rfl rfl

theorem State.voltSample_board (s : State) (i : Nat) (v : BitVec 16) : (s.voltSample i v).env.board = s.env.board := ite_board rfl rfl
theorem State.currSample_board (s : State) (i : Nat) (v : BitVec 16) : (s.currSample i v).env.board = s.env.board := ite_board rfl rfl

theorem State.overcurrent_board (s : State) : s.overcurrent.env.board = s.env.board := by
  unfold State.overcurrent
  split
  · rfl
  · exact (State.updPower_env_board _ _).trans (s.advance_board _)

theorem State.voltageDone_board (s : State) (k : Fin 4) : (s.voltageDone k).env.board = s.env.board := by
  unfold State.voltageDone
  split <;> rfl

theorem State.paceRates_board (s : State) (rates : List (BitVec 16)) : (s.paceRates rates).env.board = s.env.board := State.updPower_env_board _ _
theorem State.enforceCap_board (s : State) : s.enforceCap.env.board = s.env.board := State.updPower_env_board _ _
theorem State.setVoltages_board (s : State) : s.setVoltages.env.board = s.env.board := State.updPower_env_board _ _

theorem State.govern_board (s : State) (rates : List (BitVec 16)) : (s.govern rates).env.board = s.env.board := by
  unfold State.govern
  refine ite_board rfl ?_
  dsimp only
  rw [State.work_env, State.setVoltages_board, State.enforceCap_board, State.paceRates_board, State.updPower_env_board, State.advance_env]

theorem Env.measures_board : ∀ (l : List (Fin 8 × BitVec 512)) (e : Env),
    (l.foldl (fun (e : Env) (p : Fin 8 × BitVec 512) => e.measure p.1 p.2) e).board = e.board
  | [], _ => rfl
  | p :: l, e => measures_board l (e.measure p.1 p.2)

theorem State.measureAll_board (s : State) (regs : List (Fin 8)) (digests : List (BitVec 512)) :
    (s.measureAll regs digests).env.board = s.env.board := Env.measures_board _ _

theorem State.setSrc_board (s : State) (st : SrcState) : (s.setSrc st).env.board = s.env.board := State.updSerac_env_board _ _

theorem State.flushMoraine_board (s : State) : s.flushMoraine.env.board = s.env.board := rfl

/-! ### Operations that move the board and leave the sample of JCOMPAT_N -/

theorem State.ite_jcompatN {s a b : State} {p : Prop} [Decidable p] (ha : a.env.board.jcompatN = s.env.board.jcompatN)
    (hb : b.env.board.jcompatN = s.env.board.jcompatN) : (if p then a else b).env.board.jcompatN = s.env.board.jcompatN := by
  split <;> assumption

theorem State.failBoot_jcompatN (s : State) (code : Nat) : (s.failBoot code).env.board.jcompatN = s.env.board.jcompatN := rfl
theorem State.hubHalt_jcompatN (s : State) (mech : Nat) : (s.hubHalt mech).env.board.jcompatN = s.env.board.jcompatN := rfl
theorem State.setAlert_jcompatN (s : State) : s.setAlert.env.board.jcompatN = s.env.board.jcompatN := rfl

theorem State.hubStop_jcompatN (s : State) (mech : Nat) : (s.hubStop mech).env.board.jcompatN = s.env.board.jcompatN :=
  ite_jcompatN rfl ((State.hubHalt_jcompatN _ _).trans (by rw [State.logFault_env]))

theorem State.pairThird_jcompatN (s : State) : s.pairThird.env.board.jcompatN = s.env.board.jcompatN :=
  ite_jcompatN rfl ((State.hubHalt_jcompatN _ _).trans (by rw [State.updTest_env, State.logFaults_env]))

theorem State.windowRead_jcompatN (s : State) (off : Nat) (wide : Bool) : (s.windowRead off wide).env.board.jcompatN = s.env.board.jcompatN := by
  unfold State.windowRead
  split
  · exact ite_jcompatN ((congrArg Board.jcompatN (State.regClear_board _ _)).trans rfl) rfl
  · rfl

theorem State.stackTemp_jcompatN (s : State) (stk : Fin 20) (v : BitVec 16) : (s.stackTemp stk v).env.board.jcompatN = s.env.board.jcompatN := by
  unfold State.stackTemp
  dsimp only
  rw [State.setAlert_jcompatN, State.capDie_board, State.thermal_env]
  exact ite_jcompatN rfl rfl

theorem State.dieTemp_jcompatN (s : State) (k : Fin 4) (sensor : Nat) : (s.dieTemp k sensor).env.board.jcompatN = s.env.board.jcompatN := by
  unfold State.dieTemp
  dsimp only
  rw [State.setAlert_jcompatN, State.capDie_board, State.thermal_env]
  rfl

theorem State.tempSample_jcompatN (s : State) (i : Fin 64) (v : BitVec 16) : (s.tempSample i v).env.board.jcompatN = s.env.board.jcompatN := by
  unfold State.tempSample
  dsimp only
  split
  · exact State.stackTemp_jcompatN _ _ _
  · exact ite_jcompatN (State.dieTemp_jcompatN _ _ _) rfl

theorem State.sensorSample_jcompatN (s : State) (k : SensorKind) (i : Fin 64) (v : BitVec 16) :
    (s.sensorSample k i v).env.board.jcompatN = s.env.board.jcompatN := by
  unfold State.sensorSample
  refine ite_jcompatN rfl ?_
  cases k with
  | temp => exact s.tempSample_jcompatN i v
  | volt => exact congrArg Board.jcompatN (s.voltSample_board i v)
  | curr => exact congrArg Board.jcompatN (s.currSample_board i v)

/-! ### Start-up and the strap -/

/-- Start-up samples the strap. -/
theorem State.boot_jcompatN (s : State) (j : Bool) (sel addr : BitVec 2) (ok : BanksOk) (now : Nat) :
    (s.boot j sel addr ok now).env.board.jcompatN = j := by
  unfold State.boot
  extract_lets sampled flash chosen recorded
  have strap : recorded.env.board.jcompatN = j := rfl
  split
  · rw [apply_ite State.env, State.fallBackRecord, State.record_env, ite_self, strap]
  · exact strap

theorem State.checkBank_jcompatN (s : State) : s.checkBank.env.board.jcompatN = s.env.board.jcompatN := ite_jcompatN rfl rfl

/-- A trial bank is abandoned with the strap as it was sampled: MOD_RST_N stays deasserted (R403). -/
theorem State.abandonTrial_jcompatN (s : State) (result : Nat) : (s.abandonTrial result).env.board.jcompatN = s.env.board.jcompatN := by
  unfold State.abandonTrial
  extract_lets board serac
  rw [State.checkBank_jcompatN, State.fallBackRecord, State.record_env, State.boot_jcompatN]

theorem State.testStage_jcompatN (s : State) (failed : List (BitVec 16)) : (s.testStage failed).env.board.jcompatN = s.env.board.jcompatN :=
  ite_jcompatN rfl (ite_jcompatN rfl rfl)

theorem State.stagePass_jcompatN (s : State) (digests : List (BitVec 512)) (failed : List (BitVec 16)) :
    (s.stagePass digests failed).env.board.jcompatN = s.env.board.jcompatN := by
  unfold State.stagePass
  split
  · rw [State.setSrc_board, State.measureAll_board]
  · rw [State.setSrc_board, State.measureAll_board]
  · rw [State.setSrc_board]
  · rw [State.setSrc_board]
  · rw [State.testStage_jcompatN, State.measureAll_board]
  · exact ite_jcompatN (by rw [State.setSrc_board, State.updSetup_env_board, State.work_env]) rfl
  · rfl

theorem State.stageEnd_jcompatN (s : State) (r : StageResult) : (s.stageEnd r).env.board.jcompatN = s.env.board.jcompatN := by
  unfold State.stageEnd
  refine ite_jcompatN rfl ?_
  cases r with
  | pass digests failed => exact s.stagePass_jcompatN digests failed
  | fail code => exact ite_jcompatN rfl (ite_jcompatN (s.abandonTrial_jcompatN _) (s.failBoot_jcompatN _))

/-- With PG_48V asserted the end of a reset samples the strap, also where a trial bank fails its check and the committed bank boots. -/
theorem execResetDeassert_jcompatN {s : State} (held : s.env.board.running = false) (powered : s.env.board.pg48v = true) (j : Bool) (b m : BitVec 2)
    (ok : BanksOk) : ∃ t, execResetDeassert j b m ok s = .next t ∧ t.env.board.jcompatN = j := by
  refine ⟨_, rfl, ?_⟩
  rw [if_neg (by simp [held, powered])]
  dsimp only
  split
  · rw [State.abandonTrial_jcompatN, State.boot_jcompatN]
  · rw [State.checkBank_jcompatN, State.boot_jcompatN]

/-! ### No command but a reset or the loss of power moves the sample (R346) -/

/-- A command answers a next state with the sample of JCOMPAT_N as it was. -/
def HoldsStrap (s : State) (o : Out) : Prop := ∃ t, o = .next t ∧ t.env.board.jcompatN = s.env.board.jcompatN

namespace HoldsStrap

theorem next {s t : State} (h : t.env.board.jcompatN = s.env.board.jcompatN) : HoldsStrap s (.next t) := ⟨t, rfl, h⟩
theorem board {s t : State} (h : t.env.board = s.env.board) : HoldsStrap s (.next t) := next (congrArg Board.jcompatN h)
theorem env {s t : State} (h : t.env = s.env) : HoldsStrap s (.next t) := board (congrArg Env.board h)
theorem work (s : State) (f : State → State) : HoldsStrap s (.next (s.work f)) := env (s.work_env f)

theorem resetDeassert {s : State} (running : s.env.board.running = true) (j : Bool) (b m : BitVec 2) (ok : BanksOk) :
    HoldsStrap s (execResetDeassert j b m ok s) := by
  rw [execResetDeassert, if_pos (by simp [running])]
  exact next rfl

theorem trialBootTimeout (s : State) : HoldsStrap s (execTrialBootTimeout s) :=
  next (State.ite_jcompatN ((State.abandonTrial_jcompatN _ _).trans (by rw [State.advance_env])) rfl)

theorem pg48vDeassert (s : State) : HoldsStrap s (execPg48vDeassert s) := next (State.ite_jcompatN rfl rfl)

theorem refclkLockLoss (c : RefClk) (s : State) : HoldsStrap s (execRefclkLockLoss c s) := by
  refine next ?_
  split <;> rfl

theorem smbWindowRead (off : SmbOff) (wide : Bool) (s : State) : HoldsStrap s (execSmbWindowRead off wide s) :=
  next (State.ite_jcompatN (s.windowRead_jcompatN _ _) (State.ite_jcompatN rfl rfl))

theorem smbWindowWrite (off : SmbOff) (wide : Bool) (v : BitVec 64) (s : State) : HoldsStrap s (execSmbWindowWrite off wide v s) :=
  board (State.ite_board (s.windowWrite_board _ _ _ _) rfl)

theorem registerWrite (off : BitVec 32) (wide : Bool) (v : BitVec 64) (s : State) : HoldsStrap s (execRegisterWrite off wide v s) := by
  have written := s.windowWrite_board off.toNat wide v.toNat fun _ => true
  exact board (State.ite_board (State.ite_board ((State.ctx0Create_board _ _).trans written) written) rfl)

theorem rcFieldRead (off : BitVec 32) (wide : Bool) (s : State) : HoldsStrap s (execRcFieldRead off wide s) :=
  next (State.ite_jcompatN (s.windowRead_jcompatN _ _) rfl)

theorem descriptorAdmit (cx : Fin 4096) (ring : Fin 4) (looks : List (Fin 131072 × KrtLook)) (differ : Bool) (s : State) :
    HoldsStrap s (execDescriptorAdmit cx ring looks differ s) :=
  next (State.ite_jcompatN (State.ite_jcompatN (s.hubStop_jcompatN _) rfl) rfl)

theorem engineCommandEnd (cl : Fin 64) (q : Fin 7) (i : Nat) (fail : List CheckFail) (differ : Bool) (s : State) :
    HoldsStrap s (execEngineCommandEnd cl q i fail differ s) :=
  next (State.ite_jcompatN (State.ite_jcompatN (s.hubStop_jcompatN _) rfl) rfl)

theorem latentTestEnd (u : BitVec 16) (r : TestResult) (s : State) : HoldsStrap s (execLatentTestEnd u r s) :=
  next (State.ite_jcompatN (State.ite_jcompatN (s.hubStop_jcompatN _) rfl) rfl)

theorem watchdogStall (u : BitVec 16) (s : State) : HoldsStrap s (execWatchdogStall u s) :=
  next (State.ite_jcompatN (State.pairThird_jcompatN _) rfl)

theorem moraineFlashWrite (s : State) : HoldsStrap s (execMoraineFlashWrite s) := board (State.ite_board rfl s.flushMoraine_board)

theorem managementImageSet (ok : Bool) (s : State) : HoldsStrap s (execManagementImageSet ok s) :=
  next (State.ite_jcompatN (State.ite_jcompatN rfl (s.failBoot_jcompatN _)) rfl)

theorem ite_obs (s : State) (p : Prop) [Decidable p] (o : Obs) : HoldsStrap s (.next (if p then { s with obs := o } else s)) :=
  board (State.ite_board rfl rfl)

end HoldsStrap

/-- While MOD_RST_N is deasserted every command but its assertion and the loss of power holds the sample of the strap: the commands of pins, start-up,
management and sensors by what they do, every other one as work of engines, rings, keys and memory. -/
theorem exec_holdsStrap {s : State} (running : s.env.board.running = true) (c : Instr) (noReset : c ≠ .moduleReset) (noLoss : c ≠ .powerOff) :
    HoldsStrap s (exec c s) := by
  cases c
  case moduleReset => exact absurd rfl noReset
  case powerOff => exact absurd rfl noLoss
  case resetDeassert j b m ok => exact HoldsStrap.resetDeassert running j b m ok
  case startupStageEnd r => exact .next (s.stageEnd_jcompatN r)
  case trialBootTimeout => exact .trialBootTimeout s
  case pg48vAssert => exact .next rfl
  case pg48vDeassert => exact .pg48vDeassert s
  case refclkLockLoss k => exact .refclkLockLoss k s
  case managementImageSet ok => exact .managementImageSet ok s
  case smbWindowRead off wide => exact .smbWindowRead off wide s
  case smbWindowWrite off wide v => exact .smbWindowWrite off wide v s
  case registerWrite off wide v => exact .registerWrite off wide v s
  case rcFieldRead off wide => exact .rcFieldRead off wide s
  case go => exact .board s.goWrite_board
  case hubStatePoolWrite v => exact .board (s.statePoolWrite_board _)
  case hubPartCfgWrite v => exact .board (s.partCfgWrite_board _)
  case ctx0Create readable => exact .board (s.ctx0Create_board _)
  case memClassShareWrite v => exact .board (s.shareWrite_board _)
  case memTgStart ch v => exact .env (s.tgCtrlWrite_env _ _)
  case memTgStop ch => exact .board (State.ite_board rfl rfl)
  case memTgRunEnd ch obs => exact .env (s.tgRunEnd_env _ _)
  case powerCapWrite v => exact .board (s.powerCapWrite_board _)
  case fwStage slot micro => exact .board (s.fwStage_board _ _)
  case fwStageDone result img => exact .board (s.fwStageDone_board _ _)
  case fwActivate => exact .board s.fwActivate_board
  case fwCommit => exact .board s.fwCommit_board
  case ctrSelWrite n v => exact .env (s.ctrSelWrite_env _ _)
  case freezeSet => exact .ite_obs s _ _
  case freezeClear => exact .ite_obs s _ _
  case snap => exact .ite_obs s _ _
  case traceCtrlWrite v => exact .env (s.traceCtrlWrite_env _)
  case stackTempSample stk t => exact .next (s.sensorSample_jcompatN _ _ _)
  case sensorSample k n v => exact .next (s.sensorSample_jcompatN _ _ _)
  case governorDecision rates => exact .board (s.govern_board rates)
  case voltageChangeDone die => exact .board (s.voltageDone_board die)
  case overcurrentTrip => exact .board s.overcurrent_board
  case shedRise lvl => exact .board (s.shedRise_board _)
  case shedFall => exact .board s.shedFall_board
  case descriptorAdmit cx ring looks differ => exact .descriptorAdmit cx ring looks differ s
  case engineCommandEnd cl q n fail differ => exact .engineCommandEnd cl q n fail differ s
  case latentTestEnd u r => exact .latentTestEnd u r s
  case watchdogStall u => exact .watchdogStall u s
  case moraineFlashWrite => exact .moraineFlashWrite s
  all_goals exact .work s _

/-- Settles O10: the end of a reset samples the strap, no other command of a running module moves the sample, and jasil_eff of ctx_status is what
jcompat and the sample give. -/
theorem jcompatStrapSampledAndHeld : Obligations.JcompatStrapSampledAndHeld := by
  unfold Obligations.JcompatStrapSampledAndHeld
  refine ⟨fun s j b m ok held powered => execResetDeassert_jcompatN held powered j b m ok, fun c s t ran running noReset noLoss => ?_,
    fun s cx c found => ?_⟩
  · obtain ⟨u, answer, kept⟩ := exec_holdsStrap running c noReset noLoss
    rw [ran] at answer
    cases answer
    exact kept
  · rw [State.ctxStatus_jasilEff found]
    exact s.jasilEff_iff c

end Sys2Proof.Machine

/-! SUPPORT. What a hub stop leaves behind: the writes into the trace buffer that go with its record, the operations that never move SRC_STATE, and what a
stopped module no longer does (R372, R405). -/

namespace Sys2Proof.Machine

/-! ### Trace writes host memory and measurements alone -/

/-- Nothing but host physical memory and the registers of chapter 17 differs. -/
def TraceFrame (s t : State) : Prop := ∃ h o, t = { s with host := h, obs := o }

namespace TraceFrame

theorem refl (s : State) : TraceFrame s s := ⟨_, _, rfl⟩

theorem trans {s t u : State} : TraceFrame s t → TraceFrame t u → TraceFrame s u := by
  rintro ⟨_, _, rfl⟩ ⟨h, o, rfl⟩
  exact ⟨h, o, rfl⟩

theorem ite {s a b : State} {p : Prop} [Decidable p] (ha : TraceFrame s a) (hb : TraceFrame s b) : TraceFrame s (if p then a else b) := by
  split <;> assumption

theorem withObs (s : State) (o : Obs) : TraceFrame s { s with obs := o } := ⟨_, _, rfl⟩
theorem tracePut (s : State) (b : BitVec 256) : TraceFrame s (s.tracePut b) := ⟨_, _, rfl⟩
theorem traceDrop (s : State) : TraceFrame s s.traceDrop := ⟨_, _, rfl⟩

theorem traceDue (s : State) : TraceFrame s s.traceDue := by
  unfold State.traceDue
  split
  · exact ite (refl s) (ite ((withObs s _).trans (tracePut _ _)) ((withObs s _).trans (traceDrop _)))
  · exact refl s

theorem traceAny (s : State) (r : TraceRec) : TraceFrame s (s.traceAny r) :=
  ite (refl s) ((traceDue s).trans (ite (traceDrop _) (ite ((withObs _ _).trans (tracePut _ _)) (tracePut _ _))))

theorem trace (s : State) (level lv : Nat) (r : TraceRec) : TraceFrame s (s.trace level lv r) := ite (refl s) (traceAny s r)

variable {s t : State} (h : TraceFrame s t)
include h

theorem ctxs : t.ctxs = s.ctxs := by obtain ⟨_, _, rfl⟩ := h; rfl
theorem descs : t.descs = s.descs := by obtain ⟨_, _, rfl⟩ := h; rfl
theorem sent : t.sent = s.sent := by obtain ⟨_, _, rfl⟩ := h; rfl

end TraceFrame

theorem State.logFault_ctxs (s : State) (r : FaultRec) (action : Nat) : (s.logFault r action).ctxs = s.ctxs := (TraceFrame.trace _ _ _ _).ctxs
theorem State.logFault_descs (s : State) (r : FaultRec) (action : Nat) : (s.logFault r action).descs = s.descs := (TraceFrame.trace _ _ _ _).descs
theorem State.logFault_sent (s : State) (r : FaultRec) (action : Nat) : (s.logFault r action).sent = s.sent := (TraceFrame.trace _ _ _ _).sent

/-! ### The hub stops (R405) -/

/-- What a stop of the hub is: SRC_STATE 9, the management bus alert, one link error message, and descriptors and contexts as they were. -/
structure HubStops (s t : State) : Prop where
  st : t.env.serac.st = .stopped
  alert : t.env.board.smbAlert = true
  sent : t.sent = .linkError :: s.sent
  descs : t.descs = s.descs
  ctxs : t.ctxs = s.ctxs

theorem State.hubHalt_stops (s : State) (mech : Nat) : HubStops s (s.hubHalt mech) := ⟨rfl, rfl, rfl, rfl, rfl⟩

/-- A difference of the hub's pair stops it wherever the pair runs (R372). -/
theorem State.hubStop_stops {s : State} (runs : s.env.serac.hubRuns = true) (mech : Nat) : HubStops s (s.hubStop mech) := by
  have halt := State.hubHalt_stops (s.logFault (s.faultRec (unitNo 0x0E 0) mech {}) (if mech = 0x12 then 4 else 1)) mech
  rw [State.hubStop, if_neg (by simp [runs])]
  exact ⟨halt.st, halt.alert, halt.sent.trans (by rw [State.logFault_sent]), halt.descs.trans (State.logFault_descs _ _ _),
    halt.ctxs.trans (State.logFault_ctxs _ _ _)⟩

theorem State.hubRuns_of_ready {s : State} (ready : s.ready = true) : s.env.serac.hubRuns = true := by
  have st : s.env.serac.st = .ready := by simpa [State.ready] using ready
  simp [Serac.hubRuns, st]

/-- A difference seen at the admission of a descriptor that waits stops the hub, and the descriptor is not admitted. -/
theorem execDescriptorAdmit_differ_stops {s : State} {cx : Fin 4096} {c : Ctx} {w : Waiting} (ready : s.ready = true) (found : s.ctxs.find cx = some c)
    (waits : w ∈ c.waiting) (looks : List (Fin 131072 × KrtLook)) :
    ∃ t, execDescriptorAdmit cx w.ring looks true s = .next t ∧ HubStops s t := by
  refine ⟨_, rfl, ?_⟩
  have due : (s.ready && ((s.ctxs.find cx).map fun (c : Ctx) => c.waiting.any (·.ring == w.ring)).getD false) = true := by
    simpa [ready, found] using ⟨w, waits, rfl⟩
  rw [if_pos rfl, if_pos due]
  exact State.hubStop_stops (State.hubRuns_of_ready ready) _

/-! ### Operations that leave the start-up registers as they were -/

theorem State.ite_serac {s a b : State} {p : Prop} [Decidable p] (ha : a.env.serac = s.env.serac) (hb : b.env.serac = s.env.serac) :
    (if p then a else b).env.serac = s.env.serac := by
  split <;> assumption

theorem State.shareWrite_serac (s : State) (v : Nat) : (s.shareWrite v).env.serac = s.env.serac := by
  unfold State.shareWrite
  split <;> exact ite_serac rfl (ite_serac rfl rfl)

theorem State.powerCapWrite_serac (s : State) (v : Nat) : (s.powerCapWrite v).env.serac = s.env.serac := by
  unfold State.powerCapWrite
  split <;> exact ite_serac rfl (ite_serac rfl rfl)

theorem State.regClear_serac (s : State) (r : Reg) : (s.regClear r).env.serac = s.env.serac := by
  cases r <;> rfl

theorem State.windowRead_serac (s : State) (off : Nat) (wide : Bool) : (s.windowRead off wide).env.serac = s.env.serac := by
  unfold State.windowRead
  split
  · exact ite_serac (State.regClear_serac _ _) rfl
  · rfl

theorem State.setLevel_serac (s : State) (lvl : Nat) : (s.setLevel lvl).env.serac = s.env.serac := ite_serac rfl rfl

theorem State.advance_serac (s : State) (t : Nat) : (s.advance t).env.serac = s.env.serac := congrArg Env.serac (s.advance_env t)

theorem State.shedRise_serac (s : State) (lvl : Nat) : (s.shedRise lvl).env.serac = s.env.serac := by
  unfold State.shedRise
  refine ite_serac rfl ?_
  split
  · rfl
  · exact ite_serac ((State.setLevel_serac _ _).trans (s.advance_serac _)) (s.advance_serac _)

theorem State.shedFall_serac (s : State) : s.shedFall.env.serac = s.env.serac := by
  unfold State.shedFall
  dsimp only
  split
  · rfl
  · exact ite_serac rfl ((State.setLevel_serac _ _).trans (s.advance_serac _))

theorem State.capDie_serac (s : State) (k : Fin 4) : (s.capDie k).env.serac = s.env.serac := ite_serac rfl rfl

/-- What a thermal step does beside its own registers: its record, a lower ceiling of the die, the alert pin. -/
theorem State.thermalStep_serac (s : State) (sensor : Nat) (v : BitVec 16) (old new : Nat) (k : Fin 4) :
    (((s.thermal sensor v old new).capDie k).setAlert).env.serac = s.env.serac :=
  (State.capDie_serac _ _).trans (congrArg Env.serac (State.thermal_env _ _ _ _ _))

theorem State.stackTemp_serac (s : State) (stk : Fin 20) (v : BitVec 16) : (s.stackTemp stk v).env.serac = s.env.serac :=
  (State.thermalStep_serac _ _ _ _ _ _).trans (ite_serac rfl rfl)

theorem State.dieTemp_serac (s : State) (k : Fin 4) (sensor : Nat) : (s.dieTemp k sensor).env.serac = s.env.serac :=
  State.thermalStep_serac _ _ _ _ _ _

theorem State.tempSample_serac (s : State) (i : Fin 64) (v : BitVec 16) : (s.tempSample i v).env.serac = s.env.serac := by
  unfold State.tempSample
  dsimp only
  split
  · exact State.stackTemp_serac _ _ _
  · exact ite_serac (State.dieTemp_serac _ _ _) rfl

theorem State.sensorSample_serac (s : State) (k : SensorKind) (i : Fin 64) (v : BitVec 16) : (s.sensorSample k i v).env.serac = s.env.serac := by
  refine ite_serac rfl ?_
  cases k with
  | temp => exact s.tempSample_serac i v
  | volt => exact ite_serac rfl rfl
  | curr => exact ite_serac rfl rfl

theorem State.overcurrent_serac (s : State) : s.overcurrent.env.serac = s.env.serac := by
  unfold State.overcurrent
  split
  · rfl
  · exact s.advance_serac _

theorem State.voltageDone_serac (s : State) (k : Fin 4) : (s.voltageDone k).env.serac = s.env.serac := by
  unfold State.voltageDone
  split <;> rfl

theorem State.govern_serac (s : State) (rates : List (BitVec 16)) : (s.govern rates).env.serac = s.env.serac := by
  refine ite_serac rfl ?_
  dsimp only
  rw [State.work_env, State.setVoltages, State.updPower_env_serac, State.enforceCap, State.updPower_env_serac, State.paceRates,
    State.updPower_env_serac, State.updPower_env_serac, State.advance_serac]

/-! ### What a stopped module no longer does -/

section
variable {s : State} (stopped : s.env.serac.st = .stopped)
include stopped

theorem State.ready_of_stopped : s.ready = false := by simp [State.ready, stopped]
theorem State.setupOpen_of_stopped : s.setupOpen = false := by simp [State.setupOpen, stopped]
theorem State.setupOrReady_of_stopped : s.setupOrReady = false := by simp [State.setupOrReady, Serac.is, stopped]
theorem State.hubRuns_of_stopped : s.env.serac.hubRuns = false := by simp [Serac.hubRuns, stopped]

/-! Set-up and firmware commands act up to READY alone (Table 18-2, R402). -/

theorem State.partCfgWrite_of_stopped (v : Nat) : s.partCfgWrite v = s := if_neg (by simp [setupOpen_of_stopped stopped])
theorem State.keyPoolWrite_of_stopped (v : Nat) : s.keyPoolWrite v = s := if_neg (by simp [setupOpen_of_stopped stopped])
theorem State.goWrite_of_stopped : s.goWrite = s := if_pos (by simp [setupOpen_of_stopped stopped])
theorem State.fwStage_of_stopped (slot : BitVec 8) (micro : Bool) : s.fwStage slot micro = s := if_pos (by simp [setupOrReady_of_stopped stopped])
theorem State.fwActivate_of_stopped : s.fwActivate = s := if_pos (by simp [setupOrReady_of_stopped stopped])
theorem State.fwCommit_of_stopped : s.fwCommit = s := if_pos (by simp [setupOrReady_of_stopped stopped])
theorem State.fwCtrlWrite_of_stopped (v : Nat) : s.fwCtrlWrite v = s := if_pos (by simp [setupOrReady_of_stopped stopped])
theorem State.ctx0Create_of_stopped (readable : Bool) : s.ctx0Create readable = s := if_pos (by simp [ready_of_stopped stopped])

theorem State.statePoolWrite_of_stopped (v : Nat) : s.statePoolWrite v = s := by
  simp [State.statePoolWrite, setupOpen_of_stopped stopped, ready_of_stopped stopped]

/-! Start-up is over, and the hub's pair runs no longer. -/

theorem State.hubStop_of_stopped (mech : Nat) : s.hubStop mech = s := if_pos (by simp [hubRuns_of_stopped stopped])
theorem State.pairThird_of_stopped : s.pairThird = s := if_pos (by simp [hubRuns_of_stopped stopped])

theorem State.stageEnd_of_stopped (r : StageResult) : s.stageEnd r = s := by
  cases r <;> simp [State.stageEnd, State.stagePass, Serac.is, stopped]

theorem execTrialBootTimeout_of_stopped : execTrialBootTimeout s = .next s := by
  simp [execTrialBootTimeout, Serac.starting, Serac.is, stopped]

theorem execRefclkLockLoss_of_stopped (c : RefClk) : execRefclkLockLoss c s = .next s := by
  simp [execRefclkLockLoss, stopped]

/-! Nothing is admitted and no completion record is written (R372). -/

theorem State.complete1_of_stopped (d : DRef) (st : Status) (result tag : Nat) (ev : Events) : s.complete1 d st result tag ev = s := by
  unfold State.complete1
  split
  · rfl
  · exact if_pos stopped

theorem State.flushHeld_of_stopped (n cx : Nat) : State.flushHeld n cx s = s := by
  cases n with
  | zero => rfl
  | succ n =>
    unfold State.flushHeld
    split
    · rfl
    · split
      · rfl
      · exact if_pos (by simp [stopped])

theorem State.mayAdmit_of_stopped (cx : Fin 4096) (c : Ctx) (w : Waiting) : s.mayAdmit cx c w = false := by
  simp [State.mayAdmit, ready_of_stopped stopped]

theorem State.abort_of_stopped (d : DRef) : s.abort d = s := by
  unfold State.abort
  extract_lets seen
  have unseen : seen = s := by
    unfold seen
    split
    · split
      · exact if_neg (by simp [ready_of_stopped stopped])
      · rfl
    · rfl
  rw [unseen]
  split
  · rfl
  · exact if_pos stopped

theorem State.descriptorAdmit_of_stopped (cx : Fin 4096) (r : Fin 4) (looks : List (Fin 131072 × KrtLook)) : s.descriptorAdmit cx r looks = s := by
  unfold State.descriptorAdmit
  split
  · rfl
  · split
    · exact State.abort_of_stopped stopped _
    · split
      · rfl
      · exact if_pos (by simp [State.mayAdmit_of_stopped stopped])

/-- With a difference of the pair or without one. -/
theorem execDescriptorAdmit_of_stopped (cx : Fin 4096) (r : Fin 4) (looks : List (Fin 131072 × KrtLook)) (differ : Bool) :
    execDescriptorAdmit cx r looks differ s = .next s := by
  cases differ with
  | true => rw [execDescriptorAdmit, if_pos rfl, if_neg (by simp [State.ready_of_stopped stopped])]
  | false => simp [execDescriptorAdmit, State.work, State.descriptorAdmit_of_stopped stopped]

theorem execAbort_of_stopped (d : DRef) : execAbort d s = .next s := by
  simp [execAbort, State.work, State.abort_of_stopped stopped]

end
end Sys2Proof.Machine

/-! SUPPORT. SRC_STATE 9 is left by MOD_RST_N and by the loss of power alone (R405). -/

namespace Sys2Proof.Machine

/-- In a legal state start-up agrees with the pins and with the image set that it awaits. -/
theorem State.started_of_legal {s : State} (legal : s.Legal) : s.env.started = true := by
  simp only [State.Legal, Env.legal, Bool.and_assoc] at legal
  exact (Bool.and_eq_true_iff.1 legal).1

theorem State.ite_stopped {a b : State} {p : Prop} [Decidable p] (ha : a.env.serac.st = .stopped) (hb : b.env.serac.st = .stopped) :
    (if p then a else b).env.serac.st = .stopped := by
  split <;> assumption

section
variable {s : State} (stopped : s.env.serac.st = .stopped)
include stopped

theorem State.stopped_of_serac {t : State} (kept : t.env.serac = s.env.serac) : t.env.serac.st = .stopped := kept ▸ stopped
theorem State.stopped_of_env {t : State} (kept : t.env = s.env) : t.env.serac.st = .stopped := kept ▸ stopped

/-- Where the hub has stopped, MOD_RST_N is deasserted and no image set is awaited. -/
theorem State.running_of_stopped (legal : s.Legal) : s.env.board.running = true ∧ s.env.serac.awaiting = false := by
  simpa [Env.started, stopped] using State.started_of_legal legal

/-! ### Writes of the set-up window -/

theorem State.regWrite_stopped (r : Reg) (v : Nat) : (s.regWrite r v).env.serac.st = .stopped := by
  cases r
  case partCfg => rwa [State.regWrite, State.partCfgWrite_of_stopped stopped]
  case statePool => rwa [State.regWrite, State.statePoolWrite_of_stopped stopped]
  case keyPool => rwa [State.regWrite, State.keyPoolWrite_of_stopped stopped]
  case go => rwa [State.regWrite, State.goWrite_of_stopped stopped, ite_self]
  case fwCtrl => rwa [State.regWrite, State.fwCtrlWrite_of_stopped stopped]
  case powerCap => exact State.stopped_of_serac stopped (s.powerCapWrite_serac v)
  case classShare => exact State.stopped_of_serac stopped (s.shareWrite_serac v)
  case tgCtrl c => exact State.stopped_of_env stopped (s.tgCtrlWrite_env c v)
  case obsGlobal => exact State.stopped_of_env stopped (s.obsGlobalWrite_env v)
  case traceCtrl => exact State.stopped_of_env stopped (s.traceCtrlWrite_env v)
  case ctrSel n => exact State.stopped_of_env stopped (s.ctrSelWrite_env n v)
  case setupErr | ctx0Desc | ctx0Ctrl | fwAddr | fwStatus | tgSeed | tgRange | tgStatus | snapAddr | traceBase | traceCb =>
    exact State.ite_stopped stopped stopped
  all_goals exact stopped

theorem State.windowWrite_stopped (off : Nat) (wide : Bool) (v : Nat) (allow : Reg → Bool) :
    (s.windowWrite off wide v allow).env.serac.st = .stopped := by
  unfold State.windowWrite
  split
  · exact State.ite_stopped (State.regWrite_stopped stopped _ _) stopped
  · exact stopped

/-- A write of the host: the register, and where it creates context 0, that context. -/
theorem execRegisterWrite_stopped (off : BitVec 32) (wide : Bool) (v : BitVec 64) :
    ∃ t, execRegisterWrite off wide v s = .next t ∧ t.env.serac.st = .stopped := by
  refine ⟨_, rfl, ?_⟩
  have written := State.windowWrite_stopped stopped off.toNat wide v.toNat fun _ => true
  exact State.ite_stopped (State.ite_stopped (by rwa [State.ctx0Create_of_stopped written]) written) stopped

/-- A STAGE that was in progress ends in the stopped module. -/
theorem State.fwStageDone_stopped (result : Fin 6) (img : ImageInfo) : (s.fwStageDone result img).env.serac.st = .stopped := by
  unfold State.fwStageDone
  split
  · exact stopped
  · refine State.ite_stopped stopped ?_
    exact State.ite_stopped stopped (State.ite_stopped stopped stopped)

/-! ### Every command -/

/-- Work of engines, rings, keys and memory leaves a stopped module stopped. -/
theorem State.work_stopped (f : State → State) : (s.work f).env.serac.st = .stopped := State.stopped_of_env stopped (s.work_env f)

/-- A stopped module stays stopped through every command but the assertion of MOD_RST_N and the loss of power: start-up's commands, the end of a reset
and the hub's own detections find nothing to do, set-up and firmware take no write, and the others never move SRC_STATE. -/
theorem exec_stopped (legal : s.Legal) (c : Instr) (noReset : c ≠ .moduleReset) (noLoss : c ≠ .powerOff) :
    ∃ t, exec c s = .next t ∧ t.env.serac.st = .stopped := by
  obtain ⟨running, awaiting⟩ := State.running_of_stopped stopped legal
  have unmoved {t : State} (kept : t = s) : t.env.serac.st = .stopped := kept ▸ stopped
  cases c
  case moduleReset => exact absurd rfl noReset
  case powerOff => exact absurd rfl noLoss
  case resetDeassert j b m ok => exact ⟨_, rfl, unmoved (if_pos (by simp [running]))⟩
  case managementImageSet ok => exact ⟨_, rfl, unmoved (if_neg (by simp [awaiting]))⟩
  case startupStageEnd r => exact ⟨_, rfl, unmoved (State.stageEnd_of_stopped stopped r)⟩
  case trialBootTimeout => exact ⟨s, execTrialBootTimeout_of_stopped stopped, stopped⟩
  case refclkLockLoss k => exact ⟨s, execRefclkLockLoss_of_stopped stopped k, stopped⟩
  case descriptorAdmit cx ring looks differ => exact ⟨s, execDescriptorAdmit_of_stopped stopped cx ring looks differ, stopped⟩
  case engineCommandEnd cl q n fail differ =>
    exact ⟨_, rfl, State.ite_stopped (State.ite_stopped (unmoved (State.hubStop_of_stopped stopped _)) stopped) stopped⟩
  case latentTestEnd u r =>
    exact ⟨_, rfl, State.ite_stopped (State.ite_stopped (unmoved (State.hubStop_of_stopped stopped _)) stopped) stopped⟩
  case watchdogStall u =>
    have worked := State.work_stopped stopped fun s => s.watchdog u.toNat
    exact ⟨_, rfl, State.ite_stopped (by rwa [State.pairThird_of_stopped worked]) worked⟩
  case go => exact ⟨_, rfl, unmoved (State.goWrite_of_stopped stopped)⟩
  case hubStatePoolWrite v => exact ⟨_, rfl, unmoved (State.statePoolWrite_of_stopped stopped _)⟩
  case hubPartCfgWrite v => exact ⟨_, rfl, unmoved (State.partCfgWrite_of_stopped stopped _)⟩
  case ctx0Create readable => exact ⟨_, rfl, unmoved (State.ctx0Create_of_stopped stopped _)⟩
  case fwStage slot micro => exact ⟨_, rfl, unmoved (State.fwStage_of_stopped stopped _ _)⟩
  case fwActivate => exact ⟨_, rfl, unmoved (State.fwActivate_of_stopped stopped)⟩
  case fwCommit => exact ⟨_, rfl, unmoved (State.fwCommit_of_stopped stopped)⟩
  case fwStageDone result img => exact ⟨_, rfl, State.fwStageDone_stopped stopped _ _⟩
  case smbWindowWrite off wide v => exact ⟨_, rfl, State.ite_stopped (State.windowWrite_stopped stopped _ _ _ _) stopped⟩
  case registerWrite off wide v => exact execRegisterWrite_stopped stopped _ _ _
  case smbWindowRead off wide =>
    exact ⟨_, rfl, State.ite_stopped (State.stopped_of_serac stopped (s.windowRead_serac _ _)) (State.ite_stopped stopped stopped)⟩
  case rcFieldRead off wide => exact ⟨_, rfl, State.ite_stopped (State.stopped_of_serac stopped (s.windowRead_serac _ _)) stopped⟩
  case memClassShareWrite v => exact ⟨_, rfl, State.stopped_of_serac stopped (s.shareWrite_serac _)⟩
  case powerCapWrite v => exact ⟨_, rfl, State.stopped_of_serac stopped (s.powerCapWrite_serac _)⟩
  case stackTempSample stk v => exact ⟨_, rfl, State.stopped_of_serac stopped (s.sensorSample_serac _ _ _)⟩
  case sensorSample k n v => exact ⟨_, rfl, State.stopped_of_serac stopped (s.sensorSample_serac _ _ _)⟩
  case governorDecision rates => exact ⟨_, rfl, State.stopped_of_serac stopped (s.govern_serac _)⟩
  case voltageChangeDone die => exact ⟨_, rfl, State.stopped_of_serac stopped (s.voltageDone_serac _)⟩
  case overcurrentTrip => exact ⟨_, rfl, State.stopped_of_serac stopped s.overcurrent_serac⟩
  case shedRise lvl => exact ⟨_, rfl, State.stopped_of_serac stopped (s.shedRise_serac _)⟩
  case shedFall => exact ⟨_, rfl, State.stopped_of_serac stopped s.shedFall_serac⟩
  case memTgStart ch v => exact ⟨_, rfl, State.stopped_of_env stopped (s.tgCtrlWrite_env _ _)⟩
  case memTgRunEnd ch obs => exact ⟨_, rfl, State.stopped_of_env stopped (s.tgRunEnd_env _ _)⟩
  case ctrSelWrite n v => exact ⟨_, rfl, State.stopped_of_env stopped (s.ctrSelWrite_env _ _)⟩
  case traceCtrlWrite v => exact ⟨_, rfl, State.stopped_of_env stopped (s.traceCtrlWrite_env _)⟩
  case pg48vAssert => exact ⟨_, rfl, stopped⟩
  case pg48vDeassert | memTgStop | freezeSet | freezeClear | snap | moraineFlashWrite => exact ⟨_, rfl, State.ite_stopped stopped stopped⟩
  all_goals exact ⟨_, rfl, State.work_stopped stopped _⟩

end

/-- Settles O6: a difference stops the hub, a stopped module stays stopped through every other command, and it neither completes nor admits. -/
theorem hubStopHoldsUntilReset : Obligations.HubStopHoldsUntilReset := by
  unfold Obligations.HubStopHoldsUntilReset
  refine ⟨?stops, ?holds, ?quiet⟩
  case stops =>
    rintro s cx r looks c w ready found waits rfl
    obtain ⟨t, answer, stop⟩ := execDescriptorAdmit_differ_stops ready found waits looks
    exact ⟨t, answer, stop.st, stop.alert, stop.sent, stop.descs, stop.ctxs⟩
  case holds =>
    intro c s t legal stopped ran noReset noLoss
    obtain ⟨u, answer, stays⟩ := exec_stopped stopped legal c noReset noLoss
    rw [ran] at answer
    cases answer
    exact stays
  case quiet =>
    intro s stopped
    exact ⟨State.complete1_of_stopped stopped, State.flushHeld_of_stopped stopped, execDescriptorAdmit_of_stopped stopped,
      execAbort_of_stopped stopped⟩

end Sys2Proof.Machine
